-- ==== Sys2Proof/Word.lean ====
section
/-! DEFINITION. The word types of HUFCORE and nothing else: bytes, 32-bit words, bit strings (spec 00_scope R8, R11, R13). -/

namespace Sys2Proof

/-- A symbol or a buffer byte: 8 bits (R8). -/
abbrev Byte := BitVec 8

/-- A register, a table word or a command word: 32 bits (R8, R20, R100). -/
abbrev Word := BitVec 32

/-- A bit string, first bit first; `false` is the bit 0, `true` the bit 1 (R13). -/
abbrev BitString := List Bool

/-- An entry of the code table: `none` is `valid = 0`; `some bits` is `valid = 1` with `len = bits.length` (R42). -/
abbrev CodeEntry := Option BitString

end Sys2Proof
end

