-- ==== Sys2Proof/Config.lean ====
section
/-! DEFINITION. What an implementation of HUFCORE fixes (spec 00_scope R7) and the values the spec leaves open (spec 93 U1, U2). -/

namespace Sys2Proof

/-- The parameters of R7. They are constant while the machine runs; `State` holds the record, so a statement about every
state is a statement about every choice of parameters. The field defaults are the spec's own defaults. -/
structure Config where
  /-- `IBUF_CAP`, 1 .. 2^24. -/
  ibufCap : Nat := 65536
  /-- `OBUF_CAP`, 1 .. 2^25. -/
  obufCap : Nat := 131072
  /-- `EXT_CAP`, 0 .. 256. -/
  extCap  : Nat := 256
  /-- `NODE_CAP`, 511 .. 2048. -/
  nodeCap : Nat := 511
  /-- `BASE`, any multiple of 2^26; OPEN in the spec. DESIGN CHOICE (log 4): 0 in the machine after reset. -/
  base    : Nat := 0
  deriving DecidableEq, Repr

/-- `TPKT_CAP`, always `6 * NODE_CAP` (R7). -/
abbrev Config.tpktCap (c : Config) : Nat := 6 * c.nodeCap

/-- `MAXLEN`, the longest code the code table can hold (R7, R9). -/
abbrev maxLen : Nat := 255

/-- The byte an unwritten buffer position holds since the last reset or fault: any value (U1). Arguments: the epoch, the
number of the buffer, the offset. A free value (log 5): no body, so no proof can use what it is. -/
opaque Config.freeByte : Nat → Nat → Nat → Byte

/-- The 32-bit values left in registers and the frequency table by a fault: any value (U2). Arguments: the epoch, a slot
number. A free value (log 6). -/
opaque Config.freeWord : Nat → Nat → Word

/-- The code table entries left by a fault: any value (U2). Arguments: the epoch, the symbol. A free value (log 6). -/
opaque Config.freeCode : Nat → Nat → CodeEntry

end Sys2Proof
end

