-- ==== Sys2Proof/Machine/State.lean ====
section
/-! DEFINITION. The state of one HUFCORE instance as plain data (spec 10_state R20), the reasons a step can stop, and the
state after reset (R55). -/

namespace Sys2Proof.Machine

/-- The four byte buffers (R47). -/
inductive Space where
  | ibuf | obuf | tpkt | ext
  deriving DecidableEq, Repr

/-- A TreeNode with the subtrees it owns (R44). The four constructors are the four shapes of R111: no child, right only,
left only, both. `k` is the node's index in the arena (R45); `value` and `freq` are the node's value byte and frequency
pattern. Ownership is exclusive and there is no cycle, by construction (R44, log 7). -/
inductive Tree where
  | leaf (k : Nat) (value : Byte) (freq : Word)
  | rightOnly (k : Nat) (value : Byte) (freq : Word) (r : Tree)
  | leftOnly (k : Nat) (value : Byte) (freq : Word) (l : Tree)
  | both (k : Nat) (value : Byte) (freq : Word) (l r : Tree)
  deriving DecidableEq, Repr

/-- The fault causes of R301 (`None` is no cause). -/
inductive Cause where
  | negativeInteger | wrongSizeInteger | emptySymbolSet | emptyPacket | misalignedPacket | absentTree
  /-- Kept in the table for the correspondence with the source; never raised (R247). -/
  | badBitSymbol
  | illegalCommand | badFlag | packetUnderrun | packetTrailing | nodeCapacity | rootLeaf | codeTooLong | duplicateSymbol
  | tableMismatch | noCode | padMismatch | absentChild | truncatedStream | badPadding | badHeader | outputOverflow
  deriving DecidableEq, Repr

/-- The three block states, a function of STATUS (R25). -/
inductive BlockState where
  | idle | busy | faulted
  deriving DecidableEq, Repr

/-- What a bus transaction asks for at its offset (R64): `Read(off, size)` or `Write(off, size, data)`. -/
inductive Access where
  | read (size : Nat)
  | write (size : Nat) (data : Word)
  deriving DecidableEq, Repr

/-- The response to a bus transaction (R64). -/
inductive Response where
  | okayData (data : Word)
  | okay
  | error
  deriving DecidableEq, Repr

/-- One step of the total order of R80: a bus transaction of HOST (at a system address), a step of CORE (R81), or the hard
reset input (R350). -/
inductive Turn where
  | bus (addr : Nat) (a : Access)
  | core
  | hardReset
  deriving DecidableEq, Repr

/-- The bytes written to each buffer since the last reset or fault: (offset, byte) pairs, offsets strictly rising. -/
structure Memory where
  ibuf : List Host.Cell
  obuf : List Host.Cell
  tpkt : List Host.Cell
  ext  : List Host.Cell
  deriving DecidableEq, Repr

/-- The output stream as `emit` sees it (R72): the capacity of OBUF, OLEN and the bytes of OBUF. -/
structure OutPort where
  cap   : Nat
  len   : Word
  cells : List Host.Cell
  deriving DecidableEq, Repr

/-- The frequency table (R40). -/
abbrev FreqTable := Vector Word 256

/-- The code table (R42). -/
abbrev CodeTable := Vector CodeEntry 256

/-- The complete state (R20), the parameters (R7), and three fields of the model's own (`turns`, `resp`, `epoch`). -/
structure State where
  /-- The parameters; no step changes them. -/
  cfg     : Config
  /-- CTRL.IEN (R22). -/
  ien     : Bool
  /-- STATUS.BUSY (R24). -/
  busy    : Bool
  /-- STATUS.DONE (R24). -/
  done    : Bool
  /-- STATUS.FAULT (R24). -/
  fault   : Bool
  /-- CMD (R23). -/
  cmd     : Word
  /-- FCODE, bits 7:0 (R26). -/
  fcode   : Byte
  /-- FINFO (R27). -/
  finfo   : Word
  /-- ILEN (R28). -/
  ilen    : Word
  /-- ICUR (R29). -/
  icur    : Word
  /-- OLEN (R30). -/
  olen    : Word
  /-- PAD, bits 2:0 (R31). -/
  pad     : BitVec 3
  /-- TOTBITS (R33). -/
  totbits : BitVec 40
  /-- TPLEN (R32). -/
  tplen   : Word
  /-- EXTLEN (R34). -/
  extlen  : Word
  /-- SENT, bits 7:0 (R35). -/
  sent    : Byte
  /-- NCOUNT (R36). -/
  ncount  : Word
  /-- ROOT (R38), internal. -/
  root    : Nat
  /-- FREQ (R40). -/
  freq    : FreqTable
  /-- CODE (R42). -/
  code    : CodeTable
  /-- The tree; STATUS.TREE (R24) is whether it is present (log 7). -/
  tree    : Option Tree
  /-- IBUF, OBUF, TPKT, EXT (R47). -/
  mem     : Memory
  /-- The model's own: the steps still to come, first to come first (R80, log 1). -/
  turns   : List Turn
  /-- The model's own: the response to the latest bus transaction (R64, log 2). -/
  resp    : Option Response
  /-- The model's own: the counter the free values are drawn with (log 11). -/
  epoch   : Nat
  deriving DecidableEq, Repr

/-- The one way a step of the model stops. -/
inductive Fault where
  /-- Raised by `memRead` and `memWrite` for a byte beyond the capacity of a buffer: no such byte exists, and R70, R71 say
  that no command asks for one. Safe: only states that no run reaches come to it (log 10). -/
  | outsideBuffer (sp : Space)
  deriving DecidableEq, Repr

/-- The reasons to refuse an instruction. -/
inductive Refusal where
  /-- Raised by an arm of `exec` that has no meaning yet; every arm has one. Safe. -/
  | notModelled (mnemonic : String)
  deriving DecidableEq, Repr

/-- How a command's pseudocode ends before its last line: by `raise F(info)` (R17), which is a next state of the machine
(R332), or by the model's own stop. -/
inductive Stop where
  | raise (c : Cause) (info : Word)
  | outside (sp : Space)
  deriving DecidableEq, Repr

/-- The state right after reset (R55, R350): every register 0, both tables empty, no tree, Idle, interrupt masked; nothing
is known of any buffer byte (U1). -/
def State.reset : State where
  cfg     := {}
  ien     := false
  busy    := false
  done    := false
  fault   := false
  cmd     := 0#32
  fcode   := 0#8
  finfo   := 0#32
  ilen    := 0#32
  icur    := 0#32
  olen    := 0#32
  pad     := 0#3
  totbits := 0#40
  tplen   := 0#32
  extlen  := 0#32
  sent    := 0#8
  ncount  := 0#32
  root    := 0
  freq    := Vector.replicate 256 0#32
  code    := Vector.replicate 256 none
  tree    := none
  mem     := { ibuf := [], obuf := [], tpkt := [], ext := [] }
  turns   := []
  resp    := none
  epoch   := 0

end Sys2Proof.Machine
end

