-- ==== Sys2Proof/Machine/Flags.lean ====
section
/-! DEFINITION. STATUS and its views: the status word, the block state, the interrupt line, the fault codes
(spec 10_state R22 to R25, 60_exceptions R301, R335). -/

namespace Sys2Proof.Machine

/-- STATUS.TREE: a tree is present (R24, R44). -/
def State.treeFlag (s : State) : Bool := s.tree.isSome

/-- The STATUS word: BUSY, DONE, FAULT, TREE in bits 0 to 3, bits 31:4 read 0 (R24). -/
def State.statusWord (s : State) : Word :=
  BitVec.ofNat 32 (s.busy.toNat + 2 * s.done.toNat + 4 * s.fault.toNat + 8 * s.treeFlag.toNat)

/-- The CTRL word: IEN in bit 0; SRST and the reserved bits read 0 (R22). -/
def State.ctrlWord (s : State) : Word := BitVec.ofNat 32 s.ien.toNat

/-- The block state (R25). -/
def State.blockState (s : State) : BlockState :=
  if s.busy then .busy else if s.fault then .faulted else .idle

/-- The interrupt output: level-sensitive, a pure function of the state (R335). -/
def State.irq (s : State) : Bool := s.ien && (s.done || s.fault)

/-- The fault code table of R301. -/
def Cause.code : Cause → Byte
  | .negativeInteger  => 0x10#8
  | .wrongSizeInteger => 0x11#8
  | .emptySymbolSet   => 0x12#8
  | .emptyPacket      => 0x13#8
  | .misalignedPacket => 0x14#8
  | .absentTree       => 0x15#8
  | .badBitSymbol     => 0x16#8
  | .illegalCommand   => 0x20#8
  | .badFlag          => 0x21#8
  | .packetUnderrun   => 0x22#8
  | .packetTrailing   => 0x23#8
  | .nodeCapacity     => 0x24#8
  | .rootLeaf         => 0x25#8
  | .codeTooLong      => 0x26#8
  | .duplicateSymbol  => 0x27#8
  | .tableMismatch    => 0x28#8
  | .noCode           => 0x29#8
  | .padMismatch      => 0x2A#8
  | .absentChild      => 0x2B#8
  | .truncatedStream  => 0x2C#8
  | .badPadding       => 0x2D#8
  | .badHeader        => 0x2E#8
  | .outputOverflow   => 0x2F#8

/-- Whether the source document names the error (class `doc` of R301) or the spec adds it (class `own`); AbsentTree is
`doc` for SERIALIZE only. -/
def Cause.namedBySource : Cause → Bool
  | .negativeInteger | .wrongSizeInteger | .emptySymbolSet | .emptyPacket | .misalignedPacket | .absentTree
  | .badBitSymbol => true
  | .illegalCommand | .badFlag | .packetUnderrun | .packetTrailing | .nodeCapacity | .rootLeaf | .codeTooLong
  | .duplicateSymbol | .tableMismatch | .noCode | .padMismatch | .absentChild | .truncatedStream | .badPadding
  | .badHeader | .outputOverflow => false

end Sys2Proof.Machine
end

