-- ==== Sys2Proof/Machine/Operands.lean ====
section
/-! DEFINITION. The operand forms of HUFCORE: bytes and bit strings (spec 00_scope R14), the 4-byte integers of the data formats
(R15), TreePacket records (30_encoding R110 to R112), the tables' entries and the view of the tree as an arena
(10_state R40 to R46). -/

namespace Sys2Proof.Machine

/-- `bits8(v)`: the first bit of the string is bit 7 of the byte (R14). -/
def bits8 (v : Byte) : BitString :=
  [v.getLsbD 7, v.getLsbD 6, v.getLsbD 5, v.getLsbD 4, v.getLsbD 3, v.getLsbD 2, v.getLsbD 1, v.getLsbD 0]

/-- The number a bit string denotes, first bit most significant. -/
def bitsToNat (s : BitString) : Nat := s.foldl (fun acc b => 2 * acc + b.toNat) 0

/-- `byte(s)`, used on strings of length 8 only: `sum of s[i] * 2^(7-i)` (R14). -/
def byteOfBits (s : BitString) : Byte := BitVec.ofNat 8 (bitsToNat s)

/-- `i2b4(v)`: NegativeInteger on a negative int32, otherwise the 4 bytes, most significant first (R15, R73). -/
def i2b4 (v : Word) : Except Cause (List Byte) :=
  if v.toInt < 0 then .error .negativeInteger
  else .ok [v.extractLsb' 24 8, v.extractLsb' 16 8, v.extractLsb' 8 8, v.extractLsb' 0 8]

/-- `b2i(s)`: WrongSizeInteger unless there are exactly 4 bytes, otherwise the int32 with that pattern (R15); the value is
`(b2i s).toInt`. -/
def b2i : List Byte → Except Cause Word
  | [b0, b1, b2, b3] =>
    .ok (BitVec.ofNat 32 (b0.toNat * 2 ^ 24 + b1.toNat * 2 ^ 16 + b2.toNat * 2 ^ 8 + b3.toNat))
  | _ => .error .wrongSizeInteger

/-- One record of a TreePacket (R110), its flag as read. -/
structure TreeRecord where
  value : Byte
  freq  : Word
  flag  : Byte
  deriving DecidableEq, Repr

/-- The child flags: `A` none, `B` right-only, `C` left-only, `D` both (R111). -/
def flagA : Byte := 0x41#8
def flagB : Byte := 0x42#8
def flagC : Byte := 0x43#8
def flagD : Byte := 0x44#8

/-- A byte that is one of the four flags (R111). -/
def isFlag (b : Byte) : Bool := b == flagA || b == flagB || b == flagC || b == flagD

/-- The arena index of a tree's top node (R45). -/
def Tree.index : Tree → Nat
  | .leaf k _ _ | .rightOnly k _ _ _ | .leftOnly k _ _ _ | .both k _ _ _ _ => k

/-- The value byte of a tree's top node (R44). -/
def Tree.value : Tree → Byte
  | .leaf _ v _ | .rightOnly _ v _ _ | .leftOnly _ v _ _ | .both _ v _ _ _ => v

/-- The frequency pattern of a tree's top node (R44). -/
def Tree.freq : Tree → Word
  | .leaf _ _ f | .rightOnly _ _ f _ | .leftOnly _ _ f _ | .both _ _ f _ _ => f

/-- The child a node has on a side: `false` left, `true` right (R44). -/
def Tree.child : Tree → Bool → Option Tree
  | .leaf _ _ _, _ => none
  | .rightOnly _ _ _ r, c => if c then some r else none
  | .leftOnly _ _ _ l, c => if c then none else some l
  | .both _ _ _ l r, c => if c then some r else some l

/-- `leaf(k)`: the node has no child (R17). -/
def Tree.isLeaf : Tree → Bool
  | .leaf _ _ _ => true
  | .rightOnly _ _ _ _ | .leftOnly _ _ _ _ | .both _ _ _ _ _ => false

/-- The number of nodes (NCOUNT, R36). -/
def Tree.size : Tree → Nat
  | .leaf _ _ _ => 1
  | .rightOnly _ _ _ r => 1 + r.size
  | .leftOnly _ _ _ l => 1 + l.size
  | .both _ _ _ l r => 1 + l.size + r.size

/-- `flag(n)` (R111). -/
def Tree.flag : Tree → Byte
  | .leaf _ _ _ => flagA
  | .rightOnly _ _ _ _ => flagB
  | .leftOnly _ _ _ _ => flagC
  | .both _ _ _ _ _ => flagD

/-- The leaves' values in pre-order, which is left before right. -/
def Tree.leafValues : Tree → List Byte
  | .leaf _ v _ => [v]
  | .rightOnly _ _ _ r => r.leafValues
  | .leftOnly _ _ _ l => l.leafValues
  | .both _ _ _ l r => l.leafValues ++ r.leafValues

/-- The records of a tree in pre-order, absent subtrees skipped (R110, R112). -/
def Tree.records : Tree → List TreeRecord
  | .leaf _ v f => [⟨v, f, flagA⟩]
  | .rightOnly _ v f r => ⟨v, f, flagB⟩ :: r.records
  | .leftOnly _ v f l => ⟨v, f, flagC⟩ :: l.records
  | .both _ v f l r => ⟨v, f, flagD⟩ :: (l.records ++ r.records)

/-- An arena entry `NODE[k]` (R45). -/
structure ArenaNode where
  value : Byte
  freq  : Word
  l     : Option Nat
  r     : Option Nat
  deriving DecidableEq, Repr

/-- The arena entry of a tree's top node. -/
def Tree.top (t : Tree) : ArenaNode :=
  ⟨t.value, t.freq, (t.child false).map Tree.index, (t.child true).map Tree.index⟩

/-- The tree as an arena: each node's index and entry, in pre-order (R45). -/
def Tree.arena : Tree → List (Nat × ArenaNode)
  | .leaf k v f => [(k, (Tree.leaf k v f).top)]
  | .rightOnly k v f r => (k, (Tree.rightOnly k v f r).top) :: r.arena
  | .leftOnly k v f l => (k, (Tree.leftOnly k v f l).top) :: l.arena
  | .both k v f l r => (k, (Tree.both k v f l r).top) :: (l.arena ++ r.arena)

/-- `NODE[k]` of the present tree (R45). -/
def State.node (s : State) (k : Nat) : Option ArenaNode := s.tree.bind fun t => t.arena.lookup k

/-- The 256 symbols in ascending order: the one iteration order of both tables (R41). -/
def allSymbols : List Byte := (List.range 256).map (BitVec.ofNat 8)

/-- `FREQ[b]` (R40). -/
def FreqTable.at (t : FreqTable) (b : Byte) : Word := t[b.toNat]

/-- `FREQ[b] <- v`. -/
def FreqTable.put (t : FreqTable) (b : Byte) (v : Word) : FreqTable := t.set b.toNat v

/-- The empty frequency table (R40). -/
def FreqTable.empty : FreqTable := Vector.replicate 256 0#32

/-- `b` is a present symbol (R40). -/
def FreqTable.present (t : FreqTable) (b : Byte) : Bool := t.at b != 0#32

/-- The present symbols in ascending order (R40, R41). -/
def FreqTable.symbols (f : FreqTable) : List Byte := allSymbols.filter f.present

/-- `CODE[b]` (R42). -/
def CodeTable.at (t : CodeTable) (b : Byte) : CodeEntry := t[b.toNat]

/-- `CODE[b] <- (valid, len, bits)`. -/
def CodeTable.put (t : CodeTable) (b : Byte) (e : CodeEntry) : CodeTable := t.set b.toNat e

/-- The empty code table: all entries invalid (R42). -/
def CodeTable.empty : CodeTable := Vector.replicate 256 none

/-- `CODE[b].valid` (R42). -/
def CodeTable.valid (t : CodeTable) (b : Byte) : Bool := (t.at b).isSome

/-- `CODE[b].len`, 0 for an invalid entry (R42). -/
def CodeTable.len (t : CodeTable) (b : Byte) : Nat :=
  match t.at b with
  | some bits => bits.length
  | none => 0

/-- The sixteen words of a CODE window slot (R63): word 0 is `valid` in bit 31 and `len` in bits 7:0; words 1 to 8 hold the
code, code bit `i` in bit `31 - (i mod 32)` of word `1 + (i div 32)`, bits beyond `len` 0; words 9 to 15 are 0. An invalid
entry reads 0 throughout. -/
def codeWord (e : CodeEntry) (w : Nat) : Word :=
  match e with
  | none => 0#32
  | some bits =>
    if w = 0 then BitVec.ofNat 32 (2 ^ 31 + bits.length % 256)
    else if w ≤ 8 then
      BitVec.ofNat 32 (bitsToNat ((List.range 32).map fun i => bits.getD (32 * (w - 1) + i) false))
    else 0#32

end Sys2Proof.Machine
end

