-- ==== Sys2Proof/Machine/Ops.lean ====
section
/-! DEFINITION. The shared operations: the core's memory primitives (spec 20_memory R70 to R72), the ends of a command
(30_encoding R108), taking a fault (60_exceptions R332, R333) and leaving it by reset (R334, 70_reset R350, R352), latching a
command (10_state R23), and the writes of state that the commands share. -/

namespace Sys2Proof.Machine

/-! ### Memory -/

/-- The number of a buffer, to tell the free bytes of the four apart. -/
def Space.number : Space → Nat
  | .ibuf => 0
  | .obuf => 1
  | .tpkt => 2
  | .ext  => 3

/-- The capacity of a buffer (R47, R7). -/
def State.capacity (s : State) : Space → Nat
  | .ibuf => s.cfg.ibufCap
  | .obuf => s.cfg.obufCap
  | .tpkt => s.cfg.tpktCap
  | .ext  => s.cfg.extCap

/-- The written bytes of one buffer. -/
def Memory.cells (m : Memory) : Space → List Host.Cell
  | .ibuf => m.ibuf
  | .obuf => m.obuf
  | .tpkt => m.tpkt
  | .ext  => m.ext

/-- Replace the written bytes of one buffer. -/
def Memory.setCells (m : Memory) (sp : Space) (l : List Host.Cell) : Memory :=
  match sp with
  | .ibuf => { m with ibuf := l }
  | .obuf => { m with obuf := l }
  | .tpkt => { m with tpkt := l }
  | .ext  => { m with ext := l }

/-- The memory with nothing written (after reset, R47). -/
def Memory.blank : Memory := { ibuf := [], obuf := [], tpkt := [], ext := [] }

/-- The byte written at an offset, if any. -/
def lookupCell : List Host.Cell → Nat → Option Byte
  | [], _ => none
  | (a, v) :: rest, x => if a = x then some v else lookupCell rest x

/-- Write a byte, keeping the offsets strictly rising. -/
def storeCell : List Host.Cell → Nat → Byte → List Host.Cell
  | [], x, v => [(x, v)]
  | (a, w) :: rest, x, v =>
    if x < a then (x, v) :: (a, w) :: rest
    else if x = a then (a, v) :: rest
    else (a, w) :: storeCell rest x v

/-- Write bytes at an offset and on. -/
def storeCells : List Host.Cell → Nat → List Byte → List Host.Cell
  | l, _, [] => l
  | l, x, v :: vs => storeCells (storeCell l x v) (x + 1) vs

/-- Every offset of the list is above a bound and they rise strictly. -/
def risingFrom : Option Nat → List Host.Cell → Bool
  | _, [] => true
  | none, (a, _) :: rest => risingFrom (some a) rest
  | some b, (a, _) :: rest => decide (b < a) && risingFrom (some a) rest

/-- The canonical form of one buffer: offsets strictly rising. An unlisted offset has no known byte, so no entry can equal what
it reads as. -/
def cellsWf (l : List Host.Cell) : Bool := risingFrom none l

/-- The canonical form of memory. -/
def Memory.wf (m : Memory) : Bool := cellsWf m.ibuf && cellsWf m.obuf && cellsWf m.tpkt && cellsWf m.ext

/-- One byte of a buffer: the byte written since the last reset or fault, and otherwise a free value (R70, U1, log 5). -/
def State.readByte (s : State) (sp : Space) (off : Nat) : Byte :=
  (lookupCell (s.mem.cells sp) off).getD (Config.freeByte s.epoch sp.number off)

/-- Write one byte of a buffer. -/
def State.writeByte (s : State) (sp : Space) (off : Nat) (v : Byte) : State :=
  { s with mem := s.mem.setCells sp (storeCell (s.mem.cells sp) off v) }

/-- The bytes of a buffer from an offset, whether or not they are in range. -/
def State.bytesFrom (s : State) (sp : Space) (off n : Nat) : List Byte :=
  (List.range n).map fun i => s.readByte sp (off + i)

/-- `MemRead(S, off, n)` (R70). Bytes beyond the capacity do not exist: the model stops there (log 10). -/
def memRead (s : State) (sp : Space) (off n : Nat) : Except Stop (List Byte) :=
  if n = 0 ∨ off + n ≤ s.capacity sp then .ok (s.bytesFrom sp off n) else .error (.outside sp)

/-- `MemWrite(S, off, len(bs), bs)` (R71). -/
def memWrite (s : State) (sp : Space) (off : Nat) (bs : List Byte) : Except Stop State :=
  if bs = [] ∨ off + bs.length ≤ s.capacity sp then
    .ok { s with mem := s.mem.setCells sp (storeCells (s.mem.cells sp) off bs) }
  else .error (.outside sp)

/-- The output stream of a state. -/
def State.outPort (s : State) : OutPort := ⟨s.cfg.obufCap, s.olen, s.mem.obuf⟩

/-- Put the output stream back: OLEN and OBUF. -/
def State.setOutPort (s : State) (o : OutPort) : State :=
  { s with olen := o.len, mem := { s.mem with obuf := o.cells } }

/-- `emit(v)`: OutputOverflow(OLEN) when the buffer is full, otherwise `OBUF[OLEN] <- v; OLEN <- OLEN + 1` (R72). A length above
the capacity, which no run reaches, counts as full (log 9). -/
def emit (v : Byte) (o : OutPort) : Except Stop OutPort :=
  if o.cap ≤ o.len.toNat then .error (.raise .outputOverflow o.len)
  else .ok { o with len := o.len + 1#32, cells := storeCell o.cells o.len.toNat v }

/-- `emit_all(s)`: the bytes in order (R72). -/
def emitAll : List Byte → OutPort → Except Stop OutPort
  | [], o => .ok o
  | v :: vs, o => (emit v o).bind (emitAll vs)

/-! ### Conversions as commands use them -/

/-- `raise F(info)` (R17). -/
def raise {α : Type} (c : Cause) (info : Nat := 0) : Except Stop α := .error (.raise c (BitVec.ofNat 32 info))

/-- A conversion of R15 inside a command: its fault is raised with `info`. -/
def raising {α : Type} (info : Nat) : Except Cause α → Except Stop α
  | .ok a => .ok a
  | .error c => raise c info

/-! ### Writes of state -/

/-- `ICUR <- v`. -/
def State.setIcur (s : State) (v : Word) : State := { s with icur := v }

/-- `ICUR <- max(ICUR, ILEN)`: the input stream is consumed (R29). -/
def State.consumeInput (s : State) : State := s.setIcur (if s.icur.toNat ≤ s.ilen.toNat then s.ilen else s.icur)

/-- The number of input bytes left, `max(0, ILEN - ICUR)` (R29). -/
def State.inputLeft (s : State) : Nat := s.ilen.toNat - s.icur.toNat

/-- `OLEN <- v`. -/
def State.setOlen (s : State) (v : Word) : State := { s with olen := v }

/-- `FREQ <- t`, all 256 entries. -/
def State.setFreq (s : State) (t : FreqTable) : State := { s with freq := t }

/-- `CODE <- t`, all 256 entries. -/
def State.setCode (s : State) (t : CodeTable) : State := { s with code := t }

/-- `ROOT`, `NCOUNT`, `STATUS.TREE <- 1` and the nodes, as one: the tree is installed whole (R168, R208). -/
def State.installTree (s : State) (t : Tree) : State :=
  { s with tree := some t, root := t.index, ncount := BitVec.ofNat 32 t.size }

/-- `PAD <- v`. -/
def State.setPad (s : State) (v : BitVec 3) : State := { s with pad := v }

/-- `TOTBITS <- v`. -/
def State.setTotbits (s : State) (v : BitVec 40) : State := { s with totbits := v }

/-- `TPLEN <- v`. -/
def State.setTplen (s : State) (v : Word) : State := { s with tplen := v }

/-- `EXTLEN <- v`. -/
def State.setExtlen (s : State) (v : Word) : State := { s with extlen := v }

/-! ### The ends of a command -/

/-- Successful end: `STATUS.BUSY <- 0; STATUS.DONE <- 1` (R108). -/
def State.complete (s : State) : State := { s with busy := false, done := true }

/-- Taking a fault (R332): BUSY, DONE and TREE cleared, FAULT set, FCODE and FINFO written. CTRL and CMD keep their values; every
other piece of state is unspecified from here to the next reset (R333, U2): free values, and no buffer byte known (log 6). -/
def State.takeFault (s : State) (c : Cause) (info : Word) : State where
  cfg     := s.cfg
  ien     := s.ien
  busy    := false
  done    := false
  fault   := true
  cmd     := s.cmd
  fcode   := c.code
  finfo   := info
  ilen    := Config.freeWord s.epoch 0
  icur    := Config.freeWord s.epoch 1
  olen    := Config.freeWord s.epoch 2
  pad     := (Config.freeWord s.epoch 3).setWidth 3
  totbits := ((Config.freeWord s.epoch 4) ++ (Config.freeWord s.epoch 5)).setWidth 40
  tplen   := Config.freeWord s.epoch 6
  extlen  := Config.freeWord s.epoch 7
  sent    := (Config.freeWord s.epoch 8).setWidth 8
  ncount  := Config.freeWord s.epoch 9
  root    := (Config.freeWord s.epoch 10).toNat
  freq    := Vector.ofFn fun b => Config.freeWord s.epoch (16 + b.val)
  code    := Vector.ofFn fun b => Config.freeCode s.epoch b.val
  tree    := none
  mem     := Memory.blank
  turns   := s.turns
  resp    := s.resp
  epoch   := s.epoch + 1

/-- Leaving the fault state, and every other state, by reset: hard (R350, R351) and soft (R352) do the same. Parameters stay;
buffer bytes are unspecified again (U1), so a new epoch of free values begins. -/
def State.resetBlock (s : State) : State :=
  { State.reset with cfg := s.cfg, turns := s.turns, resp := s.resp, epoch := s.epoch + 1 }

/-- The outcome of a command from how its pseudocode ended (R108): success, the fault of the first `raise` reached, or the model's
own stop. -/
def finish (s : State) : Except Stop State → Host.Outcome State Fault Refusal
  | .ok t => .next t.complete
  | .error (.raise c info) => .next (s.takeFault c info)
  | .error (.outside sp) => .fault (.outsideBuffer sp)

/-- CORE's step on an illegal word: IllegalCommand with FINFO the word (R105). -/
def illegalCommand (s : State) : Host.Outcome State Fault Refusal :=
  .next (s.takeFault .illegalCommand s.cmd)

/-! ### Accepting a command -/

/-- An accepted CMD write: `CMD <- w; STATUS.BUSY <- 1; STATUS.DONE <- 0` (R23). -/
def State.latch (s : State) (w : Word) : State := { s with cmd := w, busy := true, done := false }

end Sys2Proof.Machine
end

