-- ==== Sys2Proof/Machine/Bus.lean ====
section
/-! DEFINITION. The host bus (spec 20_memory R60 to R69): the address map, the conditions of an ERROR response, and the effects of an
OKAY transaction. -/

namespace Sys2Proof.Machine

/-- The sixteen bus registers (10_state R20). -/
inductive Reg where
  | id | ctrl | status | cmd | fcode | finfo | ilen | icur | olen | pad | totbitsLo | totbitsHi | tplen | extlen | sent | ncount
  deriving DecidableEq, Repr

/-- What a bus offset names (R61). -/
inductive Location where
  | reg (r : Reg)
  | ext (i : Nat)
  | freq (b : Byte)
  | tpkt (i : Nat)
  | code (b : Byte) (w : Nat)
  | ibuf (i : Nat)
  | obuf (i : Nat)
  | reserved
  deriving DecidableEq, Repr

/-- The register at word index `k`, that is at offset `4 * k` (10_state R20). -/
def regAt : Nat → Reg
  | 0 => .id
  | 1 => .ctrl
  | 2 => .status
  | 3 => .cmd
  | 4 => .fcode
  | 5 => .finfo
  | 6 => .ilen
  | 7 => .icur
  | 8 => .olen
  | 9 => .pad
  | 10 => .totbitsLo
  | 11 => .totbitsHi
  | 12 => .tplen
  | 13 => .extlen
  | 14 => .sent
  | _ => .ncount

/-- The offset of a register (10_state R20). -/
def Reg.offset : Reg → Nat
  | .id => 0x00
  | .ctrl => 0x04
  | .status => 0x08
  | .cmd => 0x0C
  | .fcode => 0x10
  | .finfo => 0x14
  | .ilen => 0x18
  | .icur => 0x1C
  | .olen => 0x20
  | .pad => 0x24
  | .totbitsLo => 0x28
  | .totbitsHi => 0x2C
  | .tplen => 0x30
  | .extlen => 0x34
  | .sent => 0x38
  | .ncount => 0x3C

/-- The address map (R61 to R63): the location an offset falls in; in a word window, the word it falls in. -/
def locate (off : Nat) : Location :=
  if off < 0x40 then .reg (regAt (off / 4))
  else if off < 0x100 then .reserved
  else if off < 0x200 then .ext (off - 0x100)
  else if off < 0x400 then .reserved
  else if off < 0x800 then .freq (BitVec.ofNat 8 ((off - 0x400) / 4))
  else if off < 0x1000 then .reserved
  else if off < 0x4000 then .tpkt (off - 0x1000)
  else if off < 0x8000 then .code (BitVec.ofNat 8 ((off - 0x4000) / 64)) ((off - 0x4000) % 64 / 4)
  else if off < 0x1000000 then .reserved
  else if off < 0x2000000 then .ibuf (off - 0x1000000)
  else if off < 0x4000000 then .obuf (off - 0x2000000)
  else .reserved

/-- Width and alignment (R65): words take aligned 4-byte accesses, byte windows 1-byte accesses, a reserved range none. -/
def sizeAllowed (loc : Location) (off size : Nat) : Bool :=
  match loc with
  | .reg _ | .freq _ | .code _ _ => size == 4 && off % 4 == 0
  | .ext _ | .tpkt _ | .ibuf _ | .obuf _ => size == 1
  | .reserved => false

/-- Within the capacity of its window (R66 item 2); a reserved range is in no window. -/
def withinCapacity (c : Config) : Location → Bool
  | .reg _ | .freq _ | .code _ _ => true
  | .ext i => decide (i < c.extCap)
  | .tpkt i => decide (i < c.tpktCap)
  | .ibuf i => decide (i < c.ibufCap)
  | .obuf i => decide (i < c.obufCap)
  | .reserved => false

/-- Reads the block state may answer (R68). -/
def stateAllowsRead : BlockState → Location → Bool
  | .idle, _ => true
  | .busy, .reg .id | .busy, .reg .ctrl | .busy, .reg .status | .busy, .reg .cmd => true
  | .busy, _ => false
  | .faulted, .reg .id | .faulted, .reg .ctrl | .faulted, .reg .status | .faulted, .reg .cmd | .faulted, .reg .fcode
  | .faulted, .reg .finfo => true
  | .faulted, _ => false

/-- Writes the block state may answer (R68). -/
def stateAllowsWrite : BlockState → Location → Bool
  | .idle, _ => true
  | .busy, .reg .ctrl | .faulted, .reg .ctrl => true
  | .busy, _ | .faulted, _ => false

/-- ID, hard-wired (10_state R21). -/
def idWord : Word := 0x48554646#32

/-- The value a register reads (10_state R21 to R36); unassigned bits read 0 (U3). -/
def State.readReg (s : State) : Reg → Word
  | .id => idWord
  | .ctrl => s.ctrlWord
  | .status => s.statusWord
  | .cmd => s.cmd
  | .fcode => s.fcode.setWidth 32
  | .finfo => s.finfo
  | .ilen => s.ilen
  | .icur => s.icur
  | .olen => s.olen
  | .pad => s.pad.setWidth 32
  | .totbitsLo => s.totbits.extractLsb' 0 32
  | .totbitsHi => (s.totbits.extractLsb' 32 8).setWidth 32
  | .tplen => s.tplen
  | .extlen => s.extlen
  | .sent => s.sent.setWidth 32
  | .ncount => s.ncount

/-- The value a location reads, `none` where a read is refused: IBUF is write-only (R66 item 4), a buffer byte outside its valid
part is not readable (item 5). No read has a side effect (R67). -/
def State.readLocation (s : State) : Location → Option Word
  | .reg r => some (s.readReg r)
  | .freq b => some (s.freq.at b)
  | .code b w => some (codeWord (s.code.at b) w)
  | .ext i => if i < s.extlen.toNat then some ((s.readByte .ext i).setWidth 32) else none
  | .tpkt i => if i < s.tplen.toNat then some ((s.readByte .tpkt i).setWidth 32) else none
  | .obuf i => if i < s.olen.toNat then some ((s.readByte .obuf i).setWidth 32) else none
  | .ibuf _ => none
  | .reserved => none

/-- A write to a register (R67, 10_state R22 to R36), `none` where it is refused: read-only registers (R66 item 4), lengths above
the capacity (item 6). -/
def State.writeReg (s : State) (data : Word) : Reg → Option State
  | .ctrl => some (if data.getLsbD 31 then s.resetBlock else { s with ien := data.getLsbD 0 })
  | .status => some (if data.getLsbD 1 then { s with done := false } else s)
  | .cmd => some (s.latch data)
  | .ilen => if data.toNat ≤ s.cfg.ibufCap then some { s with ilen := data } else none
  | .tplen => if data.toNat ≤ s.cfg.tpktCap then some (s.setTplen data) else none
  | .extlen => if data.toNat ≤ s.cfg.extCap then some (s.setExtlen data) else none
  | .pad => some (s.setPad (data.setWidth 3))
  | .sent => some { s with sent := data.setWidth 8 }
  | .id | .fcode | .finfo | .icur | .olen | .totbitsLo | .totbitsHi | .ncount => none

/-- A write to a location (R67), `none` where it is refused. A byte window stores the low 8 bits of the data (log 15). -/
def State.writeLocation (s : State) (data : Word) : Location → Option State
  | .reg r => s.writeReg data r
  | .ext i => some (s.writeByte .ext i (data.setWidth 8))
  | .tpkt i => some (s.writeByte .tpkt i (data.setWidth 8))
  | .ibuf i => some (s.writeByte .ibuf i (data.setWidth 8))
  | .freq _ | .code _ _ | .obuf _ | .reserved => none

/-- A bus read at an offset: the value, `none` for an ERROR response (R66, R67). -/
def State.busRead (s : State) (off size : Nat) : Option Word :=
  let loc := locate off
  if sizeAllowed loc off size && withinCapacity s.cfg loc && stateAllowsRead s.blockState loc then s.readLocation loc
  else none

/-- A bus write at an offset: the state after it, `none` for an ERROR response (R66, R67). -/
def State.busWrite (s : State) (off size : Nat) (data : Word) : Option State :=
  let loc := locate off
  if sizeAllowed loc off size && withinCapacity s.cfg loc && stateAllowsWrite s.blockState loc then s.writeLocation data loc
  else none

/-- A bus transaction (R64): its response and the state after it. An ERROR response changes nothing (R66, R304). -/
def State.transact (s : State) (off : Nat) : Access → Response × State
  | .read size =>
    match s.busRead off size with
    | some v => (.okayData v, s)
    | none => (.error, s)
  | .write size data =>
    match s.busWrite off size data with
    | some t => (.okay, t)
    | none => (.error, s)

/-- The offset of a system address in the block's 64 MiB, if it falls there (R61, R7 `BASE`). -/
def offsetOf (c : Config) (addr : Nat) : Option Nat :=
  if c.base ≤ addr ∧ addr < c.base + 2 ^ 26 then some (addr - c.base) else none

/-- One bus turn: the transaction, its response kept; an address outside the block's range does not concern the block (log 4). -/
def State.busTurn (s : State) (addr : Nat) (a : Access) : State :=
  match offsetOf s.cfg addr with
  | none => s
  | some off =>
    let rt := s.transact off a
    { rt.2 with resp := some rt.1 }

end Sys2Proof.Machine
end

