-- ==== Sys2Proof/Syntax.lean ====
section
/-! DEFINITION. The command set (spec 30_encoding R104): one constructor per row of the opcode table. Commands carry no
operands (R102). -/

namespace Sys2Proof

/-- The fifteen commands of R104. -/
inductive Instr where
  | nop | rewind | clrout
  | count | build | gencodes | padcalc | serialize | deserialize | pack | unpack | frame | unframe
  | compress | decompress
  deriving DecidableEq, Repr

/-- All commands, in the table's order. -/
def Instr.all : List Instr :=
  [.nop, .rewind, .clrout, .count, .build, .gencodes, .padcalc, .serialize, .deserialize, .pack, .unpack, .frame, .unframe,
   .compress, .decompress]

end Sys2Proof
end

