-- ==== Sys2Proof/WellFormed.lean ====
section
/-! DEFINITION. Well-formedness: of commands (they have no operands, so there is nothing to violate), of command words
(spec 30_encoding R100, R104, written here apart from the decoder), and of the parameters (spec 00_scope R7). -/

namespace Sys2Proof

/-- A command has no operand that could be out of range (R102): every command is well-formed. -/
def Instr.wellFormed : Instr → Bool
  | .nop | .rewind | .clrout => true
  | .count | .build | .gencodes | .padcalc | .serialize | .deserialize | .pack | .unpack | .frame | .unframe => true
  | .compress | .decompress => true

/-- The field `zero`, bits 31:8, is 0 (R100). -/
def zeroFieldClear (w : Word) : Bool := w.toNat / 256 == 0

/-- The field `op`, bits 7:0, is one of the fifteen opcodes of R104: 0x00 to 0x02, 0x10 to 0x19, 0x20, 0x21. -/
def opcodeAssigned (w : Word) : Bool :=
  let op := w.toNat % 256
  op ≤ 0x02 || (0x10 ≤ op && op ≤ 0x19) || op == 0x20 || op == 0x21

/-- A word the block executes as a command; every other word is illegal (R101, R105). -/
def commandWordLegal (w : Word) : Bool := zeroFieldClear w && opcodeAssigned w

/-- The legal ranges of the parameters (R7). -/
def Config.wf (c : Config) : Bool :=
  decide (1 ≤ c.ibufCap) && decide (c.ibufCap ≤ 2 ^ 24) && decide (1 ≤ c.obufCap) && decide (c.obufCap ≤ 2 ^ 25)
    && decide (c.extCap ≤ 256) && decide (511 ≤ c.nodeCap) && decide (c.nodeCap ≤ 2048) && decide (c.base % 2 ^ 26 = 0)

end Sys2Proof
end

