-- ==== Sys2Proof/Decode.lean ====
section
/-! DEFINITION. The decoder of command words, total on any 32-bit word (spec 30_encoding R100, R101, R104, R105), and the encoder. -/

namespace Sys2Proof

/-- Why a word is no command (R105). -/
inductive DecodeError where
  /-- Bits 31:8 are not 0, whatever the opcode. -/
  | zeroFieldSet (w : Word)
  /-- Bits 31:8 are 0 and bits 7:0 are one of the 241 unused opcodes. -/
  | unusedOpcode (op : Byte)
  deriving DecidableEq, Repr

/-- The field `op`, bits 7:0 (R100). -/
def opField (w : Word) : Byte := w.setWidth 8

/-- The field `zero`, bits 31:8 (R100). -/
def zeroField (w : Word) : BitVec 24 := (w >>> 8).setWidth 24

/-- The opcode map, read from the opcode (R104). -/
def commandOfOpcode (op : Byte) : Option Instr :=
  match op.toNat with
  | 0x00 => some .nop
  | 0x01 => some .rewind
  | 0x02 => some .clrout
  | 0x10 => some .count
  | 0x11 => some .build
  | 0x12 => some .gencodes
  | 0x13 => some .padcalc
  | 0x14 => some .serialize
  | 0x15 => some .deserialize
  | 0x16 => some .pack
  | 0x17 => some .unpack
  | 0x18 => some .frame
  | 0x19 => some .unframe
  | 0x20 => some .compress
  | 0x21 => some .decompress
  | _ => none

/-- Decoding of R101: a word with a set bit in 31:8, or with an unused opcode, is no command. -/
def decode (w : Word) : Except DecodeError Instr :=
  if zeroField w ≠ 0 then .error (.zeroFieldSet w)
  else
    match commandOfOpcode (opField w) with
    | some i => .ok i
    | none => .error (.unusedOpcode (opField w))

/-- The command word written as a number of `nbits` bits, bits above them 0 (the form of the opcode table). -/
def wordOfBits (nbits w : Nat) : Word := BitVec.ofNat 32 (w % 2 ^ nbits)

/-- The instruction the decoder reads from a table word. -/
def decodeTableWord (nbits w : Nat) : Option Instr :=
  match decode (wordOfBits nbits w) with
  | .ok i => some i
  | .error _ => none

/-- The word of each command (R104, column `word`). -/
def encode : Instr → Word
  | .nop => 0x00000000#32
  | .rewind => 0x00000001#32
  | .clrout => 0x00000002#32
  | .count => 0x00000010#32
  | .build => 0x00000011#32
  | .gencodes => 0x00000012#32
  | .padcalc => 0x00000013#32
  | .serialize => 0x00000014#32
  | .deserialize => 0x00000015#32
  | .pack => 0x00000016#32
  | .unpack => 0x00000017#32
  | .frame => 0x00000018#32
  | .unframe => 0x00000019#32
  | .compress => 0x00000020#32
  | .decompress => 0x00000021#32

end Sys2Proof
end

