-- ==== Sys2Proof/Machine/Build.lean ====
section
/-! DEFINITION. BUILD, the Huffman tree builder (spec 42_build R160 to R173). -/

namespace Sys2Proof.Machine

/-- `leaves()`: one leaf per present symbol, in ascending byte value, with arena indices 0, 1, … (R162, R168). -/
def leaves (f : FreqTable) : List Tree := f.symbols.zipIdx.map fun p => .leaf p.2 p.1 (f.at p.1)

/-- The first node of least frequency of a working list `x :: xs`, and the list without it, the others in their order
(R165, R166: the least position whose frequency is no larger than any other's; equal frequencies do not displace). -/
def takeLeast : Tree → List Tree → Tree × List Tree
  | x, [] => (x, [])
  | x, y :: ys =>
    let m := takeLeast y ys
    if m.1.freq.toNat < x.freq.toNat then (m.1, x :: m.2) else (x, y :: ys)

/-- The internal node of a merge: value SENT, frequency the sum, the first-selected left (R166). -/
def mergeNode (sent : Byte) (k : Nat) (a b : Tree) : Tree := .both k sent (a.freq + b.freq) a b

/-- `merge_once(L)`: the two nodes `select2` gives are removed, the others keep their order, and the new node `k` is appended
at the end (R165, R166, R169). On two nodes it is `combine(L)`. A list of fewer than two nodes is left alone. -/
def mergeOnce (sent : Byte) (k : Nat) : List Tree → List Tree
  | x :: y :: rest =>
    match takeLeast x (y :: rest) with
    | (a, []) => [a]
    | (a, z :: zs) =>
      let m := takeLeast z zs
      m.2 ++ [mergeNode sent k a m.1]
  | l => l

/-- `n` merges, the new nodes numbered from `k` on in order of creation (R166, R168). -/
def mergeMany (sent : Byte) : Nat → Nat → List Tree → List Tree
  | 0, _, l => l
  | n + 1, k, l => mergeMany sent n (k + 1) (mergeOnce sent k l)

/-- `single(x)`: the synthetic root of a one-symbol input, frequency 0, left child only (R164, conflict C1). -/
def singleRoot (sent : Byte) (x : Tree) : Tree := .leftOnly 1 sent 0#32 x

/-- BUILD (R160): no leaf is EmptySymbolSet, one leaf gives the synthetic root, `k` leaves take `k - 1` merges. -/
def buildTree (f : FreqTable) (sent : Byte) : Except Stop Tree :=
  match leaves f with
  | [] => raise .emptySymbolSet
  | [x] => .ok (singleRoot sent x)
  | l@(_ :: _ :: _) =>
    match mergeMany sent (l.length - 1) l.length l with
    | [] => raise .emptySymbolSet
    | root :: _ => .ok root

/-- BUILD as a command: the tree is installed whole (R161, R168). -/
def runBuild (s : State) : Except Stop State := do
  let t ← buildTree s.freq s.sent
  .ok (s.installTree t)

/-- The meaning of BUILD. -/
def execBuild (s : State) : Host.Outcome State Fault Refusal := finish s (runBuild s)

end Sys2Proof.Machine
end

