-- ==== Sys2Proof/Machine/Container.lean ====
section
/-! DEFINITION. FRAME and UNFRAME, the Container header (spec 48_container R260 to R264, 30_encoding R115 to R117). -/

namespace Sys2Proof.Machine

/-! ### FRAME -/

/-- FRAME (R260): paddingBits, extensionLength, extensionBytes, treePacketLength, treePacketBytes, appended at OLEN. -/
def runFrame (s : State) : Except Stop State := do
  let padField ← raising 0 (i2b4 (s.pad.setWidth 32))
  let o1 ← emitAll padField s.outPort
  let extField ← raising 0 (i2b4 s.extlen)
  let o2 ← emitAll extField o1
  let ext ← memRead s .ext 0 s.extlen.toNat
  let o3 ← emitAll ext o2
  let tpField ← raising 0 (i2b4 s.tplen)
  let o4 ← emitAll tpField o3
  let packet ← memRead s .tpkt 0 s.tplen.toNat
  let o5 ← emitAll packet o4
  .ok (s.setOutPort o5)

/-- The meaning of FRAME. -/
def execFrame (s : State) : Host.Outcome State Fault Refusal := finish s (runFrame s)

/-! ### UNFRAME -/

/-- `take4(f)` at `pos`: WrongSizeInteger(f) when fewer than 4 bytes are left, otherwise the integer there (R262, R263). -/
def takeField (s : State) (pos f : Nat) : Except Stop Word := do
  let bytes ← memRead s .ibuf pos (min 4 (s.ilen.toNat - pos))
  raising f (b2i bytes)

/-- A header field as a length, when it is not negative (R117). -/
def lengthOf (w : Word) : Option Nat := if w.toInt < 0 then none else some w.toNat

/-- A valid Container header: the padding count, the extension, the tree packet, and where the payload begins. -/
structure Header where
  pad    : BitVec 3
  ext    : List Byte
  packet : List Byte
  pos    : Nat
  deriving DecidableEq, Repr

/-- The paddingBits field: BadPadding(pattern) outside 0 .. 7 (R262). -/
def takePadding (s : State) (pos : Nat) : Except Stop (BitVec 3) := do
  let p ← takeField s pos 0
  if p.toInt < 0 ∨ 7 < p.toInt then raise .badPadding p.toNat else .ok (p.setWidth 3)

/-- The extensionLength field: BadHeader(1) when negative, over EXT_CAP or past the end of the stream (R262). -/
def takeExtLength (s : State) (pos : Nat) : Except Stop Nat := do
  let e ← takeField s pos 1
  match lengthOf e with
  | none => raise .badHeader 1
  | some n =>
    if s.cfg.extCap < n then raise .badHeader 1
    else if s.ilen.toNat - (pos + 4) < n then raise .badHeader 1
    else .ok n

/-- The treePacketLength field: BadHeader(2) when negative, NodeCapacity(length) over TPKT_CAP, BadHeader(2) past the end of the
stream, in that order (R262). -/
def takePacketLength (s : State) (pos : Nat) : Except Stop Nat := do
  let e ← takeField s pos 2
  match lengthOf e with
  | none => raise .badHeader 2
  | some n =>
    if s.cfg.tpktCap < n then raise .nodeCapacity n
    else if s.ilen.toNat - (pos + 4) < n then raise .badHeader 2
    else .ok n

/-- The header at ICUR (R262), its checks in the order written. -/
def readHeader (s : State) : Except Stop Header := do
  let p0 := s.icur.toNat
  let pad ← takePadding s p0
  let el ← takeExtLength s (p0 + 4)
  let ext ← memRead s .ibuf (p0 + 8) el
  let tl ← takePacketLength s (p0 + 8 + el)
  let packet ← memRead s .ibuf (p0 + 12 + el) tl
  .ok ⟨pad, ext, packet, p0 + 12 + el + tl⟩

/-- UNFRAME (R262): PAD, EXT, EXTLEN, TPKT, TPLEN from the header, ICUR at the first payload byte. -/
def runUnframe (s : State) : Except Stop State := do
  let h ← readHeader s
  let s1 ← memWrite (s.setPad h.pad) .ext 0 h.ext
  let s2 ← memWrite (s1.setExtlen (BitVec.ofNat 32 h.ext.length)) .tpkt 0 h.packet
  .ok ((s2.setTplen (BitVec.ofNat 32 h.packet.length)).setIcur (BitVec.ofNat 32 h.pos))

/-- The meaning of UNFRAME. -/
def execUnframe (s : State) : Host.Outcome State Fault Refusal := finish s (runUnframe s)

end Sys2Proof.Machine
end

