-- ==== Sys2Proof/Machine/Control.lean ====
section
/-! DEFINITION. NOP, REWIND, CLROUT (spec 40_control R140 to R142). -/

namespace Sys2Proof.Machine

/-- NOP: nothing (R140). -/
def runNop (s : State) : Except Stop State := .ok s

/-- REWIND: `ICUR <- 0` (R141). -/
def runRewind (s : State) : Except Stop State := .ok (s.setIcur 0#32)

/-- CLROUT: `OLEN <- 0`; the bytes of OBUF are not erased (R142). -/
def runClrout (s : State) : Except Stop State := .ok (s.setOlen 0#32)

/-- The meaning of NOP. -/
def execNop (s : State) : Host.Outcome State Fault Refusal := finish s (runNop s)

/-- The meaning of REWIND. -/
def execRewind (s : State) : Host.Outcome State Fault Refusal := finish s (runRewind s)

/-- The meaning of CLROUT. -/
def execClrout (s : State) : Host.Outcome State Fault Refusal := finish s (runClrout s)

end Sys2Proof.Machine
end

