-- ==== Sys2Proof/Machine/Count.lean ====
section
/-! DEFINITION. COUNT, the byte counter (spec 41_count R150 to R156). -/

namespace Sys2Proof.Machine

/-- `FREQ[v] <- FREQ[v] + 1` (R150). -/
def FreqTable.bump (t : FreqTable) (v : Byte) : FreqTable := t.put v (t.at v + 1#32)

/-- The table of the bytes of a stream, from the empty table (R150, R152). -/
def countBytes (bytes : List Byte) : FreqTable := bytes.foldl FreqTable.bump FreqTable.empty

/-- COUNT (R150): the unread input is counted afresh and consumed. -/
def runCount (s : State) : Except Stop State := do
  let bytes ← memRead s .ibuf s.icur.toNat s.inputLeft
  .ok ((s.setFreq (countBytes bytes)).consumeInput)

/-- The meaning of COUNT. -/
def execCount (s : State) : Host.Outcome State Fault Refusal := finish s (runCount s)

end Sys2Proof.Machine
end

