-- ==== Sys2Proof/Machine/GenCodes.lean ====
section
/-! DEFINITION. GENCODES, the symbol-to-code table generator (spec 43_gencodes R180 to R187). -/

namespace Sys2Proof.Machine

/-- What reaching a leaf does (R181): RootLeaf on the empty path (R183), CodeTooLong beyond MAXLEN (R184), DuplicateSymbol on a
second leaf with the value (R185), otherwise the entry is recorded. -/
def recordLeaf (v : Byte) (path : BitString) (codes : CodeTable) : Except Stop CodeTable :=
  if path.length = 0 then raise .rootLeaf v.toNat
  else if maxLen < path.length then raise .codeTooLong v.toNat
  else if codes.valid v then raise .duplicateSymbol v.toNat
  else .ok (codes.put v (some path))

/-- `walk(k, path)`: depth first, left before right, `0` appended going left and `1` going right (R181). -/
def walk : Tree → BitString → CodeTable → Except Stop CodeTable
  | .leaf _ v _, path, codes => recordLeaf v path codes
  | .rightOnly _ _ _ r, path, codes => walk r (path ++ [true]) codes
  | .leftOnly _ _ _ l, path, codes => walk l (path ++ [false]) codes
  | .both _ _ _ l r, path, codes =>
    match walk l (path ++ [false]) codes with
    | .ok codes' => walk r (path ++ [true]) codes'
    | .error e => .error e

/-- GENCODES (R180): AbsentTree(2) without a tree (R182), otherwise the table is made afresh from the tree. -/
def runGencodes (s : State) : Except Stop State :=
  match s.tree with
  | none => raise .absentTree 2
  | some t => do
    let codes ← walk t [] CodeTable.empty
    .ok (s.setCode codes)

/-- The meaning of GENCODES. -/
def execGencodes (s : State) : Host.Outcome State Fault Refusal := finish s (runGencodes s)

end Sys2Proof.Machine
end

