-- ==== Sys2Proof/Machine/Pack.lean ====
section
/-! DEFINITION. PACK, the bit packer (spec 46_pack R230 to R238). -/

namespace Sys2Proof.Machine

/-- `while len(buf) >= 8`: the leading 8 bits are emitted as one byte (R231). -/
def drain : BitString → OutPort → Except Stop (BitString × OutPort)
  | b0 :: b1 :: b2 :: b3 :: b4 :: b5 :: b6 :: b7 :: rest, o =>
    match emit (byteOfBits [b0, b1, b2, b3, b4, b5, b6, b7]) o with
    | .error e => .error e
    | .ok o' => drain rest o'
  | buf, o => .ok (buf, o)

/-- The loop over the input bytes from offset `i` on: append the byte's code to the buffer, emit whole bytes; NoCode(i) for a
byte without a code (R230 to R232). -/
def packBytes (codes : CodeTable) : Nat → List Byte → BitString → OutPort → Except Stop (BitString × OutPort)
  | _, [], buf, o => .ok (buf, o)
  | i, v :: vs, buf, o =>
    match codes.at v with
    | none => raise .noCode i
    | some bits =>
      match drain (buf ++ bits) o with
      | .error e => .error e
      | .ok (buf', o') => packBytes codes (i + 1) vs buf' o'

/-- The end of packing with `buf` left over: PadMismatch unless PAD fits, then the final byte, right-padded with PAD zero bits,
when there are bits left (R233, R234). -/
def packFinal (pad : BitVec 3) (buf : BitString) (o : OutPort) : Except Stop OutPort :=
  if pad.toNat ≠ (8 - buf.length) % 8 then raise .padMismatch buf.length
  else if 0 < buf.length then emit (byteOfBits (buf ++ List.replicate pad.toNat false)) o
  else .ok o

/-- PACK on a stream of bytes. -/
def packStream (codes : CodeTable) (pad : BitVec 3) (i : Nat) (bytes : List Byte) (o : OutPort) : Except Stop OutPort :=
  match packBytes codes i bytes [] o with
  | .error e => .error e
  | .ok (buf, o') => packFinal pad buf o'

/-- PACK (R230): the payload of the unread input is appended at OLEN and the input consumed. -/
def runPack (s : State) : Except Stop State := do
  let bytes ← memRead s .ibuf s.icur.toNat s.inputLeft
  let o ← packStream s.code s.pad s.icur.toNat bytes s.outPort
  .ok ((s.setOutPort o).consumeInput)

/-- The meaning of PACK. -/
def execPack (s : State) : Host.Outcome State Fault Refusal := finish s (runPack s)

end Sys2Proof.Machine
end

