-- ==== Sys2Proof/Machine/PadCalc.lean ====
section
/-! DEFINITION. PADCALC, padding accounting (spec 45_padcalc R220 to R224). -/

namespace Sys2Proof.Machine

/-- The least symbol present in one table and not in the other (R222). -/
def tableMismatch (f : FreqTable) (c : CodeTable) : Option Byte :=
  allSymbols.find? fun b => f.present b != c.valid b

/-- `totalBits`: the sum over the present symbols of count times code length, exact (R221). -/
def totalBits (f : FreqTable) (c : CodeTable) : Nat :=
  (f.symbols.map fun b => (f.at b).toNat * c.len b).sum

/-- `paddingBits = (8 - t mod 8) mod 8` (R221). -/
def paddingOf (t : Nat) : Nat := (8 - t % 8) % 8

/-- PADCALC (R220): TableMismatch when the key sets differ, otherwise TOTBITS and PAD. -/
def runPadcalc (s : State) : Except Stop State :=
  match tableMismatch s.freq s.code with
  | some b => raise .tableMismatch b.toNat
  | none =>
    let t := totalBits s.freq s.code
    .ok ((s.setTotbits (BitVec.ofNat 40 t)).setPad (BitVec.ofNat 3 (paddingOf t)))

/-- The meaning of PADCALC. -/
def execPadcalc (s : State) : Host.Outcome State Fault Refusal := finish s (runPadcalc s)

end Sys2Proof.Machine
end

