-- ==== Sys2Proof/Machine/TreeCodec.lean ====
section
/-! DEFINITION. SERIALIZE and DESERIALIZE, the tree codec (spec 44_treecodec R190 to R212). -/

namespace Sys2Proof.Machine

/-! ### SERIALIZE -/

/-- One record as 6 bytes: value, frequency big-endian, flag (R110, R191). `pos` is the node's pre-order position, the FINFO of
NegativeInteger (R193). -/
def recordBytes (pos : Nat) (r : TreeRecord) : Except Stop (List Byte) :=
  match raising pos (i2b4 r.freq) with
  | .ok f => .ok (r.value :: (f ++ [r.flag]))
  | .error e => .error e

/-- The records one after the other, from a pre-order position on (R191). -/
def recordsBytes : Nat → List TreeRecord → Except Stop (List Byte)
  | _, [] => .ok []
  | pos, r :: rs =>
    match recordBytes pos r with
    | .error e => .error e
    | .ok b =>
      match recordsBytes (pos + 1) rs with
      | .error e => .error e
      | .ok bs => .ok (b ++ bs)

/-- The TreePacket of a tree: its records in pre-order (R190, R191). -/
def treePacket (t : Tree) : Except Stop (List Byte) := recordsBytes 0 t.records

/-- SERIALIZE (R190): AbsentTree(1) without a tree (R192), otherwise the packet is written from offset 0 and TPLEN set. -/
def runSerialize (s : State) : Except Stop State :=
  match s.tree with
  | none => raise .absentTree 1
  | some t => do
    let out ← treePacket t
    let s' ← memWrite s .tpkt 0 out
    .ok (s'.setTplen (BitVec.ofNat 32 out.length))

/-- The meaning of SERIALIZE. -/
def execSerialize (s : State) : Host.Outcome State Fault Refusal := finish s (runSerialize s)

/-! ### DESERIALIZE -/

/-- The parse phase from record `k` on: 6 bytes a record, BadFlag(k) on a byte that is no flag (R203). The frequency is the
32-bit pattern read, negative or not (conflict C7). -/
def parseRecords : Nat → List Byte → Except Stop (List TreeRecord)
  | k, v :: f3 :: f2 :: f1 :: f0 :: flag :: rest =>
    if isFlag flag then
      match raising 0 (b2i [f3, f2, f1, f0]) with
      | .error e => .error e
      | .ok f =>
        match parseRecords (k + 1) rest with
        | .error e => .error e
        | .ok rs => .ok (⟨v, f, flag⟩ :: rs)
    else raise .badFlag k
  | _, _ => .ok []

/-- What linking a node gives: its tree, the index of the next record, the records still unread. -/
abbrev Linked := Tree × Nat × List TreeRecord

/-- `next` and `link` of R204 for one child: the node at cursor `k`, whose parent record is `parent`; PacketUnderrun(parent) when
there is no record left (R206). Its flag says which children follow it, left before right. `fuel` bounds the depth: each level
has consumed a record, so as many levels as records suffice (log 14). -/
def linkNode : Nat → Nat → Nat → List TreeRecord → Except Stop Linked
  | _, parent, _, [] => raise .packetUnderrun parent
  | 0, parent, _, _ :: _ => raise .packetUnderrun parent
  | fuel + 1, _, k, r :: rest =>
    if r.flag = flagA then .ok (.leaf k r.value r.freq, k + 1, rest)
    else if r.flag = flagB then
      match linkNode fuel k (k + 1) rest with
      | .error e => .error e
      | .ok (t, c, rest') => .ok (.rightOnly k r.value r.freq t, c, rest')
    else if r.flag = flagC then
      match linkNode fuel k (k + 1) rest with
      | .error e => .error e
      | .ok (t, c, rest') => .ok (.leftOnly k r.value r.freq t, c, rest')
    else
      match linkNode fuel k (k + 1) rest with
      | .error e => .error e
      | .ok (l, c, rest') =>
        match linkNode fuel k c rest' with
        | .error e => .error e
        | .ok (t, c', rest'') => .ok (.both k r.value r.freq l t, c', rest'')

/-- The link phase: node 0 is the root; PacketTrailing(first unreached record) when records are left over (R204, R207). -/
def linkRecords (rs : List TreeRecord) : Except Stop Tree :=
  match linkNode rs.length 0 0 rs with
  | .error e => .error e
  | .ok (t, _, []) => .ok t
  | .ok (_, c, _ :: _) => raise .packetTrailing c

/-- DESERIALIZE on a packet (R200): the checks in the order written. -/
def treeOfPacket (packet : List Byte) : Except Stop Tree :=
  if packet.length = 0 then raise .emptyPacket
  else if packet.length % 6 ≠ 0 then raise .misalignedPacket packet.length
  else
    match parseRecords 0 packet with
    | .error e => .error e
    | .ok rs => linkRecords rs

/-- DESERIALIZE as a command: the tree is replaced whole (R200, R208). -/
def runDeserialize (s : State) : Except Stop State := do
  let packet ← memRead s .tpkt 0 s.tplen.toNat
  let t ← treeOfPacket packet
  .ok (s.installTree t)

/-- The meaning of DESERIALIZE. -/
def execDeserialize (s : State) : Host.Outcome State Fault Refusal := finish s (runDeserialize s)

end Sys2Proof.Machine
end

