-- ==== Sys2Proof/Machine/Unpack.lean ====
section
/-! DEFINITION. UNPACK, the bit unpacker (spec 47_unpack R240 to R250). -/

namespace Sys2Proof.Machine

/-- The tree cursor (10_state R51): `none` is the root, `some t` the node below it that the walk has come to. -/
abbrev Cursor := Option Tree

/-- The transition for the bits of one byte, at IBUF offset `off`: descend left on 0 and right on 1; AbsentChild(off) when there
is no such child; at a leaf emit its value and go back to the root (R242, R244). -/
def unpackBits (root : Tree) (off : Nat) : BitString → Cursor → OutPort → Except Stop (Cursor × OutPort)
  | [], cur, o => .ok (cur, o)
  | c :: cs, cur, o =>
    match (cur.getD root).child c with
    | none => raise .absentChild off
    | some t =>
      if t.isLeaf then
        match emit t.value o with
        | .error e => .error e
        | .ok o' => unpackBits root off cs none o'
      else unpackBits root off cs (some t) o

/-- The bits of a payload byte: all 8, or without the last `pad` of them for the final byte (R241). -/
def payloadBits (pad : Nat) (b : Byte) (final : Bool) : BitString :=
  if final then (bits8 b).take (8 - pad) else bits8 b

/-- The loop over the payload bytes from IBUF offset `off` on (R240, R241). -/
def unpackBytes (root : Tree) (pad : Nat) : Nat → List Byte → Cursor → OutPort → Except Stop (Cursor × OutPort)
  | _, [], cur, o => .ok (cur, o)
  | off, b :: bs, cur, o =>
    match unpackBits root off (payloadBits pad b bs.isEmpty) cur o with
    | .error e => .error e
    | .ok (cur', o') => unpackBytes root pad (off + 1) bs cur' o'

/-- UNPACK on a payload: BadPadding(PAD) on an empty payload with padding (R246), the walk from the root, and
TruncatedStream(OLEN) unless it ends at the root (R245). -/
def unpackStream (root : Tree) (pad : BitVec 3) (off : Nat) (bytes : List Byte) (o : OutPort) : Except Stop OutPort :=
  if bytes = [] ∧ pad ≠ 0#3 then raise .badPadding pad.toNat
  else
    match unpackBytes root pad.toNat off bytes none o with
    | .error e => .error e
    | .ok (none, o') => .ok o'
    | .ok (some _, o') => raise .truncatedStream o'.len.toNat

/-- UNPACK (R240): AbsentTree(3) without a tree (R243), otherwise the decoded bytes are appended at OLEN and the input
consumed. -/
def runUnpack (s : State) : Except Stop State :=
  match s.tree with
  | none => raise .absentTree 3
  | some root => do
    let bytes ← memRead s .ibuf s.icur.toNat s.inputLeft
    let o ← unpackStream root s.pad s.icur.toNat bytes s.outPort
    .ok ((s.setOutPort o).consumeInput)

/-- The meaning of UNPACK. -/
def execUnpack (s : State) : Host.Outcome State Fault Refusal := finish s (runUnpack s)

end Sys2Proof.Machine
end

