-- ==== Sys2Proof/Machine/Pipelines.lean ====
section
/-! DEFINITION. COMPRESS and DECOMPRESS, the two composite commands (spec 48_container R270 to R275). -/

namespace Sys2Proof.Machine

/-- The pseudocode of a list of commands, one after the other, as one step: the first `raise` ends it (R270, R272, R274). -/
def runAll : List (State → Except Stop State) → State → Except Stop State
  | [], s => .ok s
  | f :: fs, s =>
    match f s with
    | .error e => .error e
    | .ok s' => runAll fs s'

/-- COMPRESS (R270). -/
def runCompress (s : State) : Except Stop State :=
  runAll [runRewind, runCount, runRewind, runBuild, runGencodes, runPadcalc, runSerialize, runClrout, runFrame, runPack] s

/-- DECOMPRESS (R272). -/
def runDecompress (s : State) : Except Stop State :=
  runAll [runRewind, runUnframe, runDeserialize, runClrout, runUnpack] s

/-- The meaning of COMPRESS. -/
def execCompress (s : State) : Host.Outcome State Fault Refusal := finish s (runCompress s)

/-- The meaning of DECOMPRESS. -/
def execDecompress (s : State) : Host.Outcome State Fault Refusal := finish s (runDecompress s)

end Sys2Proof.Machine
end

