-- ==== Sys2Proof/Machine/Dispatch.lean ====
section
/-! DEFINITION. The dispatch of a command to its meaning: one arm per constructor of Instr. -/

namespace Sys2Proof.Machine

def exec (i : Instr) (s : State) : Host.Outcome State Fault Refusal :=
  match i with
  | .nop => Sys2Proof.Machine.execNop s
  | .rewind => Sys2Proof.Machine.execRewind s
  | .clrout => Sys2Proof.Machine.execClrout s
  | .count => Sys2Proof.Machine.execCount s
  | .build => Sys2Proof.Machine.execBuild s
  | .gencodes => Sys2Proof.Machine.execGencodes s
  | .padcalc => Sys2Proof.Machine.execPadcalc s
  | .serialize => Sys2Proof.Machine.execSerialize s
  | .deserialize => Sys2Proof.Machine.execDeserialize s
  | .pack => Sys2Proof.Machine.execPack s
  | .unpack => Sys2Proof.Machine.execUnpack s
  | .frame => Sys2Proof.Machine.execFrame s
  | .unframe => Sys2Proof.Machine.execUnframe s
  | .compress => Sys2Proof.Machine.execCompress s
  | .decompress => Sys2Proof.Machine.execDecompress s

end Sys2Proof.Machine
end

