-- ==== Sys2Proof/Machine/Step.lean ====
section
/-! DEFINITION. One step of the machine: the next of the atomic steps of HOST, CORE and the reset input (spec 20_memory R80, R81). -/

namespace Sys2Proof.Machine

/-- CORE's step on the latched command (30_encoding R108): the command `CMD` decodes to, or IllegalCommand. -/
def coreStep (s : State) : Host.Outcome State Fault Refusal :=
  match decode s.cmd with
  | .ok i => exec i s
  | .error _ => illegalCommand s

/-- A turn of CORE: its step when it is enabled, that is when BUSY = 1 (R81); otherwise nothing happens. -/
def coreTurn (s : State) : Host.Outcome State Fault Refusal :=
  if s.busy then coreStep s else .next s

/-- One step. The turns are taken in order (R80); with none left, CORE takes its turn (R370: a latched command eventually
runs), and an Idle or Faulted block stays as it is (60_exceptions R345). -/
def step (s : State) : Host.Outcome State Fault Refusal :=
  match s.turns with
  | [] => coreTurn s
  | .core :: rest => coreTurn { s with turns := rest }
  | .bus addr a :: rest => .next (State.busTurn { s with turns := rest } addr a)
  | .hardReset :: rest => .next (State.resetBlock { s with turns := rest })

/-- The state in which the very next step runs a table word: the word latched in CMD as an accepted CMD write does (10_state
R23), and CORE's turn next (log 12). -/
def State.withFetchWord (s : State) (nbits w : Nat) : State :=
  { s.latch (wordOfBits nbits w) with turns := .core :: s.turns }

end Sys2Proof.Machine
end

