-- ==== Sys2Proof/Machine/Script.lean ====
section
/-! DEFINITION. The host-script notation (spec 30_encoding R130, R131): each statement as the steps it stands for, in order. -/

namespace Sys2Proof.Machine

/-- The statements of R130. -/
inductive Stmt where
  /-- `WR <reg>, <value>`. -/
  | wr (r : Reg) (v : Word)
  /-- `RD <reg>`. -/
  | rd (r : Reg)
  /-- `WB <space>[<i>], <byte>`. -/
  | wb (sp : Space) (i : Nat) (v : Byte)
  /-- `RB <space>[<i>]`. -/
  | rb (sp : Space) (i : Nat)
  /-- `RW FREQ[<b>]`. -/
  | rwFreq (b : Byte)
  /-- `RW CODE[<b>].<w>`. -/
  | rwCode (b : Byte) (w : Nat)
  /-- `CMD <mnemonic>`. -/
  | cmd (i : Instr)
  deriving DecidableEq, Repr

/-- The offset of a buffer's window (20_memory R61). -/
def Space.window : Space → Nat
  | .ext  => 0x0000100
  | .tpkt => 0x0001000
  | .ibuf => 0x1000000
  | .obuf => 0x2000000

/-- The offset and access of a statement (R130). -/
def Stmt.transaction : Stmt → Nat × Access
  | .wr r v => (r.offset, .write 4 v)
  | .rd r => (r.offset, .read 4)
  | .wb sp i v => (sp.window + i, .write 1 (v.setWidth 32))
  | .rb sp i => (sp.window + i, .read 1)
  | .rwFreq b => (0x400 + 4 * b.toNat, .read 4)
  | .rwCode b w => (0x4000 + 64 * b.toNat + 4 * w, .read 4)
  | .cmd i => (0x0C, .write 4 (encode i))

/-- The turn of a statement, on the bus of a machine (20_memory R64, R61). -/
def Stmt.turn (c : Config) (st : Stmt) : Turn := .bus (c.base + st.transaction.1) st.transaction.2

/-- `WAIT` (R131): CORE's turn, then the read of STATUS that sees BUSY = 0 (log 13). -/
def waitTurns (c : Config) : List Turn := [.core, (Stmt.rd .status).turn c]

/-- `RUN <mnemonic>` (R131). -/
def runTurns (c : Config) (i : Instr) : List Turn := (Stmt.cmd i).turn c :: waitTurns c

/-- The byte writes of a `LOAD` (R131). -/
def loadBytes (c : Config) (sp : Space) (bs : List Byte) : List Turn :=
  bs.zipIdx.map fun p => (Stmt.wb sp p.2 p.1).turn c

/-- `LOAD IBUF`, `LOAD TPKT`, `LOAD EXT` (R131): the bytes, then their length register; no statement loads OBUF. -/
def loadTurns (c : Config) (sp : Space) (bs : List Byte) : List Turn :=
  let n := BitVec.ofNat 32 bs.length
  match sp with
  | .ibuf => loadBytes c .ibuf bs ++ [(Stmt.wr .ilen n).turn c]
  | .tpkt => loadBytes c .tpkt bs ++ [(Stmt.wr .tplen n).turn c]
  | .ext  => loadBytes c .ext bs ++ [(Stmt.wr .extlen n).turn c]
  | .obuf => []

/-- `READ OBUF` (R131) for a stream of `n` bytes: `RD OLEN`, then each byte. -/
def readOutTurns (c : Config) (n : Nat) : List Turn :=
  (Stmt.rd .olen).turn c :: (List.range n).map fun i => (Stmt.rb .obuf i).turn c

/-- `SRST` (R131). -/
def srstTurn (c : Config) : Turn := (Stmt.wr .ctrl 0x80000000#32).turn c

end Sys2Proof.Machine
end

