-- ==== Sys2Proof/Safety.lean ====
section
/-! DEFINITION. What counts as a legal state and a safe step, in the terms the statements use. -/

namespace Sys2Proof

open Machine

/-- The parameters are legal (R7) and memory is in canonical form. -/
def Machine.State.formLegal (s : State) : Prop := s.cfg.wf = true ∧ s.mem.wf = true

/-- BUSY and FAULT never together, DONE only in Idle (10_state R25), FCODE and FINFO 0 while FAULT = 0 (R26, R27). -/
def Machine.State.controlLegal (s : State) : Prop :=
  (s.busy = true → s.fault = false) ∧ (s.done = true → s.busy = false ∧ s.fault = false)
    ∧ (s.fault = false → s.fcode = 0#8 ∧ s.finfo = 0#32)

/-- The lengths and cursors hold legal values (10_state R28 to R30, R32, R34). -/
def Machine.State.operandsLegal (s : State) : Prop :=
  s.ilen.toNat ≤ s.cfg.ibufCap ∧ s.icur.toNat ≤ s.cfg.ibufCap ∧ s.olen.toNat ≤ s.cfg.obufCap
    ∧ s.tplen.toNat ≤ s.cfg.tpktCap ∧ s.extlen.toNat ≤ s.cfg.extCap

/-- NCOUNT and ROOT belong to the tree, and it fits the arena (10_state R36, R38, R45). -/
def Machine.State.treeLegal (s : State) : Prop :=
  match s.tree with
  | none => s.ncount = 0#32
  | some t => s.ncount.toNat = t.size ∧ t.size ≤ s.cfg.nodeCap ∧ s.root = t.index

/-- All counts together are no more than the input buffer can hold (00_scope R8). -/
def Machine.State.countsLegal (s : State) : Prop := (allSymbols.map fun b => (s.freq.at b).toNat).sum ≤ s.cfg.ibufCap

/-- Valid codes are 1 to 255 bits long (10_state R42) and no code is a prefix of another symbol's (R43). -/
def codesPrefixFree (c : CodeTable) : Prop :=
  (∀ b p, c.at b = some p → 1 ≤ p.length ∧ p.length ≤ maxLen)
    ∧ ∀ a b p q, c.at a = some p → c.at b = some q → a ≠ b → ¬ p <+: q

/-- The invariant of the machine: what the spec says of every state a run reaches. After a fault only the control registers are
specified (60_exceptions R333), so the rest is claimed while FAULT = 0. -/
def Machine.State.Legal (s : State) : Prop :=
  s.formLegal ∧ s.controlLegal
    ∧ (s.fault = false → s.operandsLegal ∧ s.treeLegal ∧ s.countsLegal ∧ codesPrefixFree s.code)

/-- The same tree with its nodes numbered in pre-order from `k` on, as DESERIALIZE numbers them (10_state R45). -/
def Machine.Tree.numbered : Tree → Nat → Tree
  | .leaf _ v f, k => .leaf k v f
  | .rightOnly _ v f r, k => .rightOnly k v f (r.numbered (k + 1))
  | .leftOnly _ v f l, k => .leftOnly k v f (l.numbered (k + 1))
  | .both _ v f l r, k => .both k v f (l.numbered (k + 1)) (r.numbered (k + 1 + l.size))

/-- The leaves of a tree with the paths that lead to them from `path` on: left before right, `0` left and `1` right
(43_gencodes R181). -/
def Machine.Tree.paths : Tree → BitString → List (Byte × BitString)
  | .leaf _ v _, path => [(v, path)]
  | .rightOnly _ _ _ r, path => r.paths (path ++ [true])
  | .leftOnly _ _ _ l, path => l.paths (path ++ [false])
  | .both _ _ _ l r, path => l.paths (path ++ [false]) ++ r.paths (path ++ [true])

/-- The leaves of a tree as (value, frequency), left before right. -/
def Machine.Tree.leafCounts : Tree → List (Byte × Word)
  | .leaf _ v f => [(v, f)]
  | .rightOnly _ _ _ r => r.leafCounts
  | .leftOnly _ _ _ l => l.leafCounts
  | .both _ _ _ l r => l.leafCounts ++ r.leafCounts

/-- Every internal node has two children, the value `sent` and the exact sum of its children's frequencies (42_build R166, R170). -/
def Machine.Tree.merged (sent : Byte) : Tree → Prop
  | .leaf _ _ _ => True
  | .rightOnly _ _ _ _ => False
  | .leftOnly _ _ _ _ => False
  | .both _ v f l r => v = sent ∧ f.toNat = l.freq.toNat + r.freq.toNat ∧ l.merged sent ∧ r.merged sent

/-- The six bytes of a TreePacket record: value, frequency most significant byte first, flag (30_encoding R110). -/
def packetRecord (r : TreeRecord) : List Byte :=
  [r.value, r.freq.extractLsb' 24 8, r.freq.extractLsb' 16 8, r.freq.extractLsb' 8 8, r.freq.extractLsb' 0 8, r.flag]

/-- The packet bytes of a tree: its records in pre-order (30_encoding R110, R112). -/
def packetOf (t : Tree) : List Byte := t.records.flatMap packetRecord

/-- No frequency is negative as an int32 (44_treecodec R193). -/
def noNegative (t : Tree) : Prop := ∀ r ∈ t.records, r.freq.toNat < 2 ^ 31

/-- The unread input, `IBUF[ICUR .. ILEN)` (10_state R29). -/
def Machine.State.input (s : State) : List Byte := s.bytesFrom .ibuf s.icur.toNat s.inputLeft

/-- The whole input stream, `IBUF[0 .. ILEN)` (10_state R28). -/
def Machine.State.stream (s : State) : List Byte := s.bytesFrom .ibuf 0 s.ilen.toNat

/-- The output stream, `OBUF[0 .. OLEN)` (10_state R30). -/
def Machine.State.output (s : State) : List Byte := s.bytesFrom .obuf 0 s.olen.toNat

/-- The current TreePacket, `TPKT[0 .. TPLEN)` (10_state R32). -/
def Machine.State.packet (s : State) : List Byte := s.bytesFrom .tpkt 0 s.tplen.toNat

/-- The extension bytes, `EXT[0 .. EXTLEN)` (10_state R34). -/
def Machine.State.extension (s : State) : List Byte := s.bytesFrom .ext 0 s.extlen.toNat

/-- The four bytes of a 32-bit number, most significant first (00_scope R15, R73). -/
def bigEndian (n : Nat) : List Byte :=
  [BitVec.ofNat 8 (n / 2 ^ 24), BitVec.ofNat 8 (n / 2 ^ 16), BitVec.ofNat 8 (n / 2 ^ 8), BitVec.ofNat 8 n]

/-- A Container header (30_encoding R115). -/
def containerHeader (pad : Nat) (ext packet : List Byte) : List Byte :=
  bigEndian pad ++ bigEndian ext.length ++ ext ++ bigEndian packet.length ++ packet

/-- The codes of a stream of bytes, one after the other (46_pack R231); a byte without a code contributes nothing. -/
def codeBits (c : CodeTable) (bytes : List Byte) : BitString := bytes.flatMap fun v => (c.at v).getD []

/-- The bits of a list of bytes, first byte first, each most significant bit first (00_scope R14, 20_memory R75). -/
def bitsOf (bs : List Byte) : BitString := bs.flatMap bits8

/-- The bits UNPACK feeds to the tree walk: all of the payload but the last `pad` (47_unpack R241). -/
def payload (pad : Nat) (bytes : List Byte) : BitString := (bitsOf bytes).take (8 * bytes.length - pad)

/-- The arena indices of a tree's nodes, in pre-order (10_state R45). -/
def Machine.Tree.indices (t : Tree) : List Nat := t.arena.map Prod.fst

/-- A step that goes on: neither a stop of the model nor a refusal. -/
def goesOn (o : Host.Outcome State Fault Refusal) : Prop := ∃ t, o = .next t

/-- A legal state outside the fault state, in which everything is specified: a command may run. -/
def Machine.State.ready (s : State) : Prop := s.Legal ∧ s.fault = false

/-- There is room in OBUF for `n` more bytes. -/
def Machine.State.room (s : State) (n : Nat) : Prop := s.olen.toNat + n ≤ s.cfg.obufCap

/-- `ICUR` when the input stream has been consumed: `max(ICUR, ILEN)` (10_state R29). -/
def Machine.State.consumedIcur (s : State) : Word := if s.icur.toNat ≤ s.ilen.toNat then s.ilen else s.icur

/-- The node that a path leads to (43_gencodes R181, 47_unpack R242). -/
def Machine.Tree.descend : Tree → BitString → Option Tree
  | t, [] => some t
  | t, c :: p => (t.child c).bind fun u => u.descend p

/-- Every byte of a list has a code. -/
def codedAll (c : CodeTable) (bytes : List Byte) : Prop := ∀ v ∈ bytes, c.valid v = true

/-- The parts of the state that commands write (30_encoding R102). -/
inductive Part where
  | icur | olen | freq | tree | code | totbits | pad | tplen | extlen
  | bytes (sp : Space)
  deriving DecidableEq, Repr

/-- The part is the same in two states; of the tree, ROOT, NCOUNT and the nodes; of a buffer, every byte as it reads. -/
def Part.same (s t : State) : Part → Prop
  | .icur => t.icur = s.icur
  | .olen => t.olen = s.olen
  | .freq => t.freq = s.freq
  | .tree => t.tree = s.tree ∧ t.root = s.root ∧ t.ncount = s.ncount
  | .code => t.code = s.code
  | .totbits => t.totbits = s.totbits
  | .pad => t.pad = s.pad
  | .tplen => t.tplen = s.tplen
  | .extlen => t.extlen = s.extlen
  | .bytes sp => ∀ a, t.readByte sp a = s.readByte sp a

/-- The column "writes" of 30_encoding R102; for the composites, what their sub-commands write (48_container R270, R272). -/
def writes : Instr → List Part
  | .nop => []
  | .rewind => [.icur]
  | .clrout => [.olen]
  | .count => [.freq, .icur]
  | .build => [.tree]
  | .gencodes => [.code]
  | .padcalc => [.totbits, .pad]
  | .serialize => [.bytes .tpkt, .tplen]
  | .deserialize => [.tree]
  | .pack => [.bytes .obuf, .olen, .icur]
  | .unpack => [.bytes .obuf, .olen, .icur]
  | .frame => [.bytes .obuf, .olen]
  | .unframe => [.pad, .bytes .ext, .extlen, .bytes .tpkt, .tplen, .icur]
  | .compress => [.icur, .freq, .tree, .code, .totbits, .pad, .bytes .tpkt, .tplen, .bytes .obuf, .olen]
  | .decompress => [.icur, .pad, .bytes .ext, .extlen, .bytes .tpkt, .tplen, .tree, .bytes .obuf, .olen]

/-- What no command writes: the parameters, CTRL, CMD, FCODE, FINFO, ILEN, SENT (30_encoding R102), and the model's own fields. -/
def sameControl (s t : State) : Prop :=
  t.cfg = s.cfg ∧ t.ien = s.ien ∧ t.cmd = s.cmd ∧ t.fcode = s.fcode ∧ t.finfo = s.finfo ∧ t.ilen = s.ilen ∧ t.sent = s.sent
    ∧ t.turns = s.turns ∧ t.resp = s.resp ∧ t.epoch = s.epoch

/-- The fault causes a command can end with (60_exceptions R301; for COMPRESS 48_container R271). -/
def faultsOf : Instr → List Cause
  | .nop | .rewind | .clrout | .count => []
  | .build => [.emptySymbolSet]
  | .gencodes => [.absentTree, .rootLeaf, .codeTooLong, .duplicateSymbol]
  | .padcalc => [.tableMismatch]
  | .serialize => [.absentTree, .negativeInteger]
  | .deserialize => [.emptyPacket, .misalignedPacket, .badFlag, .packetUnderrun, .packetTrailing]
  | .pack => [.noCode, .padMismatch, .outputOverflow]
  | .unpack => [.absentTree, .badPadding, .absentChild, .truncatedStream, .outputOverflow]
  | .frame => [.outputOverflow]
  | .unframe => [.wrongSizeInteger, .badPadding, .badHeader, .nodeCapacity]
  | .compress => [.emptySymbolSet, .outputOverflow]
  | .decompress => [.wrongSizeInteger, .badPadding, .badHeader, .nodeCapacity, .emptyPacket, .misalignedPacket, .badFlag,
      .packetUnderrun, .packetTrailing, .absentChild, .truncatedStream, .outputOverflow]

/-- The state after the end of a command by `raise c(info)`, as far as it is specified (60_exceptions R332, R333). -/
def faultedBy (s t : State) (c : Cause) (info : Word) : Prop :=
  t.busy = false ∧ t.done = false ∧ t.fault = true ∧ t.tree = none ∧ t.fcode = c.code ∧ t.finfo = info
    ∧ t.cfg = s.cfg ∧ t.ien = s.ien ∧ t.cmd = s.cmd ∧ t.turns = s.turns ∧ t.resp = s.resp

/-- The command ends with the fault. -/
def faults (i : Instr) (s : State) (c : Cause) (info : Nat) : Prop :=
  ∃ t, exec i s = .next t ∧ faultedBy s t c (BitVec.ofNat 32 info)

/-- No byte is listed beyond the capacity of its buffer. -/
def Machine.State.bounded (s : State) : Prop := ∀ sp, ∀ e ∈ s.mem.cells sp, e.1 < s.capacity sp

/-- Commands one after the other, ended by the first that faults or stops (48_container R274). -/
def execAll : List Instr → State → Host.Outcome State Fault Refusal
  | [], s => .next s
  | i :: is, s =>
    match exec i s with
    | .next t => if t.fault then .next t else execAll is t
    | .fault f => .fault f
    | .refused r => .refused r

/-- `a` is the node of a working list that comes first among those of least frequency, and `rest` the list without it, the
others in their order (42_build R165, R166). -/
def firstLeast (l : List Tree) (a : Tree) (rest : List Tree) : Prop :=
  ∃ before after, l = before ++ a :: after ∧ rest = before ++ after
    ∧ (∀ y ∈ before, a.freq.toNat < y.freq.toNat) ∧ ∀ y ∈ after, a.freq.toNat ≤ y.freq.toNat

/-- One merge (42_build R166, R169): the first least node becomes the left child, the first least of the rest the right one,
and the new node `k` stands at the end of the list. -/
def mergeStep (sent : Byte) (k : Nat) (l l' : List Tree) : Prop :=
  ∃ a b rest rest', firstLeast l a rest ∧ firstLeast rest b rest' ∧ l' = rest' ++ [.both k sent (a.freq + b.freq) a b]

/-- The offsets of a buffer that a successful run of a command, from `s` to `t`, stores to: `MemWrite` from offset 0 over the new
length (44_treecodec R190, 48_container R262), `emit` from OLEN on (20_memory R72), which the composites clear first. -/
def storesTo (i : Instr) (s t : State) (sp : Space) (a : Nat) : Prop :=
  match i, sp with
  | .serialize, .tpkt => a < t.tplen.toNat
  | .pack, .obuf | .unpack, .obuf | .frame, .obuf => s.olen.toNat ≤ a ∧ a < t.olen.toNat
  | .unframe, .ext => a < t.extlen.toNat
  | .unframe, .tpkt => a < t.tplen.toNat
  | .compress, .tpkt => a < t.tplen.toNat
  | .compress, .obuf => a < t.olen.toNat
  | .decompress, .ext => a < t.extlen.toNat
  | .decompress, .tpkt => a < t.tplen.toNat
  | .decompress, .obuf => a < t.olen.toNat
  | _, _ => False

/-- Two states in the fault state that agree on everything a fault leaves specified (60_exceptions R333). -/
def sameFaultView (s t : State) : Prop :=
  s.blockState = .faulted ∧ t.blockState = .faulted ∧ t.cfg = s.cfg ∧ t.ien = s.ien ∧ t.done = s.done ∧ t.cmd = s.cmd
    ∧ t.fcode = s.fcode ∧ t.finfo = s.finfo ∧ t.treeFlag = s.treeFlag ∧ t.turns = s.turns ∧ t.resp = s.resp ∧ t.epoch = s.epoch

end Sys2Proof
end

