-- ==== Sys2Proof/Certificates/Slice0/Obligations.lean ====
section
/-! DEFINITION. The statements for the provers, in the order of OBLIGATIONS.json. -/

open Sys2Proof Sys2Proof.Machine

/-! ### Command words -/

/-- The opcode map of 30_encoding R104, word by word. -/
def Obligations.DecodedWords : Prop :=
  decode 0x00000000#32 = .ok .nop ∧ decode 0x00000001#32 = .ok .rewind ∧ decode 0x00000002#32 = .ok .clrout
    ∧ decode 0x00000010#32 = .ok .count ∧ decode 0x00000011#32 = .ok .build ∧ decode 0x00000012#32 = .ok .gencodes
    ∧ decode 0x00000013#32 = .ok .padcalc ∧ decode 0x00000014#32 = .ok .serialize ∧ decode 0x00000015#32 = .ok .deserialize
    ∧ decode 0x00000016#32 = .ok .pack ∧ decode 0x00000017#32 = .ok .unpack ∧ decode 0x00000018#32 = .ok .frame
    ∧ decode 0x00000019#32 = .ok .unframe ∧ decode 0x00000020#32 = .ok .compress ∧ decode 0x00000021#32 = .ok .decompress

/-- Decoding and encoding are inverse: a word decodes to a command exactly when it is that command's word. -/
def Obligations.DecodeIffEncode : Prop := ∀ (w : Word) (i : Instr), decode w = .ok i ↔ w = encode i

/-- 30_encoding R101: a word with a set bit in 31:8, or whose bits 7:0 are no opcode, is no command; any other word is the command
of its bits 7:0. -/
def Obligations.WordsDecoded : Prop :=
  ∀ w : Word,
    (w.extractLsb' 8 24 ≠ 0#24 ∨ (∀ i, w.extractLsb' 0 8 ≠ (encode i).extractLsb' 0 8) → ∃ e, decode w = .error e)
      ∧ ∀ i, w.extractLsb' 8 24 = 0#24 → w.extractLsb' 0 8 = (encode i).extractLsb' 0 8 → decode w = .ok i

/-- 30_encoding R105: the CMD write of an illegal word is accepted by an Idle block, and CORE's step on it ends with
IllegalCommand and FINFO the word. -/
def Obligations.IllegalWordFaults : Prop :=
  ∀ (s : State) (w : Word), s.blockState = .idle → (∀ i, w ≠ encode i) →
    ∃ t u, s.busWrite 0x0C 4 w = some t ∧ t.blockState = .busy ∧ coreTurn t = .next u ∧ faultedBy t u .illegalCommand w

/-! ### Steps -/

/-- CORE's step runs the command that CMD decodes to, on CORE's turn and when no turn is left (the order of turns is the model's,
log 1 and 13); CORE's turn does nothing while BUSY = 0; and
`withFetchWord` puts the command where the very next step runs it (log 12). -/
def Obligations.StepRunsLatchedCommand : Prop :=
  ∀ (s : State) (i : Instr) (rest : List Turn),
    (s.busy = true → decode s.cmd = .ok i → s.turns = [] → step s = exec i s)
      ∧ (s.busy = true → decode s.cmd = .ok i → s.turns = .core :: rest → step s = exec i { s with turns := rest })
      ∧ (s.busy = false → s.turns = .core :: rest → step s = .next { s with turns := rest })
      ∧ (s.busy = false → s.turns = [] → step s = .next s)
      ∧ step (s.withFetchWord 32 (encode i).toNat) = exec i (s.latch (encode i))

/-- The steps of HOST and of the reset input are taken in the order in which the list of turns holds them (log 1). -/
def Obligations.StepTakesTurnsInOrder : Prop :=
  ∀ (s : State) (rest : List Turn),
    (∀ addr a, s.turns = .bus addr a :: rest → step s = .next (State.busTurn { s with turns := rest } addr a))
      ∧ (s.turns = .hardReset :: rest → step s = .next (State.resetBlock { s with turns := rest }))

/-- `RUN` of 30_encoding R131 from an Idle block: the CMD write, CORE's step, and the STATUS read that answers with the status the
command ended with, all its other results in place (log 13). -/
def Obligations.RunStatement : Prop :=
  ∀ (s : State) (i : Instr) (rest : List Turn), s.Legal → s.blockState = .idle → s.turns = runTurns s.cfg i ++ rest →
    ∃ t, exec i ({ s with turns := (Stmt.rd .status).turn s.cfg :: rest, resp := some .okay }.latch (encode i)) = .next t
      ∧ Host.Core.run Sys2Proof.core 3 s = .next { t with turns := rest, resp := some (.okayData t.statusWord) }

/-- How a command ends in a specified state (30_encoding R108, 60_exceptions R331, R332): DONE, in a specified state again, or one
fault, of a cause the command can raise and never BadBitSymbol. -/
def Obligations.CommandEnds : Prop :=
  ∀ (s : State) (i : Instr), s.ready →
    ∃ t, exec i s = .next t
      ∧ ((t.busy = false ∧ t.done = true ∧ t.ready ∧ sameControl s t)
        ∨ ∃ c info, c ∈ faultsOf i ∧ c ≠ .badBitSymbol ∧ faultedBy s t c info)

/-- The fault codes of 60_exceptions R301, all different and none of them 0. -/
def Obligations.FaultCodeTable : Prop :=
  (Cause.code .negativeInteger = 0x10#8 ∧ Cause.code .wrongSizeInteger = 0x11#8 ∧ Cause.code .emptySymbolSet = 0x12#8
    ∧ Cause.code .emptyPacket = 0x13#8 ∧ Cause.code .misalignedPacket = 0x14#8 ∧ Cause.code .absentTree = 0x15#8
    ∧ Cause.code .badBitSymbol = 0x16#8 ∧ Cause.code .illegalCommand = 0x20#8 ∧ Cause.code .badFlag = 0x21#8
    ∧ Cause.code .packetUnderrun = 0x22#8 ∧ Cause.code .packetTrailing = 0x23#8 ∧ Cause.code .nodeCapacity = 0x24#8
    ∧ Cause.code .rootLeaf = 0x25#8 ∧ Cause.code .codeTooLong = 0x26#8 ∧ Cause.code .duplicateSymbol = 0x27#8
    ∧ Cause.code .tableMismatch = 0x28#8 ∧ Cause.code .noCode = 0x29#8 ∧ Cause.code .padMismatch = 0x2A#8
    ∧ Cause.code .absentChild = 0x2B#8 ∧ Cause.code .truncatedStream = 0x2C#8 ∧ Cause.code .badPadding = 0x2D#8
    ∧ Cause.code .badHeader = 0x2E#8 ∧ Cause.code .outputOverflow = 0x2F#8)
    ∧ (∀ c d : Cause, c.code = d.code → c = d) ∧ ∀ c : Cause, c.code ≠ 0x00#8

/-- Fault entry, 60_exceptions R332, with the registers R333 keeps. -/
def Obligations.FaultEntry : Prop :=
  ∀ (s : State) (c : Cause) (info : Word), ∃ t, finish s (.error (.raise c info)) = .next t
    ∧ t.busy = false ∧ t.done = false ∧ t.fault = true ∧ t.treeFlag = false ∧ t.fcode = c.code ∧ t.finfo = info
    ∧ t.ien = s.ien ∧ t.cmd = s.cmd

/-- 60_exceptions R334: a step from the fault state that is a reset, hard or soft, leaves it for Idle and clears FCODE and FINFO; any
other step stays there with FAULT, FCODE, FINFO and CMD as they are; a CMD write is refused. -/
def Obligations.FaultLeftOnlyByReset : Prop :=
  ∀ s : State, s.blockState = .faulted →
    (∀ w, s.transact 0x0C (.write 4 w) = (.error, s))
      ∧ ∀ t, step s = .next t →
        ((∃ rest, s.turns = .hardReset :: rest
            ∨ ∃ addr data, s.turns = .bus addr (.write 4 data) :: rest ∧ offsetOf s.cfg addr = some 0x04 ∧ data.getLsbD 31 = true)
          → t.blockState = .idle ∧ t.fault = false ∧ t.fcode = 0#8 ∧ t.finfo = 0#32)
        ∧ (¬ (∃ rest, s.turns = .hardReset :: rest
            ∨ ∃ addr data, s.turns = .bus addr (.write 4 data) :: rest ∧ offsetOf s.cfg addr = some 0x04 ∧ data.getLsbD 31 = true)
          → t.blockState = .faulted ∧ t.fault = true ∧ t.fcode = s.fcode ∧ t.finfo = s.finfo ∧ t.cmd = s.cmd)

/-- 70_reset R350, R351: the reset input gives the reset state from any block state, a latched command is dropped, the
parameters stay; as one step it is the model's reading (log 16), and the last three fields are the model's own (log 1, 2, 11). -/
def Obligations.HardReset : Prop :=
  ∀ (s : State) (rest : List Turn), s.turns = .hardReset :: rest →
    step s = .next { State.reset with cfg := s.cfg, turns := rest, resp := s.resp, epoch := s.epoch + 1 }

/-- The reset state of 10_state R55. -/
def Obligations.ResetValues : Prop :=
  let r := State.reset
  r.readReg .id = 0x48554646#32 ∧ r.ctrlWord = 0#32 ∧ r.statusWord = 0#32 ∧ r.blockState = .idle ∧ r.irq = false ∧ r.cmd = 0#32
    ∧ r.fcode = 0#8 ∧ r.finfo = 0#32 ∧ r.ilen = 0#32 ∧ r.icur = 0#32 ∧ r.olen = 0#32 ∧ r.pad = 0#3 ∧ r.totbits = 0#40
    ∧ r.tplen = 0#32 ∧ r.extlen = 0#32 ∧ r.sent = 0#8 ∧ r.ncount = 0#32 ∧ r.root = 0 ∧ r.tree = none
    ∧ (∀ b, r.freq.at b = 0#32) ∧ (∀ b, r.code.at b = none) ∧ ∀ sp, r.mem.cells sp = []

/-- The reset state is legal and specified, whatever the parameters. -/
def Obligations.ResetLegal : Prop :=
  State.reset.ready ∧ ∀ c : Config, c.wf = true → { State.reset with cfg := c }.ready

/-- THE INVARIANT. Every step from a legal state goes on, to a legal state with the same parameters. -/
def Obligations.StepKeepsLegal : Prop := ∀ s : State, s.Legal → ∃ t, step s = .next t ∧ t.Legal ∧ t.cfg = s.cfg

/-- The block states as a function of STATUS, and the transitions between them (10_state R25; that BUSY and FAULT are never both 1
and DONE only in Idle is the spec's own derivation there). -/
def Obligations.BlockTransitions : Prop :=
  (∀ s : State, (s.blockState = .busy ↔ s.busy = true) ∧ (s.blockState = .faulted ↔ s.busy = false ∧ s.fault = true)
    ∧ (s.blockState = .idle ↔ s.busy = false ∧ s.fault = false)) ∧ State.reset.blockState = .idle
  ∧ ∀ s t : State, s.Legal → step s = .next t →
    ¬ (t.busy = true ∧ t.fault = true) ∧ (t.done = true → t.blockState = .idle)
      ∧ (s.blockState = .idle → t.blockState = .idle ∨ t.blockState = .busy
        ∧ ∃ addr data rest, s.turns = .bus addr (.write 4 data) :: rest ∧ offsetOf s.cfg addr = some 0x0C ∧ t.cmd = data)
      ∧ (s.blockState = .busy → t.blockState = .busy ∧ t.cmd = s.cmd
        ∨ (s.turns = [] ∨ ∃ rest, s.turns = .core :: rest) ∧ (t.blockState = .idle ∧ t.done = true ∨ t.blockState = .faulted)
        ∨ t = { State.reset with cfg := s.cfg, turns := t.turns, resp := t.resp, epoch := s.epoch + 1 })
      ∧ (s.blockState = .faulted → t.blockState = .faulted
        ∨ t = { State.reset with cfg := s.cfg, turns := t.turns, resp := t.resp, epoch := s.epoch + 1 })

/-- From a legal Busy state BUSY has fallen after at most as many steps as there are turns, and one more: CORE has run the command
(70_reset R370 as the model takes it, log 13), or a reset among the turns has dropped it unrun (R351). -/
def Obligations.LatchedCommandEnds : Prop :=
  ∀ s : State, s.Legal → s.busy = true →
    ∃ n t, n ≤ s.turns.length + 1 ∧ Host.Core.run Sys2Proof.core n s = .next t ∧ t.busy = false

/-- No step lists a byte beyond the capacity of its buffer (20_memory R70 to R72). -/
def Obligations.BuffersBounded : Prop :=
  State.reset.bounded ∧ ∀ s t : State, s.Legal → s.bounded → step s = .next t → t.bounded

/-- What the host can see and do in the fault state does not depend on what a fault leaves unspecified (60_exceptions R333): two
states that agree on the rest answer alike and stay alike, and reset makes them one. -/
def Obligations.FaultStateLeaksNothing : Prop :=
  ∀ s s' : State, sameFaultView s s' →
    ∃ t t', step s = .next t ∧ step s' = .next t' ∧ t.resp = t'.resp ∧ t.irq = t'.irq ∧ (sameFaultView t t' ∨ t = t')

/-! ### The bus -/

/-- 60_exceptions R304: a refused transaction changes nothing; no read changes anything. -/
def Obligations.RefusedAccessChangesNothing : Prop :=
  ∀ (s : State) (off : Nat) (a : Access),
    ((s.transact off a).1 = .error → (s.transact off a).2 = s) ∧ ∀ size, (s.transact off (.read size)).2 = s

/-- The reads that are answered, and the value (20_memory R61 to R68): the location, the width, the valid part, the block state. -/
def Obligations.ReadsAnswered : Prop :=
  ∀ (s : State) (off size : Nat) (v : Word), s.busRead off size = some v ↔
    ((s.busy = false ∧ s.fault = false) ∨ off < 0x10 ∨ (s.busy = false ∧ off < 0x18))
      ∧ ((size = 4 ∧ off % 4 = 0
          ∧ ((off < 0x40 ∧ v = s.readReg (regAt (off / 4)))
            ∨ (0x400 ≤ off ∧ off < 0x800 ∧ v = s.freq.at (BitVec.ofNat 8 ((off - 0x400) / 4)))
            ∨ (0x4000 ≤ off ∧ off < 0x8000
              ∧ v = codeWord (s.code.at (BitVec.ofNat 8 ((off - 0x4000) / 64))) ((off - 0x4000) % 64 / 4))))
        ∨ (size = 1
          ∧ ((0x100 ≤ off ∧ off < 0x200 ∧ off - 0x100 < s.cfg.extCap ∧ off - 0x100 < s.extlen.toNat
              ∧ v = (s.readByte .ext (off - 0x100)).setWidth 32)
            ∨ (0x1000 ≤ off ∧ off < 0x4000 ∧ off - 0x1000 < s.cfg.tpktCap ∧ off - 0x1000 < s.tplen.toNat
              ∧ v = (s.readByte .tpkt (off - 0x1000)).setWidth 32)
            ∨ (0x2000000 ≤ off ∧ off < 0x4000000 ∧ off - 0x2000000 < s.cfg.obufCap ∧ off - 0x2000000 < s.olen.toNat
              ∧ v = (s.readByte .obuf (off - 0x2000000)).setWidth 32))))

/-- The writes that are answered, and the whole state after each (20_memory R61, R65 to R68, 10_state R22 to R35). -/
def Obligations.WritesAnswered : Prop :=
  ∀ (s t : State) (off size : Nat) (data : Word), s.busWrite off size data = some t ↔
    ((s.busy = false ∧ s.fault = false) ∨ off = 0x04)
      ∧ ((size = 4
          ∧ ((off = 0x04 ∧ t = if data.getLsbD 31 then s.resetBlock else { s with ien := data.getLsbD 0 })
            ∨ (off = 0x08 ∧ t = { s with done := s.done && !data.getLsbD 1 })
            ∨ (off = 0x0C ∧ t = { s with cmd := data, busy := true, done := false })
            ∨ (off = 0x18 ∧ data.toNat ≤ s.cfg.ibufCap ∧ t = { s with ilen := data })
            ∨ (off = 0x24 ∧ t = { s with pad := data.setWidth 3 })
            ∨ (off = 0x30 ∧ data.toNat ≤ s.cfg.tpktCap ∧ t = { s with tplen := data })
            ∨ (off = 0x34 ∧ data.toNat ≤ s.cfg.extCap ∧ t = { s with extlen := data })
            ∨ (off = 0x38 ∧ t = { s with sent := data.setWidth 8 })))
        ∨ (size = 1
          ∧ ((0x100 ≤ off ∧ off < 0x200 ∧ off - 0x100 < s.cfg.extCap
              ∧ t = s.writeByte .ext (off - 0x100) (data.setWidth 8))
            ∨ (0x1000 ≤ off ∧ off < 0x4000 ∧ off - 0x1000 < s.cfg.tpktCap
              ∧ t = s.writeByte .tpkt (off - 0x1000) (data.setWidth 8))
            ∨ (0x1000000 ≤ off ∧ off < 0x2000000 ∧ off - 0x1000000 < s.cfg.ibufCap
              ∧ t = s.writeByte .ibuf (off - 0x1000000) (data.setWidth 8)))))

/-- The complete list of ERROR conditions, 20_memory R66, with R65 and R68 for its items 1 and 3, and what such a transaction does. -/
def Obligations.ErrorConditions : Prop :=
  ∀ (s : State) (off size : Nat) (data : Word),
    let word := off < 0x40 ∨ (0x400 ≤ off ∧ off < 0x800) ∨ (0x4000 ≤ off ∧ off < 0x8000)
    let ext := 0x100 ≤ off ∧ off < 0x200
    let tpkt := 0x1000 ≤ off ∧ off < 0x4000
    let ibuf := 0x1000000 ≤ off ∧ off < 0x2000000
    let obuf := 0x2000000 ≤ off ∧ off < 0x4000000
    let badWidth := ¬ (word ∧ size = 4 ∧ off % 4 = 0) ∧ ¬ ((ext ∨ tpkt ∨ ibuf ∨ obuf) ∧ size = 1)
    let outside := ¬ (word ∨ ext ∨ tpkt ∨ ibuf ∨ obuf) ∨ (ext ∧ s.cfg.extCap ≤ off - 0x100)
      ∨ (tpkt ∧ s.cfg.tpktCap ≤ off - 0x1000) ∨ (ibuf ∧ s.cfg.ibufCap ≤ off - 0x1000000)
      ∨ (obuf ∧ s.cfg.obufCap ≤ off - 0x2000000)
    (s.busRead off size = none ↔
      badWidth ∨ outside
        ∨ (s.blockState = .busy ∧ 0x10 ≤ off ∨ s.blockState = .faulted ∧ 0x18 ≤ off)
        ∨ ibuf
        ∨ ((ext ∧ s.extlen.toNat ≤ off - 0x100) ∨ (tpkt ∧ s.tplen.toNat ≤ off - 0x1000)
          ∨ (obuf ∧ s.olen.toNat ≤ off - 0x2000000)))
      ∧ (s.busWrite off size data = none ↔
        badWidth ∨ outside
          ∨ (s.blockState ≠ .idle ∧ off ≠ 0x04)
          ∨ (off ∈ [0x00, 0x10, 0x14, 0x1C, 0x20, 0x28, 0x2C, 0x3C] ∨ (0x400 ≤ off ∧ off < 0x800)
            ∨ (0x4000 ≤ off ∧ off < 0x8000) ∨ obuf)
          ∨ ((off = 0x18 ∧ s.cfg.ibufCap < data.toNat) ∨ (off = 0x30 ∧ s.cfg.tpktCap < data.toNat)
            ∨ (off = 0x34 ∧ s.cfg.extCap < data.toNat)))
      ∧ (s.busRead off size = none → s.transact off (.read size) = (.error, s))
      ∧ (s.busWrite off size data = none → s.transact off (.write size data) = (.error, s))

/-- The access table of 20_memory R68: Busy and Faulted in full, and in Idle the block state refuses nothing. -/
def Obligations.AccessByBlockState : Prop :=
  ∀ s : State,
    (s.blockState = .busy → (∀ off size, (∃ v, s.busRead off size = some v) ↔ size = 4 ∧ off ∈ [0x00, 0x04, 0x08, 0x0C])
      ∧ ∀ off size data, (∃ t, s.busWrite off size data = some t) ↔ size = 4 ∧ off = 0x04)
    ∧ (s.blockState = .faulted →
      (∀ off size, (∃ v, s.busRead off size = some v) ↔ size = 4 ∧ off ∈ [0x00, 0x04, 0x08, 0x0C, 0x10, 0x14])
      ∧ ∀ off size data, (∃ t, s.busWrite off size data = some t) ↔ size = 4 ∧ off = 0x04)
    ∧ (s.blockState = .idle →
      (∀ off size, sizeAllowed (locate off) off size = true → withinCapacity s.cfg (locate off) = true →
        s.busRead off size = s.readLocation (locate off))
      ∧ ∀ off size data, sizeAllowed (locate off) off size = true → withinCapacity s.cfg (locate off) = true →
        s.busWrite off size data = s.writeLocation data (locate off))

/-- The values the registers read in an Idle block (10_state R20 to R36), and the bits of STATUS (R24). -/
def Obligations.RegisterReads : Prop :=
  ∀ s : State, s.blockState = .idle →
    s.busRead 0x00 4 = some 0x48554646#32 ∧ s.busRead 0x04 4 = some s.ctrlWord ∧ s.busRead 0x08 4 = some s.statusWord
      ∧ s.busRead 0x0C 4 = some s.cmd ∧ s.busRead 0x10 4 = some (s.fcode.setWidth 32) ∧ s.busRead 0x14 4 = some s.finfo
      ∧ s.busRead 0x18 4 = some s.ilen ∧ s.busRead 0x1C 4 = some s.icur ∧ s.busRead 0x20 4 = some s.olen
      ∧ s.busRead 0x24 4 = some (s.pad.setWidth 32) ∧ s.busRead 0x28 4 = some (s.totbits.extractLsb' 0 32)
      ∧ s.busRead 0x2C 4 = some ((s.totbits.extractLsb' 32 8).setWidth 32) ∧ s.busRead 0x30 4 = some s.tplen
      ∧ s.busRead 0x34 4 = some s.extlen ∧ s.busRead 0x38 4 = some (s.sent.setWidth 32) ∧ s.busRead 0x3C 4 = some s.ncount
      ∧ (s.statusWord.getLsbD 0 = s.busy ∧ s.statusWord.getLsbD 1 = s.done ∧ s.statusWord.getLsbD 2 = s.fault
        ∧ s.statusWord.getLsbD 3 = s.tree.isSome ∧ ∀ k, 4 ≤ k → s.statusWord.getLsbD k = false)

/-- 20_memory R62. -/
def Obligations.FreqWindow : Prop :=
  ∀ (s : State) (b : Byte) (data : Word), s.blockState = .idle →
    s.busRead (0x400 + 4 * b.toNat) 4 = some (s.freq.at b) ∧ s.busWrite (0x400 + 4 * b.toNat) 4 data = none

/-- 20_memory R63, bit by bit. -/
def Obligations.CodeWindow : Prop :=
  ∀ (s : State) (b : Byte) (w : Nat) (data : Word), s.blockState = .idle → w < 16 →
    s.busWrite (0x4000 + 64 * b.toNat + 4 * w) 4 data = none
      ∧ ∃ v, s.busRead (0x4000 + 64 * b.toNat + 4 * w) 4 = some v
        ∧ (s.code.at b = none → v = 0#32)
        ∧ ∀ bits, s.code.at b = some bits → bits.length ≤ maxLen →
          (w = 0 → v.getLsbD 31 = true ∧ (v.extractLsb' 0 8).toNat = bits.length ∧ v.extractLsb' 8 23 = 0#23)
            ∧ (1 ≤ w → w ≤ 8 → ∀ i, i < 32 → v.getLsbD (31 - i) = bits.getD (32 * (w - 1) + i) false)
            ∧ (9 ≤ w → v = 0#32)

/-- 10_state R23. -/
def Obligations.CmdRegister : Prop :=
  State.reset.cmd = 0#32 ∧ ∀ (s : State) (w : Word), s.busRead 0x0C 4 = some s.cmd
    ∧ (s.blockState = .idle → s.busWrite 0x0C 4 w = some { s with cmd := w, busy := true, done := false })
    ∧ (s.blockState ≠ .idle → s.transact 0x0C (.write 4 w) = (.error, s))

/-- 10_state R22 and 70_reset R352: CTRL in every block state, and the soft reset, which does what the reset input does. -/
def Obligations.CtrlRegister : Prop :=
  ∀ (s : State) (w : Word),
    (∃ v, s.busRead 0x04 4 = some v ∧ v.getLsbD 0 = s.ien ∧ ∀ k, 1 ≤ k → v.getLsbD k = false)
      ∧ (w.getLsbD 31 = false → s.busWrite 0x04 4 w = some { s with ien := w.getLsbD 0 })
      ∧ (w.getLsbD 31 = true → s.busWrite 0x04 4 w
        = some { State.reset with cfg := s.cfg, turns := s.turns, resp := s.resp, epoch := s.epoch + 1 })

/-- A byte written through a window is the byte read there, and no other byte changes (20_memory R61, R67, R69); a byte write takes
the low 8 bits of the data (log 15). IBUF is not read back by the host. -/
def Obligations.ByteWindows : Prop :=
  ∀ (s : State) (sp : Space) (i : Nat) (data : Word), s.cfg.wf = true → s.blockState = .idle → sp ≠ .obuf → i < s.capacity sp →
    ∃ t, s.busWrite (sp.window + i) 1 data = some t ∧ t.readByte sp i = data.setWidth 8
      ∧ (∀ sp' a, (sp', a) ≠ (sp, i) → t.readByte sp' a = s.readByte sp' a) ∧ t = { s with mem := t.mem }
      ∧ (sp = .ext → i < s.extlen.toNat → t.busRead (sp.window + i) 1 = some ((data.setWidth 8).setWidth 32))
      ∧ (sp = .tpkt → i < s.tplen.toNat → t.busRead (sp.window + i) 1 = some ((data.setWidth 8).setWidth 32))
      ∧ (sp = .ibuf → t.busRead (sp.window + i) 1 = none)

/-- 60_exceptions R335, R336: the line is a function of the state; IEN masks it; a write of 1 to STATUS bit 1 and the next accepted
command clear its DONE part; enabling it while DONE or FAULT holds raises it at once. -/
def Obligations.InterruptLine : Prop :=
  ∀ s : State, (s.irq = true ↔ s.ien = true ∧ (s.done = true ∨ s.fault = true))
    ∧ (s.blockState = .idle → ∃ t, s.busWrite 0x08 4 0x2#32 = some t ∧ t.done = false ∧ t.irq = false)
    ∧ (s.blockState = .idle → ∀ w, ∃ t, s.busWrite 0x0C 4 w = some t ∧ t.irq = false)
    ∧ (s.done = true ∨ s.fault = true → ∃ t, s.busWrite 0x04 4 0x1#32 = some t ∧ t.irq = true)
    ∧ ∃ t, s.busWrite 0x04 4 0x0#32 = some t ∧ t.irq = false

/-! ### Control, COUNT, BUILD -/

/-- NOP, REWIND, CLROUT: 40_control R140 to R142, the whole state after each; after CLROUT no byte of OBUF is readable and the
next `emit` writes the first one. -/
def Obligations.ControlCommands : Prop :=
  ∀ s : State, exec .nop s = .next { s with busy := false, done := true }
    ∧ exec .rewind s = .next { s with icur := 0#32, busy := false, done := true }
    ∧ ∃ t, exec .clrout s = .next t ∧ t = { s with olen := 0#32, busy := false, done := true }
      ∧ (∀ a, t.readByte .obuf a = s.readByte .obuf a) ∧ (∀ i, i < 2 ^ 25 → t.busRead (0x2000000 + i) 1 = none)
      ∧ (0 < s.cfg.obufCap → ∀ v, ∃ o, emit v t.outPort = .ok o ∧ o.len = 1#32 ∧ lookupCell o.cells 0 = some v)

/-- COUNT always succeeds: the exact counts of the unread input, counted afresh, and the input consumed (41_count R150; the last two
clauses are what the spec derives in R151). -/
def Obligations.CountResult : Prop :=
  ∀ s : State, s.ready → ∃ t, exec .count s = .next t ∧ t.done = true ∧ t.fault = false ∧ t.icur = s.consumedIcur
    ∧ (∀ b, (t.freq.at b).toNat = s.input.count b)
    ∧ (allSymbols.map fun b => (t.freq.at b).toNat).sum = s.ilen.toNat - s.icur.toNat
    ∧ ∀ b, t.freq.at b ≠ 0#32 ↔ ∃ a, s.icur.toNat ≤ a ∧ a < s.ilen.toNat ∧ s.readByte .ibuf a = b

/-- 42_build R163: no present symbol. 42_build R164: the synthetic root of a one-symbol input, its flag and its sole code. -/
def Obligations.BuildEmptyOrSingle : Prop :=
  (∀ s : State, (∀ b, s.freq.at b = 0#32) → faults .build s .emptySymbolSet 0)
    ∧ ∀ (s : State) (b : Byte), s.freq.at b ≠ 0#32 → (∀ a, a ≠ b → s.freq.at a = 0#32) →
      ∃ t tr, exec .build s = .next t ∧ t.tree = some tr ∧ tr = .leftOnly 1 s.sent 0#32 (.leaf 0 b (s.freq.at b))
        ∧ t.ncount = 2#32 ∧ t.root = 1 ∧ t.done = true ∧ tr.flag = flagC ∧ tr.paths [] = [(b, [false])]

/-- The tree of two or more present symbols: full, every internal node the exact sum of its children and holding SENT, one leaf
per present symbol with its count, the indices of the arena used once each and the root the last (42_build R167, R168, R170). -/
def Obligations.BuildResult : Prop :=
  ∀ (s : State) (a b : Byte), s.ready → a ≠ b → s.freq.at a ≠ 0#32 → s.freq.at b ≠ 0#32 →
    ∃ t tr k, exec .build s = .next t ∧ t.tree = some tr ∧ t.done = true ∧ k = (allSymbols.filter fun c => s.freq.at c != 0#32).length
      ∧ tr.merged s.sent ∧ (∀ c f, (c, f) ∈ tr.leafCounts ↔ f = s.freq.at c ∧ f ≠ 0#32) ∧ tr.leafValues.Nodup
      ∧ tr.freq.toNat = (allSymbols.map fun c => (s.freq.at c).toNat).sum
      ∧ tr.indices.Perm (List.range (2 * k - 1)) ∧ t.root = 2 * k - 2 ∧ t.ncount.toNat = 2 * k - 1

/-- The tree BUILD gives for two or more present symbols is the one that repeated merging of the first two least nodes gives, from
one leaf per present symbol in ascending order (42_build R162, R165, R166, R168, R169). -/
def Obligations.BuildMergesLeast : Prop :=
  ∀ (s : State) (a b : Byte), s.ready → a ≠ b → s.freq.at a ≠ 0#32 → s.freq.at b ≠ 0#32 →
    ∃ (t : State) (tr : Tree) (symbols : List Byte) (work : Nat → List Tree), exec .build s = .next t ∧ t.tree = some tr
      ∧ symbols.Pairwise (fun c d => c.toNat < d.toNat) ∧ (∀ c, c ∈ symbols ↔ s.freq.at c ≠ 0#32)
      ∧ work 0 = symbols.zipIdx.map (fun p => .leaf p.2 p.1 (s.freq.at p.1))
      ∧ (∀ n, n + 1 < symbols.length → mergeStep s.sent (symbols.length + n) (work n) (work (n + 1)))
      ∧ work (symbols.length - 1) = [tr]

/-! ### GENCODES, PADCALC -/

/-- 43_gencodes R186: the table of a tree whose leaves are below the root, at most 255 deep and of different values, and nothing
but the table. -/
def Obligations.GencodesResult : Prop :=
  ∀ (s : State) (tr : Tree), s.tree = some tr → tr.isLeaf = false → tr.leafValues.Nodup →
    (∀ p u, tr.descend p = some u → u.isLeaf = true → p.length ≤ maxLen) →
    ∃ t, exec .gencodes s = .next t ∧ t.done = true ∧ t.tree = some tr
      ∧ (∀ b p, t.code.at b = some p ↔ ∃ u, tr.descend p = some u ∧ u.isLeaf = true ∧ u.value = b)
      ∧ (∀ b, t.code.valid b = true ↔ b ∈ tr.leafValues)
      ∧ codesPrefixFree t.code

/-- 43_gencodes R182 to R185: which fault, at the first leaf in left-before-right order that has one. -/
def Obligations.GencodesFaults : Prop :=
  ∀ s : State, (s.tree = none → faults .gencodes s .absentTree 2)
    ∧ (∀ k v f, s.tree = some (.leaf k v f) → faults .gencodes s .rootLeaf v.toNat)
    ∧ ∀ tr before v p after, s.tree = some tr → tr.isLeaf = false → tr.paths [] = before ++ (v, p) :: after →
      (∀ e ∈ before, e.2.length ≤ maxLen) → (before.map Prod.fst).Nodup →
      (maxLen < p.length → faults .gencodes s .codeTooLong v.toNat)
        ∧ (p.length ≤ maxLen → v ∈ before.map Prod.fst → faults .gencodes s .duplicateSymbol v.toNat)

/-- 45_padcalc R220, R221, and the properties of R223. -/
def Obligations.PadcalcResult : Prop :=
  ∀ s : State, s.ready → (∀ b, s.freq.at b ≠ 0#32 ↔ s.code.valid b = true) →
    ∃ t, exec .padcalc s = .next t ∧ t.done = true
      ∧ t.totbits.toNat = (allSymbols.map fun b => (s.freq.at b).toNat * s.code.len b).sum
      ∧ t.totbits.toNat < 2 ^ 32 ∧ t.pad.toNat = (8 - t.totbits.toNat % 8) % 8
      ∧ (t.totbits.toNat + t.pad.toNat) % 8 = 0 ∧ (t.pad = 0#3 ↔ t.totbits.toNat % 8 = 0)

/-- 45_padcalc R222. -/
def Obligations.PadcalcMismatch : Prop :=
  ∀ (s : State) (b : Byte), ¬ (s.freq.at b ≠ 0#32 ↔ s.code.valid b = true) →
    (∀ a : Byte, a.toNat < b.toNat → (s.freq.at a ≠ 0#32 ↔ s.code.valid a = true)) → faults .padcalc s .tableMismatch b.toNat

/-! ### SERIALIZE, DESERIALIZE -/

/-- 44_treecodec R190, R191, R194: the packet is the records of the tree in pre-order; the rest of TPKT keeps its content. -/
def Obligations.SerializeResult : Prop :=
  ∀ (s : State) (tr : Tree), s.ready → s.tree = some tr → noNegative tr →
    ∃ t, exec .serialize s = .next t ∧ t.done = true ∧ t.tree = some tr ∧ t.packet = packetOf tr
      ∧ t.tplen.toNat = 6 * s.ncount.toNat ∧ t.tplen.toNat ≤ s.cfg.tpktCap
      ∧ ∀ a, t.tplen.toNat ≤ a → t.readByte .tpkt a = s.readByte .tpkt a

/-- 44_treecodec R192, R193. -/
def Obligations.SerializeFaults : Prop :=
  ∀ s : State, (s.tree = none → faults .serialize s .absentTree 1)
    ∧ ∀ tr before r after, s.tree = some tr → tr.records = before ++ r :: after → 2 ^ 31 ≤ r.freq.toNat →
      (∀ q ∈ before, q.freq.toNat < 2 ^ 31) → faults .serialize s .negativeInteger before.length

/-- 44_treecodec R203, R204, R208: the packet of a tree gives that tree with its nodes numbered in pre-order, and DESERIALIZE succeeds
on nothing else. -/
def Obligations.DeserializeResult : Prop :=
  ∀ s : State, s.ready →
    (∀ tr, s.packet = packetOf tr → ∃ t, exec .deserialize s = .next t ∧ t.done = true ∧ t.tree = some (tr.numbered 0)
      ∧ t.root = 0 ∧ t.ncount.toNat = tr.size ∧ 6 * t.ncount.toNat = s.tplen.toNat)
      ∧ ∀ t, exec .deserialize s = .next t → t.fault = false →
        ∃ tr, t.tree = some tr ∧ s.packet = packetOf tr ∧ tr.numbered 0 = tr

/-- 44_treecodec R201, R202, R203, R206, R207: which fault, and its FINFO. A packet that ends too early is a proper beginning of
the records of some tree, and the fault names the parent of the first missing node. -/
def Obligations.DeserializeFaults : Prop :=
  ∀ s : State, s.ready →
    (s.tplen = 0#32 → faults .deserialize s .emptyPacket 0)
      ∧ (s.tplen.toNat % 6 ≠ 0 → faults .deserialize s .misalignedPacket s.tplen.toNat)
      ∧ (∀ before r after, s.packet = (before ++ r :: after).flatMap packetRecord → (∀ q ∈ before, isFlag q.flag = true) →
        isFlag r.flag = false → faults .deserialize s .badFlag before.length)
      ∧ (∀ (tr : Tree) (rs missing : List TreeRecord) (k : Nat) (n : ArenaNode), rs ≠ [] → missing ≠ [] → tr.records = rs ++ missing →
        s.packet = rs.flatMap packetRecord →
        (k, n) ∈ (tr.numbered 0).arena → n.l = some rs.length ∨ n.r = some rs.length → faults .deserialize s .packetUnderrun k)
      ∧ ∀ (tr : Tree) (extra : List TreeRecord), extra ≠ [] → (∀ q ∈ extra, isFlag q.flag = true) → s.packet = (tr.records ++ extra).flatMap packetRecord →
        faults .deserialize s .packetTrailing tr.size

/-- The inverse property (44_treecodec R209, its second half the spec's own derivation). -/
def Obligations.TreeCodecInverse : Prop :=
  ∀ s : State, s.ready →
    (∀ tr, s.tree = some tr → noNegative tr → ∃ t u tr', exec .serialize s = .next t ∧ exec .deserialize t = .next u
      ∧ u.fault = false ∧ u.tree = some tr' ∧ tr'.records = tr.records ∧ u.packet = packetOf tr)
      ∧ ∀ t tr, exec .deserialize s = .next t → t.fault = false → t.tree = some tr → noNegative tr →
        ∃ u, exec .serialize t = .next u ∧ u.fault = false ∧ u.tplen = s.tplen ∧ u.packet = s.packet

/-! ### PACK, UNPACK -/

/-- 46_pack R231, R233, R236: the codes of the unread input and PAD zero bits, eight to a byte, appended at OLEN. -/
def Obligations.PackResult : Prop :=
  ∀ s : State, s.ready → codedAll s.code s.input → s.pad.toNat = (8 - (codeBits s.code s.input).length % 8) % 8 →
    s.room (((codeBits s.code s.input).length + 7) / 8) →
    ∃ t bs, exec .pack s = .next t ∧ t.done = true ∧ t.icur = s.consumedIcur ∧ t.output = s.output ++ bs
      ∧ bitsOf bs = codeBits s.code s.input ++ List.replicate s.pad.toNat false
      ∧ bs.length = ((codeBits s.code s.input).length + 7) / 8 ∧ t.olen.toNat = s.olen.toNat + bs.length

/-- 46_pack R232, R234, R235, with room for the bytes that are due before the fault. -/
def Obligations.PackFaults : Prop :=
  ∀ s : State, s.ready →
    (∀ before v after, s.input = before ++ v :: after → codedAll s.code before → s.code.at v = none →
      s.room ((codeBits s.code before).length / 8) → faults .pack s .noCode (s.icur.toNat + before.length))
      ∧ (codedAll s.code s.input → s.pad.toNat ≠ (8 - (codeBits s.code s.input).length % 8) % 8 →
        s.room ((codeBits s.code s.input).length / 8) → faults .pack s .padMismatch ((codeBits s.code s.input).length % 8))
      ∧ (s.ilen.toNat ≤ s.icur.toNat → s.pad = 0#3 →
        ∃ t, exec .pack s = .next t ∧ t.done = true ∧ t.olen = s.olen ∧ t.icur = s.icur)
      ∧ (s.ilen.toNat ≤ s.icur.toNat → s.pad ≠ 0#3 → faults .pack s .padMismatch 0)

/-- 47_unpack R240 to R242: a payload that is the leaf paths of the tree one after the other gives the leaves' values in order,
appended at OLEN, and UNPACK succeeds on nothing else. -/
def Obligations.UnpackResult : Prop :=
  ∀ (s : State) (root : Tree), s.ready → s.tree = some root →
    (∀ es : List (Byte × BitString), (∀ e ∈ es, e ∈ root.paths []) → (root.isLeaf = true → es = []) →
      payload s.pad.toNat s.input = es.flatMap Prod.snd → (s.input = [] → s.pad = 0#3) → s.room es.length →
      ∃ t, exec .unpack s = .next t ∧ t.done = true ∧ t.tree = some root ∧ t.icur = s.consumedIcur
        ∧ t.output = s.output ++ es.map Prod.fst ∧ t.olen.toNat = s.olen.toNat + es.length)
      ∧ ∀ t, exec .unpack s = .next t → t.fault = false →
        ∃ es : List (Byte × BitString), (∀ e ∈ es, e ∈ root.paths []) ∧ payload s.pad.toNat s.input = es.flatMap Prod.snd
          ∧ t.output = s.output ++ es.map Prod.fst

/-- 47_unpack R243 to R246: after the symbols `es`, the walk comes along `p` to a node without the child the next bit asks for, or
the bits run out there; `b` counts the bits before. With room for the symbols before the fault. -/
def Obligations.UnpackFaults : Prop :=
  ∀ s : State, s.ready →
    (s.tree = none → faults .unpack s .absentTree 3)
      ∧ ∀ root, s.tree = some root →
        (s.input = [] → s.pad ≠ 0#3 → faults .unpack s .badPadding s.pad.toNat)
          ∧ ∀ (es : List (Byte × BitString)) (p : BitString) (w : Tree), (∀ e ∈ es, e ∈ root.paths []) →
            (root.isLeaf = true → es = []) → root.descend p = some w → s.room es.length →
            (∀ (c : Bool) (after : BitString) (b : Nat), w.child c = none → (w.isLeaf = true → p = []) →
              payload s.pad.toNat s.input = es.flatMap Prod.snd ++ p ++ c :: after →
              b = (es.flatMap Prod.snd ++ p).length → faults .unpack s .absentChild (s.icur.toNat + b / 8))
              ∧ (p ≠ [] → w.isLeaf = false → payload s.pad.toNat s.input = es.flatMap Prod.snd ++ p →
                faults .unpack s .truncatedStream (s.olen.toNat + es.length))

/-- 20_memory R72 and what follows for the commands that emit: OBUF full when one more byte is due is OutputOverflow(OBUF_CAP), and
it comes before any fault of a later input byte. -/
def Obligations.OutputOverflow : Prop :=
  (∀ (v : Byte) (o : OutPort), o.len.toNat ≤ o.cap → o.cap ≤ 2 ^ 25 →
    (o.len.toNat = o.cap → emit v o = .error (.raise .outputOverflow o.len))
      ∧ (o.len.toNat ≠ o.cap → ∃ o', emit v o = .ok o' ∧ o'.cap = o.cap ∧ o'.len.toNat = o.len.toNat + 1
        ∧ lookupCell o'.cells o.len.toNat = some v ∧ ∀ a, a ≠ o.len.toNat → lookupCell o'.cells a = lookupCell o.cells a))
    ∧ ∀ s : State, s.ready →
      (∀ before after, s.input = before ++ after → codedAll s.code before →
          ¬ s.room ((codeBits s.code before).length / 8) → faults .pack s .outputOverflow s.cfg.obufCap)
        ∧ (codedAll s.code s.input → s.pad.toNat = (8 - (codeBits s.code s.input).length % 8) % 8 →
          ¬ s.room (((codeBits s.code s.input).length + 7) / 8) → faults .pack s .outputOverflow s.cfg.obufCap)
        ∧ ∀ (root : Tree) (es : List (Byte × BitString)) (after : BitString), s.tree = some root → root.isLeaf = false →
          (∀ e ∈ es, e ∈ root.paths []) → payload s.pad.toNat s.input = es.flatMap Prod.snd ++ after →
          ¬ s.room es.length → faults .unpack s .outputOverflow s.cfg.obufCap

/-! ### FRAME, UNFRAME, the composites -/

/-- 48_container R260: the header is appended at OLEN, or OBUF is too small for it. -/
def Obligations.FrameResult : Prop :=
  ∀ s : State, s.ready → (¬ s.room (12 + s.extlen.toNat + s.tplen.toNat) → faults .frame s .outputOverflow s.cfg.obufCap)
    ∧ (s.room (12 + s.extlen.toNat + s.tplen.toNat) → ∃ t, exec .frame s = .next t ∧ t.done = true
      ∧ t.olen.toNat = s.olen.toNat + (12 + s.extlen.toNat + s.tplen.toNat) ∧ t.output = s.output ++ bigEndian s.pad.toNat ++ bigEndian s.extlen.toNat ++ s.extension
        ++ bigEndian s.tplen.toNat ++ s.packet)

/-- 48_container R262: a header within the limits is taken apart, and ICUR stands at the first payload byte. -/
def Obligations.UnframeResult : Prop :=
  ∀ (s : State) (p : Nat) (ext packet rest : List Byte), s.ready → p ≤ 7 → ext.length ≤ s.cfg.extCap →
    packet.length ≤ s.cfg.tpktCap →
    s.input = bigEndian p ++ bigEndian ext.length ++ ext ++ bigEndian packet.length ++ packet ++ rest →
    ∃ t, exec .unframe s = .next t ∧ t.done = true ∧ t.tree = s.tree ∧ t.pad.toNat = p ∧ t.extension = ext
      ∧ t.extlen.toNat = ext.length ∧ t.packet = packet ∧ t.tplen.toNat = packet.length
      ∧ t.icur.toNat = s.icur.toNat + (12 + ext.length + packet.length) ∧ t.input = rest

/-- 48_container R262, R263: the checks in their order. -/
def Obligations.UnframeFaults : Prop :=
  ∀ s : State, s.ready →
    (s.input.length < 4 → faults .unframe s .wrongSizeInteger 0)
      ∧ ∀ p rest, p < 2 ^ 32 → s.input = bigEndian p ++ rest →
        (8 ≤ p → faults .unframe s .badPadding p)
          ∧ (p ≤ 7 → (rest.length < 4 → faults .unframe s .wrongSizeInteger 1)
            ∧ ∀ e rest', e < 2 ^ 32 → rest = bigEndian e ++ rest' →
              (2 ^ 31 ≤ e ∨ s.cfg.extCap < e ∨ rest'.length < e → faults .unframe s .badHeader 1)
                ∧ (e ≤ s.cfg.extCap → ∀ ext rest'', ext.length = e → rest' = ext ++ rest'' →
                  (rest''.length < 4 → faults .unframe s .wrongSizeInteger 2)
                    ∧ ∀ n tail, n < 2 ^ 32 → rest'' = bigEndian n ++ tail →
                      (2 ^ 31 ≤ n → faults .unframe s .badHeader 2)
                        ∧ (n < 2 ^ 31 → s.cfg.tpktCap < n → faults .unframe s .nodeCapacity n)
                        ∧ (n ≤ s.cfg.tpktCap → tail.length < n → faults .unframe s .badHeader 2)))

/-- 48_container R264: after UNFRAME, FRAME into an empty output stream writes the header bytes back. -/
def Obligations.UnframeThenFrame : Prop :=
  ∀ s t : State, s.ready → exec .unframe s = .next t → t.fault = false → s.olen = 0#32 →
    s.input.length - t.input.length ≤ s.cfg.obufCap →
    ∃ u, exec .frame t = .next u ∧ u.done = true ∧ u.output ++ t.input = s.input

/-- COMPRESS, 48_container R271: EmptySymbolSet for an empty input; otherwise OutputOverflow or the Container, in full; and a size of
OBUF that suffices, so that no overflow happens. That it overflows exactly when the Container does not fit is not said here. -/
def Obligations.CompressResult : Prop :=
  ∀ s : State, s.ready →
    (s.ilen = 0#32 → faults .compress s .emptySymbolSet 0)
      ∧ (s.ilen ≠ 0#32 → faults .compress s .outputOverflow s.cfg.obufCap ∨ ∃ t tr bs, exec .compress s = .next t ∧ t.done = true
        ∧ t.fault = false ∧ t.icur = s.ilen ∧ (∀ b, (t.freq.at b).toNat = s.stream.count b) ∧ t.tree = some tr
        ∧ (∀ b p, t.code.at b = some p ↔ (b, p) ∈ tr.paths []) ∧ (∀ b, t.code.valid b = true ↔ b ∈ s.stream)
        ∧ t.totbits.toNat = (codeBits t.code s.stream).length ∧ t.pad.toNat = (8 - t.totbits.toNat % 8) % 8
        ∧ t.packet = packetOf tr ∧ t.tplen.toNat = 6 * tr.size ∧ t.extlen = s.extlen ∧ t.extension = s.extension
        ∧ bitsOf bs = codeBits t.code s.stream ++ List.replicate t.pad.toNat false
        ∧ t.output = bigEndian t.pad.toNat ++ bigEndian s.extlen.toNat ++ s.extension ++ bigEndian t.tplen.toNat ++ t.packet ++ bs
        ∧ t.olen.toNat = 12 + s.extlen.toNat + t.tplen.toNat + (t.totbits.toNat + 7) / 8)
      ∧ (s.ilen ≠ 0#32 → 3078 + s.extlen.toNat + 32 * s.ilen.toNat ≤ s.cfg.obufCap →
        ∃ t, exec .compress s = .next t ∧ t.done = true ∧ t.fault = false)

/-- The composites are their sub-commands run one after the other as a single step, ended by the first that faults, with that one
fault entry (48_container R270, R272, R274). -/
def Obligations.CompositesAreSequences : Prop :=
  ∀ s : State, s.fault = false →
    exec .compress s
        = execAll [.rewind, .count, .rewind, .build, .gencodes, .padcalc, .serialize, .clrout, .frame, .pack] s
      ∧ exec .decompress s = execAll [.rewind, .unframe, .deserialize, .clrout, .unpack] s

/-- DECOMPRESS, 48_container R272: of a Container with the packet of a tree and a payload of leaf paths it gives the leaves' values and the
extension. -/
def Obligations.DecompressResult : Prop :=
  ∀ (s : State) (p : BitVec 3) (ext body : List Byte) (tr : Tree) (es : List (Byte × BitString)), s.ready →
    s.stream = containerHeader p.toNat ext (packetOf tr) ++ body → ext.length ≤ s.cfg.extCap → tr.size ≤ s.cfg.nodeCap →
    (∀ e ∈ es, e ∈ tr.paths []) → (tr.isLeaf = true → es = []) → payload p.toNat body = es.flatMap Prod.snd →
    (body = [] → p = 0#3) → es.length ≤ s.cfg.obufCap →
    ∃ t, exec .decompress s = .next t ∧ t.done = true ∧ t.fault = false ∧ t.output = es.map Prod.fst ∧ t.olen.toNat = es.length
      ∧ t.extension = ext ∧ t.extlen.toNat = ext.length ∧ t.packet = packetOf tr ∧ t.tplen.toNat = 6 * tr.size ∧ t.pad = p
      ∧ t.tree = some (tr.numbered 0) ∧ t.root = 0 ∧ t.ncount.toNat = tr.size ∧ t.icur = s.ilen
      ∧ t.freq = s.freq ∧ t.code = s.code ∧ t.totbits = s.totbits

/-- THE HEADLINE (48_container R273, which the spec derives). Whatever COMPRESS leaves in OBUF, DECOMPRESS on it in a second machine, or in the same one
later, gives back the input and the extension, whatever SENT is there. -/
def Obligations.RoundTrip : Prop :=
  ∀ s t u : State, s.ready → exec .compress s = .next t → t.fault = false →
    u.ready → u.stream = t.output → s.extlen.toNat ≤ u.cfg.extCap → s.ilen.toNat ≤ u.cfg.obufCap →
    ∃ v, exec .decompress u = .next v ∧ v.done = true ∧ v.fault = false ∧ v.output = s.stream ∧ v.extension = s.extension

/-! ### Frames -/

/-- The frame of all fifteen commands (30_encoding R102): a successful run changes nothing outside the column "writes", STATUS apart,
and STATUS as R108 says. -/
def Obligations.FrameAll : Prop :=
  ∀ (i : Instr) (s t : State), exec i s = .next t → t.fault = false →
    sameControl s t ∧ t.busy = false ∧ t.done = true ∧ ∀ p : Part, p ∉ writes i → p.same s t

/-- The bytes of the buffers: a successful run leaves every byte it does not store to as it was, in every buffer (20_memory R71, R72).
`storesTo` says which bytes each command stores to. -/
def Obligations.StoredBytes : Prop :=
  ∀ (i : Instr) (s t : State), s.ready → exec i s = .next t → t.fault = false →
    ∀ sp a, ¬ storesTo i s t sp a → t.readByte sp a = s.readByte sp a
end

