-- ==== Sys2Proof/Laws/State.lean ====
section
/-! SUPPORT. One lemma per field per update of State, each true by rfl, so that no proof unfolds a record update. -/

namespace Sys2Proof.Machine

/-! ### setIcur -/

@[simp] theorem State.setIcur_cfg (s : State) (v : Word) : (s.setIcur v).cfg = s.cfg := rfl
@[simp] theorem State.setIcur_ien (s : State) (v : Word) : (s.setIcur v).ien = s.ien := rfl
@[simp] theorem State.setIcur_busy (s : State) (v : Word) : (s.setIcur v).busy = s.busy := rfl
@[simp] theorem State.setIcur_done (s : State) (v : Word) : (s.setIcur v).done = s.done := rfl
@[simp] theorem State.setIcur_fault (s : State) (v : Word) : (s.setIcur v).fault = s.fault := rfl
@[simp] theorem State.setIcur_cmd (s : State) (v : Word) : (s.setIcur v).cmd = s.cmd := rfl
@[simp] theorem State.setIcur_fcode (s : State) (v : Word) : (s.setIcur v).fcode = s.fcode := rfl
@[simp] theorem State.setIcur_finfo (s : State) (v : Word) : (s.setIcur v).finfo = s.finfo := rfl
@[simp] theorem State.setIcur_ilen (s : State) (v : Word) : (s.setIcur v).ilen = s.ilen := rfl
@[simp] theorem State.setIcur_icur (s : State) (v : Word) : (s.setIcur v).icur = v := rfl
@[simp] theorem State.setIcur_olen (s : State) (v : Word) : (s.setIcur v).olen = s.olen := rfl
@[simp] theorem State.setIcur_pad (s : State) (v : Word) : (s.setIcur v).pad = s.pad := rfl
@[simp] theorem State.setIcur_totbits (s : State) (v : Word) : (s.setIcur v).totbits = s.totbits := rfl
@[simp] theorem State.setIcur_tplen (s : State) (v : Word) : (s.setIcur v).tplen = s.tplen := rfl
@[simp] theorem State.setIcur_extlen (s : State) (v : Word) : (s.setIcur v).extlen = s.extlen := rfl
@[simp] theorem State.setIcur_sent (s : State) (v : Word) : (s.setIcur v).sent = s.sent := rfl
@[simp] theorem State.setIcur_ncount (s : State) (v : Word) : (s.setIcur v).ncount = s.ncount := rfl
@[simp] theorem State.setIcur_root (s : State) (v : Word) : (s.setIcur v).root = s.root := rfl
@[simp] theorem State.setIcur_freq (s : State) (v : Word) : (s.setIcur v).freq = s.freq := rfl
@[simp] theorem State.setIcur_code (s : State) (v : Word) : (s.setIcur v).code = s.code := rfl
@[simp] theorem State.setIcur_tree (s : State) (v : Word) : (s.setIcur v).tree = s.tree := rfl
@[simp] theorem State.setIcur_mem (s : State) (v : Word) : (s.setIcur v).mem = s.mem := rfl
@[simp] theorem State.setIcur_turns (s : State) (v : Word) : (s.setIcur v).turns = s.turns := rfl
@[simp] theorem State.setIcur_resp (s : State) (v : Word) : (s.setIcur v).resp = s.resp := rfl
@[simp] theorem State.setIcur_epoch (s : State) (v : Word) : (s.setIcur v).epoch = s.epoch := rfl

/-! ### setOlen -/

@[simp] theorem State.setOlen_cfg (s : State) (v : Word) : (s.setOlen v).cfg = s.cfg := rfl
@[simp] theorem State.setOlen_ien (s : State) (v : Word) : (s.setOlen v).ien = s.ien := rfl
@[simp] theorem State.setOlen_busy (s : State) (v : Word) : (s.setOlen v).busy = s.busy := rfl
@[simp] theorem State.setOlen_done (s : State) (v : Word) : (s.setOlen v).done = s.done := rfl
@[simp] theorem State.setOlen_fault (s : State) (v : Word) : (s.setOlen v).fault = s.fault := rfl
@[simp] theorem State.setOlen_cmd (s : State) (v : Word) : (s.setOlen v).cmd = s.cmd := rfl
@[simp] theorem State.setOlen_fcode (s : State) (v : Word) : (s.setOlen v).fcode = s.fcode := rfl
@[simp] theorem State.setOlen_finfo (s : State) (v : Word) : (s.setOlen v).finfo = s.finfo := rfl
@[simp] theorem State.setOlen_ilen (s : State) (v : Word) : (s.setOlen v).ilen = s.ilen := rfl
@[simp] theorem State.setOlen_icur (s : State) (v : Word) : (s.setOlen v).icur = s.icur := rfl
@[simp] theorem State.setOlen_olen (s : State) (v : Word) : (s.setOlen v).olen = v := rfl
@[simp] theorem State.setOlen_pad (s : State) (v : Word) : (s.setOlen v).pad = s.pad := rfl
@[simp] theorem State.setOlen_totbits (s : State) (v : Word) : (s.setOlen v).totbits = s.totbits := rfl
@[simp] theorem State.setOlen_tplen (s : State) (v : Word) : (s.setOlen v).tplen = s.tplen := rfl
@[simp] theorem State.setOlen_extlen (s : State) (v : Word) : (s.setOlen v).extlen = s.extlen := rfl
@[simp] theorem State.setOlen_sent (s : State) (v : Word) : (s.setOlen v).sent = s.sent := rfl
@[simp] theorem State.setOlen_ncount (s : State) (v : Word) : (s.setOlen v).ncount = s.ncount := rfl
@[simp] theorem State.setOlen_root (s : State) (v : Word) : (s.setOlen v).root = s.root := rfl
@[simp] theorem State.setOlen_freq (s : State) (v : Word) : (s.setOlen v).freq = s.freq := rfl
@[simp] theorem State.setOlen_code (s : State) (v : Word) : (s.setOlen v).code = s.code := rfl
@[simp] theorem State.setOlen_tree (s : State) (v : Word) : (s.setOlen v).tree = s.tree := rfl
@[simp] theorem State.setOlen_mem (s : State) (v : Word) : (s.setOlen v).mem = s.mem := rfl
@[simp] theorem State.setOlen_turns (s : State) (v : Word) : (s.setOlen v).turns = s.turns := rfl
@[simp] theorem State.setOlen_resp (s : State) (v : Word) : (s.setOlen v).resp = s.resp := rfl
@[simp] theorem State.setOlen_epoch (s : State) (v : Word) : (s.setOlen v).epoch = s.epoch := rfl

/-! ### setFreq -/

@[simp] theorem State.setFreq_cfg (s : State) (v : FreqTable) : (s.setFreq v).cfg = s.cfg := rfl
@[simp] theorem State.setFreq_ien (s : State) (v : FreqTable) : (s.setFreq v).ien = s.ien := rfl
@[simp] theorem State.setFreq_busy (s : State) (v : FreqTable) : (s.setFreq v).busy = s.busy := rfl
@[simp] theorem State.setFreq_done (s : State) (v : FreqTable) : (s.setFreq v).done = s.done := rfl
@[simp] theorem State.setFreq_fault (s : State) (v : FreqTable) : (s.setFreq v).fault = s.fault := rfl
@[simp] theorem State.setFreq_cmd (s : State) (v : FreqTable) : (s.setFreq v).cmd = s.cmd := rfl
@[simp] theorem State.setFreq_fcode (s : State) (v : FreqTable) : (s.setFreq v).fcode = s.fcode := rfl
@[simp] theorem State.setFreq_finfo (s : State) (v : FreqTable) : (s.setFreq v).finfo = s.finfo := rfl
@[simp] theorem State.setFreq_ilen (s : State) (v : FreqTable) : (s.setFreq v).ilen = s.ilen := rfl
@[simp] theorem State.setFreq_icur (s : State) (v : FreqTable) : (s.setFreq v).icur = s.icur := rfl
@[simp] theorem State.setFreq_olen (s : State) (v : FreqTable) : (s.setFreq v).olen = s.olen := rfl
@[simp] theorem State.setFreq_pad (s : State) (v : FreqTable) : (s.setFreq v).pad = s.pad := rfl
@[simp] theorem State.setFreq_totbits (s : State) (v : FreqTable) : (s.setFreq v).totbits = s.totbits := rfl
@[simp] theorem State.setFreq_tplen (s : State) (v : FreqTable) : (s.setFreq v).tplen = s.tplen := rfl
@[simp] theorem State.setFreq_extlen (s : State) (v : FreqTable) : (s.setFreq v).extlen = s.extlen := rfl
@[simp] theorem State.setFreq_sent (s : State) (v : FreqTable) : (s.setFreq v).sent = s.sent := rfl
@[simp] theorem State.setFreq_ncount (s : State) (v : FreqTable) : (s.setFreq v).ncount = s.ncount := rfl
@[simp] theorem State.setFreq_root (s : State) (v : FreqTable) : (s.setFreq v).root = s.root := rfl
@[simp] theorem State.setFreq_freq (s : State) (v : FreqTable) : (s.setFreq v).freq = v := rfl
@[simp] theorem State.setFreq_code (s : State) (v : FreqTable) : (s.setFreq v).code = s.code := rfl
@[simp] theorem State.setFreq_tree (s : State) (v : FreqTable) : (s.setFreq v).tree = s.tree := rfl
@[simp] theorem State.setFreq_mem (s : State) (v : FreqTable) : (s.setFreq v).mem = s.mem := rfl
@[simp] theorem State.setFreq_turns (s : State) (v : FreqTable) : (s.setFreq v).turns = s.turns := rfl
@[simp] theorem State.setFreq_resp (s : State) (v : FreqTable) : (s.setFreq v).resp = s.resp := rfl
@[simp] theorem State.setFreq_epoch (s : State) (v : FreqTable) : (s.setFreq v).epoch = s.epoch := rfl

/-! ### setCode -/

@[simp] theorem State.setCode_cfg (s : State) (v : CodeTable) : (s.setCode v).cfg = s.cfg := rfl
@[simp] theorem State.setCode_ien (s : State) (v : CodeTable) : (s.setCode v).ien = s.ien := rfl
@[simp] theorem State.setCode_busy (s : State) (v : CodeTable) : (s.setCode v).busy = s.busy := rfl
@[simp] theorem State.setCode_done (s : State) (v : CodeTable) : (s.setCode v).done = s.done := rfl
@[simp] theorem State.setCode_fault (s : State) (v : CodeTable) : (s.setCode v).fault = s.fault := rfl
@[simp] theorem State.setCode_cmd (s : State) (v : CodeTable) : (s.setCode v).cmd = s.cmd := rfl
@[simp] theorem State.setCode_fcode (s : State) (v : CodeTable) : (s.setCode v).fcode = s.fcode := rfl
@[simp] theorem State.setCode_finfo (s : State) (v : CodeTable) : (s.setCode v).finfo = s.finfo := rfl
@[simp] theorem State.setCode_ilen (s : State) (v : CodeTable) : (s.setCode v).ilen = s.ilen := rfl
@[simp] theorem State.setCode_icur (s : State) (v : CodeTable) : (s.setCode v).icur = s.icur := rfl
@[simp] theorem State.setCode_olen (s : State) (v : CodeTable) : (s.setCode v).olen = s.olen := rfl
@[simp] theorem State.setCode_pad (s : State) (v : CodeTable) : (s.setCode v).pad = s.pad := rfl
@[simp] theorem State.setCode_totbits (s : State) (v : CodeTable) : (s.setCode v).totbits = s.totbits := rfl
@[simp] theorem State.setCode_tplen (s : State) (v : CodeTable) : (s.setCode v).tplen = s.tplen := rfl
@[simp] theorem State.setCode_extlen (s : State) (v : CodeTable) : (s.setCode v).extlen = s.extlen := rfl
@[simp] theorem State.setCode_sent (s : State) (v : CodeTable) : (s.setCode v).sent = s.sent := rfl
@[simp] theorem State.setCode_ncount (s : State) (v : CodeTable) : (s.setCode v).ncount = s.ncount := rfl
@[simp] theorem State.setCode_root (s : State) (v : CodeTable) : (s.setCode v).root = s.root := rfl
@[simp] theorem State.setCode_freq (s : State) (v : CodeTable) : (s.setCode v).freq = s.freq := rfl
@[simp] theorem State.setCode_code (s : State) (v : CodeTable) : (s.setCode v).code = v := rfl
@[simp] theorem State.setCode_tree (s : State) (v : CodeTable) : (s.setCode v).tree = s.tree := rfl
@[simp] theorem State.setCode_mem (s : State) (v : CodeTable) : (s.setCode v).mem = s.mem := rfl
@[simp] theorem State.setCode_turns (s : State) (v : CodeTable) : (s.setCode v).turns = s.turns := rfl
@[simp] theorem State.setCode_resp (s : State) (v : CodeTable) : (s.setCode v).resp = s.resp := rfl
@[simp] theorem State.setCode_epoch (s : State) (v : CodeTable) : (s.setCode v).epoch = s.epoch := rfl

/-! ### setPad -/

@[simp] theorem State.setPad_cfg (s : State) (v : BitVec 3) : (s.setPad v).cfg = s.cfg := rfl
@[simp] theorem State.setPad_ien (s : State) (v : BitVec 3) : (s.setPad v).ien = s.ien := rfl
@[simp] theorem State.setPad_busy (s : State) (v : BitVec 3) : (s.setPad v).busy = s.busy := rfl
@[simp] theorem State.setPad_done (s : State) (v : BitVec 3) : (s.setPad v).done = s.done := rfl
@[simp] theorem State.setPad_fault (s : State) (v : BitVec 3) : (s.setPad v).fault = s.fault := rfl
@[simp] theorem State.setPad_cmd (s : State) (v : BitVec 3) : (s.setPad v).cmd = s.cmd := rfl
@[simp] theorem State.setPad_fcode (s : State) (v : BitVec 3) : (s.setPad v).fcode = s.fcode := rfl
@[simp] theorem State.setPad_finfo (s : State) (v : BitVec 3) : (s.setPad v).finfo = s.finfo := rfl
@[simp] theorem State.setPad_ilen (s : State) (v : BitVec 3) : (s.setPad v).ilen = s.ilen := rfl
@[simp] theorem State.setPad_icur (s : State) (v : BitVec 3) : (s.setPad v).icur = s.icur := rfl
@[simp] theorem State.setPad_olen (s : State) (v : BitVec 3) : (s.setPad v).olen = s.olen := rfl
@[simp] theorem State.setPad_pad (s : State) (v : BitVec 3) : (s.setPad v).pad = v := rfl
@[simp] theorem State.setPad_totbits (s : State) (v : BitVec 3) : (s.setPad v).totbits = s.totbits := rfl
@[simp] theorem State.setPad_tplen (s : State) (v : BitVec 3) : (s.setPad v).tplen = s.tplen := rfl
@[simp] theorem State.setPad_extlen (s : State) (v : BitVec 3) : (s.setPad v).extlen = s.extlen := rfl
@[simp] theorem State.setPad_sent (s : State) (v : BitVec 3) : (s.setPad v).sent = s.sent := rfl
@[simp] theorem State.setPad_ncount (s : State) (v : BitVec 3) : (s.setPad v).ncount = s.ncount := rfl
@[simp] theorem State.setPad_root (s : State) (v : BitVec 3) : (s.setPad v).root = s.root := rfl
@[simp] theorem State.setPad_freq (s : State) (v : BitVec 3) : (s.setPad v).freq = s.freq := rfl
@[simp] theorem State.setPad_code (s : State) (v : BitVec 3) : (s.setPad v).code = s.code := rfl
@[simp] theorem State.setPad_tree (s : State) (v : BitVec 3) : (s.setPad v).tree = s.tree := rfl
@[simp] theorem State.setPad_mem (s : State) (v : BitVec 3) : (s.setPad v).mem = s.mem := rfl
@[simp] theorem State.setPad_turns (s : State) (v : BitVec 3) : (s.setPad v).turns = s.turns := rfl
@[simp] theorem State.setPad_resp (s : State) (v : BitVec 3) : (s.setPad v).resp = s.resp := rfl
@[simp] theorem State.setPad_epoch (s : State) (v : BitVec 3) : (s.setPad v).epoch = s.epoch := rfl

/-! ### setTotbits -/

@[simp] theorem State.setTotbits_cfg (s : State) (v : BitVec 40) : (s.setTotbits v).cfg = s.cfg := rfl
@[simp] theorem State.setTotbits_ien (s : State) (v : BitVec 40) : (s.setTotbits v).ien = s.ien := rfl
@[simp] theorem State.setTotbits_busy (s : State) (v : BitVec 40) : (s.setTotbits v).busy = s.busy := rfl
@[simp] theorem State.setTotbits_done (s : State) (v : BitVec 40) : (s.setTotbits v).done = s.done := rfl
@[simp] theorem State.setTotbits_fault (s : State) (v : BitVec 40) : (s.setTotbits v).fault = s.fault := rfl
@[simp] theorem State.setTotbits_cmd (s : State) (v : BitVec 40) : (s.setTotbits v).cmd = s.cmd := rfl
@[simp] theorem State.setTotbits_fcode (s : State) (v : BitVec 40) : (s.setTotbits v).fcode = s.fcode := rfl
@[simp] theorem State.setTotbits_finfo (s : State) (v : BitVec 40) : (s.setTotbits v).finfo = s.finfo := rfl
@[simp] theorem State.setTotbits_ilen (s : State) (v : BitVec 40) : (s.setTotbits v).ilen = s.ilen := rfl
@[simp] theorem State.setTotbits_icur (s : State) (v : BitVec 40) : (s.setTotbits v).icur = s.icur := rfl
@[simp] theorem State.setTotbits_olen (s : State) (v : BitVec 40) : (s.setTotbits v).olen = s.olen := rfl
@[simp] theorem State.setTotbits_pad (s : State) (v : BitVec 40) : (s.setTotbits v).pad = s.pad := rfl
@[simp] theorem State.setTotbits_totbits (s : State) (v : BitVec 40) : (s.setTotbits v).totbits = v := rfl
@[simp] theorem State.setTotbits_tplen (s : State) (v : BitVec 40) : (s.setTotbits v).tplen = s.tplen := rfl
@[simp] theorem State.setTotbits_extlen (s : State) (v : BitVec 40) : (s.setTotbits v).extlen = s.extlen := rfl
@[simp] theorem State.setTotbits_sent (s : State) (v : BitVec 40) : (s.setTotbits v).sent = s.sent := rfl
@[simp] theorem State.setTotbits_ncount (s : State) (v : BitVec 40) : (s.setTotbits v).ncount = s.ncount := rfl
@[simp] theorem State.setTotbits_root (s : State) (v : BitVec 40) : (s.setTotbits v).root = s.root := rfl
@[simp] theorem State.setTotbits_freq (s : State) (v : BitVec 40) : (s.setTotbits v).freq = s.freq := rfl
@[simp] theorem State.setTotbits_code (s : State) (v : BitVec 40) : (s.setTotbits v).code = s.code := rfl
@[simp] theorem State.setTotbits_tree (s : State) (v : BitVec 40) : (s.setTotbits v).tree = s.tree := rfl
@[simp] theorem State.setTotbits_mem (s : State) (v : BitVec 40) : (s.setTotbits v).mem = s.mem := rfl
@[simp] theorem State.setTotbits_turns (s : State) (v : BitVec 40) : (s.setTotbits v).turns = s.turns := rfl
@[simp] theorem State.setTotbits_resp (s : State) (v : BitVec 40) : (s.setTotbits v).resp = s.resp := rfl
@[simp] theorem State.setTotbits_epoch (s : State) (v : BitVec 40) : (s.setTotbits v).epoch = s.epoch := rfl

/-! ### setTplen -/

@[simp] theorem State.setTplen_cfg (s : State) (v : Word) : (s.setTplen v).cfg = s.cfg := rfl
@[simp] theorem State.setTplen_ien (s : State) (v : Word) : (s.setTplen v).ien = s.ien := rfl
@[simp] theorem State.setTplen_busy (s : State) (v : Word) : (s.setTplen v).busy = s.busy := rfl
@[simp] theorem State.setTplen_done (s : State) (v : Word) : (s.setTplen v).done = s.done := rfl
@[simp] theorem State.setTplen_fault (s : State) (v : Word) : (s.setTplen v).fault = s.fault := rfl
@[simp] theorem State.setTplen_cmd (s : State) (v : Word) : (s.setTplen v).cmd = s.cmd := rfl
@[simp] theorem State.setTplen_fcode (s : State) (v : Word) : (s.setTplen v).fcode = s.fcode := rfl
@[simp] theorem State.setTplen_finfo (s : State) (v : Word) : (s.setTplen v).finfo = s.finfo := rfl
@[simp] theorem State.setTplen_ilen (s : State) (v : Word) : (s.setTplen v).ilen = s.ilen := rfl
@[simp] theorem State.setTplen_icur (s : State) (v : Word) : (s.setTplen v).icur = s.icur := rfl
@[simp] theorem State.setTplen_olen (s : State) (v : Word) : (s.setTplen v).olen = s.olen := rfl
@[simp] theorem State.setTplen_pad (s : State) (v : Word) : (s.setTplen v).pad = s.pad := rfl
@[simp] theorem State.setTplen_totbits (s : State) (v : Word) : (s.setTplen v).totbits = s.totbits := rfl
@[simp] theorem State.setTplen_tplen (s : State) (v : Word) : (s.setTplen v).tplen = v := rfl
@[simp] theorem State.setTplen_extlen (s : State) (v : Word) : (s.setTplen v).extlen = s.extlen := rfl
@[simp] theorem State.setTplen_sent (s : State) (v : Word) : (s.setTplen v).sent = s.sent := rfl
@[simp] theorem State.setTplen_ncount (s : State) (v : Word) : (s.setTplen v).ncount = s.ncount := rfl
@[simp] theorem State.setTplen_root (s : State) (v : Word) : (s.setTplen v).root = s.root := rfl
@[simp] theorem State.setTplen_freq (s : State) (v : Word) : (s.setTplen v).freq = s.freq := rfl
@[simp] theorem State.setTplen_code (s : State) (v : Word) : (s.setTplen v).code = s.code := rfl
@[simp] theorem State.setTplen_tree (s : State) (v : Word) : (s.setTplen v).tree = s.tree := rfl
@[simp] theorem State.setTplen_mem (s : State) (v : Word) : (s.setTplen v).mem = s.mem := rfl
@[simp] theorem State.setTplen_turns (s : State) (v : Word) : (s.setTplen v).turns = s.turns := rfl
@[simp] theorem State.setTplen_resp (s : State) (v : Word) : (s.setTplen v).resp = s.resp := rfl
@[simp] theorem State.setTplen_epoch (s : State) (v : Word) : (s.setTplen v).epoch = s.epoch := rfl

/-! ### setExtlen -/

@[simp] theorem State.setExtlen_cfg (s : State) (v : Word) : (s.setExtlen v).cfg = s.cfg := rfl
@[simp] theorem State.setExtlen_ien (s : State) (v : Word) : (s.setExtlen v).ien = s.ien := rfl
@[simp] theorem State.setExtlen_busy (s : State) (v : Word) : (s.setExtlen v).busy = s.busy := rfl
@[simp] theorem State.setExtlen_done (s : State) (v : Word) : (s.setExtlen v).done = s.done := rfl
@[simp] theorem State.setExtlen_fault (s : State) (v : Word) : (s.setExtlen v).fault = s.fault := rfl
@[simp] theorem State.setExtlen_cmd (s : State) (v : Word) : (s.setExtlen v).cmd = s.cmd := rfl
@[simp] theorem State.setExtlen_fcode (s : State) (v : Word) : (s.setExtlen v).fcode = s.fcode := rfl
@[simp] theorem State.setExtlen_finfo (s : State) (v : Word) : (s.setExtlen v).finfo = s.finfo := rfl
@[simp] theorem State.setExtlen_ilen (s : State) (v : Word) : (s.setExtlen v).ilen = s.ilen := rfl
@[simp] theorem State.setExtlen_icur (s : State) (v : Word) : (s.setExtlen v).icur = s.icur := rfl
@[simp] theorem State.setExtlen_olen (s : State) (v : Word) : (s.setExtlen v).olen = s.olen := rfl
@[simp] theorem State.setExtlen_pad (s : State) (v : Word) : (s.setExtlen v).pad = s.pad := rfl
@[simp] theorem State.setExtlen_totbits (s : State) (v : Word) : (s.setExtlen v).totbits = s.totbits := rfl
@[simp] theorem State.setExtlen_tplen (s : State) (v : Word) : (s.setExtlen v).tplen = s.tplen := rfl
@[simp] theorem State.setExtlen_extlen (s : State) (v : Word) : (s.setExtlen v).extlen = v := rfl
@[simp] theorem State.setExtlen_sent (s : State) (v : Word) : (s.setExtlen v).sent = s.sent := rfl
@[simp] theorem State.setExtlen_ncount (s : State) (v : Word) : (s.setExtlen v).ncount = s.ncount := rfl
@[simp] theorem State.setExtlen_root (s : State) (v : Word) : (s.setExtlen v).root = s.root := rfl
@[simp] theorem State.setExtlen_freq (s : State) (v : Word) : (s.setExtlen v).freq = s.freq := rfl
@[simp] theorem State.setExtlen_code (s : State) (v : Word) : (s.setExtlen v).code = s.code := rfl
@[simp] theorem State.setExtlen_tree (s : State) (v : Word) : (s.setExtlen v).tree = s.tree := rfl
@[simp] theorem State.setExtlen_mem (s : State) (v : Word) : (s.setExtlen v).mem = s.mem := rfl
@[simp] theorem State.setExtlen_turns (s : State) (v : Word) : (s.setExtlen v).turns = s.turns := rfl
@[simp] theorem State.setExtlen_resp (s : State) (v : Word) : (s.setExtlen v).resp = s.resp := rfl
@[simp] theorem State.setExtlen_epoch (s : State) (v : Word) : (s.setExtlen v).epoch = s.epoch := rfl

/-! ### installTree -/

@[simp] theorem State.installTree_cfg (s : State) (t : Tree) : (s.installTree t).cfg = s.cfg := rfl
@[simp] theorem State.installTree_ien (s : State) (t : Tree) : (s.installTree t).ien = s.ien := rfl
@[simp] theorem State.installTree_busy (s : State) (t : Tree) : (s.installTree t).busy = s.busy := rfl
@[simp] theorem State.installTree_done (s : State) (t : Tree) : (s.installTree t).done = s.done := rfl
@[simp] theorem State.installTree_fault (s : State) (t : Tree) : (s.installTree t).fault = s.fault := rfl
@[simp] theorem State.installTree_cmd (s : State) (t : Tree) : (s.installTree t).cmd = s.cmd := rfl
@[simp] theorem State.installTree_fcode (s : State) (t : Tree) : (s.installTree t).fcode = s.fcode := rfl
@[simp] theorem State.installTree_finfo (s : State) (t : Tree) : (s.installTree t).finfo = s.finfo := rfl
@[simp] theorem State.installTree_ilen (s : State) (t : Tree) : (s.installTree t).ilen = s.ilen := rfl
@[simp] theorem State.installTree_icur (s : State) (t : Tree) : (s.installTree t).icur = s.icur := rfl
@[simp] theorem State.installTree_olen (s : State) (t : Tree) : (s.installTree t).olen = s.olen := rfl
@[simp] theorem State.installTree_pad (s : State) (t : Tree) : (s.installTree t).pad = s.pad := rfl
@[simp] theorem State.installTree_totbits (s : State) (t : Tree) : (s.installTree t).totbits = s.totbits := rfl
@[simp] theorem State.installTree_tplen (s : State) (t : Tree) : (s.installTree t).tplen = s.tplen := rfl
@[simp] theorem State.installTree_extlen (s : State) (t : Tree) : (s.installTree t).extlen = s.extlen := rfl
@[simp] theorem State.installTree_sent (s : State) (t : Tree) : (s.installTree t).sent = s.sent := rfl
@[simp] theorem State.installTree_ncount (s : State) (t : Tree) : (s.installTree t).ncount = BitVec.ofNat 32 t.size := rfl
@[simp] theorem State.installTree_root (s : State) (t : Tree) : (s.installTree t).root = t.index := rfl
@[simp] theorem State.installTree_freq (s : State) (t : Tree) : (s.installTree t).freq = s.freq := rfl
@[simp] theorem State.installTree_code (s : State) (t : Tree) : (s.installTree t).code = s.code := rfl
@[simp] theorem State.installTree_tree (s : State) (t : Tree) : (s.installTree t).tree = some t := rfl
@[simp] theorem State.installTree_mem (s : State) (t : Tree) : (s.installTree t).mem = s.mem := rfl
@[simp] theorem State.installTree_turns (s : State) (t : Tree) : (s.installTree t).turns = s.turns := rfl
@[simp] theorem State.installTree_resp (s : State) (t : Tree) : (s.installTree t).resp = s.resp := rfl
@[simp] theorem State.installTree_epoch (s : State) (t : Tree) : (s.installTree t).epoch = s.epoch := rfl

/-! ### setOutPort -/

@[simp] theorem State.setOutPort_cfg (s : State) (o : OutPort) : (s.setOutPort o).cfg = s.cfg := rfl
@[simp] theorem State.setOutPort_ien (s : State) (o : OutPort) : (s.setOutPort o).ien = s.ien := rfl
@[simp] theorem State.setOutPort_busy (s : State) (o : OutPort) : (s.setOutPort o).busy = s.busy := rfl
@[simp] theorem State.setOutPort_done (s : State) (o : OutPort) : (s.setOutPort o).done = s.done := rfl
@[simp] theorem State.setOutPort_fault (s : State) (o : OutPort) : (s.setOutPort o).fault = s.fault := rfl
@[simp] theorem State.setOutPort_cmd (s : State) (o : OutPort) : (s.setOutPort o).cmd = s.cmd := rfl
@[simp] theorem State.setOutPort_fcode (s : State) (o : OutPort) : (s.setOutPort o).fcode = s.fcode := rfl
@[simp] theorem State.setOutPort_finfo (s : State) (o : OutPort) : (s.setOutPort o).finfo = s.finfo := rfl
@[simp] theorem State.setOutPort_ilen (s : State) (o : OutPort) : (s.setOutPort o).ilen = s.ilen := rfl
@[simp] theorem State.setOutPort_icur (s : State) (o : OutPort) : (s.setOutPort o).icur = s.icur := rfl
@[simp] theorem State.setOutPort_olen (s : State) (o : OutPort) : (s.setOutPort o).olen = o.len := rfl
@[simp] theorem State.setOutPort_pad (s : State) (o : OutPort) : (s.setOutPort o).pad = s.pad := rfl
@[simp] theorem State.setOutPort_totbits (s : State) (o : OutPort) : (s.setOutPort o).totbits = s.totbits := rfl
@[simp] theorem State.setOutPort_tplen (s : State) (o : OutPort) : (s.setOutPort o).tplen = s.tplen := rfl
@[simp] theorem State.setOutPort_extlen (s : State) (o : OutPort) : (s.setOutPort o).extlen = s.extlen := rfl
@[simp] theorem State.setOutPort_sent (s : State) (o : OutPort) : (s.setOutPort o).sent = s.sent := rfl
@[simp] theorem State.setOutPort_ncount (s : State) (o : OutPort) : (s.setOutPort o).ncount = s.ncount := rfl
@[simp] theorem State.setOutPort_root (s : State) (o : OutPort) : (s.setOutPort o).root = s.root := rfl
@[simp] theorem State.setOutPort_freq (s : State) (o : OutPort) : (s.setOutPort o).freq = s.freq := rfl
@[simp] theorem State.setOutPort_code (s : State) (o : OutPort) : (s.setOutPort o).code = s.code := rfl
@[simp] theorem State.setOutPort_tree (s : State) (o : OutPort) : (s.setOutPort o).tree = s.tree := rfl
@[simp] theorem State.setOutPort_mem (s : State) (o : OutPort) : (s.setOutPort o).mem = { s.mem with obuf := o.cells } := rfl
@[simp] theorem State.setOutPort_turns (s : State) (o : OutPort) : (s.setOutPort o).turns = s.turns := rfl
@[simp] theorem State.setOutPort_resp (s : State) (o : OutPort) : (s.setOutPort o).resp = s.resp := rfl
@[simp] theorem State.setOutPort_epoch (s : State) (o : OutPort) : (s.setOutPort o).epoch = s.epoch := rfl

/-! ### consumeInput -/

@[simp] theorem State.consumeInput_cfg (s : State) : s.consumeInput.cfg = s.cfg := rfl
@[simp] theorem State.consumeInput_ien (s : State) : s.consumeInput.ien = s.ien := rfl
@[simp] theorem State.consumeInput_busy (s : State) : s.consumeInput.busy = s.busy := rfl
@[simp] theorem State.consumeInput_done (s : State) : s.consumeInput.done = s.done := rfl
@[simp] theorem State.consumeInput_fault (s : State) : s.consumeInput.fault = s.fault := rfl
@[simp] theorem State.consumeInput_cmd (s : State) : s.consumeInput.cmd = s.cmd := rfl
@[simp] theorem State.consumeInput_fcode (s : State) : s.consumeInput.fcode = s.fcode := rfl
@[simp] theorem State.consumeInput_finfo (s : State) : s.consumeInput.finfo = s.finfo := rfl
@[simp] theorem State.consumeInput_ilen (s : State) : s.consumeInput.ilen = s.ilen := rfl
@[simp] theorem State.consumeInput_icur (s : State) : s.consumeInput.icur = if s.icur.toNat ≤ s.ilen.toNat then s.ilen else s.icur := rfl
@[simp] theorem State.consumeInput_olen (s : State) : s.consumeInput.olen = s.olen := rfl
@[simp] theorem State.consumeInput_pad (s : State) : s.consumeInput.pad = s.pad := rfl
@[simp] theorem State.consumeInput_totbits (s : State) : s.consumeInput.totbits = s.totbits := rfl
@[simp] theorem State.consumeInput_tplen (s : State) : s.consumeInput.tplen = s.tplen := rfl
@[simp] theorem State.consumeInput_extlen (s : State) : s.consumeInput.extlen = s.extlen := rfl
@[simp] theorem State.consumeInput_sent (s : State) : s.consumeInput.sent = s.sent := rfl
@[simp] theorem State.consumeInput_ncount (s : State) : s.consumeInput.ncount = s.ncount := rfl
@[simp] theorem State.consumeInput_root (s : State) : s.consumeInput.root = s.root := rfl
@[simp] theorem State.consumeInput_freq (s : State) : s.consumeInput.freq = s.freq := rfl
@[simp] theorem State.consumeInput_code (s : State) : s.consumeInput.code = s.code := rfl
@[simp] theorem State.consumeInput_tree (s : State) : s.consumeInput.tree = s.tree := rfl
@[simp] theorem State.consumeInput_mem (s : State) : s.consumeInput.mem = s.mem := rfl
@[simp] theorem State.consumeInput_turns (s : State) : s.consumeInput.turns = s.turns := rfl
@[simp] theorem State.consumeInput_resp (s : State) : s.consumeInput.resp = s.resp := rfl
@[simp] theorem State.consumeInput_epoch (s : State) : s.consumeInput.epoch = s.epoch := rfl

/-! ### complete -/

@[simp] theorem State.complete_cfg (s : State) : s.complete.cfg = s.cfg := rfl
@[simp] theorem State.complete_ien (s : State) : s.complete.ien = s.ien := rfl
@[simp] theorem State.complete_busy (s : State) : s.complete.busy = false := rfl
@[simp] theorem State.complete_done (s : State) : s.complete.done = true := rfl
@[simp] theorem State.complete_fault (s : State) : s.complete.fault = s.fault := rfl
@[simp] theorem State.complete_cmd (s : State) : s.complete.cmd = s.cmd := rfl
@[simp] theorem State.complete_fcode (s : State) : s.complete.fcode = s.fcode := rfl
@[simp] theorem State.complete_finfo (s : State) : s.complete.finfo = s.finfo := rfl
@[simp] theorem State.complete_ilen (s : State) : s.complete.ilen = s.ilen := rfl
@[simp] theorem State.complete_icur (s : State) : s.complete.icur = s.icur := rfl
@[simp] theorem State.complete_olen (s : State) : s.complete.olen = s.olen := rfl
@[simp] theorem State.complete_pad (s : State) : s.complete.pad = s.pad := rfl
@[simp] theorem State.complete_totbits (s : State) : s.complete.totbits = s.totbits := rfl
@[simp] theorem State.complete_tplen (s : State) : s.complete.tplen = s.tplen := rfl
@[simp] theorem State.complete_extlen (s : State) : s.complete.extlen = s.extlen := rfl
@[simp] theorem State.complete_sent (s : State) : s.complete.sent = s.sent := rfl
@[simp] theorem State.complete_ncount (s : State) : s.complete.ncount = s.ncount := rfl
@[simp] theorem State.complete_root (s : State) : s.complete.root = s.root := rfl
@[simp] theorem State.complete_freq (s : State) : s.complete.freq = s.freq := rfl
@[simp] theorem State.complete_code (s : State) : s.complete.code = s.code := rfl
@[simp] theorem State.complete_tree (s : State) : s.complete.tree = s.tree := rfl
@[simp] theorem State.complete_mem (s : State) : s.complete.mem = s.mem := rfl
@[simp] theorem State.complete_turns (s : State) : s.complete.turns = s.turns := rfl
@[simp] theorem State.complete_resp (s : State) : s.complete.resp = s.resp := rfl
@[simp] theorem State.complete_epoch (s : State) : s.complete.epoch = s.epoch := rfl

/-! ### latch -/

@[simp] theorem State.latch_cfg (s : State) (w : Word) : (s.latch w).cfg = s.cfg := rfl
@[simp] theorem State.latch_ien (s : State) (w : Word) : (s.latch w).ien = s.ien := rfl
@[simp] theorem State.latch_busy (s : State) (w : Word) : (s.latch w).busy = true := rfl
@[simp] theorem State.latch_done (s : State) (w : Word) : (s.latch w).done = false := rfl
@[simp] theorem State.latch_fault (s : State) (w : Word) : (s.latch w).fault = s.fault := rfl
@[simp] theorem State.latch_cmd (s : State) (w : Word) : (s.latch w).cmd = w := rfl
@[simp] theorem State.latch_fcode (s : State) (w : Word) : (s.latch w).fcode = s.fcode := rfl
@[simp] theorem State.latch_finfo (s : State) (w : Word) : (s.latch w).finfo = s.finfo := rfl
@[simp] theorem State.latch_ilen (s : State) (w : Word) : (s.latch w).ilen = s.ilen := rfl
@[simp] theorem State.latch_icur (s : State) (w : Word) : (s.latch w).icur = s.icur := rfl
@[simp] theorem State.latch_olen (s : State) (w : Word) : (s.latch w).olen = s.olen := rfl
@[simp] theorem State.latch_pad (s : State) (w : Word) : (s.latch w).pad = s.pad := rfl
@[simp] theorem State.latch_totbits (s : State) (w : Word) : (s.latch w).totbits = s.totbits := rfl
@[simp] theorem State.latch_tplen (s : State) (w : Word) : (s.latch w).tplen = s.tplen := rfl
@[simp] theorem State.latch_extlen (s : State) (w : Word) : (s.latch w).extlen = s.extlen := rfl
@[simp] theorem State.latch_sent (s : State) (w : Word) : (s.latch w).sent = s.sent := rfl
@[simp] theorem State.latch_ncount (s : State) (w : Word) : (s.latch w).ncount = s.ncount := rfl
@[simp] theorem State.latch_root (s : State) (w : Word) : (s.latch w).root = s.root := rfl
@[simp] theorem State.latch_freq (s : State) (w : Word) : (s.latch w).freq = s.freq := rfl
@[simp] theorem State.latch_code (s : State) (w : Word) : (s.latch w).code = s.code := rfl
@[simp] theorem State.latch_tree (s : State) (w : Word) : (s.latch w).tree = s.tree := rfl
@[simp] theorem State.latch_mem (s : State) (w : Word) : (s.latch w).mem = s.mem := rfl
@[simp] theorem State.latch_turns (s : State) (w : Word) : (s.latch w).turns = s.turns := rfl
@[simp] theorem State.latch_resp (s : State) (w : Word) : (s.latch w).resp = s.resp := rfl
@[simp] theorem State.latch_epoch (s : State) (w : Word) : (s.latch w).epoch = s.epoch := rfl

/-! ### writeByte -/

@[simp] theorem State.writeByte_cfg (s : State) (sp : Space) (off : Nat) (v : Byte) : (s.writeByte sp off v).cfg = s.cfg := rfl
@[simp] theorem State.writeByte_ien (s : State) (sp : Space) (off : Nat) (v : Byte) : (s.writeByte sp off v).ien = s.ien := rfl
@[simp] theorem State.writeByte_busy (s : State) (sp : Space) (off : Nat) (v : Byte) : (s.writeByte sp off v).busy = s.busy := rfl
@[simp] theorem State.writeByte_done (s : State) (sp : Space) (off : Nat) (v : Byte) : (s.writeByte sp off v).done = s.done := rfl
@[simp] theorem State.writeByte_fault (s : State) (sp : Space) (off : Nat) (v : Byte) : (s.writeByte sp off v).fault = s.fault := rfl
@[simp] theorem State.writeByte_cmd (s : State) (sp : Space) (off : Nat) (v : Byte) : (s.writeByte sp off v).cmd = s.cmd := rfl
@[simp] theorem State.writeByte_fcode (s : State) (sp : Space) (off : Nat) (v : Byte) : (s.writeByte sp off v).fcode = s.fcode := rfl
@[simp] theorem State.writeByte_finfo (s : State) (sp : Space) (off : Nat) (v : Byte) : (s.writeByte sp off v).finfo = s.finfo := rfl
@[simp] theorem State.writeByte_ilen (s : State) (sp : Space) (off : Nat) (v : Byte) : (s.writeByte sp off v).ilen = s.ilen := rfl
@[simp] theorem State.writeByte_icur (s : State) (sp : Space) (off : Nat) (v : Byte) : (s.writeByte sp off v).icur = s.icur := rfl
@[simp] theorem State.writeByte_olen (s : State) (sp : Space) (off : Nat) (v : Byte) : (s.writeByte sp off v).olen = s.olen := rfl
@[simp] theorem State.writeByte_pad (s : State) (sp : Space) (off : Nat) (v : Byte) : (s.writeByte sp off v).pad = s.pad := rfl
@[simp] theorem State.writeByte_totbits (s : State) (sp : Space) (off : Nat) (v : Byte) : (s.writeByte sp off v).totbits = s.totbits := rfl
@[simp] theorem State.writeByte_tplen (s : State) (sp : Space) (off : Nat) (v : Byte) : (s.writeByte sp off v).tplen = s.tplen := rfl
@[simp] theorem State.writeByte_extlen (s : State) (sp : Space) (off : Nat) (v : Byte) : (s.writeByte sp off v).extlen = s.extlen := rfl
@[simp] theorem State.writeByte_sent (s : State) (sp : Space) (off : Nat) (v : Byte) : (s.writeByte sp off v).sent = s.sent := rfl
@[simp] theorem State.writeByte_ncount (s : State) (sp : Space) (off : Nat) (v : Byte) : (s.writeByte sp off v).ncount = s.ncount := rfl
@[simp] theorem State.writeByte_root (s : State) (sp : Space) (off : Nat) (v : Byte) : (s.writeByte sp off v).root = s.root := rfl
@[simp] theorem State.writeByte_freq (s : State) (sp : Space) (off : Nat) (v : Byte) : (s.writeByte sp off v).freq = s.freq := rfl
@[simp] theorem State.writeByte_code (s : State) (sp : Space) (off : Nat) (v : Byte) : (s.writeByte sp off v).code = s.code := rfl
@[simp] theorem State.writeByte_tree (s : State) (sp : Space) (off : Nat) (v : Byte) : (s.writeByte sp off v).tree = s.tree := rfl
@[simp] theorem State.writeByte_mem (s : State) (sp : Space) (off : Nat) (v : Byte) : (s.writeByte sp off v).mem = s.mem.setCells sp (storeCell (s.mem.cells sp) off v) := rfl
@[simp] theorem State.writeByte_turns (s : State) (sp : Space) (off : Nat) (v : Byte) : (s.writeByte sp off v).turns = s.turns := rfl
@[simp] theorem State.writeByte_resp (s : State) (sp : Space) (off : Nat) (v : Byte) : (s.writeByte sp off v).resp = s.resp := rfl
@[simp] theorem State.writeByte_epoch (s : State) (sp : Space) (off : Nat) (v : Byte) : (s.writeByte sp off v).epoch = s.epoch := rfl

/-! ### takeFault and resetBlock: the fields the spec gives a value -/

@[simp] theorem State.takeFault_cfg (s : State) (c : Cause) (i : Word) : (s.takeFault c i).cfg = s.cfg := rfl
@[simp] theorem State.takeFault_ien (s : State) (c : Cause) (i : Word) : (s.takeFault c i).ien = s.ien := rfl
@[simp] theorem State.takeFault_busy (s : State) (c : Cause) (i : Word) : (s.takeFault c i).busy = false := rfl
@[simp] theorem State.takeFault_done (s : State) (c : Cause) (i : Word) : (s.takeFault c i).done = false := rfl
@[simp] theorem State.takeFault_fault (s : State) (c : Cause) (i : Word) : (s.takeFault c i).fault = true := rfl
@[simp] theorem State.takeFault_cmd (s : State) (c : Cause) (i : Word) : (s.takeFault c i).cmd = s.cmd := rfl
@[simp] theorem State.takeFault_fcode (s : State) (c : Cause) (i : Word) : (s.takeFault c i).fcode = c.code := rfl
@[simp] theorem State.takeFault_finfo (s : State) (c : Cause) (i : Word) : (s.takeFault c i).finfo = i := rfl
@[simp] theorem State.takeFault_tree (s : State) (c : Cause) (i : Word) : (s.takeFault c i).tree = none := rfl
@[simp] theorem State.takeFault_mem (s : State) (c : Cause) (i : Word) : (s.takeFault c i).mem = Memory.blank := rfl
@[simp] theorem State.takeFault_turns (s : State) (c : Cause) (i : Word) : (s.takeFault c i).turns = s.turns := rfl
@[simp] theorem State.takeFault_resp (s : State) (c : Cause) (i : Word) : (s.takeFault c i).resp = s.resp := rfl
@[simp] theorem State.takeFault_epoch (s : State) (c : Cause) (i : Word) : (s.takeFault c i).epoch = s.epoch + 1 := rfl

@[simp] theorem State.resetBlock_cfg (s : State) : s.resetBlock.cfg = s.cfg := rfl
@[simp] theorem State.resetBlock_ien (s : State) : s.resetBlock.ien = false := rfl
@[simp] theorem State.resetBlock_busy (s : State) : s.resetBlock.busy = false := rfl
@[simp] theorem State.resetBlock_done (s : State) : s.resetBlock.done = false := rfl
@[simp] theorem State.resetBlock_fault (s : State) : s.resetBlock.fault = false := rfl
@[simp] theorem State.resetBlock_cmd (s : State) : s.resetBlock.cmd = 0#32 := rfl
@[simp] theorem State.resetBlock_fcode (s : State) : s.resetBlock.fcode = 0#8 := rfl
@[simp] theorem State.resetBlock_finfo (s : State) : s.resetBlock.finfo = 0#32 := rfl
@[simp] theorem State.resetBlock_ilen (s : State) : s.resetBlock.ilen = 0#32 := rfl
@[simp] theorem State.resetBlock_icur (s : State) : s.resetBlock.icur = 0#32 := rfl
@[simp] theorem State.resetBlock_olen (s : State) : s.resetBlock.olen = 0#32 := rfl
@[simp] theorem State.resetBlock_pad (s : State) : s.resetBlock.pad = 0#3 := rfl
@[simp] theorem State.resetBlock_totbits (s : State) : s.resetBlock.totbits = 0#40 := rfl
@[simp] theorem State.resetBlock_tplen (s : State) : s.resetBlock.tplen = 0#32 := rfl
@[simp] theorem State.resetBlock_extlen (s : State) : s.resetBlock.extlen = 0#32 := rfl
@[simp] theorem State.resetBlock_sent (s : State) : s.resetBlock.sent = 0#8 := rfl
@[simp] theorem State.resetBlock_ncount (s : State) : s.resetBlock.ncount = 0#32 := rfl
@[simp] theorem State.resetBlock_root (s : State) : s.resetBlock.root = 0 := rfl
@[simp] theorem State.resetBlock_freq (s : State) : s.resetBlock.freq = FreqTable.empty := rfl
@[simp] theorem State.resetBlock_code (s : State) : s.resetBlock.code = CodeTable.empty := rfl
@[simp] theorem State.resetBlock_tree (s : State) : s.resetBlock.tree = none := rfl
@[simp] theorem State.resetBlock_mem (s : State) : s.resetBlock.mem = Memory.blank := rfl
@[simp] theorem State.resetBlock_turns (s : State) : s.resetBlock.turns = s.turns := rfl
@[simp] theorem State.resetBlock_resp (s : State) : s.resetBlock.resp = s.resp := rfl
@[simp] theorem State.resetBlock_epoch (s : State) : s.resetBlock.epoch = s.epoch + 1 := rfl

/-! ### The output stream of a state -/

@[simp] theorem State.outPort_cap (s : State) : s.outPort.cap = s.cfg.obufCap := rfl
@[simp] theorem State.outPort_len (s : State) : s.outPort.len = s.olen := rfl
@[simp] theorem State.outPort_cells (s : State) : s.outPort.cells = s.mem.obuf := rfl

end Sys2Proof.Machine
end

