-- ==== Sys2Proof/Laws/Memory.lean ====
section
/-! SUPPORT. Memory: a read after a write, the canonical form, MemRead and MemWrite (spec 20_memory R70, R71). -/

namespace Sys2Proof.Machine

/-! ### One buffer -/

theorem lookupCell_storeCell_same (l : List Host.Cell) (x : Nat) (v : Byte) : lookupCell (storeCell l x v) x = some v := by
  induction l with
  | nil => simp [storeCell, lookupCell]
  | cons c rest ih =>
    obtain ⟨a, w⟩ := c
    unfold storeCell
    split_ifs with h1 h2
    · simp [lookupCell]
    · simp [lookupCell, h2]
    · simp [lookupCell, Ne.symm h2, ih]

theorem lookupCell_storeCell_ne (l : List Host.Cell) {x y : Nat} (v : Byte) (h : y ≠ x) :
    lookupCell (storeCell l x v) y = lookupCell l y := by
  induction l with
  | nil => simp [storeCell, lookupCell, Ne.symm h]
  | cons c rest ih =>
    obtain ⟨a, w⟩ := c
    unfold storeCell
    split_ifs with h1 h2
    · simp [lookupCell, Ne.symm h]
    · subst h2; simp [lookupCell, Ne.symm h]
    · simp [lookupCell, ih]

theorem lookupCell_storeCell (l : List Host.Cell) (x y : Nat) (v : Byte) :
    lookupCell (storeCell l x v) y = if y = x then some v else lookupCell l y := by
  split_ifs with h
  · subst h; exact lookupCell_storeCell_same l y v
  · exact lookupCell_storeCell_ne l v h

theorem lookupCell_storeCells_outside (bs : List Byte) (l : List Host.Cell) {x y : Nat} (h : y < x ∨ x + bs.length ≤ y) :
    lookupCell (storeCells l x bs) y = lookupCell l y := by
  induction bs generalizing l x with
  | nil => rfl
  | cons v vs ih =>
    simp only [List.length_cons] at h
    rw [storeCells, ih _ (by omega), lookupCell_storeCell_ne _ _ (by omega)]

theorem lookupCell_storeCells_inside (bs : List Byte) (l : List Host.Cell) (x i : Nat) (h : i < bs.length) :
    lookupCell (storeCells l x bs) (x + i) = some bs[i] := by
  induction bs generalizing l x i with
  | nil => simp at h
  | cons v vs ih =>
    rw [storeCells]
    cases i with
    | zero =>
      rw [lookupCell_storeCells_outside _ _ (by omega)]
      simpa using lookupCell_storeCell_same l x v
    | succ j =>
      have hj : j < vs.length := by simpa using h
      rw [show x + (j + 1) = x + 1 + j by omega, ih _ _ _ hj]
      simp

/-- Offsets rise and are above a bound, as a plain recursion. -/
theorem risingFrom_some_cons (b a : Nat) (v : Byte) (rest : List Host.Cell) :
    risingFrom (some b) ((a, v) :: rest) = true ↔ b < a ∧ risingFrom (some a) rest = true := by
  simp [risingFrom]

theorem risingFrom_none_of_some {b : Nat} {l : List Host.Cell} (h : risingFrom (some b) l = true) : risingFrom none l = true := by
  cases l with
  | nil => rfl
  | cons c rest => obtain ⟨a, v⟩ := c; exact ((risingFrom_some_cons b a v rest).mp h).2

theorem risingFrom_storeCell {b : Nat} (l : List Host.Cell) {x : Nat} (v : Byte) (hl : risingFrom (some b) l = true) (hx : b < x) :
    risingFrom (some b) (storeCell l x v) = true := by
  induction l generalizing b with
  | nil => simp [storeCell, risingFrom, hx]
  | cons c rest ih =>
    obtain ⟨a, w⟩ := c
    obtain ⟨hba, hrest⟩ := (risingFrom_some_cons b a w rest).mp hl
    unfold storeCell
    split_ifs with h1 h2
    · simp [risingFrom, hx, h1, hrest]
    · simp [risingFrom, hba, hrest]
    · rw [risingFrom_some_cons]
      exact ⟨hba, ih hrest (by omega)⟩

theorem cellsWf_storeCell (l : List Host.Cell) (x : Nat) (v : Byte) (h : cellsWf l = true) : cellsWf (storeCell l x v) = true := by
  unfold cellsWf at *
  cases l with
  | nil => simp [storeCell, risingFrom]
  | cons c rest =>
    obtain ⟨a, w⟩ := c
    have hrest : risingFrom (some a) rest = true := by simpa [risingFrom] using h
    unfold storeCell
    split_ifs with h1 h2
    · simp [risingFrom, h1, hrest]
    · simpa [risingFrom] using hrest
    · simpa [risingFrom] using risingFrom_storeCell rest v hrest (by omega)

theorem cellsWf_storeCells (bs : List Byte) (l : List Host.Cell) (x : Nat) (h : cellsWf l = true) :
    cellsWf (storeCells l x bs) = true := by
  induction bs generalizing l x with
  | nil => exact h
  | cons v vs ih => exact ih _ _ (cellsWf_storeCell l x v h)

/-! ### The four buffers -/

@[simp] theorem Memory.cells_ibuf (m : Memory) : m.cells .ibuf = m.ibuf := rfl
@[simp] theorem Memory.cells_obuf (m : Memory) : m.cells .obuf = m.obuf := rfl
@[simp] theorem Memory.cells_tpkt (m : Memory) : m.cells .tpkt = m.tpkt := rfl
@[simp] theorem Memory.cells_ext (m : Memory) : m.cells .ext = m.ext := rfl

@[simp] theorem Memory.cells_setCells_same (m : Memory) (sp : Space) (l : List Host.Cell) : (m.setCells sp l).cells sp = l := by
  cases sp <;> rfl

theorem Memory.cells_setCells_ne (m : Memory) {sp sp' : Space} (l : List Host.Cell) (h : sp' ≠ sp) :
    (m.setCells sp l).cells sp' = m.cells sp' := by
  cases sp <;> cases sp' <;> first | rfl | exact absurd rfl h

theorem Memory.wf_iff (m : Memory) : m.wf = true ↔ ∀ sp, cellsWf (m.cells sp) = true := by
  constructor
  · intro h sp
    simp only [Memory.wf, Bool.and_eq_true] at h
    cases sp <;> simp [Memory.cells, h]
  · intro h
    simp only [Memory.wf, Bool.and_eq_true]
    exact ⟨⟨⟨h .ibuf, h .obuf⟩, h .tpkt⟩, h .ext⟩

theorem Memory.wf_setCells (m : Memory) (sp : Space) (l : List Host.Cell) (hm : m.wf = true) (hl : cellsWf l = true) :
    (m.setCells sp l).wf = true := by
  rw [Memory.wf_iff] at *
  intro sp'
  by_cases h : sp' = sp
  · subst h; simpa using hl
  · rw [Memory.cells_setCells_ne m l h]; exact hm sp'

@[simp] theorem Memory.blank_cells (sp : Space) : Memory.blank.cells sp = [] := by cases sp <;> rfl

theorem Memory.wf_blank : Memory.blank.wf = true := rfl

/-! ### Bytes of a state -/

theorem State.readByte_congr {s t : State} {sp : Space} (hm : t.mem.cells sp = s.mem.cells sp) (he : t.epoch = s.epoch) (a : Nat) :
    t.readByte sp a = s.readByte sp a := by simp [State.readByte, hm, he]

theorem State.readByte_writeByte_same (s : State) (sp : Space) (a : Nat) (v : Byte) : (s.writeByte sp a v).readByte sp a = v := by
  simp [State.readByte, lookupCell_storeCell_same]

theorem State.readByte_writeByte_ne (s : State) (sp : Space) {a b : Nat} (v : Byte) (h : b ≠ a) :
    (s.writeByte sp a v).readByte sp b = s.readByte sp b := by
  simp [State.readByte, lookupCell_storeCell_ne _ v h]

theorem State.readByte_writeByte_space (s : State) {sp sp' : Space} (a b : Nat) (v : Byte) (h : sp' ≠ sp) :
    (s.writeByte sp a v).readByte sp' b = s.readByte sp' b := by
  simp [State.readByte, Memory.cells_setCells_ne _ _ h]

@[simp] theorem State.bytesFrom_length (s : State) (sp : Space) (off n : Nat) : (s.bytesFrom sp off n).length = n := by
  simp [State.bytesFrom]

@[simp] theorem State.bytesFrom_getElem (s : State) (sp : Space) (off n i : Nat) (h : i < (s.bytesFrom sp off n).length) :
    (s.bytesFrom sp off n)[i] = s.readByte sp (off + i) := by
  simp [State.bytesFrom]

@[simp] theorem State.bytesFrom_zero (s : State) (sp : Space) (off : Nat) : s.bytesFrom sp off 0 = [] := rfl

theorem State.bytesFrom_add (s : State) (sp : Space) (off m n : Nat) :
    s.bytesFrom sp off (m + n) = s.bytesFrom sp off m ++ s.bytesFrom sp (off + m) n := by
  simp [State.bytesFrom, List.range_add, Function.comp_def, Nat.add_assoc]

theorem State.bytesFrom_congr {s t : State} {sp : Space} {off n : Nat}
    (h : ∀ i, i < n → t.readByte sp (off + i) = s.readByte sp (off + i)) : t.bytesFrom sp off n = s.bytesFrom sp off n := by
  refine List.map_congr_left fun i hi => h i (by simpa using hi)

/-- The bytes from an offset are a list exactly when each of them is. -/
theorem State.bytesFrom_eq_iff (s : State) (sp : Space) (off : Nat) (bs : List Byte) :
    s.bytesFrom sp off bs.length = bs ↔ ∀ i (h : i < bs.length), s.readByte sp (off + i) = bs[i] := by
  constructor
  · intro h i hi
    rw [← s.bytesFrom_getElem sp off bs.length i (by simpa using hi)]
    simp [h]
  · intro h
    refine List.ext_getElem (by simp) fun i h1 h2 => ?_
    rw [s.bytesFrom_getElem]
    exact h i h2

/-! ### MemRead and MemWrite -/

theorem memRead_ok {s : State} {sp : Space} {off n : Nat} (h : n = 0 ∨ off + n ≤ s.capacity sp) :
    memRead s sp off n = .ok (s.bytesFrom sp off n) := if_pos h

theorem memRead_eq_ok {s : State} {sp : Space} {off n : Nat} {bs : List Byte} (h : memRead s sp off n = .ok bs) :
    bs = s.bytesFrom sp off n ∧ (n = 0 ∨ off + n ≤ s.capacity sp) := by
  unfold memRead at h
  split_ifs at h with hc
  exact ⟨(Except.ok.inj h).symm, hc⟩

theorem memRead_eq_error {s : State} {sp : Space} {off n : Nat} {e : Stop} (h : memRead s sp off n = .error e) :
    e = .outside sp ∧ n ≠ 0 ∧ s.capacity sp < off + n := by
  unfold memRead at h
  split_ifs at h with hc
  exact ⟨(Except.error.inj h).symm, by omega⟩

theorem memWrite_ok {s : State} {sp : Space} {off : Nat} {bs : List Byte} (h : bs = [] ∨ off + bs.length ≤ s.capacity sp) :
    memWrite s sp off bs = .ok { s with mem := s.mem.setCells sp (storeCells (s.mem.cells sp) off bs) } := if_pos h

theorem memWrite_eq_ok {s t : State} {sp : Space} {off : Nat} {bs : List Byte} (h : memWrite s sp off bs = .ok t) :
    t = { s with mem := s.mem.setCells sp (storeCells (s.mem.cells sp) off bs) }
      ∧ (bs = [] ∨ off + bs.length ≤ s.capacity sp) := by
  unfold memWrite at h
  split_ifs at h with hc
  exact ⟨(Except.ok.inj h).symm, hc⟩

theorem memWrite_eq_error {s : State} {sp : Space} {off : Nat} {bs : List Byte} {e : Stop} (h : memWrite s sp off bs = .error e) :
    e = .outside sp ∧ bs ≠ [] ∧ s.capacity sp < off + bs.length := by
  unfold memWrite at h
  split_ifs at h with hc
  refine ⟨(Except.error.inj h).symm, ?_⟩
  rw [not_or] at hc
  exact ⟨hc.1, by omega⟩

/-- The bytes a MemWrite leaves: its own inside, the earlier ones everywhere else. -/
theorem readByte_storeCells_inside (s : State) (sp : Space) (off i : Nat) (bs : List Byte) (h : i < bs.length) :
    ({ s with mem := s.mem.setCells sp (storeCells (s.mem.cells sp) off bs) } : State).readByte sp (off + i) = bs[i] := by
  simp [State.readByte, lookupCell_storeCells_inside _ _ _ _ h]

theorem readByte_storeCells_outside (s : State) (sp : Space) {off a : Nat} (bs : List Byte) (h : a < off ∨ off + bs.length ≤ a) :
    ({ s with mem := s.mem.setCells sp (storeCells (s.mem.cells sp) off bs) } : State).readByte sp a = s.readByte sp a := by
  simp [State.readByte, lookupCell_storeCells_outside _ _ h]

theorem readByte_storeCells_space (s : State) {sp sp' : Space} (off a : Nat) (bs : List Byte) (h : sp' ≠ sp) :
    ({ s with mem := s.mem.setCells sp (storeCells (s.mem.cells sp) off bs) } : State).readByte sp' a = s.readByte sp' a := by
  simp [State.readByte, Memory.cells_setCells_ne _ _ h]

/-! ### Every memory operation keeps the canonical form -/

theorem State.writeByte_wf (s : State) (sp : Space) (a : Nat) (v : Byte) (h : s.mem.wf = true) : (s.writeByte sp a v).mem.wf = true :=
  Memory.wf_setCells _ _ _ h (cellsWf_storeCell _ _ _ ((Memory.wf_iff _).mp h sp))

theorem memWrite_wf {s t : State} {sp : Space} {off : Nat} {bs : List Byte} (h : memWrite s sp off bs = .ok t)
    (hs : s.mem.wf = true) : t.mem.wf = true := by
  rw [(memWrite_eq_ok h).1]
  exact Memory.wf_setCells _ _ _ hs (cellsWf_storeCells _ _ _ ((Memory.wf_iff _).mp hs sp))

theorem State.reset_mem_wf : State.reset.mem.wf = true := rfl

end Sys2Proof.Machine
end

