-- ==== Sys2Proof/Laws/Bits.lean ====
section
/-! SUPPORT. Bits and integers: byte and bits8 are inverse (spec 00_scope R14), i2b4 and b2i are inverse (R15), the bits of a byte
list. -/

namespace Sys2Proof.Machine

@[simp] theorem bits8_length (v : Byte) : (bits8 v).length = 8 := rfl

theorem byteOfBits_bits8 (v : Byte) : byteOfBits (bits8 v) = v := by
  revert v
  decide +kernel

theorem bits8_byteOfBits : ∀ b0 b1 b2 b3 b4 b5 b6 b7 : Bool,
    bits8 (byteOfBits [b0, b1, b2, b3, b4, b5, b6, b7]) = [b0, b1, b2, b3, b4, b5, b6, b7] := by
  decide +kernel

theorem bits8_byteOfBits_of_length {s : BitString} (h : s.length = 8) : bits8 (byteOfBits s) = s := by
  match s, h with
  | [b0, b1, b2, b3, b4, b5, b6, b7], _ => exact bits8_byteOfBits ..

@[simp] theorem bitsOf_nil : bitsOf [] = [] := rfl
@[simp] theorem bitsOf_cons (b : Byte) (bs : List Byte) : bitsOf (b :: bs) = bits8 b ++ bitsOf bs := rfl
@[simp] theorem bitsOf_append (as bs : List Byte) : bitsOf (as ++ bs) = bitsOf as ++ bitsOf bs := by simp [bitsOf]

@[simp] theorem bitsOf_length (bs : List Byte) : (bitsOf bs).length = 8 * bs.length := by
  induction bs with
  | nil => rfl
  | cons b bs ih => rw [bitsOf_cons, List.length_append, ih, bits8_length, List.length_cons]; omega

/-! ### Integers -/

theorem Word.toInt_neg_iff (v : Word) : v.toInt < 0 ↔ 2 ^ 31 ≤ v.toNat := by
  rw [BitVec.toInt_eq_toNat_cond]
  have := v.isLt
  split <;> omega

/-- The four bytes of a non-negative int32. -/
def bytesOfWord (v : Word) : List Byte :=
  [v.extractLsb' 24 8, v.extractLsb' 16 8, v.extractLsb' 8 8, v.extractLsb' 0 8]

@[simp] theorem bytesOfWord_length (v : Word) : (bytesOfWord v).length = 4 := rfl

theorem i2b4_ok {v : Word} (h : v.toNat < 2 ^ 31) : i2b4 v = .ok (bytesOfWord v) := by
  have h' : ¬ v.toInt < 0 := by rw [Word.toInt_neg_iff]; omega
  simp [i2b4, h', bytesOfWord]

theorem i2b4_neg {v : Word} (h : 2 ^ 31 ≤ v.toNat) : i2b4 v = .error .negativeInteger := by
  have h' : v.toInt < 0 := by rw [Word.toInt_neg_iff]; omega
  simp [i2b4, h']

theorem i2b4_eq_ok {v : Word} {bs : List Byte} (h : i2b4 v = .ok bs) : v.toNat < 2 ^ 31 ∧ bs = bytesOfWord v := by
  by_cases hv : v.toNat < 2 ^ 31
  · rw [i2b4_ok hv] at h; exact ⟨hv, (Except.ok.inj h).symm⟩
  · rw [i2b4_neg (by omega)] at h; cases h

/-- A number below 2^32 is the sum of its four bytes. -/
theorem bytes_sum (n : Nat) (h : n < 4294967296) :
    (n / 16777216 % 256 * 16777216 + n / 65536 % 256 * 65536 + n / 256 % 256 * 256 + n % 256) % 4294967296 = n := by
  omega

theorem word_of_bytes (v : Word) :
    BitVec.ofNat 32 ((v.extractLsb' 24 8).toNat * 2 ^ 24 + (v.extractLsb' 16 8).toNat * 2 ^ 16
      + (v.extractLsb' 8 8).toNat * 2 ^ 8 + (v.extractLsb' 0 8).toNat) = v := by
  apply BitVec.eq_of_toNat_eq
  have h := v.isLt
  simp only [BitVec.toNat_ofNat, BitVec.extractLsb'_toNat, Nat.shiftRight_eq_div_pow, Nat.reducePow] at *
  simpa using bytes_sum v.toNat h

theorem b2i_four (b0 b1 b2 b3 : Byte) : b2i [b0, b1, b2, b3]
    = .ok (BitVec.ofNat 32 (b0.toNat * 2 ^ 24 + b1.toNat * 2 ^ 16 + b2.toNat * 2 ^ 8 + b3.toNat)) := rfl

theorem b2i_bytesOfWord (v : Word) : b2i (bytesOfWord v) = .ok v := by
  rw [bytesOfWord, b2i_four, word_of_bytes]

/-- The bytes of a sum of four bytes are those bytes. -/
theorem sum_bytes (a b c d : Nat) (ha : a < 256) (hb : b < 256) (hc : c < 256) (hd : d < 256) :
    (a * 16777216 + b * 65536 + c * 256 + d) % 4294967296 / 16777216 % 256 = a
      ∧ (a * 16777216 + b * 65536 + c * 256 + d) % 4294967296 / 65536 % 256 = b
      ∧ (a * 16777216 + b * 65536 + c * 256 + d) % 4294967296 / 256 % 256 = c
      ∧ (a * 16777216 + b * 65536 + c * 256 + d) % 4294967296 % 256 = d := by
  refine ⟨?_, ?_, ?_, ?_⟩ <;> omega

theorem bytesOfWord_sum (b0 b1 b2 b3 : Byte) :
    bytesOfWord (BitVec.ofNat 32 (b0.toNat * 2 ^ 24 + b1.toNat * 2 ^ 16 + b2.toNat * 2 ^ 8 + b3.toNat)) = [b0, b1, b2, b3] := by
  have h := sum_bytes b0.toNat b1.toNat b2.toNat b3.toNat b0.isLt b1.isLt b2.isLt b3.isLt
  simp only [bytesOfWord, List.cons.injEq, and_true]
  refine ⟨?_, ?_, ?_, ?_⟩ <;> apply BitVec.eq_of_toNat_eq <;>
    rw [BitVec.extractLsb'_toNat, BitVec.toNat_ofNat, Nat.shiftRight_eq_div_pow] <;>
    simp only [Nat.reducePow, Nat.div_one]
  · rw [h.1]
  · rw [h.2.1]
  · rw [h.2.2.1]
  · rw [h.2.2.2]

theorem bytesOfWord_b2i (b0 b1 b2 b3 : Byte) (v : Word) (h : b2i [b0, b1, b2, b3] = .ok v) : bytesOfWord v = [b0, b1, b2, b3] := by
  rw [b2i_four] at h
  rw [← Except.ok.inj h]
  exact bytesOfWord_sum b0 b1 b2 b3

theorem b2i_eq_ok {bs : List Byte} {v : Word} (h : b2i bs = .ok v) : bs = bytesOfWord v := by
  match bs, h with
  | [b0, b1, b2, b3], h => exact (bytesOfWord_b2i b0 b1 b2 b3 v h).symm

theorem b2i_short {bs : List Byte} (h : bs.length < 4) : b2i bs = .error .wrongSizeInteger := by
  match bs, h with
  | [], _ | [_], _ | [_, _], _ | [_, _, _], _ => rfl

theorem b2i_of_length {bs : List Byte} (h : bs.length = 4) : ∃ v, b2i bs = .ok v := by
  match bs, h with
  | [_, _, _, _], _ => exact ⟨_, rfl⟩

/-- `raising` says what its conversion says. -/
@[simp] theorem raising_ok {α : Type} (i : Nat) (a : α) : raising i (Except.ok a) = .ok a := rfl
@[simp] theorem raising_error {α : Type} (i : Nat) (c : Cause) : raising (α := α) i (.error c) = raise c i := rfl

end Sys2Proof.Machine
end

