-- ==== Sys2Proof/Laws/Output.lean ====
section
/-! SUPPORT. The output stream: everything `emit`, `emitAll` and `drain` can do (spec 20_memory R72, 46_pack R231). -/

namespace Sys2Proof.Machine

/-- The stream after bytes that fit. -/
def OutPort.extend (o : OutPort) (bs : List Byte) : OutPort :=
  { o with len := o.len + BitVec.ofNat 32 bs.length, cells := storeCells o.cells o.len.toNat bs }

/-- The bytes fit, and the capacity is one the spec allows (R7). -/
def OutPort.fits (o : OutPort) (n : Nat) : Prop := o.len.toNat + n ≤ o.cap ∧ o.cap ≤ 2 ^ 25

@[simp] theorem OutPort.extend_cap (o : OutPort) (bs : List Byte) : (o.extend bs).cap = o.cap := rfl
@[simp] theorem OutPort.extend_cells (o : OutPort) (bs : List Byte) : (o.extend bs).cells = storeCells o.cells o.len.toNat bs := rfl
@[simp] theorem OutPort.extend_nil (o : OutPort) : o.extend [] = o := by
  simp [OutPort.extend, storeCells]

theorem OutPort.extend_len {o : OutPort} {bs : List Byte} (h : o.fits bs.length) :
    (o.extend bs).len.toNat = o.len.toNat + bs.length := by
  obtain ⟨h1, h2⟩ := h
  simp only [OutPort.extend, BitVec.toNat_add, BitVec.toNat_ofNat]
  omega

theorem OutPort.fits_mono {o : OutPort} {m n : Nat} (h : o.fits n) (hmn : m ≤ n) : o.fits m := ⟨by have := h.1; omega, h.2⟩

theorem OutPort.fits_extend {o : OutPort} {bs : List Byte} {n : Nat} (h : o.fits (bs.length + n)) : (o.extend bs).fits n := by
  have hl := OutPort.extend_len (OutPort.fits_mono h (Nat.le_add_right bs.length n))
  exact ⟨by rw [hl]; have := h.1; simp; omega, h.2⟩

theorem storeCells_append (l : List Host.Cell) (x : Nat) (as bs : List Byte) :
    storeCells l x (as ++ bs) = storeCells (storeCells l x as) (x + as.length) bs := by
  induction as generalizing l x with
  | nil => rfl
  | cons a as ih =>
    simp only [List.cons_append, storeCells, ih, List.length_cons]
    rw [show x + 1 + as.length = x + (as.length + 1) by omega]

theorem OutPort.extend_append {o : OutPort} {as bs : List Byte} (h : o.fits (as.length + bs.length)) :
    (o.extend as).extend bs = o.extend (as ++ bs) := by
  have hl := OutPort.extend_len (OutPort.fits_mono h (Nat.le_add_right _ _))
  have h1 : (o.extend as).extend bs = ⟨o.cap, (o.extend as).len + BitVec.ofNat 32 bs.length,
      storeCells (storeCells o.cells o.len.toNat as) (o.extend as).len.toNat bs⟩ := rfl
  rw [h1, hl, ← storeCells_append]
  simp [OutPort.extend, BitVec.ofNat_add, BitVec.add_assoc]

/-! ### emit -/

theorem emit_ok {o : OutPort} (v : Byte) (h : o.fits 1) : emit v o = .ok (o.extend [v]) := by
  have : ¬ o.cap ≤ o.len.toNat := by have := h.1; omega
  simp [emit, this, OutPort.extend, storeCells]

theorem emit_full {o : OutPort} (v : Byte) (h : o.cap ≤ o.len.toNat) : emit v o = .error (.raise .outputOverflow o.len) := by
  simp [emit, h]

/-- Everything `emit` can do: append the byte below the capacity, or raise OutputOverflow(OLEN). -/
theorem emit_cases (v : Byte) (o : OutPort) :
    (o.len.toNat < o.cap ∧ emit v o = .ok (o.extend [v]))
      ∨ (o.cap ≤ o.len.toNat ∧ emit v o = .error (.raise .outputOverflow o.len)) := by
  by_cases h : o.cap ≤ o.len.toNat
  · exact .inr ⟨h, emit_full v h⟩
  · exact .inl ⟨by omega, by simp [emit, h, OutPort.extend, storeCells]⟩

/-- A stream that grew from another by appending bytes below the capacity. -/
inductive OutPort.Grew : OutPort → List Byte → OutPort → Prop where
  | refl (o : OutPort) : Grew o [] o
  | step {o o' : OutPort} {v : Byte} {vs : List Byte} (h : o.len.toNat < o.cap) (t : Grew (o.extend [v]) vs o') :
      Grew o (v :: vs) o'

theorem OutPort.Grew.append {o o' o'' : OutPort} {as bs : List Byte} (h : o.Grew as o') (h' : o'.Grew bs o'') :
    o.Grew (as ++ bs) o'' := by
  induction h with
  | refl => exact h'
  | step hl _ ih => exact .step hl (ih h')

theorem OutPort.Grew.cap {o o' : OutPort} {as : List Byte} (h : o.Grew as o') : o'.cap = o.cap := by
  induction h with
  | refl => rfl
  | step _ _ ih => simpa using ih

/-- Under a capacity the spec allows, growing is extending by bytes that fit. -/
theorem OutPort.Grew.eq_extend {o o' : OutPort} {as : List Byte} (h : o.Grew as o') (hc : o.cap ≤ 2 ^ 25)
    (hl : o.len.toNat ≤ o.cap) : o.fits as.length ∧ o' = o.extend as := by
  induction h with
  | refl o => exact ⟨⟨by simpa using hl, hc⟩, by simp⟩
  | @step o o' v vs h t ih =>
    have hf1 : o.fits ([v] : List Byte).length := ⟨by simp; omega, hc⟩
    have hl1 := OutPort.extend_len hf1
    obtain ⟨hf, rfl⟩ := ih hc (by rw [hl1]; simpa using h)
    have hfit : o.fits (([v] : List Byte).length + vs.length) := ⟨by have := hf.1; rw [hl1] at this; simp at this ⊢; omega, hc⟩
    refine ⟨by simpa [Nat.add_comm] using hfit, ?_⟩
    rw [OutPort.extend_append hfit]; rfl

theorem OutPort.grew_of_fits {o : OutPort} {as : List Byte} (h : o.fits as.length) : o.Grew as (o.extend as) := by
  induction as generalizing o with
  | nil => simpa using OutPort.Grew.refl o
  | cons a as ih =>
    have h' : o.fits (([a] : List Byte).length + as.length) := by simpa [Nat.add_comm] using h
    have := ih (OutPort.fits_extend h')
    rw [OutPort.extend_append h'] at this
    exact .step (by have := h.1; simp at this; omega) this

/-! ### emitAll -/

theorem emitAll_ok {o : OutPort} {bs : List Byte} (h : o.fits bs.length) : emitAll bs o = .ok (o.extend bs) := by
  induction bs generalizing o with
  | nil => simp [emitAll]
  | cons b bs ih =>
    have h' : o.fits (([b] : List Byte).length + bs.length) := by simpa [Nat.add_comm] using h
    rw [emitAll, emit_ok b (OutPort.fits_mono h (by simp))]
    simp only [Except.bind]
    rw [ih (OutPort.fits_extend h'), OutPort.extend_append h']
    rfl

/-- Everything `emitAll` can do. -/
theorem emitAll_cases (bs : List Byte) (o : OutPort) :
    (∃ o', emitAll bs o = .ok o' ∧ o.Grew bs o') ∨ (∃ i, emitAll bs o = .error (.raise .outputOverflow i)) := by
  induction bs generalizing o with
  | nil => exact .inl ⟨o, rfl, .refl o⟩
  | cons b bs ih =>
    rcases emit_cases b o with ⟨h, he⟩ | ⟨_, he⟩
    · rcases ih (o.extend [b]) with ⟨o', h1, h2⟩ | ⟨i, h1⟩
      · exact .inl ⟨o', by simp [emitAll, he, Except.bind, h1], .step h h2⟩
      · exact .inr ⟨i, by simp [emitAll, he, Except.bind, h1]⟩
    · exact .inr ⟨o.len, by simp [emitAll, he, Except.bind]⟩

theorem emitAll_eq_ok {bs : List Byte} {o o' : OutPort} (h : emitAll bs o = .ok o') : o.Grew bs o' := by
  rcases emitAll_cases bs o with ⟨o'', h1, h2⟩ | ⟨i, h1⟩
  · rw [h1] at h; cases h; exact h2
  · rw [h1] at h; cases h

/-! ### Putting the stream back -/

/-- The bytes of the output stream after an append: earlier ones below, the new ones, later ones above; and no other buffer. -/
theorem readByte_setOutPort_obuf_inside (s : State) (bs : List Byte) (i : Nat) (h : i < bs.length) :
    (s.setOutPort (s.outPort.extend bs)).readByte .obuf (s.olen.toNat + i) = bs[i] := by
  simp [State.readByte, lookupCell_storeCells_inside _ _ _ _ h]

theorem readByte_setOutPort_obuf_outside (s : State) (bs : List Byte) (a : Nat)
    (h : a < s.olen.toNat ∨ s.olen.toNat + bs.length ≤ a) :
    (s.setOutPort (s.outPort.extend bs)).readByte .obuf a = s.readByte .obuf a := by
  simp [State.readByte, lookupCell_storeCells_outside _ _ h]

theorem readByte_setOutPort_space (s : State) (o : OutPort) {sp : Space} (h : sp ≠ .obuf) (a : Nat) :
    (s.setOutPort o).readByte sp a = s.readByte sp a := by
  cases sp <;> first | rfl | exact absurd rfl h

/-- The output stream after an append is the earlier stream and the new bytes. -/
theorem bytesFrom_setOutPort (s : State) (bs : List Byte) (h : s.outPort.fits bs.length) :
    (s.setOutPort (s.outPort.extend bs)).bytesFrom .obuf 0 (s.setOutPort (s.outPort.extend bs)).olen.toNat
      = s.bytesFrom .obuf 0 s.olen.toNat ++ bs := by
  have hl : (s.setOutPort (s.outPort.extend bs)).olen.toNat = s.olen.toNat + bs.length := OutPort.extend_len h
  rw [hl, State.bytesFrom_add, Nat.zero_add]
  congr 1
  · exact State.bytesFrom_congr fun i hi => by
      rw [Nat.zero_add]; exact readByte_setOutPort_obuf_outside s bs i (.inl hi)
  · rw [State.bytesFrom_eq_iff]
    exact fun i hi => readByte_setOutPort_obuf_inside s bs i hi

end Sys2Proof.Machine
end

