-- ==== Sys2Proof/Laws/Packet.lean ====
section
/-! SUPPORT. TreePackets: what writing records, parsing them and linking them can do (spec 44_treecodec R190 to R212). -/

namespace Sys2Proof.Machine

theorem Tree.size_pos (t : Tree) : 0 < t.size := by
  cases t <;> rw [Tree.size] <;> omega

@[simp] theorem Tree.records_length (t : Tree) : t.records.length = t.size := by
  induction t with
  | leaf => rfl
  | rightOnly _ _ _ _ ih => simp [Tree.records, Tree.size, ih]; omega
  | leftOnly _ _ _ _ ih => simp [Tree.records, Tree.size, ih]; omega
  | both _ _ _ _ _ ihl ihr => simp [Tree.records, Tree.size, ihl, ihr]; omega

@[simp] theorem packetRecord_length (r : TreeRecord) : (packetRecord r).length = 6 := rfl

theorem packetRecord_eq (r : TreeRecord) : packetRecord r = r.value :: (bytesOfWord r.freq ++ [r.flag]) := rfl

@[simp] theorem flatMap_packetRecord_length (rs : List TreeRecord) : (rs.flatMap packetRecord).length = 6 * rs.length := by
  induction rs with
  | nil => rfl
  | cons r rs ih => rw [List.flatMap_cons, List.length_append, ih, packetRecord_length, List.length_cons]; omega

@[simp] theorem packetOf_length (t : Tree) : (packetOf t).length = 6 * t.size := by
  rw [packetOf, flatMap_packetRecord_length, Tree.records_length]

/-! ### Writing records -/

theorem recordsBytes_ok {rs : List TreeRecord} (pos : Nat) (h : ∀ r ∈ rs, r.freq.toNat < 2 ^ 31) :
    recordsBytes pos rs = .ok (rs.flatMap packetRecord) := by
  induction rs generalizing pos with
  | nil => rfl
  | cons r rs ih =>
    have h1 : recordBytes pos r = .ok (packetRecord r) := by
      simp [recordBytes, i2b4_ok (h r (by simp)), packetRecord_eq]
    simp [recordsBytes, h1, ih (pos + 1) fun q hq => h q (by simp [hq])]

/-- Everything writing records can do: all six-byte records, or NegativeInteger at the first negative frequency. -/
theorem recordsBytes_cases (pos : Nat) (rs : List TreeRecord) :
    ((∀ r ∈ rs, r.freq.toNat < 2 ^ 31) ∧ recordsBytes pos rs = .ok (rs.flatMap packetRecord))
      ∨ ∃ j, ∃ hj : j < rs.length, 2 ^ 31 ≤ (rs[j]).freq.toNat ∧ (∀ i (_ : i < j), (rs[i]).freq.toNat < 2 ^ 31)
          ∧ recordsBytes pos rs = raise .negativeInteger (pos + j) := by
  induction rs generalizing pos with
  | nil => exact .inl ⟨by simp, rfl⟩
  | cons r rs ih =>
    by_cases hr : r.freq.toNat < 2 ^ 31
    · have h1 : recordBytes pos r = .ok (packetRecord r) := by simp [recordBytes, i2b4_ok hr, packetRecord_eq]
      rcases ih (pos + 1) with ⟨ha, he⟩ | ⟨j, hj, hneg, hbefore, he⟩
      · exact .inl ⟨List.forall_mem_cons.mpr ⟨hr, ha⟩, by simp [recordsBytes, h1, he]⟩
      · refine .inr ⟨j + 1, by simpa using hj, by simpa using hneg, ?_, ?_⟩
        · intro i hi
          cases i with
          | zero => simpa using hr
          | succ i => simpa using hbefore i (by omega)
        · rw [show pos + (j + 1) = pos + 1 + j by omega]
          simp [recordsBytes, h1, he, raise]
    · have hr' : 2 ^ 31 ≤ r.freq.toNat := by omega
      refine .inr ⟨0, by simp, by simpa using hr', by simp, ?_⟩
      have h1 : recordBytes pos r = raise .negativeInteger pos := by
        rw [recordBytes, i2b4_neg hr']; rfl
      simp [recordsBytes, h1, raise]

theorem treePacket_ok {t : Tree} (h : noNegative t) : treePacket t = .ok (packetOf t) := recordsBytes_ok 0 h

theorem treePacket_eq_ok {t : Tree} {bs : List Byte} (h : treePacket t = .ok bs) : noNegative t ∧ bs = packetOf t := by
  rcases recordsBytes_cases 0 t.records with ⟨ha, he⟩ | ⟨j, _, _, _, he⟩
  · rw [treePacket, he] at h; exact ⟨ha, (Except.ok.inj h).symm⟩
  · rw [treePacket, he] at h; cases h

/-! ### Parsing -/

theorem parseRecords_cons (k : Nat) (r : TreeRecord) (rest : List Byte) : parseRecords k (packetRecord r ++ rest)
    = if isFlag r.flag then
        match parseRecords (k + 1) rest with
        | .error e => .error e
        | .ok rs => .ok (r :: rs)
      else raise .badFlag k := by
  have h := b2i_bytesOfWord r.freq
  rw [bytesOfWord] at h
  simp only [packetRecord, List.cons_append, List.nil_append, parseRecords, h, raising_ok] <;> rfl

theorem parseRecords_ok (k : Nat) {rs : List TreeRecord} (h : ∀ r ∈ rs, isFlag r.flag = true) :
    parseRecords k (rs.flatMap packetRecord) = .ok rs := by
  induction rs generalizing k with
  | nil => rfl
  | cons r rs ih =>
    rw [List.flatMap_cons, parseRecords_cons, if_pos (h r (by simp)), ih (k + 1) fun q hq => h q (by simp [hq])]

/-- Any bytes whose number is a multiple of 6 are records. -/
theorem exists_records (n : Nat) (bs : List Byte) (h : bs.length = 6 * n) :
    ∃ rs : List TreeRecord, rs.length = n ∧ bs = rs.flatMap packetRecord := by
  induction n generalizing bs with
  | zero => exact ⟨[], rfl, by simpa using h⟩
  | succ n ih =>
    match bs, h with
    | v :: f3 :: f2 :: f1 :: f0 :: fl :: rest, h =>
      obtain ⟨rs, hl, hb⟩ := ih rest (by simp at h; omega)
      obtain ⟨w, hw⟩ := b2i_of_length (bs := [f3, f2, f1, f0]) rfl
      refine ⟨⟨v, w, fl⟩ :: rs, by simp [hl], ?_⟩
      have := bytesOfWord_b2i f3 f2 f1 f0 w hw
      rw [List.flatMap_cons, packetRecord_eq, this, ← hb]
      rfl

/-- Everything the parse phase can do on records: all of them, or BadFlag at the first that has no flag. -/
theorem parseRecords_cases (k : Nat) (rs : List TreeRecord) :
    ((∀ r ∈ rs, isFlag r.flag = true) ∧ parseRecords k (rs.flatMap packetRecord) = .ok rs)
      ∨ ∃ j, ∃ hj : j < rs.length, isFlag (rs[j]).flag = false ∧ (∀ i (_ : i < j), isFlag (rs[i]).flag = true)
          ∧ parseRecords k (rs.flatMap packetRecord) = raise .badFlag (k + j) := by
  induction rs generalizing k with
  | nil => exact .inl ⟨by simp, rfl⟩
  | cons r rs ih =>
    rw [List.flatMap_cons, parseRecords_cons]
    by_cases hr : isFlag r.flag = true
    · rw [if_pos hr]
      rcases ih (k + 1) with ⟨ha, he⟩ | ⟨j, hj, hbad, hbefore, he⟩
      · exact .inl ⟨by simpa [hr] using ha, by simp [he]⟩
      · refine .inr ⟨j + 1, by simpa using hj, by simpa using hbad, ?_, ?_⟩
        · intro i hi
          cases i with
          | zero => simpa using hr
          | succ i => simpa using hbefore i (by omega)
        · rw [show k + (j + 1) = k + 1 + j by omega]
          simp [he, raise]
    · rw [if_neg hr]
      exact .inr ⟨0, by simp, by simpa using hr, by simp, by simp⟩

theorem Tree.records_isFlag (t : Tree) : ∀ r ∈ t.records, isFlag r.flag = true := by
  induction t with
  | leaf => simp [Tree.records, isFlag]
  | rightOnly _ _ _ _ ih => simpa [Tree.records, isFlag] using ih
  | leftOnly _ _ _ _ ih => simpa [Tree.records, isFlag] using ih
  | both _ _ _ _ _ ihl ihr =>
    simp only [Tree.records, List.mem_cons, List.mem_append]
    rintro r (rfl | h | h)
    · rfl
    · exact ihl r h
    · exact ihr r h

/-! ### Linking -/

@[simp] theorem Tree.numbered_size (t : Tree) (k : Nat) : (t.numbered k).size = t.size := by
  induction t generalizing k with
  | leaf => rfl
  | rightOnly _ _ _ _ ih => simp [Tree.numbered, Tree.size, ih]
  | leftOnly _ _ _ _ ih => simp [Tree.numbered, Tree.size, ih]
  | both _ _ _ _ _ ihl ihr => simp [Tree.numbered, Tree.size, ihl, ihr]

@[simp] theorem Tree.numbered_records (t : Tree) (k : Nat) : (t.numbered k).records = t.records := by
  induction t generalizing k with
  | leaf => rfl
  | rightOnly _ _ _ _ ih => simp [Tree.numbered, Tree.records, ih]
  | leftOnly _ _ _ _ ih => simp [Tree.numbered, Tree.records, ih]
  | both _ _ _ _ _ ihl ihr => simp [Tree.numbered, Tree.records, ihl, ihr]

@[simp] theorem Tree.numbered_paths (t : Tree) (k : Nat) (p : BitString) : (t.numbered k).paths p = t.paths p := by
  induction t generalizing k p with
  | leaf => rfl
  | rightOnly _ _ _ _ ih => simp [Tree.numbered, Tree.paths, ih]
  | leftOnly _ _ _ _ ih => simp [Tree.numbered, Tree.paths, ih]
  | both _ _ _ _ _ ihl ihr => simp [Tree.numbered, Tree.paths, ihl, ihr]

@[simp] theorem Tree.numbered_index (t : Tree) (k : Nat) : (t.numbered k).index = k := by cases t <;> rfl

@[simp] theorem Tree.numbered_numbered (t : Tree) (j k : Nat) : (t.numbered j).numbered k = t.numbered k := by
  induction t generalizing j k with
  | leaf => rfl
  | rightOnly _ _ _ _ ih => simp [Tree.numbered, ih]
  | leftOnly _ _ _ _ ih => simp [Tree.numbered, ih]
  | both _ _ _ _ _ ihl ihr => simp [Tree.numbered, ihl, ihr]

/-- Linking the records of a tree gives that tree, numbered in pre-order, and leaves the rest unread. -/
theorem linkNode_records (t : Tree) (fuel parent k : Nat) (rest : List TreeRecord) (h : t.size ≤ fuel) :
    linkNode fuel parent k (t.records ++ rest) = .ok (t.numbered k, k + t.size, rest) := by
  induction t generalizing fuel parent k rest with
  | leaf i v f =>
    obtain ⟨fuel, rfl⟩ : ∃ n, fuel = n + 1 := ⟨fuel - 1, by simp [Tree.size] at h; omega⟩
    simp [Tree.records, linkNode, Tree.numbered, Tree.size]
  | rightOnly i v f r ih =>
    obtain ⟨fuel, rfl⟩ : ∃ n, fuel = n + 1 := ⟨fuel - 1, by simp [Tree.size] at h; omega⟩
    · have := ih fuel k (k + 1) rest (by simp [Tree.size] at h; omega)
      simp [Tree.records, linkNode, Tree.numbered, Tree.size, flagA, flagB, this]; omega
  | leftOnly i v f l ih =>
    obtain ⟨fuel, rfl⟩ : ∃ n, fuel = n + 1 := ⟨fuel - 1, by simp [Tree.size] at h; omega⟩
    · have := ih fuel k (k + 1) rest (by simp [Tree.size] at h; omega)
      simp [Tree.records, linkNode, Tree.numbered, Tree.size, flagA, flagB, flagC, this]; omega
  | both i v f l r ihl ihr =>
    obtain ⟨fuel, rfl⟩ : ∃ n, fuel = n + 1 := ⟨fuel - 1, by simp [Tree.size] at h; omega⟩
    · simp only [Tree.size] at h
      have h1 := ihl fuel k (k + 1) (r.records ++ rest) (by omega)
      have h2 := ihr fuel k (k + 1 + l.size) rest (by omega)
      simp [Tree.records, linkNode, Tree.numbered, Tree.size, flagA, flagB, flagC, flagD, h1, h2]; omega

/-- Whatever linking gives has exactly the records it read, and is numbered in pre-order. -/
theorem linkNode_eq_ok {fuel parent k : Nat} {rs rest : List TreeRecord} {t : Tree} {c : Nat}
    (hf : ∀ r ∈ rs, isFlag r.flag = true) (h : linkNode fuel parent k rs = .ok (t, c, rest)) :
    rs = t.records ++ rest ∧ c = k + t.size ∧ t = t.numbered k := by
  induction fuel generalizing parent k rs rest t c with
  | zero => cases rs <;> simp [linkNode, raise] at h
  | succ fuel ih =>
    cases rs with
    | nil => simp [linkNode, raise] at h
    | cons r rs =>
      have hfr : ∀ q ∈ rs, isFlag q.flag = true := fun q hq => hf q (by simp [hq])
      obtain ⟨v, f, fl⟩ := r
      simp only [linkNode] at h
      split_ifs at h with hA hB hC
      · simp only [Except.ok.injEq, Prod.mk.injEq] at h
        obtain ⟨rfl, rfl, rfl⟩ := h
        simp [Tree.records, Tree.size, Tree.numbered, hA]
      · cases hl : linkNode fuel k (k + 1) rs with
        | error e => simp [hl] at h
        | ok p =>
          obtain ⟨u, c', rest'⟩ := p
          simp only [hl, Except.ok.injEq, Prod.mk.injEq] at h
          obtain ⟨rfl, rfl, rfl⟩ := h
          obtain ⟨h1, h2, h3⟩ := ih hfr hl
          refine ⟨by simp [Tree.records, h1, hB], by simp [Tree.size, h2]; omega, by simp [Tree.numbered, ← h3]⟩
      · cases hl : linkNode fuel k (k + 1) rs with
        | error e => simp [hl] at h
        | ok p =>
          obtain ⟨u, c', rest'⟩ := p
          simp only [hl, Except.ok.injEq, Prod.mk.injEq] at h
          obtain ⟨rfl, rfl, rfl⟩ := h
          obtain ⟨h1, h2, h3⟩ := ih hfr hl
          refine ⟨by simp [Tree.records, h1, hC], by simp [Tree.size, h2]; omega, by simp [Tree.numbered, ← h3]⟩
      · cases hl : linkNode fuel k (k + 1) rs with
        | error e => simp [hl] at h
        | ok p =>
          obtain ⟨u, c', rest'⟩ := p
          simp only [hl] at h
          obtain ⟨h1, h2, h3⟩ := ih hfr hl
          have hfr' : ∀ q ∈ rest', isFlag q.flag = true := fun q hq => hfr q (by rw [h1]; simp [hq])
          cases hr : linkNode fuel k c' rest' with
          | error e => simp [hr] at h
          | ok p =>
            obtain ⟨w, c'', rest''⟩ := p
            simp only [hr, Except.ok.injEq, Prod.mk.injEq] at h
            obtain ⟨rfl, rfl, rfl⟩ := h
            obtain ⟨g1, g2, g3⟩ := ih hfr' hr
            have hD : fl = flagD := by
              have := hf ⟨v, f, fl⟩ (by simp)
              simp only [isFlag, Bool.or_eq_true, beq_iff_eq] at this
              tauto
            refine ⟨by simp [Tree.records, h1, g1, hD], by simp [Tree.size, h2, g2]; omega, ?_⟩
            simp only [Tree.numbered, ← h3]
            rw [show k + 1 + u.size = c' by omega, ← g3]

/-- Linking fails only by PacketUnderrun when there is fuel for every record. -/
theorem linkNode_error {fuel parent k : Nat} {rs : List TreeRecord} {e : Stop} (h : linkNode fuel parent k rs = .error e) :
    ∃ j, e = .raise .packetUnderrun j := by
  induction fuel generalizing parent k rs with
  | zero => cases rs <;> simp [linkNode, raise] at h <;> exact ⟨_, h.symm⟩
  | succ fuel ih =>
    cases rs with
    | nil => simp [linkNode, raise] at h; exact ⟨_, h.symm⟩
    | cons r rs =>
      simp only [linkNode] at h
      split_ifs at h
      · cases hl : linkNode fuel k (k + 1) rs with
        | error e' => simp only [hl, Except.error.injEq] at h; subst h; exact ih hl
        | ok p => obtain ⟨u, c', rest'⟩ := p; simp [hl] at h
      · cases hl : linkNode fuel k (k + 1) rs with
        | error e' => simp only [hl, Except.error.injEq] at h; subst h; exact ih hl
        | ok p => obtain ⟨u, c', rest'⟩ := p; simp [hl] at h
      · cases hl : linkNode fuel k (k + 1) rs with
        | error e' => simp only [hl, Except.error.injEq] at h; subst h; exact ih hl
        | ok p =>
          obtain ⟨u, c', rest'⟩ := p
          simp only [hl] at h
          cases hr : linkNode fuel k c' rest' with
          | error e' => simp only [hr, Except.error.injEq] at h; subst h; exact ih hr
          | ok p => obtain ⟨w, c'', rest''⟩ := p; simp [hr] at h

/-- DESERIALIZE on the packet of a tree gives the tree back. -/
theorem treeOfPacket_packetOf (t : Tree) : treeOfPacket (packetOf t) = .ok (t.numbered 0) := by
  have hp := parseRecords_ok 0 t.records_isFlag
  have hl := linkNode_records t t.records.length 0 0 [] (by simp)
  have h0 := t.size_pos
  simp only [List.append_nil, Tree.records_length] at hl
  have h1 : (packetOf t).length ≠ 0 := by simp; omega
  have h2 : ¬ (packetOf t).length % 6 ≠ 0 := by simp
  simp only [treeOfPacket, if_neg h1, if_neg h2]
  rw [packetOf, hp]
  simp [linkRecords, hl]

/-- Whatever DESERIALIZE gives, the packet is that tree's packet. -/
theorem treeOfPacket_eq_ok {bs : List Byte} {t : Tree} (h : treeOfPacket bs = .ok t) :
    bs = packetOf t ∧ t = t.numbered 0 ∧ bs.length = 6 * t.size := by
  unfold treeOfPacket at h
  split_ifs at h with h1 h2
  · cases h
  · cases h
  obtain ⟨rs, hl, rfl⟩ := exists_records (bs.length / 6) bs (by omega)
  rcases parseRecords_cases 0 rs with ⟨ha, he⟩ | ⟨j, _, _, _, he⟩
  · rw [he] at h
    simp only [linkRecords] at h
    cases hk : linkNode rs.length 0 0 rs with
    | error e => simp [hk] at h
    | ok p =>
      obtain ⟨u, c, rest⟩ := p
      cases rest with
      | cons r rest => simp [hk, raise] at h
      | nil =>
        simp only [hk, Except.ok.injEq] at h
        subst h
        obtain ⟨g1, _, g3⟩ := linkNode_eq_ok ha hk
        simp only [List.append_nil] at g1
        refine ⟨by rw [packetOf, ← g1], g3, ?_⟩
        rw [flatMap_packetRecord_length, g1, Tree.records_length]
  · rw [he] at h; cases h

/-- DESERIALIZE never stops outside its own faults. -/
theorem treeOfPacket_error {bs : List Byte} {e : Stop} (h : treeOfPacket bs = .error e) : ∃ c i, e = .raise c i := by
  unfold treeOfPacket at h
  split_ifs at h with h1 h2
  · exact ⟨_, _, (Except.error.inj h).symm⟩
  · exact ⟨_, _, (Except.error.inj h).symm⟩
  obtain ⟨rs, _, rfl⟩ := exists_records (bs.length / 6) bs (by omega)
  rcases parseRecords_cases 0 rs with ⟨_, he⟩ | ⟨j, _, _, _, he⟩
  · rw [he] at h
    simp only [linkRecords] at h
    cases hk : linkNode rs.length 0 0 rs with
    | error e' =>
      simp only [hk, Except.error.injEq] at h
      obtain ⟨j, hj⟩ := linkNode_error hk
      exact ⟨_, _, h.symm.trans hj⟩
    | ok p =>
      obtain ⟨u, c, rest⟩ := p
      cases rest with
      | nil => simp [hk] at h
      | cons r rest =>
        simp only [hk, raise, Except.error.injEq] at h
        exact ⟨_, _, h.symm⟩
  · rw [he] at h; exact ⟨_, _, (Except.error.inj h).symm⟩

end Sys2Proof.Machine
end

