-- ==== Sys2Proof/Laws/Codes.lean ====
section
/-! SUPPORT. Codes: everything the traversal of GENCODES can do, and why its codes are prefix-free (spec 43_gencodes R181 to
R186). -/

namespace Sys2Proof.Machine

/-! ### The tables -/

@[simp] theorem CodeTable.at_put (c : CodeTable) (a b : Byte) (e : CodeEntry) : (c.put a e).at b = if a = b then e else c.at b := by
  simp only [CodeTable.put, CodeTable.at, Vector.getElem_set]
  by_cases h : a = b
  · simp [h]
  · have : a.toNat ≠ b.toNat := fun hn => h (BitVec.eq_of_toNat_eq hn)
    simp [h, this]

@[simp] theorem CodeTable.at_empty (b : Byte) : CodeTable.empty.at b = none := by
  simp [CodeTable.empty, CodeTable.at]

@[simp] theorem FreqTable.at_put (c : FreqTable) (a b : Byte) (e : Word) : (c.put a e).at b = if a = b then e else c.at b := by
  simp only [FreqTable.put, FreqTable.at, Vector.getElem_set]
  by_cases h : a = b
  · simp [h]
  · have : a.toNat ≠ b.toNat := fun hn => h (BitVec.eq_of_toNat_eq hn)
    simp [h, this]

@[simp] theorem FreqTable.at_empty (b : Byte) : FreqTable.empty.at b = 0#32 := by
  simp [FreqTable.empty, FreqTable.at]

theorem CodeTable.ext {c d : CodeTable} (h : ∀ b, c.at b = d.at b) : c = d := by
  apply Vector.ext
  intro i hi
  have := h (BitVec.ofNat 8 i)
  simpa [CodeTable.at, Nat.mod_eq_of_lt hi] using this

/-! ### Recording leaves one after the other -/

/-- Record a list of leaves. -/
def recordAll : List (Byte × BitString) → CodeTable → Except Stop CodeTable
  | [], c => .ok c
  | e :: es, c =>
    match recordLeaf e.1 e.2 c with
    | .ok c' => recordAll es c'
    | .error x => .error x

/-- The table with all the entries put in. -/
def putAll (es : List (Byte × BitString)) (c : CodeTable) : CodeTable := es.foldl (fun c e => c.put e.1 (some e.2)) c

/-- What it takes to record all of a list. -/
def Recordable (es : List (Byte × BitString)) (c : CodeTable) : Prop :=
  (∀ e ∈ es, 1 ≤ e.2.length ∧ e.2.length ≤ maxLen ∧ c.at e.1 = none) ∧ (es.map Prod.fst).Nodup

theorem recordAll_append (as bs : List (Byte × BitString)) (c : CodeTable) : recordAll (as ++ bs) c
    = match recordAll as c with
      | .ok c' => recordAll bs c'
      | .error x => .error x := by
  induction as generalizing c with
  | nil => rfl
  | cons a as ih =>
    simp only [List.cons_append, recordAll]
    cases recordLeaf a.1 a.2 c with
    | ok c' => simpa using ih c'
    | error x => rfl

/-- The traversal records the leaves in the order of their paths. -/
theorem walk_eq_recordAll (t : Tree) (path : BitString) (c : CodeTable) : walk t path c = recordAll (t.paths path) c := by
  induction t generalizing path c with
  | leaf k v f =>
    simp only [walk, Tree.paths, recordAll]
    cases recordLeaf v path c <;> rfl
  | rightOnly k v f r ih => simpa [walk, Tree.paths] using ih _ _
  | leftOnly k v f l ih => simpa [walk, Tree.paths] using ih _ _
  | both k v f l r ihl ihr =>
    simp only [walk, Tree.paths, recordAll_append, ihl]
    cases recordAll (l.paths (path ++ [false])) c with
    | ok c' => simpa using ihr _ _
    | error x => rfl

/-- Everything recording one leaf can do (R181 to R185). -/
theorem recordLeaf_cases (v : Byte) (p : BitString) (c : CodeTable) :
    (p.length = 0 ∧ recordLeaf v p c = raise .rootLeaf v.toNat)
      ∨ (maxLen < p.length ∧ recordLeaf v p c = raise .codeTooLong v.toNat)
      ∨ (1 ≤ p.length ∧ p.length ≤ maxLen ∧ c.valid v = true ∧ recordLeaf v p c = raise .duplicateSymbol v.toNat)
      ∨ (1 ≤ p.length ∧ p.length ≤ maxLen ∧ c.at v = none ∧ recordLeaf v p c = .ok (c.put v (some p))) := by
  unfold recordLeaf
  split_ifs with h1 h2 h3
  · exact .inl ⟨h1, rfl⟩
  · exact .inr (.inl ⟨h2, rfl⟩)
  · exact .inr (.inr (.inl ⟨by omega, by omega, h3, rfl⟩))
  · refine .inr (.inr (.inr ⟨by omega, by omega, ?_, rfl⟩))
    simpa [CodeTable.valid] using h3

theorem recordLeaf_error {v : Byte} {p : BitString} {c : CodeTable} {e : Stop} (h : recordLeaf v p c = .error e) :
    ∃ x i, e = .raise x i := by
  rcases recordLeaf_cases v p c with ⟨_, he⟩ | ⟨_, he⟩ | ⟨_, _, _, he⟩ | ⟨_, _, _, he⟩ <;> rw [he] at h
  · exact ⟨_, _, (Except.error.inj h).symm⟩
  · exact ⟨_, _, (Except.error.inj h).symm⟩
  · exact ⟨_, _, (Except.error.inj h).symm⟩
  · cases h

theorem recordAll_ok {es : List (Byte × BitString)} {c : CodeTable} (h : Recordable es c) : recordAll es c = .ok (putAll es c) := by
  induction es generalizing c with
  | nil => rfl
  | cons e es ih =>
    obtain ⟨hall, hnd⟩ := h
    obtain ⟨h1, h2, h3⟩ := hall e (by simp)
    have hr : recordLeaf e.1 e.2 c = .ok (c.put e.1 (some e.2)) := by
      rcases recordLeaf_cases e.1 e.2 c with ⟨g, _⟩ | ⟨g, _⟩ | ⟨_, _, g, _⟩ | ⟨_, _, _, g⟩
      · omega
      · omega
      · simp [CodeTable.valid, h3] at g
      · exact g
    simp only [recordAll, hr]
    refine ih ⟨fun q hq => ?_, (List.nodup_cons.mp hnd).2⟩
    obtain ⟨g1, g2, g3⟩ := hall q (by simp [hq])
    have hne : e.1 ≠ q.1 := fun heq => (List.nodup_cons.mp hnd).1 (by rw [heq]; exact List.mem_map_of_mem hq)
    exact ⟨g1, g2, by simp [hne, g3]⟩

theorem recordAll_eq_ok {es : List (Byte × BitString)} {c c' : CodeTable} (h : recordAll es c = .ok c') :
    Recordable es c ∧ c' = putAll es c := by
  induction es generalizing c with
  | nil => exact ⟨⟨by simp, by simp⟩, (Except.ok.inj h).symm⟩
  | cons e es ih =>
    rcases recordLeaf_cases e.1 e.2 c with ⟨_, he⟩ | ⟨_, he⟩ | ⟨_, _, _, he⟩ | ⟨h1, h2, h3, he⟩ <;> simp only [recordAll, he] at h
    · cases h
    · cases h
    · cases h
    · obtain ⟨⟨hall, hnd⟩, rfl⟩ := ih h
      have hnot : ∀ q ∈ es, e.1 ≠ q.1 := fun q hq heq => by
        have := (hall q hq).2.2
        simp [heq] at this
      refine ⟨⟨?_, ?_⟩, rfl⟩
      · rintro q hq
        rcases List.mem_cons.mp hq with rfl | hq
        · exact ⟨h1, h2, h3⟩
        · obtain ⟨g1, g2, g3⟩ := hall q hq
          exact ⟨g1, g2, by simpa [hnot q hq] using g3⟩
      · rw [List.map_cons, List.nodup_cons]
        refine ⟨fun hm => ?_, hnd⟩
        obtain ⟨q, hq, heq⟩ := List.mem_map.mp hm
        exact hnot q hq heq.symm

theorem recordAll_error {es : List (Byte × BitString)} {c : CodeTable} {e : Stop} (h : recordAll es c = .error e) :
    ∃ x i, e = .raise x i := by
  induction es generalizing c with
  | nil => cases h
  | cons q es ih =>
    simp only [recordAll] at h
    cases hr : recordLeaf q.1 q.2 c with
    | ok c' => rw [hr] at h; exact ih h
    | error x => rw [hr] at h; cases h; exact recordLeaf_error hr

theorem walk_error {t : Tree} {p : BitString} {c : CodeTable} {e : Stop} (h : walk t p c = .error e) : ∃ x i, e = .raise x i :=
  recordAll_error (by rw [← walk_eq_recordAll]; exact h)

theorem putAll_at_of_not_mem {es : List (Byte × BitString)} (c : CodeTable) {b : Byte} (h : ∀ e ∈ es, e.1 ≠ b) :
    (putAll es c).at b = c.at b := by
  induction es generalizing c with
  | nil => rfl
  | cons e es ih =>
    rw [putAll, List.foldl_cons]
    exact (ih (c.put e.1 (some e.2)) fun q hq => h q (by simp [hq])).trans (by simp [h e (by simp)])

theorem putAll_at_of_mem {es : List (Byte × BitString)} (c : CodeTable) {e : Byte × BitString} (hnd : (es.map Prod.fst).Nodup)
    (h : e ∈ es) : (putAll es c).at e.1 = some e.2 := by
  induction es generalizing c with
  | nil => cases h
  | cons q es ih =>
    rw [List.map_cons, List.nodup_cons] at hnd
    rw [putAll, List.foldl_cons]
    rcases List.mem_cons.mp h with rfl | h
    · have := putAll_at_of_not_mem (es := es) (c.put e.1 (some e.2)) (b := e.1) fun q hq heq =>
        hnd.1 (by rw [← heq]; exact List.mem_map_of_mem hq)
      exact this.trans (by simp)
    · exact ih _ hnd.2 h

/-- The entries of a table made from the empty one are exactly the leaves. -/
theorem putAll_empty_iff {es : List (Byte × BitString)} (hnd : (es.map Prod.fst).Nodup) (b : Byte) (p : BitString) :
    (putAll es CodeTable.empty).at b = some p ↔ (b, p) ∈ es := by
  constructor
  · intro h
    by_contra hne
    by_cases hb : ∃ q, (b, q) ∈ es
    · obtain ⟨q, hq⟩ := hb
      have := putAll_at_of_mem CodeTable.empty hnd hq
      rw [h] at this
      exact hne (by rw [Option.some.inj this]; exact hq)
    · have := putAll_at_of_not_mem (es := es) CodeTable.empty (b := b) fun e he heq => hb ⟨e.2, by rw [← heq]; exact he⟩
      rw [h] at this
      simp at this
  · exact fun h => putAll_at_of_mem CodeTable.empty hnd h

/-! ### Paths -/

/-- Every path of a subtree goes on from the path to it. -/
theorem Tree.paths_extend (t : Tree) (path : BitString) : ∀ e ∈ t.paths path, path <+: e.2 := by
  induction t generalizing path with
  | leaf => simp [Tree.paths]
  | rightOnly _ _ _ _ ih => exact fun e he => (List.prefix_append path [true]).trans (ih _ e he)
  | leftOnly _ _ _ _ ih => exact fun e he => (List.prefix_append path [false]).trans (ih _ e he)
  | both _ _ _ _ _ ihl ihr =>
    intro e he
    rcases List.mem_append.mp he with he | he
    · exact (List.prefix_append path [false]).trans (ihl _ e he)
    · exact (List.prefix_append path [true]).trans (ihr _ e he)

theorem paths_apart {path p q : BitString} (hp : path ++ [false] <+: p) (hq : path ++ [true] <+: q) : ¬ p <+: q ∧ ¬ q <+: p := by
  obtain ⟨a, rfl⟩ := hp
  obtain ⟨b, rfl⟩ := hq
  constructor <;> rintro ⟨c, hc⟩ <;> simp [List.append_assoc] at hc

/-- No leaf's path is a prefix of another leaf's: two leaves part at the node where their paths part (R186). -/
theorem Tree.paths_prefixFree (t : Tree) (path : BitString) :
    (t.paths path).Pairwise fun e f => ¬ e.2 <+: f.2 ∧ ¬ f.2 <+: e.2 := by
  induction t generalizing path with
  | leaf => simp [Tree.paths]
  | rightOnly _ _ _ _ ih => exact ih _
  | leftOnly _ _ _ _ ih => exact ih _
  | both _ _ _ l r ihl ihr =>
    rw [Tree.paths, List.pairwise_append]
    exact ⟨ihl _, ihr _, fun e he f hf => paths_apart (l.paths_extend _ e he) (r.paths_extend _ f hf)⟩

theorem Tree.paths_values (t : Tree) (path : BitString) : (t.paths path).map Prod.fst = t.leafValues := by
  induction t generalizing path with
  | leaf => rfl
  | rightOnly _ _ _ _ ih => exact ih _
  | leftOnly _ _ _ _ ih => exact ih _
  | both _ _ _ _ _ ihl ihr => simp [Tree.paths, Tree.leafValues, ihl, ihr]

/-- A path below the root of a tree that is no leaf is not the path to the root. -/
theorem Tree.paths_ne_nil {t : Tree} (h : t.isLeaf = false) : ∀ e ∈ t.paths [], 1 ≤ e.2.length := by
  intro e he
  have hone : ∀ (u : Tree) (c : Bool), e ∈ u.paths [c] → 1 ≤ e.2.length := fun u c hu => by
    have := (u.paths_extend [c] e hu).length_le
    simpa using this
  cases t with
  | leaf => simp [Tree.isLeaf] at h
  | rightOnly k v f r => exact hone r true he
  | leftOnly k v f l => exact hone l false he
  | both k v f l r =>
    rcases List.mem_append.mp he with he | he
    · exact hone l false he
    · exact hone r true he

/-- Everything GENCODES' traversal can give: the leaves of the tree with their paths, of lengths 1 to 255, no value twice. -/
theorem walk_eq_ok {t : Tree} {c : CodeTable} (h : walk t [] CodeTable.empty = .ok c) :
    (∀ b p, c.at b = some p ↔ (b, p) ∈ t.paths []) ∧ t.leafValues.Nodup
      ∧ ∀ e ∈ t.paths [], 1 ≤ e.2.length ∧ e.2.length ≤ maxLen := by
  rw [walk_eq_recordAll] at h
  obtain ⟨⟨hall, hnd⟩, rfl⟩ := recordAll_eq_ok h
  exact ⟨putAll_empty_iff hnd, by rwa [← t.paths_values []], fun e he => ⟨(hall e he).1, (hall e he).2.1⟩⟩

theorem walk_ok {t : Tree} (hleaf : t.isLeaf = false) (hlen : ∀ e ∈ t.paths [], e.2.length ≤ maxLen) (hnd : t.leafValues.Nodup) :
    ∃ c, walk t [] CodeTable.empty = .ok c ∧ ∀ b p, c.at b = some p ↔ (b, p) ∈ t.paths [] := by
  have hnd' : ((t.paths []).map Prod.fst).Nodup := by rwa [t.paths_values]
  refine ⟨_, (walk_eq_recordAll t [] _).trans (recordAll_ok ⟨fun e he => ?_, hnd'⟩), putAll_empty_iff hnd'⟩
  exact ⟨Tree.paths_ne_nil hleaf e he, hlen e he, by simp⟩

/-- Two entries of one value among leaves of distinct values are one entry. -/
theorem paths_unique {t : Tree} (hnd : t.leafValues.Nodup) {a : Byte} {p q : BitString} (hp : (a, p) ∈ t.paths [])
    (hq : (a, q) ∈ t.paths []) : p = q := by
  have hnd' : ((t.paths []).map Prod.fst).Nodup := by rwa [t.paths_values]
  have h1 := (putAll_empty_iff hnd' a p).mpr hp
  have h2 := (putAll_empty_iff hnd' a q).mpr hq
  exact Option.some.inj (h1.symm.trans h2)

/-- The codes of a successful traversal are 1 to 255 bits long and prefix-free. -/
theorem walk_prefixFree {t : Tree} {c : CodeTable} (h : walk t [] CodeTable.empty = .ok c) : codesPrefixFree c := by
  obtain ⟨hiff, _, hlen⟩ := walk_eq_ok h
  refine ⟨fun b p hb => hlen (b, p) ((hiff b p).mp hb), fun a b p q ha hb hne hpre => ?_⟩
  have hp := (hiff a p).mp ha
  have hq := (hiff b q).mp hb
  let R : Byte × BitString → Byte × BitString → Prop := fun e f => e.1 ≠ f.1 → ¬ e.2 <+: f.2 ∧ ¬ f.2 <+: e.2
  have : Std.Symm R := ⟨fun _ _ h hne => (h hne.symm).symm⟩
  have hR : (t.paths []).Pairwise R := List.Pairwise.imp (S := R) (fun h _ => h) (t.paths_prefixFree [])
  have hall := List.Pairwise.forall_of_forall (R := R) (fun e _ hne => absurd rfl hne) hR
  exact (hall hp hq hne).1 hpre

end Sys2Proof.Machine
end

