-- ==== Sys2Proof/Laws/Forest.lean ====
section
/-! SUPPORT. BUILD: what selecting and merging keep (spec 42_build R162 to R170). -/

namespace Sys2Proof.Machine

/-! ### Selection -/

/-- What `takeLeast` gives: a node of least frequency, smaller than all before it, and the others in their order (R165). -/
theorem takeLeast_spec (x : Tree) (xs : List Tree) : ∃ before after, x :: xs = before ++ (takeLeast x xs).1 :: after
    ∧ (takeLeast x xs).2 = before ++ after
    ∧ (∀ y ∈ before, (takeLeast x xs).1.freq.toNat < y.freq.toNat)
    ∧ ∀ y ∈ after, (takeLeast x xs).1.freq.toNat ≤ y.freq.toNat := by
  induction xs generalizing x with
  | nil => exact ⟨[], [], rfl, rfl, by simp, by simp⟩
  | cons y ys ih =>
    obtain ⟨before, after, h1, h2, h3, h4⟩ := ih y
    simp only [takeLeast]
    split_ifs with hlt
    · refine ⟨x :: before, after, by simp [h1], by simp [h2], ?_, h4⟩
      intro z hz
      rcases List.mem_cons.mp hz with rfl | hz
      · exact hlt
      · exact h3 z hz
    · refine ⟨[], y :: ys, rfl, rfl, by simp, fun z hz => ?_⟩
      rw [h1] at hz
      rcases List.mem_append.mp hz with hz | hz
      · have := h3 z hz; simp only; omega
      · rcases List.mem_cons.mp hz with rfl | hz
        · simp only; omega
        · have := h4 z hz; simp only; omega

theorem takeLeast_perm (x : Tree) (xs : List Tree) : ((takeLeast x xs).1 :: (takeLeast x xs).2).Perm (x :: xs) := by
  obtain ⟨before, after, h1, h2, _, _⟩ := takeLeast_spec x xs
  rw [h1, h2]
  exact List.perm_middle.symm

/-- What one merge does to a list of two nodes or more: two of them are taken out and their merge is appended (R166, R169). -/
theorem mergeOnce_spec (sent : Byte) (k : Nat) {l : List Tree} (h : 2 ≤ l.length) : ∃ a b rest, l.Perm (a :: b :: rest)
    ∧ mergeOnce sent k l = rest ++ [mergeNode sent k a b] := by
  match l, h with
  | x :: y :: rest, _ =>
    have hp := takeLeast_perm x (y :: rest)
    simp only [mergeOnce]
    cases hm : takeLeast x (y :: rest) with
    | mk a l1 =>
      rw [hm] at hp
      cases l1 with
      | nil => simpa using hp.length_eq
      | cons z zs =>
        refine ⟨a, (takeLeast z zs).1, (takeLeast z zs).2, ?_, rfl⟩
        exact hp.symm.trans ((takeLeast_perm z zs).symm.cons a)

/-! ### What a forest keeps while it is merged -/

/-- The leaves of a forest. -/
def forestLeaves (l : List Tree) : List (Byte × Word) := l.flatMap Tree.leafCounts

/-- The arena indices of a forest. -/
def forestIndices (l : List Tree) : List Nat := l.flatMap Tree.indices

/-- The counts of a list of leaves, together. -/
def countSum (ls : List (Byte × Word)) : Nat := (ls.map fun e => e.2.toNat).sum

/-- A forest whose trees are merged ones with these leaves, numbered below `k`, its counts within 32 bits. -/
structure ForestOk (sent : Byte) (ls : List (Byte × Word)) (k : Nat) (l : List Tree) : Prop where
  merged  : ∀ t ∈ l, t.merged sent
  leaves  : (forestLeaves l).Perm ls
  indices : (forestIndices l).Perm (List.range k)
  small   : countSum ls < 2 ^ 32

theorem Tree.merged_freq {sent : Byte} {t : Tree} (h : t.merged sent) : t.freq.toNat = countSum t.leafCounts := by
  induction t with
  | leaf => simp [Tree.leafCounts, countSum, Tree.freq]
  | rightOnly => cases h
  | leftOnly => cases h
  | both k v f l r ihl ihr =>
    obtain ⟨_, hf, hl, hr⟩ := h
    simp only [Tree.freq, Tree.leafCounts, countSum, List.map_append, List.sum_append] at *
    rw [hf, ihl hl, ihr hr]

theorem countSum_perm {as bs : List (Byte × Word)} (h : as.Perm bs) : countSum as = countSum bs := (h.map _).sum_eq

theorem countSum_append (as bs : List (Byte × Word)) : countSum (as ++ bs) = countSum as + countSum bs := by
  simp [countSum]

theorem forestLeaves_perm {l m : List Tree} (h : l.Perm m) : (forestLeaves l).Perm (forestLeaves m) := h.flatMap_right _

theorem forestIndices_perm {l m : List Tree} (h : l.Perm m) : (forestIndices l).Perm (forestIndices m) := h.flatMap_right _

theorem Tree.indices_both (k : Nat) (v : Byte) (f : Word) (l r : Tree) :
    (Tree.both k v f l r).indices = k :: (l.indices ++ r.indices) := by simp [Tree.indices, Tree.arena]

/-- One merge keeps the forest in order and numbers its node `k`. -/
theorem ForestOk.mergeOnce {sent : Byte} {ls : List (Byte × Word)} {k : Nat} {l : List Tree} (h : ForestOk sent ls k l)
    (hl : 2 ≤ l.length) : ForestOk sent ls (k + 1) (mergeOnce sent k l) ∧ (Machine.mergeOnce sent k l).length = l.length - 1
      ∧ ∃ rest a b, Machine.mergeOnce sent k l = rest ++ [mergeNode sent k a b] := by
  obtain ⟨a, b, rest, hp, he⟩ := mergeOnce_spec sent k hl
  have ha := h.merged a (hp.mem_iff.mpr (by simp))
  have hb := h.merged b (hp.mem_iff.mpr (by simp))
  have hleaves : (a.leafCounts ++ (b.leafCounts ++ forestLeaves rest)).Perm ls := by
    have := (forestLeaves_perm hp).symm.trans h.leaves
    simpa [forestLeaves] using this
  have hsum : a.freq.toNat + b.freq.toNat < 2 ^ 32 := by
    have hs := h.small
    have hc := countSum_perm hleaves
    rw [countSum_append, countSum_append] at hc
    rw [Tree.merged_freq ha, Tree.merged_freq hb]
    omega
  have hnode : (mergeNode sent k a b).merged sent := by
    refine ⟨rfl, ?_, ha, hb⟩
    rw [BitVec.toNat_add, Nat.mod_eq_of_lt hsum]
  rw [he]
  refine ⟨⟨?_, ?_, ?_, h.small⟩, ?_, rest, a, b, rfl⟩
  · intro t ht
    rcases List.mem_append.mp ht with ht | ht
    · exact h.merged t (hp.mem_iff.mpr (by simp [ht]))
    · rw [List.mem_singleton.mp ht]; exact hnode
  · refine List.Perm.trans ?_ hleaves
    simp only [forestLeaves, List.flatMap_append, List.flatMap_cons, List.flatMap_nil, List.append_nil]
    exact List.perm_append_comm.trans (by simp [mergeNode, Tree.leafCounts])
  · have hi : (a.indices ++ (b.indices ++ forestIndices rest)).Perm (List.range k) := by
      have := (forestIndices_perm hp).symm.trans h.indices
      simpa [forestIndices] using this
    rw [List.range_succ]
    refine List.Perm.trans ?_ (hi.append_right [k])
    simp only [forestIndices, List.flatMap_append, List.flatMap_cons, List.flatMap_nil, List.append_nil, mergeNode,
      Tree.indices_both]
    refine List.perm_append_comm.trans ?_
    simp only [List.cons_append, List.append_assoc]
    exact (List.perm_append_comm (l₁ := [k])).trans (by simp)
  · have := hp.length_eq
    simp at this ⊢
    omega

/-! ### The leaves -/

theorem allSymbols_nodup : allSymbols.Nodup := by decide +kernel

@[simp] theorem mem_allSymbols (b : Byte) : b ∈ allSymbols := by
  refine List.mem_map.mpr ⟨b.toNat, by simpa using b.isLt, by simp⟩

@[simp] theorem allSymbols_length : allSymbols.length = 256 := by simp [allSymbols]

theorem FreqTable.symbols_nodup (f : FreqTable) : f.symbols.Nodup := allSymbols_nodup.filter _

@[simp] theorem FreqTable.mem_symbols (f : FreqTable) (b : Byte) : b ∈ f.symbols ↔ f.present b = true := by
  simp [FreqTable.symbols]

theorem FreqTable.symbols_length (f : FreqTable) : f.symbols.length ≤ 256 := by
  exact allSymbols_length ▸ List.length_filter_le f.present allSymbols

/-- The present symbols with their counts, in ascending order. -/
def FreqTable.counts (f : FreqTable) : List (Byte × Word) := f.symbols.map fun b => (b, f.at b)

@[simp] theorem leaves_length (f : FreqTable) : (leaves f).length = f.symbols.length := by simp [leaves]

theorem leaves_of_symbols {f : FreqTable} {l : List Byte} (h : f.symbols = l) :
    leaves f = l.zipIdx.map fun p => .leaf p.2 p.1 (f.at p.1) := by rw [leaves, h]

/-- Leaves numbered from `k` on: their values with their counts, and their numbers. -/
theorem numbered_leaves (f : FreqTable) (l : List Byte) (k : Nat) :
    forestLeaves ((l.zipIdx k).map fun p => .leaf p.2 p.1 (f.at p.1)) = l.map (fun b => (b, f.at b))
      ∧ forestIndices ((l.zipIdx k).map fun p => .leaf p.2 p.1 (f.at p.1)) = List.range' k l.length := by
  induction l generalizing k with
  | nil => exact ⟨rfl, rfl⟩
  | cons b l ih =>
    obtain ⟨h1, h2⟩ := ih (k + 1)
    simp only [forestLeaves, forestIndices] at *
    refine ⟨by simp [Tree.leafCounts, h1], ?_⟩
    simp [Tree.indices, Tree.arena, List.range'_succ, h2]

/-- The counts of the table, over all symbols. -/
theorem FreqTable.countSum_counts (f : FreqTable) : countSum f.counts = (allSymbols.map fun b => (f.at b).toNat).sum := by
  rw [countSum, FreqTable.counts, List.map_map, FreqTable.symbols]
  generalize allSymbols = l
  induction l with
  | nil => rfl
  | cons b l ih =>
    rw [List.filter_cons]
    split_ifs with hb
    · simp only [List.map_cons, List.sum_cons, ih, Function.comp_apply]
    · have h0 : f.at b = 0#32 := by simpa [FreqTable.present] using hb
      simp only [List.map_cons, List.sum_cons, ih, h0]
      simp

/-- The initial working list is a forest in order. -/
theorem forestOk_leaves (f : FreqTable) (sent : Byte) (h : countSum f.counts < 2 ^ 32) :
    ForestOk sent f.counts f.symbols.length (leaves f) := by
  obtain ⟨h1, h2⟩ := numbered_leaves f f.symbols 0
  refine ⟨?_, .of_eq h1, ?_, h⟩
  · intro t ht
    obtain ⟨p, _, rfl⟩ := List.mem_map.mp ht
    trivial
  · rw [List.range_eq_range']
    exact .of_eq h2

/-! ### All merges -/

/-- `n` merges of a forest of `n + 1` nodes leave one tree, whose number is the last one given. -/
theorem ForestOk.mergeMany {sent : Byte} {ls : List (Byte × Word)} {n k : Nat} {l : List Tree} (h : ForestOk sent ls k l)
    (hl : l.length = n + 2) : ∃ a b, Machine.mergeMany sent (n + 1) k l = [mergeNode sent (k + n) a b]
      ∧ ForestOk sent ls (k + n + 1) [mergeNode sent (k + n) a b] := by
  induction n generalizing k l with
  | zero =>
    obtain ⟨h1, h2, rest, a, b, he⟩ := h.mergeOnce (by omega)
    have hr : rest = [] := by
      have : (rest ++ [mergeNode sent k a b]).length = 1 := by rw [← he, h2, hl]
      simpa using this
    subst hr
    refine ⟨a, b, ?_, ?_⟩
    · simpa [Machine.mergeMany] using he
    · simpa [he] using h1
  | succ n ih =>
    obtain ⟨h1, h2, _⟩ := h.mergeOnce (by omega)
    obtain ⟨a, b, e1, e2⟩ := ih h1 (by rw [h2, hl]; omega)
    rw [show k + 1 + n = k + (n + 1) by omega] at e1 e2
    exact ⟨a, b, e1, e2⟩

/-! ### What BUILD can do -/

/-- Everything BUILD makes of a table of two symbols or more (R166 to R170). -/
structure Built (f : FreqTable) (sent : Byte) (t : Tree) : Prop where
  merged  : t.merged sent
  leaves  : t.leafCounts.Perm f.counts
  indices : t.indices.Perm (List.range (2 * f.symbols.length - 1))
  index   : t.index = 2 * f.symbols.length - 2
  inner   : t.isLeaf = false

theorem buildTree_empty {f : FreqTable} (sent : Byte) (h : f.symbols = []) : buildTree f sent = raise .emptySymbolSet := by
  simp [buildTree, leaves_of_symbols h]

theorem buildTree_single {f : FreqTable} (sent : Byte) {b : Byte} (h : f.symbols = [b]) :
    buildTree f sent = .ok (.leftOnly 1 sent 0#32 (.leaf 0 b (f.at b))) := by
  simp [buildTree, leaves_of_symbols h, singleRoot]

/-- BUILD on two symbols or more is all the merges of the leaves. -/
theorem buildTree_eq_mergeMany {f : FreqTable} (sent : Byte) (h : 2 ≤ f.symbols.length) : buildTree f sent
    = match mergeMany sent (f.symbols.length - 1) f.symbols.length (leaves f) with
      | [] => raise .emptySymbolSet
      | root :: _ => .ok root := by
  have hl := leaves_length f
  unfold buildTree
  split
  · next he =>
    rw [he, List.length_nil] at hl
    omega
  · next x he =>
    rw [he, List.length_singleton] at hl
    omega
  · next he => rw [← he, hl] <;> rfl

theorem buildTree_many {f : FreqTable} (sent : Byte) (h : 2 ≤ f.symbols.length) (hs : countSum f.counts < 2 ^ 32) :
    ∃ t, buildTree f sent = .ok t ∧ Built f sent t := by
  obtain ⟨n, hn⟩ : ∃ n, f.symbols.length = n + 2 := ⟨f.symbols.length - 2, by omega⟩
  obtain ⟨a, b, h1, h2⟩ := (forestOk_leaves f sent hs).mergeMany (n := n) (by rw [leaves_length, hn])
  refine ⟨mergeNode sent (f.symbols.length + n) a b, ?_, ?_⟩
  · rw [buildTree_eq_mergeMany sent h, show f.symbols.length - 1 = n + 1 by omega, h1]
  · refine ⟨h2.merged _ (by simp), by simpa [forestLeaves] using h2.leaves, ?_, ?_, rfl⟩
    · have := h2.indices
      rw [show f.symbols.length + n + 1 = 2 * f.symbols.length - 1 by omega] at this
      simpa [forestIndices] using this
    · simp only [mergeNode, Tree.index]; omega

/-! ### What a built tree is -/

theorem Tree.leafValues_eq (t : Tree) : t.leafValues = t.leafCounts.map Prod.fst := by
  induction t with
  | leaf => rfl
  | rightOnly _ _ _ _ ih => exact ih
  | leftOnly _ _ _ _ ih => exact ih
  | both _ _ _ _ _ ihl ihr => simp [Tree.leafValues, Tree.leafCounts, ihl, ihr]

theorem Tree.leafCounts_pos (t : Tree) : 1 ≤ t.leafCounts.length := by
  induction t with
  | leaf => simp [Tree.leafCounts]
  | rightOnly _ _ _ _ ih => exact ih
  | leftOnly _ _ _ _ ih => exact ih
  | both _ _ _ _ _ ihl ihr => simp only [Tree.leafCounts, List.length_append]; omega

theorem Tree.indices_length (t : Tree) : t.indices.length = t.size := by
  induction t with
  | leaf => rfl
  | rightOnly k v f r ih => simp only [Tree.indices, Tree.arena, Tree.size, List.map_cons, List.length_cons] at *; omega
  | leftOnly k v f l ih => simp only [Tree.indices, Tree.arena, Tree.size, List.map_cons, List.length_cons] at *; omega
  | both k v f l r ihl ihr =>
    rw [Tree.indices_both, List.length_cons, List.length_append, ihl, ihr, Tree.size]
    omega

theorem Tree.merged_size {sent : Byte} {t : Tree} (h : t.merged sent) : t.size + 1 = 2 * t.leafCounts.length := by
  induction t with
  | leaf => simp [Tree.size, Tree.leafCounts]
  | rightOnly => cases h
  | leftOnly => cases h
  | both k v f l r ihl ihr =>
    have hl := ihl h.2.2.1
    have hr := ihr h.2.2.2
    simp only [Tree.size, Tree.leafCounts, List.length_append]
    omega

/-- A path in a merged tree is shorter than the number of leaves: every step passes at least one leaf by. -/
theorem Tree.merged_depth {sent : Byte} {t : Tree} (h : t.merged sent) (p : BitString) :
    ∀ e ∈ t.paths p, e.2.length + 1 ≤ p.length + t.leafCounts.length := by
  induction t generalizing p with
  | leaf => simp [Tree.paths, Tree.leafCounts]
  | rightOnly => cases h
  | leftOnly => cases h
  | both k v f l r ihl ihr =>
    intro e he
    have hl := l.leafCounts_pos
    have hr := r.leafCounts_pos
    simp only [Tree.leafCounts, List.length_append]
    rcases List.mem_append.mp he with he | he
    · have := ihl h.2.2.1 _ e he
      simp at this; omega
    · have := ihr h.2.2.2 _ e he
      simp at this; omega

theorem Tree.merged_records {sent : Byte} {t : Tree} (h : t.merged sent) :
    ∀ r ∈ t.records, r.freq.toNat ≤ countSum t.leafCounts := by
  induction t with
  | leaf => simp [Tree.records, Tree.leafCounts, countSum]
  | rightOnly => cases h
  | leftOnly => cases h
  | both k v f l r ihl ihr =>
    have hf := Tree.merged_freq h
    rw [Tree.leafCounts, countSum_append] at *
    intro q hq
    simp only [Tree.records, List.mem_cons, List.mem_append] at hq
    rcases hq with rfl | hq | hq
    · exact hf.le
    · have := ihl h.2.2.1 q hq; omega
    · have := ihr h.2.2.2 q hq; omega

theorem Built.leafCounts_length {f : FreqTable} {sent : Byte} {t : Tree} (h : Built f sent t) :
    t.leafCounts.length = f.symbols.length := by rw [h.leaves.length_eq]; simp [FreqTable.counts]

theorem Built.size {f : FreqTable} {sent : Byte} {t : Tree} (h : Built f sent t) : t.size = 2 * f.symbols.length - 1 := by
  have := Tree.merged_size h.merged
  rw [h.leafCounts_length] at this
  omega

theorem Built.leafValues {f : FreqTable} {sent : Byte} {t : Tree} (h : Built f sent t) : t.leafValues.Perm f.symbols := by
  rw [Tree.leafValues_eq]
  have := h.leaves.map Prod.fst
  simpa [FreqTable.counts, Function.comp_def] using this

theorem Built.freq {f : FreqTable} {sent : Byte} {t : Tree} (h : Built f sent t) :
    t.freq.toNat = (allSymbols.map fun b => (f.at b).toNat).sum := by
  rw [Tree.merged_freq h.merged, countSum_perm h.leaves, f.countSum_counts]

/-- Whatever BUILD gives is fit for GENCODES, SERIALIZE and the arena. -/
theorem buildTree_eq_ok {f : FreqTable} {sent : Byte} {t : Tree} (hs : (allSymbols.map fun b => (f.at b).toNat).sum < 2 ^ 31)
    (h : buildTree f sent = .ok t) : t.isLeaf = false ∧ t.leafValues.Perm f.symbols ∧ (∀ e ∈ t.paths [], e.2.length ≤ maxLen)
      ∧ noNegative t ∧ t.size ≤ 511 := by
  have hsym := f.symbols_length
  have hc := f.countSum_counts
  match hl : f.symbols with
  | [] => rw [buildTree_empty sent hl] at h; cases h
  | [b] =>
    rw [buildTree_single sent hl] at h
    cases h
    have hb : (f.at b).toNat < 2 ^ 31 := by
      have : countSum f.counts = (f.at b).toNat := by simp [countSum, FreqTable.counts, hl]
      omega
    refine ⟨rfl, by simp [Tree.leafValues], by simp [Tree.paths], ?_, by simp [Tree.size]⟩
    intro r hr
    simp only [Tree.records, List.mem_cons, List.not_mem_nil, or_false] at hr
    rcases hr with rfl | rfl
    · simp
    · exact hb
  | _ :: _ :: _ =>
    have h2 : 2 ≤ f.symbols.length := by rw [hl]; simp
    obtain ⟨u, h1, hb⟩ := buildTree_many sent h2 (by omega)
    rw [h] at h1
    cases h1
    refine ⟨hb.inner, by rw [← hl]; exact hb.leafValues, ?_, ?_, ?_⟩
    · intro e he
      have := Tree.merged_depth hb.merged [] e he
      rw [hb.leafCounts_length, List.length_nil] at this
      simp only [maxLen]
      omega
    · intro r hr
      have := Tree.merged_records hb.merged r hr
      rw [countSum_perm hb.leaves] at this
      omega
    · have := hb.size
      omega

theorem buildTree_error {f : FreqTable} {sent : Byte} {e : Stop} (h : buildTree f sent = .error e) :
    e = .raise .emptySymbolSet 0#32 := by
  unfold buildTree at h
  split at h
  · exact (Except.error.inj h).symm
  · cases h
  · split at h
    · exact (Except.error.inj h).symm
    · cases h

end Sys2Proof.Machine
end

