-- ==== Sys2Proof/Laws/Tables.lean ====
section
/-! SUPPORT. The tables: what COUNT counts and what PADCALC sums (spec 41_count R150 to R155, 45_padcalc R220 to R223). -/

namespace Sys2Proof.Machine

/-! ### Sums over the symbols -/

theorem sum_indicator (l : List Byte) (h : l.Nodup) (v : Byte) (n : Nat) :
    (l.map fun b => if v = b then n else 0).sum = if v ∈ l then n else 0 := by
  induction l with
  | nil => rfl
  | cons a l ih =>
    obtain ⟨ha, hl⟩ := List.nodup_cons.mp h
    rw [List.map_cons, List.sum_cons, ih hl]
    by_cases hv : v = a
    · subst hv; simp [ha]
    · simp [hv]

theorem sum_indicator_all (v : Byte) (n : Nat) : (allSymbols.map fun b => if v = b then n else 0).sum = n := by
  rw [sum_indicator _ allSymbols_nodup]; simp

theorem sum_map_add (l : List Byte) (f g : Byte → Nat) :
    (l.map fun b => f b + g b).sum = (l.map f).sum + (l.map g).sum := by
  induction l with
  | nil => rfl
  | cons a l ih => simp only [List.map_cons, List.sum_cons, ih]; omega

theorem count_cons_eq (v b : Byte) (vs : List Byte) : (v :: vs).count b = (if v = b then 1 else 0) + vs.count b := by
  rw [List.count_cons]
  by_cases h : v = b <;> simp [h, Nat.add_comm]

/-- Weights summed along a list are the weights times the occurrences, summed over the symbols. -/
theorem sum_by_count (bytes : List Byte) (w : Byte → Nat) :
    (allSymbols.map fun b => bytes.count b * w b).sum = (bytes.map w).sum := by
  induction bytes with
  | nil => generalize allSymbols = l; induction l <;> simp_all
  | cons v vs ih =>
    have : (fun b => (v :: vs).count b * w b) = fun b => (if v = b then w v else 0) + vs.count b * w b := by
      funext b
      rw [count_cons_eq]
      by_cases h : v = b
      · subst h; simp [Nat.add_mul]
      · simp [h]
    rw [this, sum_map_add, sum_indicator_all, ih, List.map_cons, List.sum_cons]

theorem sum_count (bytes : List Byte) : (allSymbols.map fun b => bytes.count b).sum = bytes.length := by
  simpa using sum_by_count bytes fun _ => 1

/-! ### COUNT -/

theorem foldl_bump_at (bytes : List Byte) (t : FreqTable) (b : Byte) :
    (bytes.foldl FreqTable.bump t).at b = t.at b + BitVec.ofNat 32 (bytes.count b) := by
  induction bytes generalizing t with
  | nil => simp
  | cons v vs ih =>
    rw [List.foldl_cons, ih, count_cons_eq, FreqTable.bump, FreqTable.at_put]
    by_cases h : v = b
    · subst h; simp [BitVec.ofNat_add, BitVec.add_assoc]
    · simp [h]

/-- COUNT's table holds the number of occurrences of each byte. -/
theorem countBytes_at (bytes : List Byte) (b : Byte) : (countBytes bytes).at b = BitVec.ofNat 32 (bytes.count b) := by
  simp [countBytes, foldl_bump_at]

theorem countBytes_toNat {bytes : List Byte} (h : bytes.length < 2 ^ 32) (b : Byte) :
    ((countBytes bytes).at b).toNat = bytes.count b := by
  have := List.count_le_length (l := bytes) (a := b)
  rw [countBytes_at, BitVec.toNat_ofNat, Nat.mod_eq_of_lt (by omega)]

theorem countBytes_sum {bytes : List Byte} (h : bytes.length < 2 ^ 32) :
    (allSymbols.map fun b => ((countBytes bytes).at b).toNat).sum = bytes.length := by
  simp only [countBytes_toNat h, sum_count]

theorem countBytes_present {bytes : List Byte} (h : bytes.length < 2 ^ 32) (b : Byte) :
    (countBytes bytes).present b = true ↔ b ∈ bytes := by
  have hn := countBytes_toNat h b
  rw [FreqTable.present, bne_iff_ne, ← List.count_pos_iff, ← hn]
  refine ⟨fun hne => Nat.pos_of_ne_zero fun h0 => hne (BitVec.eq_of_toNat_eq h0), fun hp h0 => ?_⟩
  rw [h0] at hp
  simp at hp

theorem FreqTable.ext {f g : FreqTable} (h : ∀ b, f.at b = g.at b) : f = g := by
  apply Vector.ext
  intro i hi
  have := h (BitVec.ofNat 8 i)
  simpa [FreqTable.at, Nat.mod_eq_of_lt hi] using this

/-! ### PADCALC -/

/-- The bits PADCALC counts, summed over all symbols. -/
theorem totalBits_eq (f : FreqTable) (c : CodeTable) :
    totalBits f c = (allSymbols.map fun b => (f.at b).toNat * c.len b).sum := by
  rw [totalBits, FreqTable.symbols]
  generalize allSymbols = l
  induction l with
  | nil => rfl
  | cons b l ih =>
    rw [List.filter_cons]
    split_ifs with hb
    · simp only [List.map_cons, List.sum_cons, ih]
    · have h0 : f.at b = 0#32 := by simpa [FreqTable.present] using hb
      simp only [List.map_cons, List.sum_cons, ih, h0]
      simp

theorem codeBits_length (c : CodeTable) (bytes : List Byte) : (codeBits c bytes).length = (bytes.map c.len).sum := by
  induction bytes with
  | nil => rfl
  | cons v vs ih =>
    have : ((c.at v).getD []).length = c.len v := by unfold CodeTable.len; cases c.at v <;> rfl
    rw [codeBits] at *
    rw [List.flatMap_cons, List.length_append, ih, this, List.map_cons, List.sum_cons]

/-- PADCALC on the counts of a stream counts the bits of the stream's codes (R223). -/
theorem totalBits_countBytes (c : CodeTable) {bytes : List Byte} (h : bytes.length < 2 ^ 32) :
    totalBits (countBytes bytes) c = (codeBits c bytes).length := by
  rw [totalBits_eq, codeBits_length, ← sum_by_count bytes c.len]
  simp only [countBytes_toNat h]

/-- The two tables agree exactly when no symbol tells them apart (R222). -/
theorem tableMismatch_none_iff (f : FreqTable) (c : CodeTable) :
    tableMismatch f c = none ↔ ∀ b, f.present b = c.valid b := by
  simp [tableMismatch]

theorem allSymbols_sorted : allSymbols.Pairwise fun a b => a.toNat < b.toNat := by
  rw [allSymbols, List.pairwise_map]
  refine List.Pairwise.imp_of_mem ?_ (List.pairwise_lt_range (n := 256))
  intro a b ha hb hab
  simp only [List.mem_range] at ha hb
  simp only [BitVec.toNat_ofNat]
  omega

/-- A reported mismatch is the least symbol that tells the tables apart (R222). -/
theorem tableMismatch_some_iff (f : FreqTable) (c : CodeTable) (b : Byte) : tableMismatch f c = some b
    ↔ f.present b ≠ c.valid b ∧ ∀ a, a.toNat < b.toNat → f.present a = c.valid a := by
  rw [tableMismatch, List.find?_eq_some_iff_append]
  have hs := allSymbols_sorted
  constructor
  · rintro ⟨hb, as, bs, he, hbefore⟩
    refine ⟨by simpa using hb, fun a hab => ?_⟩
    have ha := mem_allSymbols a
    rw [he, List.mem_append] at ha
    rw [he, List.pairwise_append, List.pairwise_cons] at hs
    rcases ha with ha | ha
    · simpa using hbefore a ha
    · rcases List.mem_cons.mp ha with rfl | ha
      · omega
      · have := hs.2.1.1 a ha; omega
  · rintro ⟨hb, hbefore⟩
    obtain ⟨as, bs, he⟩ := List.append_of_mem (mem_allSymbols b)
    refine ⟨by simpa using hb, as, bs, he, fun a ha => ?_⟩
    rw [he, List.pairwise_append] at hs
    simpa using hbefore a (hs.2.2 a ha b (by simp))

/-- A total below 2^32 when the counts and the code lengths are within their bounds (R33). -/
theorem totalBits_bound {f : FreqTable} {c : CodeTable} {n : Nat} (hc : ∀ b, c.len b ≤ maxLen)
    (hf : (allSymbols.map fun b => (f.at b).toNat).sum ≤ n) : totalBits f c ≤ n * maxLen := by
  rw [totalBits_eq]
  have key : ∀ l : List Byte, (l.map fun b => (f.at b).toNat * c.len b).sum ≤ (l.map fun b => (f.at b).toNat).sum * maxLen := by
    intro l
    induction l with
    | nil => simp
    | cons b l ih =>
      simp only [List.map_cons, List.sum_cons, Nat.add_mul]
      have := Nat.mul_le_mul_left (f.at b).toNat (hc b)
      omega
  exact (key _).trans (Nat.mul_le_mul_right _ hf)

theorem CodeTable.len_le {c : CodeTable} (h : codesPrefixFree c) (b : Byte) : c.len b ≤ maxLen := by
  unfold CodeTable.len
  cases hb : c.at b with
  | none => simp
  | some p => exact (h.1 b p hb).2

theorem paddingOf_lt (t : Nat) : paddingOf t < 8 := by unfold paddingOf; omega

theorem paddingOf_mod (t : Nat) : (t + paddingOf t) % 8 = 0 := by unfold paddingOf; omega

end Sys2Proof.Machine
end

