-- ==== Sys2Proof/Laws/Pack.lean ====
section
/-! SUPPORT. PACK: everything draining, packing and padding can do (spec 46_pack R230 to R236). -/

namespace Sys2Proof.Machine

/-- A full stream: some bytes went out, and the next one found no room (R72). -/
def OutPort.Overflows (o : OutPort) (e : Stop) : Prop :=
  ∃ bs o', o.Grew bs o' ∧ o.cap ≤ o'.len.toNat ∧ e = .raise .outputOverflow o'.len

theorem OutPort.Overflows.grew {o o' : OutPort} {bs : List Byte} {e : Stop} (h : o.Grew bs o') (h' : o'.Overflows e) :
    o.Overflows e := by
  obtain ⟨cs, o'', g, hc, he⟩ := h'
  exact ⟨bs ++ cs, o'', h.append g, by rwa [h.cap] at hc, he⟩

theorem OutPort.overflows_emit {o : OutPort} (h : o.cap ≤ o.len.toNat) : o.Overflows (.raise .outputOverflow o.len) :=
  ⟨[], o, .refl o, h, rfl⟩

/-- Under a capacity the spec allows, the FINFO of an overflow is the capacity, and more bytes than fit were due. -/
theorem OutPort.Overflows.info {o : OutPort} {e : Stop} (h : o.Overflows e) (hc : o.cap ≤ 2 ^ 25) (hl : o.len.toNat ≤ o.cap) :
    e = .raise .outputOverflow (BitVec.ofNat 32 o.cap) := by
  obtain ⟨bs, o', g, hge, rfl⟩ := h
  obtain ⟨hf, rfl⟩ := g.eq_extend hc hl
  have hl' := OutPort.extend_len hf
  congr 1
  apply BitVec.eq_of_toNat_eq
  have := hf.1
  rw [BitVec.toNat_ofNat]
  omega

theorem emitAll_overflows {bs : List Byte} {o : OutPort} {e : Stop} (h : emitAll bs o = .error e) : o.Overflows e := by
  induction bs generalizing o with
  | nil => cases h
  | cons b bs ih =>
    rcases emit_cases b o with ⟨hl, he⟩ | ⟨hl, he⟩
    · rw [emitAll, he] at h
      exact (ih h).grew (.step hl (.refl _))
    · rw [emitAll, he] at h
      cases h
      exact OutPort.overflows_emit hl

/-! ### Whole bytes -/

/-- Everything draining can do: the whole bytes go out, fewer than 8 bits stay; or the stream is full. -/
theorem drain_cases (buf : BitString) (o : OutPort) :
    (∃ bs rest o', drain buf o = .ok (rest, o') ∧ o.Grew bs o' ∧ bitsOf bs ++ rest = buf ∧ rest.length < 8)
      ∨ ∃ e, drain buf o = .error e ∧ o.Overflows e := by
  fun_induction drain buf o with
  | case1 b0 b1 b2 b3 b4 b5 b6 b7 rest o e he =>
    rcases emit_cases (byteOfBits [b0, b1, b2, b3, b4, b5, b6, b7]) o with ⟨_, h⟩ | ⟨hl, h⟩
    · rw [h] at he; cases he
    · rw [h] at he; cases he
      exact .inr ⟨_, rfl, OutPort.overflows_emit hl⟩
  | case2 b0 b1 b2 b3 b4 b5 b6 b7 rest o o' he ih =>
    rcases emit_cases (byteOfBits [b0, b1, b2, b3, b4, b5, b6, b7]) o with ⟨hl, h⟩ | ⟨_, h⟩
    · rw [h] at he; cases he
      have hstep : o.Grew [byteOfBits [b0, b1, b2, b3, b4, b5, b6, b7]] _ := .step hl (.refl _)
      rcases ih with ⟨bs, rest', o'', e1, g, hb, hlen⟩ | ⟨e, e1, g⟩
      · refine .inl ⟨byteOfBits [b0, b1, b2, b3, b4, b5, b6, b7] :: bs, rest', o'', e1, hstep.append g, ?_, hlen⟩
        rw [bitsOf_cons, bits8_byteOfBits, List.append_assoc, hb]
        rfl
      · exact .inr ⟨e, e1, g.grew hstep⟩
    · rw [h] at he; cases he
  | case3 buf o hne =>
    refine .inl ⟨[], buf, o, rfl, .refl o, rfl, ?_⟩
    by_contra hlen
    match buf, hne, hlen with
    | b0 :: b1 :: b2 :: b3 :: b4 :: b5 :: b6 :: b7 :: rest, hne, _ => exact hne _ _ _ _ _ _ _ _ _ rfl
    | [], _, h | [_], _, h | [_, _], _, h | [_, _, _], _, h | [_, _, _, _], _, h | [_, _, _, _, _], _, h
    | [_, _, _, _, _, _], _, h | [_, _, _, _, _, _, _], _, h => simp at h

/-- An overflow in draining means the whole bytes did not fit. -/
theorem drain_ok {buf : BitString} {o : OutPort} (h : o.fits (buf.length / 8)) :
    ∃ bs rest, drain buf o = .ok (rest, o.extend bs) ∧ bitsOf bs ++ rest = buf ∧ rest.length < 8 := by
  fun_induction drain buf o with
  | case1 b0 b1 b2 b3 b4 b5 b6 b7 rest o e he =>
    rw [emit_ok _ (OutPort.fits_mono h (by simp only [List.length_cons]; omega))] at he
    cases he
  | case2 b0 b1 b2 b3 b4 b5 b6 b7 rest o o' he ih =>
    rw [emit_ok _ (OutPort.fits_mono h (by simp only [List.length_cons]; omega))] at he
    cases he
    have hsz : (b0 :: b1 :: b2 :: b3 :: b4 :: b5 :: b6 :: b7 :: rest).length / 8 = 1 + rest.length / 8 := by
      simp only [List.length_cons]; omega
    rw [hsz] at h
    obtain ⟨bs, rest', e1, hb, hlen⟩ := ih (OutPort.fits_extend (by simpa using h))
    have hle : bs.length ≤ rest.length / 8 := by
      have := congrArg List.length hb
      rw [List.length_append, bitsOf_length] at this
      omega
    refine ⟨byteOfBits [b0, b1, b2, b3, b4, b5, b6, b7] :: bs, rest', ?_, ?_, hlen⟩
    · rw [e1, OutPort.extend_append (OutPort.fits_mono h (by simp; omega))]
      rfl
    · rw [bitsOf_cons, bits8_byteOfBits, List.append_assoc, hb]
      rfl
  | case3 buf o hne =>
    rcases drain_cases buf o with ⟨bs, rest, o', e1, g, hb, hlen⟩ | ⟨e, e1, _⟩
    · rw [drain] at e1
      · cases e1
        exact ⟨[], buf, by simp, by simp, hlen⟩
      · exact hne
    · rw [drain] at e1
      · cases e1
      · exact hne

/-! ### The loop -/

theorem codeBits_cons {c : CodeTable} {v : Byte} {p : BitString} (h : c.at v = some p) (vs : List Byte) :
    codeBits c (v :: vs) = p ++ codeBits c vs := by simp [codeBits, h]

theorem codeBits_append (c : CodeTable) (as bs : List Byte) : codeBits c (as ++ bs) = codeBits c as ++ codeBits c bs := by
  simp [codeBits]

/-- Everything the packing loop can do: all codes go through the buffer in order; NoCode at the first byte without a code; or the
stream is full. -/
theorem packBytes_cases (c : CodeTable) (i : Nat) (bytes : List Byte) (buf : BitString) (o : OutPort) :
    (codedAll c bytes ∧ ∃ bs rest o', packBytes c i bytes buf o = .ok (rest, o') ∧ o.Grew bs o'
        ∧ bitsOf bs ++ rest = buf ++ codeBits c bytes ∧ (buf.length < 8 → rest.length < 8))
      ∨ (∃ j, ∃ hj : j < bytes.length, c.at bytes[j] = none ∧ codedAll c (bytes.take j)
          ∧ packBytes c i bytes buf o = raise .noCode (i + j))
      ∨ ∃ e, packBytes c i bytes buf o = .error e ∧ o.Overflows e := by
  induction bytes generalizing i buf o with
  | nil => exact .inl ⟨by simp [codedAll], [], buf, o, rfl, .refl o, by simp [codeBits], fun h => h⟩
  | cons v vs ih =>
    cases hv : c.at v with
    | none =>
      refine .inr (.inl ⟨0, by simp, by simpa using hv, by simp [codedAll], ?_⟩)
      simp [packBytes, hv]
    | some p =>
      have hval : c.valid v = true := by simp [CodeTable.valid, hv]
      simp only [packBytes, hv]
      rcases drain_cases (buf ++ p) o with ⟨bs, rest, o', e1, g, hb, hlen⟩ | ⟨e, e1, g⟩
      · rw [e1]
        rcases ih (i + 1) rest o' with ⟨hall, bs', rest', o'', e2, g', hb', hlen'⟩ | ⟨j, hj, hn, hall, e2⟩ | ⟨e, e2, g'⟩
        · refine .inl ⟨List.forall_mem_cons.mpr ⟨hval, hall⟩, bs ++ bs', rest', o'', e2, g.append g', ?_, fun _ => hlen' hlen⟩
          rw [bitsOf_append, List.append_assoc, hb', ← List.append_assoc, hb, codeBits_cons hv, List.append_assoc]
        · refine .inr (.inl ⟨j + 1, by simpa using hj, by simpa using hn, ?_, ?_⟩)
          · simp only [List.take_succ_cons]
            exact List.forall_mem_cons.mpr ⟨hval, hall⟩
          · rw [show i + (j + 1) = i + 1 + j by omega]; exact e2
        · exact .inr (.inr ⟨e, e2, g'.grew g⟩)
      · rw [e1]
        exact .inr (.inr ⟨e, rfl, g⟩)

/-- The loop does not overflow when the whole bytes fit. -/
theorem packBytes_ok {c : CodeTable} {i : Nat} {bytes : List Byte} {buf : BitString} {o : OutPort} (hall : codedAll c bytes)
    (h : o.fits ((buf ++ codeBits c bytes).length / 8)) (hbuf : buf.length < 8) :
    ∃ bs rest, packBytes c i bytes buf o = .ok (rest, o.extend bs) ∧ bitsOf bs ++ rest = buf ++ codeBits c bytes
      ∧ rest.length < 8 := by
  induction bytes generalizing i buf o with
  | nil => exact ⟨[], buf, by simp [packBytes], by simp [codeBits], hbuf⟩
  | cons v vs ih =>
    obtain ⟨p, hp⟩ := Option.isSome_iff_exists.mp (hall v (by simp))
    rw [codeBits_cons hp] at h ⊢
    have hfit1 : o.fits ((buf ++ p).length / 8) := OutPort.fits_mono h (by simp only [List.length_append]; omega)
    obtain ⟨bs, rest, e1, hb, hlen⟩ := drain_ok hfit1
    have hl := congrArg List.length hb
    simp only [List.length_append, bitsOf_length] at hl
    have hfit2 : o.fits (bs.length + (rest ++ codeBits c vs).length / 8) :=
      OutPort.fits_mono h (by simp only [List.length_append]; omega)
    obtain ⟨bs', rest', e2, hb', hlen'⟩ := ih (i := i + 1) (fun w hw => hall w (by simp [hw])) (OutPort.fits_extend hfit2) hlen
    have hl' := congrArg List.length hb'
    simp only [List.length_append, bitsOf_length] at hl'
    refine ⟨bs ++ bs', rest', ?_, ?_, hlen'⟩
    · simp only [packBytes, hp, e1, e2]
      rw [OutPort.extend_append (OutPort.fits_mono hfit2 (by simp only [List.length_append]; omega))]
    · rw [bitsOf_append, List.append_assoc, hb', ← List.append_assoc, hb, List.append_assoc]

/-! ### The end -/

/-- Everything the end of packing can do (R233, R234). -/
theorem packFinal_cases (pad : BitVec 3) {buf : BitString} (o : OutPort) (hbuf : buf.length < 8) :
    (pad.toNat = (8 - buf.length) % 8 ∧ ∃ bs o', packFinal pad buf o = .ok o' ∧ o.Grew bs o'
        ∧ bitsOf bs = buf ++ List.replicate pad.toNat false)
      ∨ (pad.toNat ≠ (8 - buf.length) % 8 ∧ packFinal pad buf o = raise .padMismatch buf.length)
      ∨ ∃ e, packFinal pad buf o = .error e ∧ o.Overflows e := by
  unfold packFinal
  by_cases hp : pad.toNat = (8 - buf.length) % 8
  · rw [if_neg (by simpa using hp)]
    by_cases h0 : 0 < buf.length
    · rw [if_pos h0]
      have hlen : (buf ++ List.replicate pad.toNat false).length = 8 := by simp [hp]; omega
      rcases emit_cases (byteOfBits (buf ++ List.replicate pad.toNat false)) o with ⟨hl, he⟩ | ⟨hl, he⟩
      · refine .inl ⟨hp, [_], _, he, .step hl (.refl _), ?_⟩
        simp [bits8_byteOfBits_of_length hlen]
      · exact .inr (.inr ⟨_, he, OutPort.overflows_emit hl⟩)
    · rw [if_neg h0]
      have hb : buf = [] := by simpa using h0
      subst hb
      exact .inl ⟨hp, [], o, rfl, .refl o, by simp [hp]⟩
  · rw [if_pos hp]
    exact .inr (.inl ⟨hp, rfl⟩)

theorem bitsOf_inj {as bs : List Byte} (h : bitsOf as = bitsOf bs) : as = bs := by
  induction as generalizing bs with
  | nil =>
    have := congrArg List.length h
    simp only [bitsOf_length, List.length_nil] at this
    exact (List.eq_nil_of_length_eq_zero (by omega)).symm
  | cons a as ih =>
    cases bs with
    | nil => have := congrArg List.length h; simp only [bitsOf_length, List.length_cons, List.length_nil] at this; omega
    | cons b bs =>
      simp only [bitsOf_cons] at h
      obtain ⟨h1, h2⟩ := List.append_inj h rfl
      rw [ih h2, ← byteOfBits_bits8 a, h1, byteOfBits_bits8]

/-- Everything PACK's pseudocode can do on a stream: the payload goes out whole, its bits the codes and then PAD zeros; NoCode at the
first byte without a code; PadMismatch with the left-over bit count; or the stream is full. -/
theorem packStream_cases (c : CodeTable) (pad : BitVec 3) (i : Nat) (bytes : List Byte) (o : OutPort) :
    (codedAll c bytes ∧ pad.toNat = paddingOf (codeBits c bytes).length ∧ ∃ bs o', packStream c pad i bytes o = .ok o' ∧ o.Grew bs o'
        ∧ bitsOf bs = codeBits c bytes ++ List.replicate pad.toNat false)
      ∨ (∃ j, ∃ hj : j < bytes.length, c.at bytes[j] = none ∧ codedAll c (bytes.take j)
          ∧ packStream c pad i bytes o = raise .noCode (i + j))
      ∨ (codedAll c bytes ∧ pad.toNat ≠ paddingOf (codeBits c bytes).length
          ∧ packStream c pad i bytes o = raise .padMismatch ((codeBits c bytes).length % 8))
      ∨ ∃ e, packStream c pad i bytes o = .error e ∧ o.Overflows e := by
  unfold packStream
  rcases packBytes_cases c i bytes [] o with ⟨hall, bs, rest, o', e1, g, hb, hlen⟩ | ⟨j, hj, hn, hall, e1⟩ | ⟨e, e1, g⟩
  · have hlen := hlen (by simp)
    have hl := congrArg List.length hb
    simp only [List.length_append, bitsOf_length, List.nil_append] at hl
    have hr : (codeBits c bytes).length % 8 = rest.length := by omega
    have hpad : (8 - rest.length) % 8 = paddingOf (codeBits c bytes).length := by rw [paddingOf, hr]
    rw [e1]
    rcases packFinal_cases pad o' hlen with ⟨hp, bs', o'', e2, g', hb'⟩ | ⟨hp, e2⟩ | ⟨e, e2, g'⟩
    · refine .inl ⟨hall, by rw [hp, hpad], bs ++ bs', o'', e2, g.append g', ?_⟩
      rw [bitsOf_append, hb', ← List.append_assoc, hb, List.nil_append]
    · exact .inr (.inr (.inl ⟨hall, by rwa [← hpad], by rw [hr]; exact e2⟩))
    · exact .inr (.inr (.inr ⟨e, e2, g'.grew g⟩))
  · rw [e1]
    exact .inr (.inl ⟨j, hj, hn, hall, rfl⟩)
  · rw [e1]
    exact .inr (.inr (.inr ⟨e, rfl, g⟩))

/-- PACK goes through when every byte has a code, PAD fits and there is room for the payload. -/
theorem packStream_ok {c : CodeTable} {pad : BitVec 3} {i : Nat} {bytes : List Byte} {o : OutPort} (hall : codedAll c bytes)
    (hpad : pad.toNat = paddingOf (codeBits c bytes).length) (h : o.fits (((codeBits c bytes).length + pad.toNat) / 8)) :
    ∃ bs, packStream c pad i bytes o = .ok (o.extend bs)
      ∧ bitsOf bs = codeBits c bytes ++ List.replicate pad.toNat false := by
  obtain ⟨bs, rest, e1, hb, hlen⟩ := packBytes_ok (i := i) (buf := []) hall
    (OutPort.fits_mono h (by simp only [List.nil_append]; omega)) (by simp)
  have hl := congrArg List.length hb
  simp only [List.length_append, bitsOf_length, List.nil_append] at hl
  have hr : (codeBits c bytes).length % 8 = rest.length := by omega
  have hp : pad.toNat = (8 - rest.length) % 8 := by rw [hpad, paddingOf, hr]
  unfold packStream
  rw [e1]
  rcases packFinal_cases pad (o.extend bs) hlen with ⟨_, bs', o'', e2, g', hb'⟩ | ⟨hne, _⟩ | ⟨e, e2, g'⟩
  · have hlb := congrArg List.length hb'
    simp only [List.length_append, bitsOf_length, List.length_replicate] at hlb
    have hfit : o.fits (bs.length + bs'.length) := OutPort.fits_mono h (by omega)
    have hfit' : (o.extend bs).fits bs'.length := OutPort.fits_extend hfit
    obtain ⟨_, rfl⟩ := g'.eq_extend hfit'.2 (by have := hfit'.1; omega)
    refine ⟨bs ++ bs', ?_, ?_⟩
    · simp only [e2, OutPort.extend_append hfit]
    · rw [bitsOf_append, hb', ← List.append_assoc, hb, List.nil_append]
  · exact absurd hp hne
  · exfalso
    unfold packFinal at e2
    rw [if_neg (by simpa using hp)] at e2
    by_cases h0 : 0 < rest.length
    · rw [if_pos h0, emit_ok _ (OutPort.fits_extend (OutPort.fits_mono h (by omega)))] at e2
      cases e2
    · rw [if_neg h0] at e2
      cases e2

end Sys2Proof.Machine
end

