-- ==== Sys2Proof/Laws/Unpack.lean ====
section
/-! SUPPORT. UNPACK: the walk apart from the output, what it makes of code paths, and everything the unpacking loop can do
(spec 47_unpack R240 to R248). -/

namespace Sys2Proof.Machine

/-! ### The walk as a function of the bits -/

/-- The walk of R242 without the output: the bytes decoded and where the cursor ends, `none` at a missing child. -/
def walkBits (root : Tree) : BitString → Cursor → Option (List Byte × Cursor)
  | [], cur => some ([], cur)
  | c :: cs, cur =>
    match (cur.getD root).child c with
    | none => none
    | some t =>
      if t.isLeaf then (walkBits root cs none).map fun p => (t.value :: p.1, p.2)
      else walkBits root cs (some t)

theorem walkBits_append (root : Tree) (as bs : BitString) (cur : Cursor) : walkBits root (as ++ bs) cur
    = (walkBits root as cur).bind fun p => (walkBits root bs p.2).map fun q => (p.1 ++ q.1, q.2) := by
  induction as generalizing cur with
  | nil => cases h : walkBits root bs cur <;> simp [walkBits, h]
  | cons c cs ih =>
    simp only [List.cons_append, walkBits]
    cases (cur.getD root).child c with
    | none => rfl
    | some t =>
      simp only
      split_ifs
      · rw [ih]
        cases walkBits root cs none with
        | none => rfl
        | some p => cases h : walkBits root bs p.2 <;> simp [h]
      · exact ih (some t)

/-- The steps of a path from a node lead to its leaf, which is emitted, and back to the root. -/
theorem walkBits_below {root : Tree} (t : Tree) (path : BitString) {e : Byte × BitString} (he : e ∈ t.paths path) :
    ∃ q, e.2 = path ++ q ∧ (t.isLeaf = true → q = [] ∧ t.value = e.1)
      ∧ (t.isLeaf = false → ∀ cur : Cursor, cur.getD root = t → walkBits root q cur = some ([e.1], none)) := by
  have go : ∀ (u : Tree) (c : Bool) (q : BitString) (cur : Cursor) (t : Tree), cur.getD root = t → t.child c = some u →
      (u.isLeaf = true → q = [] ∧ u.value = e.1)
      → (u.isLeaf = false → ∀ cur : Cursor, cur.getD root = u → walkBits root q cur = some ([e.1], none))
      → walkBits root (c :: q) cur = some ([e.1], none) := by
    intro u c q cur t hcur hc h1 h2
    simp only [walkBits, hcur, hc]
    split_ifs with hl
    · obtain ⟨rfl, hv⟩ := h1 hl
      simp [walkBits, hv]
    · exact h2 (by simpa using hl) (some u) rfl
  induction t generalizing path with
  | leaf k v f =>
    simp only [Tree.paths, List.mem_singleton] at he
    subst he
    exact ⟨[], by simp, fun _ => ⟨rfl, rfl⟩, fun h => by simp [Tree.isLeaf] at h⟩
  | rightOnly k v f r ih =>
    obtain ⟨q, h0, h1, h2⟩ := ih _ he
    exact ⟨true :: q, by simp [h0], fun h => by simp [Tree.isLeaf] at h,
      fun _ cur hcur => go r true q cur _ hcur rfl h1 h2⟩
  | leftOnly k v f l ih =>
    obtain ⟨q, h0, h1, h2⟩ := ih _ he
    exact ⟨false :: q, by simp [h0], fun h => by simp [Tree.isLeaf] at h,
      fun _ cur hcur => go l false q cur _ hcur rfl h1 h2⟩
  | both k v f l r ihl ihr =>
    rcases List.mem_append.mp he with he | he
    · obtain ⟨q, h0, h1, h2⟩ := ihl _ he
      exact ⟨false :: q, by simp [h0], fun h => by simp [Tree.isLeaf] at h,
        fun _ cur hcur => go l false q cur _ hcur rfl h1 h2⟩
    · obtain ⟨q, h0, h1, h2⟩ := ihr _ he
      exact ⟨true :: q, by simp [h0], fun h => by simp [Tree.isLeaf] at h,
        fun _ cur hcur => go r true q cur _ hcur rfl h1 h2⟩

theorem walkBits_path {root : Tree} (hroot : root.isLeaf = false) {e : Byte × BitString} (he : e ∈ root.paths []) :
    walkBits root e.2 none = some ([e.1], none) := by
  obtain ⟨q, h0, _, h2⟩ := walkBits_below (root := root) root [] he
  rw [h0]
  exact h2 hroot none rfl

/-- Paths one after the other decode to their leaves one after the other (R248). -/
theorem walkBits_paths {root : Tree} (hroot : root.isLeaf = false) {es : List (Byte × BitString)} (h : ∀ e ∈ es, e ∈ root.paths []) :
    walkBits root (es.flatMap Prod.snd) none = some (es.map Prod.fst, none) := by
  induction es with
  | nil => rfl
  | cons e es ih =>
    rw [List.flatMap_cons, walkBits_append, walkBits_path hroot (h e (by simp))]
    simp [ih fun q hq => h q (by simp [hq])]

/-- A node below (or at) the root, with the path that leads there. -/
inductive Tree.At : Tree → BitString → Tree → Prop where
  | here (t : Tree) : At t [] t
  | step {t u w : Tree} {c : Bool} {p : BitString} (hc : t.child c = some u) (h : At u p w) : At t (c :: p) w

theorem Tree.At.snoc {t u w : Tree} {p : BitString} {c : Bool} (h : t.At p u) (hc : u.child c = some w) : t.At (p ++ [c]) w := by
  induction h with
  | here => exact .step hc (.here _)
  | step h0 _ ih => exact .step h0 (ih hc)

/-- A leaf reached is an entry of the leaves with their paths. -/
theorem Tree.At.mem_paths {t w : Tree} {p : BitString} (h : t.At p w) (hw : w.isLeaf = true) (path : BitString) :
    (w.value, path ++ p) ∈ t.paths path := by
  induction h generalizing path with
  | here t =>
    cases t <;> simp [Tree.isLeaf] at hw
    simp [Tree.paths, Tree.value]
  | @step t u w c p hc _ ih =>
    have := ih hw (path ++ [c])
    rw [List.append_assoc, List.singleton_append] at this
    cases t <;> cases c <;> simp [Tree.child] at hc <;> subst hc
    · exact this
    · exact this
    · exact List.mem_append_left _ this
    · exact List.mem_append_right _ this

/-- What a walk has decoded: the bits before the cursor are the paths of the bytes, and then the path to the cursor. -/
theorem walkBits_eq_some {root : Tree} {bits : BitString} {cur cur' : Cursor} {out : List Byte} {p : BitString}
    (hcur : root.At p (cur.getD root)) (hp : cur = none → p = []) (h : walkBits root bits cur = some (out, cur')) :
    ∃ (es : List (Byte × BitString)) (p' : BitString), (∀ e ∈ es, e ∈ root.paths []) ∧ es.map Prod.fst = out ∧ p ++ bits = es.flatMap Prod.snd ++ p'
      ∧ root.At p' (cur'.getD root) ∧ (cur' = none → p' = []) := by
  induction bits generalizing cur out p with
  | nil =>
    simp only [walkBits, Option.some.injEq, Prod.mk.injEq] at h
    obtain ⟨rfl, rfl⟩ := h
    exact ⟨[], p, by simp, rfl, by simp, hcur, hp⟩
  | cons c cs ih =>
    simp only [walkBits] at h
    cases hc : (cur.getD root).child c with
    | none => simp [hc] at h
    | some t =>
      have hat := hcur.snoc hc
      simp only [hc] at h
      split_ifs at h with hl
      · cases hw : walkBits root cs none with
        | none => simp [hw] at h
        | some q =>
          obtain ⟨out', cur''⟩ := q
          simp only [hw, Option.map_some, Option.some.injEq, Prod.mk.injEq] at h
          obtain ⟨rfl, rfl⟩ := h
          obtain ⟨es, p', h1, h2, h3, h4, h5⟩ := ih (cur := none) (p := []) (.here _) (fun _ => rfl) hw
          have hm := hat.mem_paths hl []
          refine ⟨(t.value, p ++ [c]) :: es, p', List.forall_mem_cons.mpr ⟨by simpa using hm, h1⟩, by simp [h2], ?_, h4, h5⟩
          rw [List.nil_append] at h3
          simp [h3]
      · obtain ⟨es, p', h1, h2, h3, h4, h5⟩ := ih (cur := some t) (p := p ++ [c]) hat (by simp) h
        exact ⟨es, p', h1, h2, by simpa using h3, h4, h5⟩

/-! ### With the output -/

theorem unpackBits_ok {root : Tree} {off : Nat} {bits : BitString} {cur cur' : Cursor} {o : OutPort} {out : List Byte}
    (hw : walkBits root bits cur = some (out, cur')) (h : o.fits out.length) :
    unpackBits root off bits cur o = .ok (cur', o.extend out) := by
  induction bits generalizing cur o out with
  | nil =>
    simp only [walkBits, Option.some.injEq, Prod.mk.injEq] at hw
    obtain ⟨rfl, rfl⟩ := hw
    simp [unpackBits]
  | cons c cs ih =>
    simp only [walkBits] at hw
    simp only [unpackBits]
    cases hc : (cur.getD root).child c with
    | none => simp [hc] at hw
    | some t =>
      simp only [hc] at hw
      simp only
      split_ifs at hw ⊢ with hl
      · cases hw' : walkBits root cs none with
        | none => simp [hw'] at hw
        | some q =>
          obtain ⟨out', cur''⟩ := q
          simp only [hw', Option.map_some, Option.some.injEq, Prod.mk.injEq] at hw
          obtain ⟨rfl, rfl⟩ := hw
          have hf : o.fits (([t.value] : List Byte).length + out'.length) := by simpa [Nat.add_comm] using h
          rw [emit_ok _ (OutPort.fits_mono h (by simp))]
          simp only [ih hw' (OutPort.fits_extend hf), OutPort.extend_append hf, List.singleton_append]
      · exact ih hw h

/-- Everything the walk with output can do on the bits of one byte. -/
theorem unpackBits_cases (root : Tree) (off : Nat) (bits : BitString) (cur : Cursor) (o : OutPort) :
    (∃ out cur' o', walkBits root bits cur = some (out, cur') ∧ unpackBits root off bits cur o = .ok (cur', o') ∧ o.Grew out o')
      ∨ (walkBits root bits cur = none ∧ unpackBits root off bits cur o = raise .absentChild off)
      ∨ ∃ e, unpackBits root off bits cur o = .error e ∧ o.Overflows e := by
  induction bits generalizing cur o with
  | nil => exact .inl ⟨[], cur, o, rfl, rfl, .refl o⟩
  | cons c cs ih =>
    simp only [walkBits, unpackBits]
    cases hc : (cur.getD root).child c with
    | none => exact .inr (.inl ⟨rfl, rfl⟩)
    | some t =>
      simp only
      split_ifs with hl
      · rcases emit_cases t.value o with ⟨hroom, he⟩ | ⟨hfull, he⟩
        · have hstep : o.Grew [t.value] _ := .step hroom (.refl _)
          rw [he]
          rcases ih none (o.extend [t.value]) with ⟨out, cur', o', h1, h2, g⟩ | ⟨h1, h2⟩ | ⟨e, h1, g⟩
          · exact .inl ⟨t.value :: out, cur', o', by simp [h1], h2, hstep.append g⟩
          · exact .inr (.inl ⟨by simp [h1], h2⟩)
          · exact .inr (.inr ⟨e, h1, g.grew hstep⟩)
        · rw [he]
          exact .inr (.inr ⟨_, rfl, OutPort.overflows_emit hfull⟩)
      · exact ih (some t) o

/-- The bits of the payload bytes as the loop takes them. -/
def loopBits (pad : Nat) : List Byte → BitString
  | [] => []
  | b :: bs => payloadBits pad b bs.isEmpty ++ loopBits pad bs

/-- The loop takes all bits of the payload but the last `pad` (R241). -/
theorem loopBits_eq (pad : Nat) (hp : pad < 8) (bytes : List Byte) : loopBits pad bytes = payload pad bytes := by
  induction bytes with
  | nil => simp [loopBits, payload]
  | cons b bs ih =>
    cases bs with
    | nil => simp [loopBits, payload, payloadBits]
    | cons b' bs =>
      rw [loopBits, ih]
      simp only [payload, payloadBits, List.isEmpty_cons, Bool.false_eq_true, ite_false, bitsOf_cons b]
      have h1 : (bits8 b).length ≤ 8 * (b :: b' :: bs).length - pad := by
        rw [bits8_length]; simp only [List.length_cons]; omega
      rw [List.take_append, List.take_of_length_le h1, bits8_length,
        show 8 * (b :: b' :: bs).length - pad - 8 = 8 * (b' :: bs).length - pad by simp only [List.length_cons]; omega]

theorem unpackBytes_ok {root : Tree} {pad off : Nat} {bytes : List Byte} {cur cur' : Cursor} {o : OutPort} {out : List Byte}
    (hw : walkBits root (loopBits pad bytes) cur = some (out, cur')) (h : o.fits out.length) :
    unpackBytes root pad off bytes cur o = .ok (cur', o.extend out) := by
  induction bytes generalizing off cur o out with
  | nil =>
    simp only [loopBits, walkBits, Option.some.injEq, Prod.mk.injEq] at hw
    obtain ⟨rfl, rfl⟩ := hw
    simp [unpackBytes]
  | cons b bs ih =>
    rw [loopBits, walkBits_append] at hw
    cases h1 : walkBits root (payloadBits pad b bs.isEmpty) cur with
    | none => simp [h1] at hw
    | some p =>
      obtain ⟨out1, cur1⟩ := p
      cases h2 : walkBits root (loopBits pad bs) cur1 with
      | none => simp [h1, h2] at hw
      | some q =>
        obtain ⟨out2, cur2⟩ := q
        simp only [h1, Option.bind_some, h2, Option.map_some, Option.some.injEq, Prod.mk.injEq] at hw
        obtain ⟨rfl, rfl⟩ := hw
        have hf : o.fits (out1.length + out2.length) := by simpa using h
        simp only [unpackBytes, unpackBits_ok h1 (OutPort.fits_mono hf (by omega)), ih h2 (OutPort.fits_extend hf),
          OutPort.extend_append hf]

/-- Everything the unpacking loop can do: decode all bits; AbsentChild at the byte where the walk finds no child; or the stream is
full. -/
theorem unpackBytes_cases (root : Tree) (pad off : Nat) (bytes : List Byte) (cur : Cursor) (o : OutPort) :
    (∃ out cur' o', walkBits root (loopBits pad bytes) cur = some (out, cur') ∧ unpackBytes root pad off bytes cur o = .ok (cur', o')
        ∧ o.Grew out o')
      ∨ (walkBits root (loopBits pad bytes) cur = none
          ∧ ∃ j, j < bytes.length ∧ unpackBytes root pad off bytes cur o = raise .absentChild (off + j))
      ∨ ∃ e, unpackBytes root pad off bytes cur o = .error e ∧ o.Overflows e := by
  induction bytes generalizing off cur o with
  | nil => exact .inl ⟨[], cur, o, rfl, rfl, .refl o⟩
  | cons b bs ih =>
    simp only [unpackBytes, loopBits, walkBits_append]
    rcases unpackBits_cases root off (payloadBits pad b bs.isEmpty) cur o with ⟨out, cur', o', h1, h2, g⟩ | ⟨h1, h2⟩ | ⟨e, h1, g⟩
    · rw [h2]
      rcases ih (off + 1) cur' o' with ⟨out', cur'', o'', h1', h2', g'⟩ | ⟨h1', j, hj, h2'⟩ | ⟨e, h1', g'⟩
      · exact .inl ⟨out ++ out', cur'', o'', by simp [h1, h1'], h2', g.append g'⟩
      · refine .inr (.inl ⟨by simp [h1, h1'], j + 1, by simpa using hj, ?_⟩)
        rw [show off + (j + 1) = off + 1 + j by omega]; exact h2'
      · exact .inr (.inr ⟨e, h1', g'.grew g⟩)
    · rw [h2]
      exact .inr (.inl ⟨by simp [h1], 0, by simp, rfl⟩)
    · rw [h1]
      exact .inr (.inr ⟨e, rfl, g⟩)

/-- UNPACK goes through on a payload whose bits are paths of leaves, one after the other (R242, R248). -/
theorem unpackStream_ok {root : Tree} {pad : BitVec 3} {off : Nat} {bytes : List Byte} {o : OutPort} {es : List (Byte × BitString)}
    (hroot : root.isLeaf = false) (hpad : bytes = [] → pad = 0#3) (hes : ∀ e ∈ es, e ∈ root.paths [])
    (hbits : payload pad.toNat bytes = es.flatMap Prod.snd) (h : o.fits es.length) :
    unpackStream root pad off bytes o = .ok (o.extend (es.map Prod.fst)) := by
  have hne : ¬ (bytes = [] ∧ pad ≠ 0#3) := fun hh => hh.2 (hpad hh.1)
  have hw := walkBits_paths hroot hes
  rw [← hbits, ← loopBits_eq _ pad.isLt] at hw
  simp only [unpackStream, if_neg hne, unpackBytes_ok hw (o := o) (by simpa using h)]

/-- Everything UNPACK's pseudocode can do on a payload. -/
theorem unpackStream_cases (root : Tree) (pad : BitVec 3) (off : Nat) (bytes : List Byte) (o : OutPort) :
    (∃ (es : List (Byte × BitString)) (o' : OutPort), unpackStream root pad off bytes o = .ok o' ∧ o.Grew (es.map Prod.fst) o' ∧ (∀ e ∈ es, e ∈ root.paths [])
        ∧ payload pad.toNat bytes = es.flatMap Prod.snd ∧ (bytes = [] → pad = 0#3))
      ∨ (bytes = [] ∧ pad ≠ 0#3 ∧ unpackStream root pad off bytes o = raise .badPadding pad.toNat)
      ∨ (walkBits root (payload pad.toNat bytes) none = none
          ∧ ∃ j, j < bytes.length ∧ unpackStream root pad off bytes o = raise .absentChild (off + j))
      ∨ (∃ out t o', walkBits root (payload pad.toNat bytes) none = some (out, some t) ∧ o.Grew out o'
          ∧ unpackStream root pad off bytes o = raise .truncatedStream o'.len.toNat)
      ∨ ∃ e, unpackStream root pad off bytes o = .error e ∧ o.Overflows e := by
  unfold unpackStream
  split_ifs with hne
  · exact .inr (.inl ⟨hne.1, hne.2, rfl⟩)
  rw [not_and, not_not] at hne
  rw [← loopBits_eq _ pad.isLt]
  rcases unpackBytes_cases root pad.toNat off bytes none o with ⟨out, cur', o', h1, h2, g⟩ | ⟨h1, j, hj, h2⟩ | ⟨e, h1, g⟩
  · rw [h2]
    cases cur' with
    | none =>
      obtain ⟨es, p', g1, g2, g3, _, g5⟩ := walkBits_eq_some (.here _) (fun _ => rfl) h1
      rw [g5 rfl, List.nil_append, List.append_nil] at g3
      exact .inl ⟨es, o', rfl, by rwa [g2], g1, g3, hne⟩
    | some t => exact .inr (.inr (.inr (.inl ⟨out, t, o', h1, g, rfl⟩)))
  · rw [h2]
    exact .inr (.inr (.inl ⟨h1, j, hj, rfl⟩))
  · rw [h1]
    exact .inr (.inr (.inr (.inr ⟨e, rfl, g⟩)))

end Sys2Proof.Machine
end

