-- ==== Sys2Proof/Laws/Container.lean ====
section
/-! SUPPORT. The Container header: what FRAME writes and what UNFRAME makes of its input (spec 48_container R260 to R264). -/

namespace Sys2Proof.Machine

/-! ### The bytes of a header -/

@[simp] theorem bigEndian_length (n : Nat) : (bigEndian n).length = 4 := rfl

theorem bigEndian_eq (n : Nat) : bigEndian n = bytesOfWord (BitVec.ofNat 32 n) := by
  simp only [bigEndian, bytesOfWord, List.cons.injEq, and_true]
  refine ⟨?_, ?_, ?_, ?_⟩ <;> apply BitVec.eq_of_toNat_eq <;>
    rw [BitVec.extractLsb'_toNat, BitVec.toNat_ofNat, BitVec.toNat_ofNat, Nat.shiftRight_eq_div_pow] <;>
    simp only [Nat.reducePow, Nat.div_one] <;> omega

theorem bytesOfWord_eq (w : Word) : bytesOfWord w = bigEndian w.toNat := by rw [bigEndian_eq]; simp

theorem b2i_bigEndian (n : Nat) : b2i (bigEndian n) = .ok (BitVec.ofNat 32 n) := by rw [bigEndian_eq, b2i_bytesOfWord]

@[simp] theorem containerHeader_length (pad : Nat) (ext packet : List Byte) :
    (containerHeader pad ext packet).length = 12 + ext.length + packet.length := by
  simp only [containerHeader, List.length_append, bigEndian_length]; omega

/-! ### FRAME -/

theorem emitAll_append (as bs : List Byte) : emitAll (as ++ bs) = fun o => (emitAll as o).bind (emitAll bs) := by
  funext o
  induction as generalizing o with
  | nil => rfl
  | cons a as ih =>
    simp only [List.cons_append, emitAll]
    cases emit a o with
    | error e => rfl
    | ok o' => exact ih o'

/-- FRAME emits the header of the Container (R260). -/
theorem runFrame_eq {s : State} (hext : s.extlen.toNat ≤ s.cfg.extCap) (hext' : s.extlen.toNat < 2 ^ 31)
    (htp : s.tplen.toNat ≤ s.cfg.tpktCap) (htp' : s.tplen.toNat < 2 ^ 31) :
    runFrame s = (emitAll (containerHeader s.pad.toNat s.extension s.packet) s.outPort).bind fun o => .ok (s.setOutPort o) := by
  have hp : (s.pad.setWidth 32).toNat < 2 ^ 31 := by
    have := s.pad.isLt
    rw [BitVec.toNat_setWidth]; omega
  have hpn : (s.pad.setWidth 32).toNat = s.pad.toNat := by
    have := s.pad.isLt
    rw [BitVec.toNat_setWidth]; omega
  have he : memRead s .ext 0 s.extlen.toNat = .ok s.extension := memRead_ok (.inr (by simpa [State.capacity] using hext))
  have ht : memRead s .tpkt 0 s.tplen.toNat = .ok s.packet := memRead_ok (.inr (by simpa [State.capacity] using htp))
  have hel : s.extension.length = s.extlen.toNat := by simp [State.extension]
  have htl : s.packet.length = s.tplen.toNat := by simp [State.packet]
  simp only [runFrame, i2b4_ok hp, i2b4_ok hext', i2b4_ok htp', raising_ok, he, ht, bind, Except.bind, containerHeader, hel, htl]
  rw [bytesOfWord_eq, bytesOfWord_eq, bytesOfWord_eq, hpn]
  simp only [List.append_assoc, emitAll_append]
  cases emitAll (bigEndian s.pad.toNat) s.outPort with
  | error e => rfl
  | ok o1 =>
    simp only [Except.bind]
    cases emitAll (bigEndian s.extlen.toNat) o1 with
    | error e => rfl
    | ok o2 =>
      simp only
      cases emitAll s.extension o2 with
      | error e => rfl
      | ok o3 =>
        simp only
        cases emitAll (bigEndian s.tplen.toNat) o3 <;> rfl

/-! ### UNFRAME: the input as a list -/

@[simp] theorem State.input_length (s : State) : s.input.length = s.inputLeft := by simp [State.input]

/-- A slice of the unread input. -/
theorem State.input_slice (s : State) {k n : Nat} (h : k + n ≤ s.inputLeft) :
    s.bytesFrom .ibuf (s.icur.toNat + k) n = (s.input.drop k).take n := by
  obtain ⟨m, hm⟩ := Nat.exists_eq_add_of_le h
  rw [State.input, hm, Nat.add_assoc, State.bytesFrom_add, State.bytesFrom_add]
  rw [List.drop_append_of_le_length (by simp), List.drop_of_length_le (by simp), List.nil_append,
    List.take_append_of_le_length (by simp), List.take_of_length_le (by simp)]

theorem memRead_input {s : State} (hi : s.ilen.toNat ≤ s.cfg.ibufCap) {k n : Nat} (h : k + n ≤ s.inputLeft) :
    memRead s .ibuf (s.icur.toNat + k) n = .ok ((s.input.drop k).take n) := by
  rw [memRead_ok, s.input_slice h]
  simp only [State.inputLeft, State.capacity] at *
  omega

/-- A field of the header is converted from the input bytes there, as many as are left up to 4 (R262, R263). -/
theorem takeField_eq {s : State} (hi : s.ilen.toNat ≤ s.cfg.ibufCap) (k f : Nat) (hk : k ≤ s.inputLeft) :
    takeField s (s.icur.toNat + k) f = raising f (b2i ((s.input.drop k).take 4)) := by
  have hmin : min 4 (s.ilen.toNat - (s.icur.toNat + k)) = min 4 (s.inputLeft - k) := by simp only [State.inputLeft]; omega
  have h1 := memRead_input hi (k := k) (n := min 4 (s.inputLeft - k)) (by omega)
  have h2 : (s.input.drop k).take (min 4 (s.inputLeft - k)) = (s.input.drop k).take 4 := by
    rcases Nat.le_total 4 (s.inputLeft - k) with h | h
    · rw [Nat.min_eq_left h]
    · rw [Nat.min_eq_right h, List.take_of_length_le (by simp), List.take_of_length_le (by simpa using h)]
  simp only [takeField, hmin, h1, h2, bind, Except.bind]

/-- The header of a stream of bytes, in the order of R262. -/
def headerOf (extCap tpktCap : Nat) (input : List Byte) : Except Stop (BitVec 3 × List Byte × List Byte) :=
  match raising 0 (b2i (input.take 4)) with
  | .error e => .error e
  | .ok p =>
    if p.toInt < 0 ∨ 7 < p.toInt then raise .badPadding p.toNat
    else
      match raising 1 (b2i ((input.drop 4).take 4)) with
      | .error e => .error e
      | .ok e =>
        match lengthOf e with
        | none => raise .badHeader 1
        | some el =>
          if extCap < el then raise .badHeader 1
          else if input.length - 8 < el then raise .badHeader 1
          else
            match raising 2 (b2i ((input.drop (8 + el)).take 4)) with
            | .error e => .error e
            | .ok t =>
              match lengthOf t with
              | none => raise .badHeader 2
              | some tl =>
                if tpktCap < tl then raise .nodeCapacity tl
                else if input.length - (12 + el) < tl then raise .badHeader 2
                else .ok (p.setWidth 3, (input.drop 8).take el, (input.drop (12 + el)).take tl)

theorem raising_b2i_ok {f : Nat} {bs : List Byte} {w : Word} (h : raising f (b2i bs) = .ok w) : bs = bytesOfWord w := by
  cases hb : b2i bs with
  | error c => rw [hb] at h; cases h
  | ok v => rw [hb] at h; cases h; exact b2i_eq_ok hb

theorem take4_of_b2i {f k : Nat} {input : List Byte} {w : Word} (h : raising f (b2i ((input.drop k).take 4)) = .ok w) :
    (input.drop k).take 4 = bytesOfWord w ∧ k + 4 ≤ input.length := by
  have hb := raising_b2i_ok h
  refine ⟨hb, ?_⟩
  have := congrArg List.length hb
  simp at this
  omega

/-- UNFRAME reads the header of its unread input, and ends after it. -/
theorem readHeader_eq {s : State} (hi : s.ilen.toNat ≤ s.cfg.ibufCap) : readHeader s
    = match headerOf s.cfg.extCap s.cfg.tpktCap s.input with
      | .error e => .error e
      | .ok (p, ext, packet) => .ok ⟨p, ext, packet, s.icur.toNat + (12 + ext.length + packet.length)⟩ := by
  have hin := s.input_length
  have h0 := takeField_eq hi 0 0 (Nat.zero_le _)
  rw [Nat.add_zero, List.drop_zero] at h0
  simp only [readHeader, takePadding, h0, bind, Except.bind, headerOf]
  cases hp : raising 0 (b2i (s.input.take 4)) with
  | error e => rfl
  | ok p =>
    obtain ⟨_, hl4⟩ := take4_of_b2i (k := 0) (by simpa using hp)
    simp only
    split_ifs with hpr
    · rfl
    · simp only [takeExtLength, takeField_eq hi 4 1 (by omega), bind, Except.bind]
      cases he : raising 1 (b2i ((s.input.drop 4).take 4)) with
      | error e => rfl
      | ok e =>
        obtain ⟨_, hl8⟩ := take4_of_b2i he
        simp only
        cases hel : lengthOf e with
        | none => rfl
        | some el =>
          have hrest : s.ilen.toNat - (s.icur.toNat + 4 + 4) = s.input.length - 8 := by
            rw [hin]; simp only [State.inputLeft]; omega
          simp only [hrest]
          split_ifs with hx1 hx2
          · rfl
          · rfl
          · simp only
            rw [memRead_input hi (k := 8) (n := el) (by omega)]
            simp only
            rw [show s.icur.toNat + 8 + el = s.icur.toNat + (8 + el) by omega]
            simp only [takePacketLength, takeField_eq hi (8 + el) 2 (by omega), bind, Except.bind]
            cases ht : raising 2 (b2i ((s.input.drop (8 + el)).take 4)) with
            | error e => rfl
            | ok t =>
              obtain ⟨_, hl12⟩ := take4_of_b2i ht
              simp only
              cases htl : lengthOf t with
              | none => rfl
              | some tl =>
                have hrest' : s.ilen.toNat - (s.icur.toNat + (8 + el) + 4) = s.input.length - (12 + el) := by
                  rw [hin]; simp only [State.inputLeft]; omega
                simp only [hrest']
                split_ifs with hy1 hy2
                · rfl
                · rfl
                · simp only
                  rw [show s.icur.toNat + 12 + el = s.icur.toNat + (12 + el) by omega,
                    memRead_input hi (k := 12 + el) (n := tl) (by omega)]
                  have l1 : ((s.input.drop 8).take el).length = el := by simp; omega
                  have l2 : ((s.input.drop (12 + el)).take tl).length = tl := by simp; omega
                  simp only [l1, l2]
                  rw [show s.icur.toNat + (12 + el) + tl = s.icur.toNat + (12 + el + tl) by omega]

/-! ### What a header is -/

theorem lengthOf_small {n : Nat} (h : n < 2 ^ 31) : lengthOf (BitVec.ofNat 32 n) = some n := by
  have hn : (BitVec.ofNat 32 n).toNat = n := by rw [BitVec.toNat_ofNat]; omega
  have : ¬ (BitVec.ofNat 32 n).toInt < 0 := by rw [Word.toInt_neg_iff, hn]; omega
  simp only [lengthOf, if_neg this, hn]

theorem lengthOf_large {n : Nat} (h : 2 ^ 31 ≤ n) (h' : n < 2 ^ 32) : lengthOf (BitVec.ofNat 32 n) = none := by
  have hn : (BitVec.ofNat 32 n).toNat = n := by rw [BitVec.toNat_ofNat]; omega
  have : (BitVec.ofNat 32 n).toInt < 0 := by rw [Word.toInt_neg_iff, hn]; omega
  simp only [lengthOf, if_pos this]

theorem padding_small {n : Nat} (h : n < 8) : ¬ ((BitVec.ofNat 32 n).toInt < 0 ∨ 7 < (BitVec.ofNat 32 n).toInt) := by
  have hn : (BitVec.ofNat 32 n).toNat = n := by rw [BitVec.toNat_ofNat]; omega
  have : (BitVec.ofNat 32 n).toInt = n := by rw [BitVec.toInt_eq_toNat_cond, hn]; omega
  rw [this]; omega

theorem padding_large {n : Nat} (h : 8 ≤ n) (h' : n < 2 ^ 32) :
    (BitVec.ofNat 32 n).toInt < 0 ∨ 7 < (BitVec.ofNat 32 n).toInt := by
  have hn : (BitVec.ofNat 32 n).toNat = n := by rw [BitVec.toNat_ofNat]; omega
  rw [BitVec.toInt_eq_toNat_cond, hn]; omega

/-- The three fields of a stream that begins with a padding count, an extension and a packet length. -/
theorem field0 (p : Nat) (rest : List Byte) : raising 0 (b2i ((bigEndian p ++ rest).take 4)) = .ok (BitVec.ofNat 32 p) := by
  rw [List.take_left' (bigEndian_length p), b2i_bigEndian, raising_ok]

theorem field1 (p e : Nat) (rest : List Byte) :
    raising 1 (b2i (((bigEndian p ++ bigEndian e ++ rest).drop 4).take 4)) = .ok (BitVec.ofNat 32 e) := by
  rw [List.append_assoc, List.drop_left' (bigEndian_length p), List.take_left' (bigEndian_length e), b2i_bigEndian, raising_ok]

theorem field2 (p e t : Nat) (ext rest : List Byte) :
    raising 2 (b2i (((bigEndian p ++ bigEndian e ++ ext ++ bigEndian t ++ rest).drop (8 + ext.length)).take 4))
      = .ok (BitVec.ofNat 32 t) := by
  rw [List.append_assoc, List.drop_left' (by simp; omega), List.take_left' (bigEndian_length t), b2i_bigEndian, raising_ok]

/-- A short stream at a field is WrongSizeInteger. -/
theorem field_short {f k : Nat} {input : List Byte} (h : input.length < k + 4) :
    raising f (b2i ((input.drop k).take 4)) = raise .wrongSizeInteger f := by
  rw [b2i_short (by simp; omega), raising_error]

/-- The header of a stream that begins with one. -/
theorem headerOf_containerHeader {extCap tpktCap : Nat} {p : BitVec 3} {ext packet rest : List Byte} (he : ext.length ≤ extCap)
    (he' : ext.length < 2 ^ 31) (ht : packet.length ≤ tpktCap) (ht' : packet.length < 2 ^ 31) :
    headerOf extCap tpktCap (containerHeader p.toNat ext packet ++ rest) = .ok (p, ext, packet) := by
  have hlen : (containerHeader p.toNat ext packet ++ rest).length = 12 + ext.length + packet.length + rest.length := by simp
  have s0 : containerHeader p.toNat ext packet ++ rest
      = bigEndian p.toNat ++ (bigEndian ext.length ++ (ext ++ (bigEndian packet.length ++ (packet ++ rest)))) := by
    simp [containerHeader]
  have s1 : containerHeader p.toNat ext packet ++ rest
      = bigEndian p.toNat ++ bigEndian ext.length ++ (ext ++ (bigEndian packet.length ++ (packet ++ rest))) := by
    simp [containerHeader]
  have s2 : containerHeader p.toNat ext packet ++ rest
      = bigEndian p.toNat ++ bigEndian ext.length ++ ext ++ bigEndian packet.length ++ (packet ++ rest) := by
    simp [containerHeader]
  have f0 := field0 p.toNat (bigEndian ext.length ++ (ext ++ (bigEndian packet.length ++ (packet ++ rest))))
  have f1 := field1 p.toNat ext.length (ext ++ (bigEndian packet.length ++ (packet ++ rest)))
  have f2 := field2 p.toNat ext.length packet.length ext (packet ++ rest)
  rw [← s0] at f0
  rw [← s1] at f1
  rw [← s2] at f2
  have d8 : (containerHeader p.toNat ext packet ++ rest).drop 8 = ext ++ (bigEndian packet.length ++ (packet ++ rest)) := by
    rw [s1]; exact List.drop_left' (by simp)
  have d12 : (containerHeader p.toNat ext packet ++ rest).drop (12 + ext.length) = packet ++ rest := by
    rw [s2]; exact List.drop_left' (by simp; omega)
  have hp3 : (BitVec.ofNat 32 p.toNat).setWidth 3 = p := by
    apply BitVec.eq_of_toNat_eq
    have := p.isLt
    rw [BitVec.toNat_setWidth, BitVec.toNat_ofNat]; omega
  simp only [headerOf, f0, if_neg (padding_small p.isLt), f1, lengthOf_small he', f2, lengthOf_small ht', hlen]
  rw [if_neg (by omega), if_neg (by omega), if_neg (by omega), if_neg (by omega), d8, d12, hp3,
    List.take_left' rfl, List.take_left' rfl]

theorem lengthOf_eq_some {w : Word} {n : Nat} (h : lengthOf w = some n) : n = w.toNat ∧ n < 2 ^ 31 := by
  unfold lengthOf at h
  split_ifs at h with hn
  cases h
  rw [Word.toInt_neg_iff] at hn
  omega

theorem drop_split (l : List Byte) (k n : Nat) : l.drop k = (l.drop k).take n ++ l.drop (k + n) := by
  rw [← List.drop_drop]
  exact (List.take_append_drop n (l.drop k)).symm

/-- Whatever header UNFRAME accepts, its input begins with that header. -/
theorem headerOf_eq_ok {extCap tpktCap : Nat} {input : List Byte} {p : BitVec 3} {ext packet : List Byte}
    (h : headerOf extCap tpktCap input = .ok (p, ext, packet)) : ext.length ≤ extCap ∧ packet.length ≤ tpktCap
      ∧ ∃ rest, input = containerHeader p.toNat ext packet ++ rest := by
  unfold headerOf at h
  cases hp : raising 0 (b2i (input.take 4)) with
  | error e => simp [hp] at h
  | ok w =>
    simp only [hp] at h
    split_ifs at h with hpr
    · cases h
    · cases he : raising 1 (b2i ((input.drop 4).take 4)) with
      | error e => simp [he] at h
      | ok e =>
        simp only [he] at h
        cases hel : lengthOf e with
        | none => simp [hel, raise] at h
        | some el =>
          simp only [hel] at h
          split_ifs at h with hx1 hx2
          · cases h
          · cases h
          · cases ht : raising 2 (b2i ((input.drop (8 + el)).take 4)) with
            | error e => simp [ht] at h
            | ok t =>
              simp only [ht] at h
              cases htl : lengthOf t with
              | none => simp [htl, raise] at h
              | some tl =>
                simp only [htl] at h
                split_ifs at h with hy1 hy2
                · cases h
                · cases h
                · simp only [Except.ok.injEq, Prod.mk.injEq] at h
                  obtain ⟨rfl, rfl, rfl⟩ := h
                  obtain ⟨b0, l0⟩ := take4_of_b2i (k := 0) (by simpa using hp)
                  obtain ⟨b1, l1⟩ := take4_of_b2i he
                  obtain ⟨b2, l2⟩ := take4_of_b2i ht
                  obtain ⟨he1, he2⟩ := lengthOf_eq_some hel
                  obtain ⟨ht1, ht2⟩ := lengthOf_eq_some htl
                  rw [List.drop_zero] at b0
                  have lel : ((input.drop 8).take el).length = el := by simp; omega
                  have ltl : ((input.drop (12 + el)).take tl).length = tl := by simp; omega
                  refine ⟨by omega, by omega, input.drop (12 + el + tl), ?_⟩
                  rw [containerHeader, lel, ltl, he1, ht1, ← bytesOfWord_eq, ← bytesOfWord_eq, ← b1, ← he1, ← ht1, ← b2]
                  have hpw : bigEndian (w.setWidth 3).toNat = input.take 4 := by
                    rw [b0, bytesOfWord_eq]
                    congr 1
                    rw [BitVec.toNat_setWidth]
                    have h7 : w.toInt ≤ 7 ∧ 0 ≤ w.toInt := by omega
                    rw [BitVec.toInt_eq_toNat_cond] at h7
                    have := w.isLt
                    split at h7 <;> omega
                  rw [hpw]
                  have a1 := drop_split input (12 + el) tl
                  have a2 := drop_split input (8 + el) 4
                  have a3 := drop_split input 8 el
                  have a4 := drop_split input 4 4
                  have a5 := drop_split input 0 4
                  rw [show 8 + el + 4 = 12 + el by omega] at a2
                  rw [List.drop_zero, Nat.zero_add] at a5
                  simp only [List.append_assoc]
                  rw [← a1, ← a2, ← a3, ← a4, ← a5]

theorem headerOf_error {extCap tpktCap : Nat} {input : List Byte} {e : Stop} (h : headerOf extCap tpktCap input = .error e) :
    ∃ i, e = .raise .wrongSizeInteger i ∨ e = .raise .badPadding i ∨ e = .raise .badHeader i ∨ e = .raise .nodeCapacity i := by
  have hr : ∀ (f : Nat) (bs : List Byte) (e : Stop), raising f (b2i bs) = .error e → ∃ i, e = .raise .wrongSizeInteger i := by
    intro f bs e h
    cases hb : b2i bs with
    | ok v => rw [hb] at h; cases h
    | error c =>
      have hc : c = .wrongSizeInteger := by
        match bs, hb with
        | [], hb | [_], hb | [_, _], hb | [_, _, _], hb | _ :: _ :: _ :: _ :: _ :: _, hb => cases hb; rfl
        | [_, _, _, _], hb => cases hb
      rw [hb] at h
      cases h
      exact ⟨_, by rw [hc]⟩
  unfold headerOf at h
  cases hp : raising 0 (b2i (input.take 4)) with
  | error e' => rw [hp] at h; cases h; exact (hr _ _ _ hp).imp fun i hi => .inl hi
  | ok w =>
    simp only [hp] at h
    split_ifs at h with hpr
    · cases h; exact ⟨_, .inr (.inl rfl)⟩
    · cases he : raising 1 (b2i ((input.drop 4).take 4)) with
      | error e' => rw [he] at h; cases h; exact (hr _ _ _ he).imp fun i hi => .inl hi
      | ok e' =>
        simp only [he] at h
        cases hel : lengthOf e' with
        | none => simp only [hel] at h; cases h; exact ⟨_, .inr (.inr (.inl rfl))⟩
        | some el =>
          simp only [hel] at h
          split_ifs at h with hx1 hx2
          · cases h; exact ⟨_, .inr (.inr (.inl rfl))⟩
          · cases h; exact ⟨_, .inr (.inr (.inl rfl))⟩
          · cases ht : raising 2 (b2i ((input.drop (8 + el)).take 4)) with
            | error e' => rw [ht] at h; cases h; exact (hr _ _ _ ht).imp fun i hi => .inl hi
            | ok t =>
              simp only [ht] at h
              cases htl : lengthOf t with
              | none => simp only [htl] at h; cases h; exact ⟨_, .inr (.inr (.inl rfl))⟩
              | some tl =>
                simp only [htl] at h
                split_ifs at h with hy1 hy2
                · cases h; exact ⟨_, .inr (.inr (.inr rfl))⟩
                · cases h; exact ⟨_, .inr (.inr (.inl rfl))⟩

end Sys2Proof.Machine
end

