-- ==== Sys2Proof/Laws/Commands.lean ====
section
/-! SUPPORT. The commands on a whole state: for each, everything its success says (an equation for the next state), that on a legal
state it succeeds or raises one of its own faults, and that it keeps the state legal (spec 30_encoding R108, files 40 to 48). -/

namespace Sys2Proof.Machine

/-! ### Legal states -/

/-- The part of the invariant that commands need and keep. -/
structure Ready (s : State) : Prop where
  wf     : s.cfg.wf = true
  mem    : s.mem.wf = true
  ilen   : s.ilen.toNat ≤ s.cfg.ibufCap
  icur   : s.icur.toNat ≤ s.cfg.ibufCap
  olen   : s.olen.toNat ≤ s.cfg.obufCap
  tplen  : s.tplen.toNat ≤ s.cfg.tpktCap
  extlen : s.extlen.toNat ≤ s.cfg.extCap
  tree   : s.treeLegal
  counts : s.countsLegal
  codes  : codesPrefixFree s.code

theorem State.ready.toReady {s : State} (h : s.ready) : Ready s := by
  obtain ⟨⟨⟨h1, h2⟩, _, h3⟩, hf⟩ := h
  obtain ⟨⟨a, b, c, d, e⟩, f, g, i⟩ := h3 hf
  exact ⟨h1, h2, a, b, c, d, e, f, g, i⟩

theorem Ready.legal {s : State} (h : Ready s) (hc : s.controlLegal) : s.Legal :=
  ⟨⟨h.wf, h.mem⟩, hc, fun _ => ⟨⟨h.ilen, h.icur, h.olen, h.tplen, h.extlen⟩, h.tree, h.counts, h.codes⟩⟩

/-- The ranges of R7 as inequalities. -/
theorem Config.wf_bounds {c : Config} (h : c.wf = true) : (1 ≤ c.ibufCap ∧ c.ibufCap ≤ 2 ^ 24) ∧ (1 ≤ c.obufCap ∧ c.obufCap ≤ 2 ^ 25)
    ∧ c.extCap ≤ 256 ∧ (511 ≤ c.nodeCap ∧ c.nodeCap ≤ 2048) ∧ c.base % 2 ^ 26 = 0 := by
  simp only [Config.wf, Bool.and_eq_true, decide_eq_true_eq] at h
  omega

theorem Ready.bounds {s : State} (h : Ready s) : (1 ≤ s.cfg.ibufCap ∧ s.cfg.ibufCap ≤ 2 ^ 24)
    ∧ (1 ≤ s.cfg.obufCap ∧ s.cfg.obufCap ≤ 2 ^ 25) ∧ s.cfg.extCap ≤ 256 ∧ (511 ≤ s.cfg.nodeCap ∧ s.cfg.nodeCap ≤ 2048) := by
  have := Config.wf_bounds h.wf
  tauto

theorem Ready.inputLeft {s : State} (h : Ready s) : s.inputLeft ≤ s.cfg.ibufCap := by
  have := h.ilen
  simp only [State.inputLeft]; omega

theorem Ready.input_length {s : State} (h : Ready s) : s.input.length < 2 ^ 32 := by
  have := h.inputLeft
  have := h.bounds
  rw [State.input_length]; omega

theorem Ready.memRead_input {s : State} (h : Ready s) : memRead s .ibuf s.icur.toNat s.inputLeft = .ok s.input := by
  have := Machine.memRead_input h.ilen (k := 0) (n := s.inputLeft) (by omega)
  simpa [List.take_of_length_le] using this

theorem Ready.memRead_packet {s : State} (h : Ready s) : memRead s .tpkt 0 s.tplen.toNat = .ok s.packet :=
  memRead_ok (.inr (by simpa [State.capacity] using h.tplen))

theorem Ready.outPort_fits {s : State} (h : Ready s) {n : Nat} (hn : s.room n) : s.outPort.fits n :=
  ⟨by simpa [State.room] using hn, by simpa using h.bounds.2.1.2⟩

theorem Ready.grew {s : State} (h : Ready s) {bs : List Byte} {o : OutPort} (g : s.outPort.Grew bs o) :
    s.outPort.fits bs.length ∧ o = s.outPort.extend bs := g.eq_extend (by simpa using h.bounds.2.1.2) (by simpa using h.olen)

/-! ### What every command keeps -/

/-- Nothing outside what commands write has changed. -/
def Kept (s t : State) : Prop := sameControl s t ∧ t.busy = s.busy ∧ t.done = s.done ∧ t.fault = s.fault

theorem Kept.rfl' (s : State) : Kept s s := ⟨⟨rfl, rfl, rfl, rfl, rfl, rfl, rfl, rfl, rfl, rfl⟩, rfl, rfl, rfl⟩

theorem Kept.trans {s t u : State} (h : Kept s t) (h' : Kept t u) : Kept s u := by
  obtain ⟨⟨a1, a2, a3, a4, a5, a6, a7, a8, a9, a10⟩, a11, a12, a13⟩ := h
  obtain ⟨⟨b1, b2, b3, b4, b5, b6, b7, b8, b9, b10⟩, b11, b12, b13⟩ := h'
  exact ⟨⟨b1.trans a1, b2.trans a2, b3.trans a3, b4.trans a4, b5.trans a5, b6.trans a6, b7.trans a7, b8.trans a8, b9.trans a9,
    b10.trans a10⟩, b11.trans a11, b12.trans a12, b13.trans a13⟩

/-- How a command's pseudocode may end on a legal state: in a legal state, or by one of the causes. -/
def Good (cs : List Cause) (s : State) (r : Except Stop State) : Prop :=
  (∃ t, r = .ok t ∧ Ready t ∧ Kept s t) ∨ ∃ c i, c ∈ cs ∧ r = .error (.raise c i)

theorem Good.mono {cs ds : List Cause} {s : State} {r : Except Stop State} (h : Good cs s r) (hs : ∀ c ∈ cs, c ∈ ds) : Good ds s r := by
  rcases h with h | ⟨c, i, hc, he⟩
  · exact .inl h
  · exact .inr ⟨c, i, hs c hc, he⟩

/-- A buffer after a MemWrite. -/
def State.stored (s : State) (sp : Space) (off : Nat) (bs : List Byte) : State :=
  { s with mem := s.mem.setCells sp (storeCells (s.mem.cells sp) off bs) }

@[simp] theorem State.stored_cfg (s : State) (sp : Space) (off : Nat) (bs : List Byte) : (s.stored sp off bs).cfg = s.cfg := rfl
@[simp] theorem State.stored_ien (s : State) (sp : Space) (off : Nat) (bs : List Byte) : (s.stored sp off bs).ien = s.ien := rfl
@[simp] theorem State.stored_busy (s : State) (sp : Space) (off : Nat) (bs : List Byte) : (s.stored sp off bs).busy = s.busy := rfl
@[simp] theorem State.stored_done (s : State) (sp : Space) (off : Nat) (bs : List Byte) : (s.stored sp off bs).done = s.done := rfl
@[simp] theorem State.stored_fault (s : State) (sp : Space) (off : Nat) (bs : List Byte) : (s.stored sp off bs).fault = s.fault := rfl
@[simp] theorem State.stored_cmd (s : State) (sp : Space) (off : Nat) (bs : List Byte) : (s.stored sp off bs).cmd = s.cmd := rfl
@[simp] theorem State.stored_fcode (s : State) (sp : Space) (off : Nat) (bs : List Byte) : (s.stored sp off bs).fcode = s.fcode := rfl
@[simp] theorem State.stored_finfo (s : State) (sp : Space) (off : Nat) (bs : List Byte) : (s.stored sp off bs).finfo = s.finfo := rfl
@[simp] theorem State.stored_ilen (s : State) (sp : Space) (off : Nat) (bs : List Byte) : (s.stored sp off bs).ilen = s.ilen := rfl
@[simp] theorem State.stored_icur (s : State) (sp : Space) (off : Nat) (bs : List Byte) : (s.stored sp off bs).icur = s.icur := rfl
@[simp] theorem State.stored_olen (s : State) (sp : Space) (off : Nat) (bs : List Byte) : (s.stored sp off bs).olen = s.olen := rfl
@[simp] theorem State.stored_pad (s : State) (sp : Space) (off : Nat) (bs : List Byte) : (s.stored sp off bs).pad = s.pad := rfl
@[simp] theorem State.stored_totbits (s : State) (sp : Space) (off : Nat) (bs : List Byte) : (s.stored sp off bs).totbits = s.totbits := rfl
@[simp] theorem State.stored_tplen (s : State) (sp : Space) (off : Nat) (bs : List Byte) : (s.stored sp off bs).tplen = s.tplen := rfl
@[simp] theorem State.stored_extlen (s : State) (sp : Space) (off : Nat) (bs : List Byte) : (s.stored sp off bs).extlen = s.extlen := rfl
@[simp] theorem State.stored_sent (s : State) (sp : Space) (off : Nat) (bs : List Byte) : (s.stored sp off bs).sent = s.sent := rfl
@[simp] theorem State.stored_ncount (s : State) (sp : Space) (off : Nat) (bs : List Byte) : (s.stored sp off bs).ncount = s.ncount := rfl
@[simp] theorem State.stored_root (s : State) (sp : Space) (off : Nat) (bs : List Byte) : (s.stored sp off bs).root = s.root := rfl
@[simp] theorem State.stored_freq (s : State) (sp : Space) (off : Nat) (bs : List Byte) : (s.stored sp off bs).freq = s.freq := rfl
@[simp] theorem State.stored_code (s : State) (sp : Space) (off : Nat) (bs : List Byte) : (s.stored sp off bs).code = s.code := rfl
@[simp] theorem State.stored_tree (s : State) (sp : Space) (off : Nat) (bs : List Byte) : (s.stored sp off bs).tree = s.tree := rfl
@[simp] theorem State.stored_turns (s : State) (sp : Space) (off : Nat) (bs : List Byte) : (s.stored sp off bs).turns = s.turns := rfl
@[simp] theorem State.stored_resp (s : State) (sp : Space) (off : Nat) (bs : List Byte) : (s.stored sp off bs).resp = s.resp := rfl
@[simp] theorem State.stored_epoch (s : State) (sp : Space) (off : Nat) (bs : List Byte) : (s.stored sp off bs).epoch = s.epoch := rfl
@[simp] theorem State.stored_mem (s : State) (sp : Space) (off : Nat) (bs : List Byte) :
    (s.stored sp off bs).mem = s.mem.setCells sp (storeCells (s.mem.cells sp) off bs) := rfl

theorem Kept.setIcur (s : State) (v : Word) : Kept s (s.setIcur v) :=
  ⟨⟨rfl, rfl, rfl, rfl, rfl, rfl, rfl, rfl, rfl, rfl⟩, rfl, rfl, rfl⟩
theorem Kept.setOlen (s : State) (v : Word) : Kept s (s.setOlen v) :=
  ⟨⟨rfl, rfl, rfl, rfl, rfl, rfl, rfl, rfl, rfl, rfl⟩, rfl, rfl, rfl⟩
theorem Kept.setFreq (s : State) (v : FreqTable) : Kept s (s.setFreq v) :=
  ⟨⟨rfl, rfl, rfl, rfl, rfl, rfl, rfl, rfl, rfl, rfl⟩, rfl, rfl, rfl⟩
theorem Kept.setCode (s : State) (v : CodeTable) : Kept s (s.setCode v) :=
  ⟨⟨rfl, rfl, rfl, rfl, rfl, rfl, rfl, rfl, rfl, rfl⟩, rfl, rfl, rfl⟩
theorem Kept.setPad (s : State) (v : BitVec 3) : Kept s (s.setPad v) :=
  ⟨⟨rfl, rfl, rfl, rfl, rfl, rfl, rfl, rfl, rfl, rfl⟩, rfl, rfl, rfl⟩
theorem Kept.setTotbits (s : State) (v : BitVec 40) : Kept s (s.setTotbits v) :=
  ⟨⟨rfl, rfl, rfl, rfl, rfl, rfl, rfl, rfl, rfl, rfl⟩, rfl, rfl, rfl⟩
theorem Kept.setTplen (s : State) (v : Word) : Kept s (s.setTplen v) :=
  ⟨⟨rfl, rfl, rfl, rfl, rfl, rfl, rfl, rfl, rfl, rfl⟩, rfl, rfl, rfl⟩
theorem Kept.installTree (s : State) (v : Tree) : Kept s (s.installTree v) :=
  ⟨⟨rfl, rfl, rfl, rfl, rfl, rfl, rfl, rfl, rfl, rfl⟩, rfl, rfl, rfl⟩
theorem Kept.setOutPort (s : State) (v : OutPort) : Kept s (s.setOutPort v) :=
  ⟨⟨rfl, rfl, rfl, rfl, rfl, rfl, rfl, rfl, rfl, rfl⟩, rfl, rfl, rfl⟩
theorem Kept.consumeInput (s : State) : Kept s s.consumeInput := Kept.setIcur s _
theorem Kept.stored (s : State) (sp : Space) (off : Nat) (bs : List Byte) : Kept s (s.stored sp off bs) :=
  ⟨⟨rfl, rfl, rfl, rfl, rfl, rfl, rfl, rfl, rfl, rfl⟩, rfl, rfl, rfl⟩

theorem Kept.cfg {s t : State} (h : Kept s t) : t.cfg = s.cfg := h.1.1
theorem Kept.ilen {s t : State} (h : Kept s t) : t.ilen = s.ilen := h.1.2.2.2.2.2.1
theorem Kept.sent {s t : State} (h : Kept s t) : t.sent = s.sent := h.1.2.2.2.2.2.2.1
theorem Kept.epoch {s t : State} (h : Kept s t) : t.epoch = s.epoch := h.1.2.2.2.2.2.2.2.2.2

theorem State.stored_wf {s : State} (h : s.mem.wf = true) (sp : Space) (off : Nat) (bs : List Byte) :
    (s.stored sp off bs).mem.wf = true :=
  Memory.wf_setCells _ _ _ h (cellsWf_storeCells _ _ _ ((Memory.wf_iff _).mp h sp))

theorem State.setOutPort_wf {s : State} (h : s.mem.wf = true) (bs : List Byte) :
    (s.setOutPort (s.outPort.extend bs)).mem.wf = true := by
  have := State.stored_wf h .obuf s.olen.toNat bs
  simpa [State.stored, Memory.setCells, Memory.cells] using this

theorem Ready.setOutPort {s : State} (h : Ready s) {bs : List Byte} (hf : s.outPort.fits bs.length) :
    Ready (s.setOutPort (s.outPort.extend bs)) := by
  have hl := OutPort.extend_len hf
  have h1 := hf.1
  refine ⟨h.wf, State.setOutPort_wf h.mem bs, h.ilen, h.icur, ?_, h.tplen, h.extlen, h.tree, h.counts, h.codes⟩
  rw [State.setOutPort_olen, hl]
  simpa using h1

theorem Ready.setPad {s : State} (h : Ready s) (p : BitVec 3) : Ready (s.setPad p) :=
  ⟨h.wf, h.mem, h.ilen, h.icur, h.olen, h.tplen, h.extlen, h.tree, h.counts, h.codes⟩

theorem Ready.setTotbits {s : State} (h : Ready s) (v : BitVec 40) : Ready (s.setTotbits v) :=
  ⟨h.wf, h.mem, h.ilen, h.icur, h.olen, h.tplen, h.extlen, h.tree, h.counts, h.codes⟩

theorem Ready.setExtlen {s : State} (h : Ready s) {v : Word} (hv : v.toNat ≤ s.cfg.extCap) : Ready (s.setExtlen v) :=
  ⟨h.wf, h.mem, h.ilen, h.icur, h.olen, h.tplen, hv, h.tree, h.counts, h.codes⟩

theorem Ready.setTplenOf {s : State} (h : Ready s) {v : Word} (hv : v.toNat ≤ s.cfg.tpktCap) : Ready (s.setTplen v) :=
  ⟨h.wf, h.mem, h.ilen, h.icur, h.olen, hv, h.extlen, h.tree, h.counts, h.codes⟩

theorem Ready.setIcurOf {s : State} (h : Ready s) {v : Word} (hv : v.toNat ≤ s.cfg.ibufCap) : Ready (s.setIcur v) :=
  ⟨h.wf, h.mem, h.ilen, hv, h.olen, h.tplen, h.extlen, h.tree, h.counts, h.codes⟩

theorem Ready.stored {s : State} (h : Ready s) (sp : Space) (off : Nat) (bs : List Byte) : Ready (s.stored sp off bs) :=
  ⟨h.wf, State.stored_wf h.mem sp off bs, h.ilen, h.icur, h.olen, h.tplen, h.extlen, h.tree, h.counts, h.codes⟩

theorem Ready.consumeInput {s : State} (h : Ready s) : Ready s.consumeInput := by
  refine ⟨h.wf, h.mem, h.ilen, ?_, h.olen, h.tplen, h.extlen, h.tree, h.counts, h.codes⟩
  simp only [State.consumeInput, State.setIcur_icur, State.setIcur_cfg]
  have := h.ilen
  have := h.icur
  split_ifs <;> omega


/-! ### NOP, REWIND, CLROUT -/

theorem runNop_good {s : State} (h : Ready s) : Good [] s (runNop s) := .inl ⟨s, rfl, h, .rfl' s⟩

theorem Ready.setIcur_zero {s : State} (h : Ready s) : Ready (s.setIcur 0#32) :=
  ⟨h.wf, h.mem, h.ilen, by simp, h.olen, h.tplen, h.extlen, h.tree, h.counts, h.codes⟩

theorem runRewind_good {s : State} (h : Ready s) : Good [] s (runRewind s) := .inl ⟨_, rfl, h.setIcur_zero, .rfl' s⟩

theorem Ready.setOlen_zero {s : State} (h : Ready s) : Ready (s.setOlen 0#32) :=
  ⟨h.wf, h.mem, h.ilen, h.icur, by simp, h.tplen, h.extlen, h.tree, h.counts, h.codes⟩

theorem runClrout_good {s : State} (h : Ready s) : Good [] s (runClrout s) := .inl ⟨_, rfl, h.setOlen_zero, .rfl' s⟩

/-! ### COUNT -/

theorem runCount_eq_ok {s t : State} (h : runCount s = .ok t) : t = (s.setFreq (countBytes s.input)).consumeInput := by
  simp only [runCount, bind, Except.bind] at h
  cases hm : memRead s .ibuf s.icur.toNat s.inputLeft with
  | error e => rw [hm] at h; cases h
  | ok bs =>
    rw [hm] at h
    cases h
    rw [(memRead_eq_ok hm).1]; rfl

theorem runCount_ok {s : State} (h : Ready s) : runCount s = .ok ((s.setFreq (countBytes s.input)).consumeInput) := by
  simp [runCount, bind, Except.bind, h.memRead_input]

theorem Ready.setFreq {s : State} (h : Ready s) : Ready (s.setFreq (countBytes s.input)) := by
  refine ⟨h.wf, h.mem, h.ilen, h.icur, h.olen, h.tplen, h.extlen, h.tree, ?_, h.codes⟩
  have := countBytes_sum h.input_length
  have := h.inputLeft
  simp only [State.countsLegal, State.setFreq_freq, State.setFreq_cfg]
  rw [State.input_length] at *
  omega

theorem runCount_good {s : State} (h : Ready s) : Good [] s (runCount s) :=
  .inl ⟨_, runCount_ok h, h.setFreq.consumeInput, .rfl' s⟩

/-! ### BUILD -/

theorem runBuild_eq_ok {s t : State} (h : runBuild s = .ok t) : ∃ tr, buildTree s.freq s.sent = .ok tr ∧ t = s.installTree tr := by
  simp only [runBuild, bind, Except.bind] at h
  cases hb : buildTree s.freq s.sent with
  | error e => rw [hb] at h; cases h
  | ok tr => rw [hb] at h; cases h; exact ⟨tr, rfl, rfl⟩

theorem runBuild_ok {s : State} {tr : Tree} (h : buildTree s.freq s.sent = .ok tr) : runBuild s = .ok (s.installTree tr) := by
  simp [runBuild, bind, Except.bind, h]

theorem Ready.countSum {s : State} (h : Ready s) : (allSymbols.map fun b => (s.freq.at b).toNat).sum < 2 ^ 31 := by
  have := h.counts
  have := h.bounds
  simp only [State.countsLegal] at *
  omega

theorem Ready.installTree {s : State} (h : Ready s) {tr : Tree} (hs : tr.size ≤ s.cfg.nodeCap) : Ready (s.installTree tr) := by
  refine ⟨h.wf, h.mem, h.ilen, h.icur, h.olen, h.tplen, h.extlen, ?_, h.counts, h.codes⟩
  have := h.bounds
  refine ⟨?_, hs, rfl⟩
  rw [State.installTree_ncount, BitVec.toNat_ofNat]
  omega

theorem runBuild_good {s : State} (h : Ready s) : Good [.emptySymbolSet] s (runBuild s) := by
  cases hb : buildTree s.freq s.sent with
  | error e =>
    refine .inr ⟨.emptySymbolSet, 0#32, by simp, ?_⟩
    rw [← buildTree_error hb]
    simp [runBuild, bind, Except.bind, hb]
  | ok tr =>
    have hsz := (buildTree_eq_ok h.countSum hb).2.2.2.2
    exact .inl ⟨_, runBuild_ok hb, h.installTree (by have := h.bounds; omega), .rfl' s⟩

/-! ### GENCODES -/

theorem runGencodes_eq_ok {s t : State} (h : runGencodes s = .ok t) :
    ∃ tr c, s.tree = some tr ∧ walk tr [] CodeTable.empty = .ok c ∧ t = s.setCode c := by
  unfold runGencodes at h
  cases ht : s.tree with
  | none => rw [ht] at h; cases h
  | some tr =>
    simp only [ht, bind, Except.bind] at h
    cases hw : walk tr [] CodeTable.empty with
    | error e => rw [hw] at h; cases h
    | ok c => rw [hw] at h; cases h; exact ⟨tr, c, rfl, hw, rfl⟩

theorem runGencodes_ok {s : State} {tr : Tree} {c : CodeTable} (ht : s.tree = some tr) (hw : walk tr [] CodeTable.empty = .ok c) :
    runGencodes s = .ok (s.setCode c) := by
  simp [runGencodes, ht, hw, bind, Except.bind]

theorem runGencodes_error {s : State} {tr : Tree} {e : Stop} (ht : s.tree = some tr) (hw : walk tr [] CodeTable.empty = .error e) :
    runGencodes s = .error e := by
  simp [runGencodes, ht, hw, bind, Except.bind]

theorem Ready.setCode {s : State} (h : Ready s) {c : CodeTable} (hc : codesPrefixFree c) : Ready (s.setCode c) :=
  ⟨h.wf, h.mem, h.ilen, h.icur, h.olen, h.tplen, h.extlen, h.tree, h.counts, hc⟩

theorem recordAll_causes {es : List (Byte × BitString)} {c : CodeTable} {e : Stop} (h : recordAll es c = .error e) :
    ∃ x i, x ∈ [Cause.rootLeaf, .codeTooLong, .duplicateSymbol] ∧ e = .raise x i := by
  induction es generalizing c with
  | nil => cases h
  | cons q es ih =>
    rcases recordLeaf_cases q.1 q.2 c with ⟨_, he⟩ | ⟨_, he⟩ | ⟨_, _, _, he⟩ | ⟨_, _, _, he⟩ <;> simp only [recordAll, he] at h
    · cases h; exact ⟨_, _, by simp, rfl⟩
    · cases h; exact ⟨_, _, by simp, rfl⟩
    · cases h; exact ⟨_, _, by simp, rfl⟩
    · exact ih h

theorem runGencodes_good {s : State} (h : Ready s) : Good [.absentTree, .rootLeaf, .codeTooLong, .duplicateSymbol] s (runGencodes s) := by
  cases ht : s.tree with
  | none => exact .inr ⟨.absentTree, _, by simp, by simp only [runGencodes, ht]; rfl⟩
  | some tr =>
    cases hw : walk tr [] CodeTable.empty with
    | ok c => exact .inl ⟨_, runGencodes_ok ht hw, h.setCode (walk_prefixFree hw), .rfl' s⟩
    | error e =>
      rw [walk_eq_recordAll] at hw
      obtain ⟨x, i, hx, rfl⟩ := recordAll_causes hw
      refine .inr ⟨x, i, List.mem_cons_of_mem _ hx, ?_⟩
      exact runGencodes_error ht (by rw [walk_eq_recordAll]; exact hw)

/-! ### PADCALC -/

theorem runPadcalc_eq_ok {s t : State} (h : runPadcalc s = .ok t) : tableMismatch s.freq s.code = none
    ∧ t = (s.setTotbits (BitVec.ofNat 40 (totalBits s.freq s.code))).setPad (BitVec.ofNat 3 (paddingOf (totalBits s.freq s.code))) := by
  unfold runPadcalc at h
  cases hm : tableMismatch s.freq s.code with
  | some b => rw [hm] at h; cases h
  | none => simp only [hm] at h; cases h; exact ⟨rfl, rfl⟩

theorem runPadcalc_ok {s : State} (h : tableMismatch s.freq s.code = none) : runPadcalc s
    = .ok ((s.setTotbits (BitVec.ofNat 40 (totalBits s.freq s.code))).setPad
        (BitVec.ofNat 3 (paddingOf (totalBits s.freq s.code)))) := by
  simp only [runPadcalc, h]

theorem runPadcalc_good {s : State} (h : Ready s) : Good [.tableMismatch] s (runPadcalc s) := by
  cases hm : tableMismatch s.freq s.code with
  | some b => exact .inr ⟨.tableMismatch, _, by simp, by simp only [runPadcalc, hm]; rfl⟩
  | none =>
    exact .inl ⟨_, runPadcalc_ok hm,
      ⟨h.wf, h.mem, h.ilen, h.icur, h.olen, h.tplen, h.extlen, h.tree, h.counts, h.codes⟩, .rfl' s⟩

/-- TOTBITS is the exact total on a legal state (R221). -/
theorem Ready.totalBits {s : State} (h : Ready s) : totalBits s.freq s.code < 2 ^ 32 := by
  have := totalBits_bound (CodeTable.len_le h.codes) h.counts
  have hb := h.bounds
  have h2 : s.cfg.ibufCap * maxLen ≤ 2 ^ 24 * 255 := Nat.mul_le_mul_right _ hb.1.2
  omega

/-! ### SERIALIZE -/

theorem runSerialize_eq_ok {s t : State} (h : runSerialize s = .ok t) : ∃ tr, s.tree = some tr ∧ noNegative tr
    ∧ t = (s.stored .tpkt 0 (packetOf tr)).setTplen (BitVec.ofNat 32 (packetOf tr).length) := by
  unfold runSerialize at h
  cases ht : s.tree with
  | none => rw [ht] at h; cases h
  | some tr =>
    simp only [ht, bind, Except.bind] at h
    cases hp : treePacket tr with
    | error e => rw [hp] at h; cases h
    | ok out =>
      obtain ⟨hn, rfl⟩ := treePacket_eq_ok hp
      simp only [hp] at h
      cases hw : memWrite s .tpkt 0 (packetOf tr) with
      | error e => rw [hw] at h; cases h
      | ok s' =>
        rw [hw] at h
        cases h
        exact ⟨tr, rfl, hn, by rw [(memWrite_eq_ok hw).1]; rfl⟩

theorem Ready.tree_size {s : State} (h : Ready s) {tr : Tree} (ht : s.tree = some tr) :
    s.ncount.toNat = tr.size ∧ tr.size ≤ s.cfg.nodeCap ∧ s.root = tr.index := by
  have := h.tree
  simpa only [State.treeLegal, ht] using this

theorem runSerialize_ok {s : State} (h : Ready s) {tr : Tree} (ht : s.tree = some tr) (hn : noNegative tr) :
    runSerialize s = .ok ((s.stored .tpkt 0 (packetOf tr)).setTplen (BitVec.ofNat 32 (packetOf tr).length)) := by
  obtain ⟨_, hsz, _⟩ := h.tree_size ht
  have hw : memWrite s .tpkt 0 (packetOf tr) = .ok (s.stored .tpkt 0 (packetOf tr)) :=
    memWrite_ok (.inr (by rw [packetOf_length]; simp only [State.capacity, Config.tpktCap]; omega))
  simp [runSerialize, ht, bind, Except.bind, treePacket_ok hn, hw]

theorem Ready.packetLength {s : State} (h : Ready s) {tr : Tree} (hsz : tr.size ≤ s.cfg.nodeCap) :
    (BitVec.ofNat 32 (packetOf tr).length).toNat = 6 * tr.size := by
  have := h.bounds
  rw [BitVec.toNat_ofNat, packetOf_length]
  omega

theorem Ready.setTplen {s : State} (h : Ready s) {tr : Tree} (hsz : tr.size ≤ s.cfg.nodeCap) :
    Ready ((s.stored .tpkt 0 (packetOf tr)).setTplen (BitVec.ofNat 32 (packetOf tr).length)) := by
  refine ⟨h.wf, State.stored_wf h.mem .tpkt 0 _, h.ilen, h.icur, h.olen, ?_, h.extlen, h.tree, h.counts, h.codes⟩
  rw [State.setTplen_tplen, h.packetLength hsz]
  have : s.cfg.tpktCap = 6 * s.cfg.nodeCap := rfl
  show 6 * tr.size ≤ s.cfg.tpktCap
  omega

theorem runSerialize_negative {s : State} {tr : Tree} (ht : s.tree = some tr) {j : Nat} (hj : j < tr.records.length)
    (hneg : 2 ^ 31 ≤ (tr.records[j]).freq.toNat) (hbefore : ∀ i (_ : i < j), (tr.records[i]).freq.toNat < 2 ^ 31) :
    runSerialize s = raise .negativeInteger j := by
  have hp : treePacket tr = raise .negativeInteger j := by
    rcases recordsBytes_cases 0 tr.records with ⟨hall, _⟩ | ⟨j', hj', hneg', hbefore', he⟩
    · have := hall _ (List.getElem_mem hj); omega
    · have : j = j' := by
        rcases Nat.lt_trichotomy j j' with hlt | heq | hlt
        · have := hbefore' j hlt; omega
        · exact heq
        · have := hbefore j' hlt; omega
      subst this
      simpa [treePacket] using he
  simp [runSerialize, ht, bind, Except.bind, hp, raise]

theorem runSerialize_good {s : State} (h : Ready s) : Good [.absentTree, .negativeInteger] s (runSerialize s) := by
  cases ht : s.tree with
  | none => exact .inr ⟨.absentTree, _, by simp, by simp only [runSerialize, ht]; rfl⟩
  | some tr =>
    by_cases hn : noNegative tr
    · exact .inl ⟨_, runSerialize_ok h ht hn, h.setTplen (h.tree_size ht).2.1, .rfl' s⟩
    · refine .inr ⟨.negativeInteger, ?_⟩
      rcases recordsBytes_cases 0 tr.records with ⟨hall, _⟩ | ⟨j, hj, hneg, hbefore, _⟩
      · exact absurd hall hn
      · exact ⟨_, by simp, runSerialize_negative ht hj hneg hbefore⟩

/-! ### DESERIALIZE -/

theorem runDeserialize_eq_ok {s t : State} (h : runDeserialize s = .ok t) :
    ∃ tr, treeOfPacket s.packet = .ok tr ∧ t = s.installTree tr := by
  simp only [runDeserialize, bind, Except.bind] at h
  cases hm : memRead s .tpkt 0 s.tplen.toNat with
  | error e => rw [hm] at h; cases h
  | ok bs =>
    have hb := (memRead_eq_ok hm).1
    simp only [hm] at h
    subst hb
    cases hp : treeOfPacket (s.bytesFrom .tpkt 0 s.tplen.toNat) with
    | error e => rw [hp] at h; cases h
    | ok tr => rw [hp] at h; cases h; exact ⟨tr, hp, rfl⟩

theorem runDeserialize_ok {s : State} (h : Ready s) {tr : Tree} (hp : treeOfPacket s.packet = .ok tr) :
    runDeserialize s = .ok (s.installTree tr) := by
  simp [runDeserialize, bind, Except.bind, h.memRead_packet, hp]

theorem runDeserialize_error {s : State} (h : Ready s) {e : Stop} (hp : treeOfPacket s.packet = .error e) :
    runDeserialize s = .error e := by
  simp [runDeserialize, bind, Except.bind, h.memRead_packet, hp]

theorem treeOfPacket_causes {bs : List Byte} {e : Stop} (h : treeOfPacket bs = .error e) :
    ∃ c i, c ∈ [Cause.emptyPacket, .misalignedPacket, .badFlag, .packetUnderrun, .packetTrailing] ∧ e = .raise c i := by
  unfold treeOfPacket at h
  split_ifs at h with h1 h2
  · exact ⟨_, _, by simp, (Except.error.inj h).symm⟩
  · exact ⟨_, _, by simp, (Except.error.inj h).symm⟩
  obtain ⟨rs, _, rfl⟩ := exists_records (bs.length / 6) bs (by omega)
  rcases parseRecords_cases 0 rs with ⟨_, he⟩ | ⟨j, _, _, _, he⟩
  · rw [he] at h
    simp only [linkRecords] at h
    cases hk : linkNode rs.length 0 0 rs with
    | error e' =>
      simp only [hk, Except.error.injEq] at h
      obtain ⟨j, hj⟩ := linkNode_error hk
      exact ⟨_, _, by simp, h.symm.trans hj⟩
    | ok p =>
      obtain ⟨u, c, rest⟩ := p
      cases rest with
      | nil => simp [hk] at h
      | cons r rest =>
        simp only [hk, raise, Except.error.injEq] at h
        exact ⟨_, _, by simp, h.symm⟩
  · rw [he] at h; exact ⟨_, _, by simp, (Except.error.inj h).symm⟩

theorem Ready.packet_size {s : State} (h : Ready s) {tr : Tree} (hp : s.packet.length = 6 * tr.size) : tr.size ≤ s.cfg.nodeCap := by
  have := h.tplen
  rw [State.packet, State.bytesFrom_length] at hp
  simp only [Config.tpktCap] at this
  omega

theorem runDeserialize_good {s : State} (h : Ready s) :
    Good [.emptyPacket, .misalignedPacket, .badFlag, .packetUnderrun, .packetTrailing] s (runDeserialize s) := by
  cases hp : treeOfPacket s.packet with
  | error e =>
    obtain ⟨c, i, hc, rfl⟩ := treeOfPacket_causes hp
    exact .inr ⟨c, i, hc, runDeserialize_error h hp⟩
  | ok tr =>
    exact .inl ⟨_, runDeserialize_ok h hp, h.installTree (h.packet_size (treeOfPacket_eq_ok hp).2.2), .rfl' s⟩

/-! ### PACK -/

theorem runPack_eq_ok {s t : State} (h : runPack s = .ok t) : ∃ o,
    packStream s.code s.pad s.icur.toNat s.input s.outPort = .ok o ∧ t = (s.setOutPort o).consumeInput := by
  simp only [runPack, bind, Except.bind] at h
  cases hm : memRead s .ibuf s.icur.toNat s.inputLeft with
  | error e => rw [hm] at h; cases h
  | ok bs =>
    have hb := (memRead_eq_ok hm).1
    simp only [hm] at h
    subst hb
    cases hp : packStream s.code s.pad s.icur.toNat (s.bytesFrom .ibuf s.icur.toNat s.inputLeft) s.outPort with
    | error e => rw [hp] at h; cases h
    | ok o => rw [hp] at h; cases h; exact ⟨o, hp, rfl⟩

theorem runPack_ok {s : State} (h : Ready s) {o : OutPort} (hp : packStream s.code s.pad s.icur.toNat s.input s.outPort = .ok o) :
    runPack s = .ok ((s.setOutPort o).consumeInput) := by
  simp [runPack, bind, Except.bind, h.memRead_input, hp]

theorem runPack_error {s : State} (h : Ready s) {e : Stop} (hp : packStream s.code s.pad s.icur.toNat s.input s.outPort = .error e) :
    runPack s = .error e := by
  simp [runPack, bind, Except.bind, h.memRead_input, hp]

/-- An overflow on a legal state reports the capacity (R72, R301). -/
theorem Ready.overflow {s : State} (h : Ready s) {e : Stop} (ho : s.outPort.Overflows e) :
    e = .raise .outputOverflow (BitVec.ofNat 32 s.cfg.obufCap) :=
  ho.info (by simpa using h.bounds.2.1.2) (by simpa using h.olen)

theorem runPack_good {s : State} (h : Ready s) : Good [.noCode, .padMismatch, .outputOverflow] s (runPack s) := by
  rcases packStream_cases s.code s.pad s.icur.toNat s.input s.outPort with
    ⟨_, _, bs, o, hp, g, _⟩ | ⟨j, _, _, _, hp⟩ | ⟨_, _, hp⟩ | ⟨e, hp, ho⟩
  · obtain ⟨hf, rfl⟩ := h.grew g
    exact .inl ⟨_, runPack_ok h hp, (h.setOutPort hf).consumeInput, .rfl' s⟩
  · exact .inr ⟨_, _, by simp, runPack_error h hp⟩
  · exact .inr ⟨_, _, by simp, runPack_error h hp⟩
  · rw [h.overflow ho] at hp
    exact .inr ⟨_, _, by simp, runPack_error h hp⟩

/-! ### UNPACK -/

theorem runUnpack_eq_ok {s t : State} (h : runUnpack s = .ok t) : ∃ root o, s.tree = some root
    ∧ unpackStream root s.pad s.icur.toNat s.input s.outPort = .ok o ∧ t = (s.setOutPort o).consumeInput := by
  unfold runUnpack at h
  cases ht : s.tree with
  | none => rw [ht] at h; cases h
  | some root =>
    simp only [ht, bind, Except.bind] at h
    cases hm : memRead s .ibuf s.icur.toNat s.inputLeft with
    | error e => rw [hm] at h; cases h
    | ok bs =>
      have hb := (memRead_eq_ok hm).1
      simp only [hm] at h
      subst hb
      cases hp : unpackStream root s.pad s.icur.toNat (s.bytesFrom .ibuf s.icur.toNat s.inputLeft) s.outPort with
      | error e => rw [hp] at h; cases h
      | ok o => rw [hp] at h; cases h; exact ⟨root, o, rfl, hp, rfl⟩

theorem runUnpack_ok {s : State} (h : Ready s) {root : Tree} {o : OutPort} (ht : s.tree = some root)
    (hp : unpackStream root s.pad s.icur.toNat s.input s.outPort = .ok o) : runUnpack s = .ok ((s.setOutPort o).consumeInput) := by
  simp [runUnpack, ht, bind, Except.bind, h.memRead_input, hp]

theorem runUnpack_error {s : State} (h : Ready s) {root : Tree} {e : Stop} (ht : s.tree = some root)
    (hp : unpackStream root s.pad s.icur.toNat s.input s.outPort = .error e) : runUnpack s = .error e := by
  simp [runUnpack, ht, bind, Except.bind, h.memRead_input, hp]

theorem runUnpack_good {s : State} (h : Ready s) :
    Good [.absentTree, .badPadding, .absentChild, .truncatedStream, .outputOverflow] s (runUnpack s) := by
  cases ht : s.tree with
  | none => exact .inr ⟨.absentTree, _, by simp, by simp only [runUnpack, ht]; rfl⟩
  | some root =>
    rcases unpackStream_cases root s.pad s.icur.toNat s.input s.outPort with
      ⟨es, o, hp, g, _⟩ | ⟨_, _, hp⟩ | ⟨_, j, _, hp⟩ | ⟨out, t, o, _, _, hp⟩ | ⟨e, hp, ho⟩
    · obtain ⟨hf, rfl⟩ := h.grew g
      exact .inl ⟨_, runUnpack_ok h ht hp, (h.setOutPort hf).consumeInput, .rfl' s⟩
    · exact .inr ⟨_, _, by simp, runUnpack_error h ht hp⟩
    · exact .inr ⟨_, _, by simp, runUnpack_error h ht hp⟩
    · exact .inr ⟨_, _, by simp, runUnpack_error h ht hp⟩
    · rw [h.overflow ho] at hp
      exact .inr ⟨_, _, by simp, runUnpack_error h ht hp⟩

/-! ### FRAME -/

theorem Ready.frame {s : State} (h : Ready s) : runFrame s
    = (emitAll (containerHeader s.pad.toNat s.extension s.packet) s.outPort).bind fun o => .ok (s.setOutPort o) := by
  have hb := h.bounds
  have he := h.extlen
  have ht := h.tplen
  simp only [Config.tpktCap] at ht
  exact runFrame_eq h.extlen (by omega) h.tplen (by omega)

theorem runFrame_ok {s : State} (h : Ready s) (hr : s.room (12 + s.extlen.toNat + s.tplen.toNat)) :
    runFrame s = .ok (s.setOutPort (s.outPort.extend (containerHeader s.pad.toNat s.extension s.packet))) := by
  rw [h.frame, emitAll_ok]
  · rfl
  · simpa [State.extension, State.packet] using h.outPort_fits hr

theorem runFrame_eq_ok {s t : State} (h : Ready s) (hr : runFrame s = .ok t) :
    s.outPort.fits (containerHeader s.pad.toNat s.extension s.packet).length
      ∧ t = s.setOutPort (s.outPort.extend (containerHeader s.pad.toNat s.extension s.packet)) := by
  rw [h.frame] at hr
  cases he : emitAll (containerHeader s.pad.toNat s.extension s.packet) s.outPort with
  | error e => rw [he] at hr; cases hr
  | ok o =>
    rw [he] at hr
    cases hr
    obtain ⟨hf, rfl⟩ := h.grew (emitAll_eq_ok he)
    exact ⟨hf, rfl⟩

/-- FRAME changes the output stream only, whatever the state. -/
theorem runFrame_setOutPort {s t : State} (h : runFrame s = .ok t) : ∃ o, t = s.setOutPort o := by
  simp only [runFrame, bind, Except.bind] at h
  split at h; · cases h
  split at h; · cases h
  split at h; · cases h
  split at h; · cases h
  split at h; · cases h
  split at h; · cases h
  split at h; · cases h
  split at h; · cases h
  split at h; · cases h
  split at h; · cases h
  cases h
  exact ⟨_, rfl⟩

theorem runFrame_good {s : State} (h : Ready s) : Good [.outputOverflow] s (runFrame s) := by
  rw [h.frame]
  cases he : emitAll (containerHeader s.pad.toNat s.extension s.packet) s.outPort with
  | error e =>
    have := h.overflow (emitAll_overflows he)
    subst this
    exact .inr ⟨_, _, by simp, rfl⟩
  | ok o =>
    obtain ⟨hf, rfl⟩ := h.grew (emitAll_eq_ok he)
    exact .inl ⟨_, rfl, h.setOutPort hf, .rfl' s⟩

/-! ### UNFRAME -/

/-- The state after UNFRAME has accepted a header. -/
def State.unframed (s : State) (h : Header) : State :=
  ((((s.setPad h.pad).stored .ext 0 h.ext).setExtlen (BitVec.ofNat 32 h.ext.length)).stored .tpkt 0 h.packet
    |>.setTplen (BitVec.ofNat 32 h.packet.length)).setIcur (BitVec.ofNat 32 h.pos)

@[simp] theorem State.unframed_cfg (s : State) (h : Header) : (s.unframed h).cfg = s.cfg := by
  rw [State.unframed, State.setIcur_cfg, State.setTplen_cfg, State.stored_cfg, State.setExtlen_cfg, State.stored_cfg, State.setPad_cfg]
@[simp] theorem State.unframed_ien (s : State) (h : Header) : (s.unframed h).ien = s.ien := by
  rw [State.unframed, State.setIcur_ien, State.setTplen_ien, State.stored_ien, State.setExtlen_ien, State.stored_ien, State.setPad_ien]
@[simp] theorem State.unframed_busy (s : State) (h : Header) : (s.unframed h).busy = s.busy := by
  rw [State.unframed, State.setIcur_busy, State.setTplen_busy, State.stored_busy, State.setExtlen_busy, State.stored_busy, State.setPad_busy]
@[simp] theorem State.unframed_done (s : State) (h : Header) : (s.unframed h).done = s.done := by
  rw [State.unframed, State.setIcur_done, State.setTplen_done, State.stored_done, State.setExtlen_done, State.stored_done, State.setPad_done]
@[simp] theorem State.unframed_fault (s : State) (h : Header) : (s.unframed h).fault = s.fault := by
  rw [State.unframed, State.setIcur_fault, State.setTplen_fault, State.stored_fault, State.setExtlen_fault, State.stored_fault, State.setPad_fault]
@[simp] theorem State.unframed_cmd (s : State) (h : Header) : (s.unframed h).cmd = s.cmd := by
  rw [State.unframed, State.setIcur_cmd, State.setTplen_cmd, State.stored_cmd, State.setExtlen_cmd, State.stored_cmd, State.setPad_cmd]
@[simp] theorem State.unframed_fcode (s : State) (h : Header) : (s.unframed h).fcode = s.fcode := by
  rw [State.unframed, State.setIcur_fcode, State.setTplen_fcode, State.stored_fcode, State.setExtlen_fcode, State.stored_fcode, State.setPad_fcode]
@[simp] theorem State.unframed_finfo (s : State) (h : Header) : (s.unframed h).finfo = s.finfo := by
  rw [State.unframed, State.setIcur_finfo, State.setTplen_finfo, State.stored_finfo, State.setExtlen_finfo, State.stored_finfo, State.setPad_finfo]
@[simp] theorem State.unframed_ilen (s : State) (h : Header) : (s.unframed h).ilen = s.ilen := by
  rw [State.unframed, State.setIcur_ilen, State.setTplen_ilen, State.stored_ilen, State.setExtlen_ilen, State.stored_ilen, State.setPad_ilen]
@[simp] theorem State.unframed_icur (s : State) (h : Header) : (s.unframed h).icur = BitVec.ofNat 32 h.pos := by
  rw [State.unframed, State.setIcur_icur]
@[simp] theorem State.unframed_olen (s : State) (h : Header) : (s.unframed h).olen = s.olen := by
  rw [State.unframed, State.setIcur_olen, State.setTplen_olen, State.stored_olen, State.setExtlen_olen, State.stored_olen, State.setPad_olen]
@[simp] theorem State.unframed_pad (s : State) (h : Header) : (s.unframed h).pad = h.pad := by
  rw [State.unframed, State.setIcur_pad, State.setTplen_pad, State.stored_pad, State.setExtlen_pad, State.stored_pad, State.setPad_pad]
@[simp] theorem State.unframed_totbits (s : State) (h : Header) : (s.unframed h).totbits = s.totbits := by
  rw [State.unframed, State.setIcur_totbits, State.setTplen_totbits, State.stored_totbits, State.setExtlen_totbits, State.stored_totbits, State.setPad_totbits]
@[simp] theorem State.unframed_tplen (s : State) (h : Header) : (s.unframed h).tplen = BitVec.ofNat 32 h.packet.length := by
  rw [State.unframed, State.setIcur_tplen, State.setTplen_tplen]
@[simp] theorem State.unframed_extlen (s : State) (h : Header) : (s.unframed h).extlen = BitVec.ofNat 32 h.ext.length := by
  rw [State.unframed, State.setIcur_extlen, State.setTplen_extlen, State.stored_extlen, State.setExtlen_extlen]
@[simp] theorem State.unframed_sent (s : State) (h : Header) : (s.unframed h).sent = s.sent := by
  rw [State.unframed, State.setIcur_sent, State.setTplen_sent, State.stored_sent, State.setExtlen_sent, State.stored_sent, State.setPad_sent]
@[simp] theorem State.unframed_ncount (s : State) (h : Header) : (s.unframed h).ncount = s.ncount := by
  rw [State.unframed, State.setIcur_ncount, State.setTplen_ncount, State.stored_ncount, State.setExtlen_ncount, State.stored_ncount, State.setPad_ncount]
@[simp] theorem State.unframed_root (s : State) (h : Header) : (s.unframed h).root = s.root := by
  rw [State.unframed, State.setIcur_root, State.setTplen_root, State.stored_root, State.setExtlen_root, State.stored_root, State.setPad_root]
@[simp] theorem State.unframed_freq (s : State) (h : Header) : (s.unframed h).freq = s.freq := by
  rw [State.unframed, State.setIcur_freq, State.setTplen_freq, State.stored_freq, State.setExtlen_freq, State.stored_freq, State.setPad_freq]
@[simp] theorem State.unframed_code (s : State) (h : Header) : (s.unframed h).code = s.code := by
  rw [State.unframed, State.setIcur_code, State.setTplen_code, State.stored_code, State.setExtlen_code, State.stored_code, State.setPad_code]
@[simp] theorem State.unframed_tree (s : State) (h : Header) : (s.unframed h).tree = s.tree := by
  rw [State.unframed, State.setIcur_tree, State.setTplen_tree, State.stored_tree, State.setExtlen_tree, State.stored_tree, State.setPad_tree]
@[simp] theorem State.unframed_turns (s : State) (h : Header) : (s.unframed h).turns = s.turns := by
  rw [State.unframed, State.setIcur_turns, State.setTplen_turns, State.stored_turns, State.setExtlen_turns, State.stored_turns, State.setPad_turns]
@[simp] theorem State.unframed_resp (s : State) (h : Header) : (s.unframed h).resp = s.resp := by
  rw [State.unframed, State.setIcur_resp, State.setTplen_resp, State.stored_resp, State.setExtlen_resp, State.stored_resp, State.setPad_resp]
@[simp] theorem State.unframed_epoch (s : State) (h : Header) : (s.unframed h).epoch = s.epoch := by
  rw [State.unframed, State.setIcur_epoch, State.setTplen_epoch, State.stored_epoch, State.setExtlen_epoch, State.stored_epoch, State.setPad_epoch]

theorem State.unframed_kept (s : State) (h : Header) : Kept s (s.unframed h) := by
  refine ⟨⟨?_, ?_, ?_, ?_, ?_, ?_, ?_, ?_, ?_, ?_⟩, ?_, ?_, ?_⟩ <;> simp

theorem runUnframe_eq_ok {s t : State} (h : runUnframe s = .ok t) : ∃ hd, readHeader s = .ok hd ∧ t = s.unframed hd := by
  simp only [runUnframe, bind, Except.bind] at h
  cases hr : readHeader s with
  | error e => rw [hr] at h; cases h
  | ok hd =>
    simp only [hr] at h
    split at h; · cases h
    next s1 h1 =>
    split at h; · cases h
    next s2 h2 =>
    cases h
    obtain ⟨rfl, _⟩ := memWrite_eq_ok h1
    obtain ⟨rfl, _⟩ := memWrite_eq_ok h2
    exact ⟨hd, rfl, rfl⟩

theorem runUnframe_ok {s : State} {hd : Header} (hr : readHeader s = .ok hd) (he : hd.ext.length ≤ s.cfg.extCap)
    (hp : hd.packet.length ≤ s.cfg.tpktCap) : runUnframe s = .ok (s.unframed hd) := by
  have h1 : memWrite (s.setPad hd.pad) .ext 0 hd.ext = .ok ((s.setPad hd.pad).stored .ext 0 hd.ext) :=
    memWrite_ok (.inr (by simpa [State.capacity] using he))
  have h2 : memWrite (((s.setPad hd.pad).stored .ext 0 hd.ext).setExtlen (BitVec.ofNat 32 hd.ext.length)) .tpkt 0 hd.packet
      = .ok ((((s.setPad hd.pad).stored .ext 0 hd.ext).setExtlen (BitVec.ofNat 32 hd.ext.length)).stored .tpkt 0 hd.packet) :=
    memWrite_ok (.inr (by simpa [State.capacity, State.stored] using hp))
  simp [runUnframe, bind, Except.bind, hr, h1, h2, State.unframed]

/-- UNFRAME on a legal state whose input begins with a header. -/
theorem Ready.readHeader {s : State} (h : Ready s) {p : BitVec 3} {ext packet rest : List Byte}
    (hin : s.input = containerHeader p.toNat ext packet ++ rest) (he : ext.length ≤ s.cfg.extCap)
    (hp : packet.length ≤ s.cfg.tpktCap) :
    readHeader s = .ok ⟨p, ext, packet, s.icur.toNat + (12 + ext.length + packet.length)⟩ := by
  have hb := h.bounds
  have hp' := hp
  simp only [Config.tpktCap] at hp'
  rw [readHeader_eq h.ilen, hin, headerOf_containerHeader he (by omega) hp (by omega)]

theorem Ready.unframed {s : State} (h : Ready s) {hd : Header} (hr : Machine.readHeader s = .ok hd) :
    hd.ext.length ≤ s.cfg.extCap ∧ hd.packet.length ≤ s.cfg.tpktCap
      ∧ hd.pos = s.icur.toNat + (12 + hd.ext.length + hd.packet.length)
      ∧ (∃ rest, s.input = containerHeader hd.pad.toNat hd.ext hd.packet ++ rest) ∧ Ready (s.unframed hd) := by
  rw [readHeader_eq h.ilen] at hr
  cases hh : headerOf s.cfg.extCap s.cfg.tpktCap s.input with
  | error e => rw [hh] at hr; cases hr
  | ok q =>
    obtain ⟨p, ext, packet⟩ := q
    rw [hh] at hr
    cases hr
    obtain ⟨h1, h2, rest, h3⟩ := headerOf_eq_ok hh
    have hb := h.bounds
    have hlen := congrArg List.length h3
    rw [List.length_append, containerHeader_length, State.input_length] at hlen
    have hleft : s.icur.toNat + (12 + ext.length + packet.length) ≤ s.ilen.toNat := by
      simp only [State.inputLeft] at hlen; omega
    have hi := h.ilen
    have hx : (BitVec.ofNat 32 ext.length).toNat ≤ s.cfg.extCap := by rw [BitVec.toNat_ofNat]; omega
    have hk : (BitVec.ofNat 32 packet.length).toNat ≤ s.cfg.tpktCap := by rw [BitVec.toNat_ofNat]; omega
    have hc : (BitVec.ofNat 32 (s.icur.toNat + (12 + ext.length + packet.length))).toNat ≤ s.cfg.ibufCap := by
      rw [BitVec.toNat_ofNat]; omega
    exact ⟨h1, h2, rfl, ⟨rest, h3⟩, (((((h.setPad p).stored .ext 0 ext).setExtlen hx).stored .tpkt 0 packet).setTplenOf hk).setIcurOf hc⟩

theorem runUnframe_error {s : State} (h : Ready s) {e : Stop} (hh : headerOf s.cfg.extCap s.cfg.tpktCap s.input = .error e) :
    runUnframe s = .error e := by
  have hr := readHeader_eq h.ilen
  rw [hh] at hr
  simp [runUnframe, bind, Except.bind, hr]

theorem runUnframe_good {s : State} (h : Ready s) :
    Good [.wrongSizeInteger, .badPadding, .badHeader, .nodeCapacity] s (runUnframe s) := by
  cases hh : headerOf s.cfg.extCap s.cfg.tpktCap s.input with
  | error e =>
    have hr := runUnframe_error h hh
    obtain ⟨i, rfl | rfl | rfl | rfl⟩ := headerOf_error hh
    all_goals exact .inr ⟨_, _, by simp, hr⟩
  | ok q =>
    obtain ⟨p, ext, packet⟩ := q
    have hr := readHeader_eq h.ilen
    rw [hh] at hr
    obtain ⟨h1, h2, _, _, h5⟩ := h.unframed hr
    exact .inl ⟨_, runUnframe_ok hr h1 h2, h5, s.unframed_kept _⟩

end Sys2Proof.Machine
end

