-- ==== Sys2Proof/Laws/Pipelines.lean ====
section
/-! SUPPORT. COMPRESS and DECOMPRESS: their commands one after the other on a legal state, and what they leave (spec 48_container
R270 to R274). -/

namespace Sys2Proof.Machine

/-! ### Bytes that commands leave alone -/

theorem State.bytesFrom_eq {s t : State} {sp : Space} (hm : t.mem.cells sp = s.mem.cells sp) (he : t.epoch = s.epoch) (off n : Nat) :
    t.bytesFrom sp off n = s.bytesFrom sp off n := State.bytesFrom_congr fun _ _ => State.readByte_congr hm he _

theorem State.stored_readByte_inside (s : State) (sp : Space) (off i : Nat) (bs : List Byte) (h : i < bs.length) :
    (s.stored sp off bs).readByte sp (off + i) = bs[i] := readByte_storeCells_inside s sp off i bs h

theorem State.stored_readByte_outside (s : State) (sp : Space) {off a : Nat} (bs : List Byte) (h : a < off ∨ off + bs.length ≤ a) :
    (s.stored sp off bs).readByte sp a = s.readByte sp a := readByte_storeCells_outside s sp bs h

theorem State.stored_bytesFrom (s : State) (sp : Space) (off : Nat) (bs : List Byte) :
    (s.stored sp off bs).bytesFrom sp off bs.length = bs := by
  rw [State.bytesFrom_eq_iff]
  exact fun i hi => s.stored_readByte_inside sp off i bs hi

theorem State.stored_cells_ne (s : State) {sp sp' : Space} (off : Nat) (bs : List Byte) (h : sp' ≠ sp) :
    (s.stored sp off bs).mem.cells sp' = s.mem.cells sp' := by
  simp [Memory.cells_setCells_ne _ _ h]

/-- At the start of the stream, the unread input is all of it. -/
theorem State.input_of_icur_zero {s : State} (h : s.icur = 0#32) : s.input = s.stream := by
  simp [State.input, State.stream, State.inputLeft, h]

theorem State.stream_eq {s t : State} (hi : t.ilen = s.ilen) (hm : t.mem.cells .ibuf = s.mem.cells .ibuf) (he : t.epoch = s.epoch) :
    t.stream = s.stream := by
  rw [State.stream, State.stream, hi, State.bytesFrom_eq hm he]

theorem State.consumedIcur_zero {s : State} (h : s.icur = 0#32) : s.consumedIcur = s.ilen := by
  simp [State.consumedIcur, h]

/-! ### Running commands in order -/

theorem runAll_cons_ok {f : State → Except Stop State} {fs : List (State → Except Stop State)} {s s' : State} (h : f s = .ok s') :
    runAll (f :: fs) s = runAll fs s' := by simp [runAll, h]

theorem runAll_cons_error {f : State → Except Stop State} {fs : List (State → Except Stop State)} {s : State} {e : Stop}
    (h : f s = .error e) : runAll (f :: fs) s = .error e := by simp [runAll, h]

/-- Commands that each end well or by one of the causes do so in order (R274). -/
theorem runAll_good {cs : List Cause} {fs : List (State → Except Stop State)} (h : ∀ f ∈ fs, ∀ s, Ready s → Good cs s (f s)) {s : State}
    (hs : Ready s) : Good cs s (runAll fs s) := by
  induction fs generalizing s with
  | nil => exact .inl ⟨s, rfl, hs, .rfl' s⟩
  | cons f fs ih =>
    rcases h f (by simp) s hs with ⟨t, he, ht, hk⟩ | ⟨c, i, hc, he⟩
    · rw [runAll_cons_ok he]
      rcases ih (fun g hg => h g (by simp [hg])) ht with ⟨u, he', hu, hk'⟩ | ⟨c, i, hc, he'⟩
      · exact .inl ⟨u, he', hu, hk.trans hk'⟩
      · exact .inr ⟨c, i, hc, he'⟩
    · exact .inr ⟨c, i, hc, runAll_cons_error he⟩

/-! ### Up to the tables -/

/-- The codes of a tree: the paths to its leaves (R186). -/
def codesOf (c : CodeTable) (tr : Tree) : Prop := ∀ b p, c.at b = some p ↔ (b, p) ∈ tr.paths []

theorem codesOf.valid_iff {c : CodeTable} {tr : Tree} (h : codesOf c tr) (b : Byte) : c.valid b = true ↔ b ∈ tr.leafValues := by
  rw [← tr.paths_values [], CodeTable.valid, Option.isSome_iff_exists]
  constructor
  · rintro ⟨p, hp⟩
    exact List.mem_map_of_mem ((h b p).mp hp)
  · intro hb
    obtain ⟨e, he, rfl⟩ := List.mem_map.mp hb
    exact ⟨e.2, (h e.1 e.2).mpr he⟩

/-- A built tree's table is made without a fault (R271). -/
theorem gencodes_of_built {f : FreqTable} {sent : Byte} {tr : Tree} (hs : (allSymbols.map fun b => (f.at b).toNat).sum < 2 ^ 31)
    (h : buildTree f sent = .ok tr) : ∃ c, walk tr [] CodeTable.empty = .ok c ∧ codesOf c tr ∧ ∀ b, f.present b = c.valid b := by
  obtain ⟨hleaf, hperm, hdepth, _, _⟩ := buildTree_eq_ok hs h
  obtain ⟨c, hw, hc⟩ := walk_ok hleaf hdepth (hperm.nodup_iff.mpr f.symbols_nodup)
  refine ⟨c, hw, hc, fun b => ?_⟩
  rw [Bool.eq_iff_iff, codesOf.valid_iff hc, hperm.mem_iff, FreqTable.mem_symbols]

theorem buildTree_total {f : FreqTable} {sent : Byte} (hs : (allSymbols.map fun b => (f.at b).toNat).sum < 2 ^ 31)
    (hne : f.symbols ≠ []) : ∃ tr, buildTree f sent = .ok tr := by
  match hl : f.symbols with
  | [] => exact absurd hl hne
  | [b] => exact ⟨_, buildTree_single sent hl⟩
  | _ :: _ :: _ =>
    obtain ⟨tr, h1, _⟩ := buildTree_many (f := f) sent (by rw [hl]; simp) (by rw [f.countSum_counts]; omega)
    exact ⟨tr, h1⟩

theorem countBytes_symbols {bytes : List Byte} (h : bytes.length < 2 ^ 32) : (countBytes bytes).symbols = [] ↔ bytes = [] := by
  constructor
  · intro he
    by_contra hne
    obtain ⟨v, hv⟩ := List.exists_mem_of_ne_nil _ hne
    have := (FreqTable.mem_symbols (countBytes bytes) v).mpr ((countBytes_present h v).mpr hv)
    rw [he] at this
    cases this
  · rintro rfl
    rw [List.eq_nil_iff_forall_not_mem]
    intro v hv
    simpa using (countBytes_present (bytes := []) (by simp) v).mp ((FreqTable.mem_symbols _ v).mp hv)

/-! ### COMPRESS -/

/-- The state COMPRESS leaves, from the tree, the table and the bytes it put out. -/
structure Compressed (s t : State) (tr : Tree) (c : CodeTable) (bs : List Byte) : Prop where
  built   : buildTree (countBytes s.stream) s.sent = .ok tr
  codes   : codesOf c tr
  valid   : ∀ b, c.valid b = true ↔ b ∈ s.stream
  freq    : t.freq = countBytes s.stream
  tree    : t.tree = some tr
  code    : t.code = c
  totbits : t.totbits = BitVec.ofNat 40 (codeBits c s.stream).length
  pad     : t.pad = BitVec.ofNat 3 (paddingOf (codeBits c s.stream).length)
  tplen   : t.tplen.toNat = 6 * tr.size
  packet  : t.packet = packetOf tr
  ext     : t.extlen = s.extlen ∧ ∀ a, t.readByte .ext a = s.readByte .ext a
  icur    : t.icur = s.ilen
  input   : ∀ a, t.readByte .ibuf a = s.readByte .ibuf a
  bits    : bitsOf bs = codeBits c s.stream ++ List.replicate (paddingOf (codeBits c s.stream).length) false
  output  : t.output = containerHeader (paddingOf (codeBits c s.stream).length) s.extension (packetOf tr) ++ bs
  olen    : t.olen.toNat = 12 + s.extlen.toNat + 6 * tr.size + ((codeBits c s.stream).length + 7) / 8

theorem paddingOf_ofNat (n : Nat) : (BitVec.ofNat 3 (paddingOf n)).toNat = paddingOf n := by
  have := paddingOf_lt n
  rw [BitVec.toNat_ofNat]; omega

/-- The bytes of the payload: the codes' bits, rounded up. -/
theorem payload_length {c : CodeTable} {bytes bs : List Byte}
    (h : bitsOf bs = codeBits c bytes ++ List.replicate (paddingOf (codeBits c bytes).length) false) :
    bs.length = ((codeBits c bytes).length + 7) / 8 := by
  have := congrArg List.length h
  simp only [bitsOf_length, List.length_append, List.length_replicate, paddingOf] at this
  omega

/-- Where COMPRESS stands once the tables are made (`u`, from `s`). -/
structure Tabled (s u : State) (tr : Tree) (c : CodeTable) : Prop where
  ready   : Ready u
  kept    : Kept s u
  built   : buildTree (countBytes s.stream) s.sent = .ok tr
  codes   : codesOf c tr
  valid   : ∀ b, c.valid b = true ↔ b ∈ s.stream
  neg     : noNegative tr
  freq    : u.freq = countBytes s.stream
  tree    : u.tree = some tr
  code    : u.code = c
  totbits : u.totbits = BitVec.ofNat 40 (codeBits c s.stream).length
  pad     : u.pad = BitVec.ofNat 3 (paddingOf (codeBits c s.stream).length)
  icur    : u.icur = 0#32
  extlen  : u.extlen = s.extlen

/-- REWIND, COUNT, REWIND. -/
theorem compress_counted {s : State} (h : Ready s) : ∃ u, runCompress s
      = runAll [runBuild, runGencodes, runPadcalc, runSerialize, runClrout, runFrame, runPack] u
    ∧ Ready u ∧ Kept s u ∧ u.freq = countBytes s.stream ∧ u.mem = s.mem ∧ u.icur = 0#32 ∧ u.extlen = s.extlen
    ∧ s.stream.length < 2 ^ 32 := by
  have h1 := h.setIcur_zero
  have i1 : (s.setIcur 0#32).input = s.stream := State.input_of_icur_zero rfl
  have hlen : s.stream.length < 2 ^ 32 := by rw [← i1]; exact h1.input_length
  have h2 := h1.setFreq.consumeInput
  rw [i1] at h2
  refine ⟨(((s.setIcur 0#32).setFreq (countBytes s.stream)).consumeInput).setIcur 0#32, ?_, h2.setIcur_zero, ?_, ?_, ?_, ?_, ?_, hlen⟩
  · rw [runCompress, runAll_cons_ok (f := runRewind) rfl, runAll_cons_ok (runCount_ok h1), i1, runAll_cons_ok (f := runRewind) rfl]
  · exact (((Kept.setIcur s _).trans (Kept.setFreq _ _)).trans (Kept.consumeInput _)).trans (Kept.setIcur _ _)
  · simp
  · simp
  · simp
  · simp

/-- REWIND to PADCALC: EmptySymbolSet on an empty stream, and otherwise the tables. -/
theorem compress_tabled {s : State} (h : Ready s) : (s.stream = [] ∧ runCompress s = raise .emptySymbolSet)
    ∨ ∃ u tr c, s.stream ≠ [] ∧ runCompress s = runAll [runSerialize, runClrout, runFrame, runPack] u ∧ Tabled s u tr c
        ∧ u.mem = s.mem := by
  obtain ⟨u, hrun, hu, hk, hf, hm, hc, he, hlen⟩ := compress_counted h
  have hsum := hu.countSum
  rw [hf] at hsum
  by_cases hnil : s.stream = []
  · refine .inl ⟨hnil, ?_⟩
    have hb : buildTree u.freq u.sent = raise .emptySymbolSet :=
      buildTree_empty _ (by rw [hf]; exact (countBytes_symbols hlen).mpr hnil)
    rw [hrun, runAll_cons_error (e := .raise .emptySymbolSet 0#32)]
    · rfl
    · simp only [runBuild, hb, bind, Except.bind]; rfl
  obtain ⟨tr, hb⟩ := buildTree_total (f := countBytes s.stream) (sent := s.sent) hsum (by rwa [Ne, countBytes_symbols hlen])
  have hbu : buildTree u.freq u.sent = .ok tr := by rw [hf, hk.sent]; exact hb
  obtain ⟨_, _, _, hneg, hsz⟩ := buildTree_eq_ok hsum hb
  have hcap := hu.bounds
  have h4 := hu.installTree (tr := tr) (by omega)
  obtain ⟨c, hw, hco, hvalid⟩ := gencodes_of_built hsum hb
  have h5 := h4.setCode (walk_prefixFree hw)
  have ht := totalBits_countBytes c hlen
  have hmm : tableMismatch u.freq c = none := (tableMismatch_none_iff _ _).mpr (by rw [hf]; exact hvalid)
  have hpad := runPadcalc_ok (s := (u.installTree tr).setCode c) hmm
  simp only [State.setCode_code, State.setCode_freq, State.installTree_freq, hf, ht] at hpad
  refine .inr ⟨(((u.installTree tr).setCode c).setTotbits (BitVec.ofNat 40 (codeBits c s.stream).length)).setPad
    (BitVec.ofNat 3 (paddingOf (codeBits c s.stream).length)), tr, c, hnil, ?_, ⟨?_, ?_, hb, hco, ?_, hneg, ?_, ?_, ?_, ?_, ?_, ?_, ?_⟩, ?_⟩
  · rw [hrun, runAll_cons_ok (runBuild_ok hbu), runAll_cons_ok (runGencodes_ok (State.installTree_tree _ _) hw),
      runAll_cons_ok hpad]
  · exact (h5.setTotbits _).setPad _
  · exact (((hk.trans (Kept.installTree _ _)).trans (Kept.setCode _ _)).trans (Kept.setTotbits _ _)).trans (Kept.setPad _ _)
  · intro b; rw [← hvalid b, countBytes_present hlen]
  · simp [hf]
  · simp
  · simp
  · simp
  · simp
  · simp [hc]
  · simp [he]
  · simp [hm]

/-- SERIALIZE and CLROUT after them. -/
theorem compress_packet {s u : State} {tr : Tree} {c : CodeTable} (h : Tabled s u tr c) (hm : u.mem = s.mem) : ∃ v,
    runAll [runSerialize, runClrout, runFrame, runPack] u = runAll [runFrame, runPack] v ∧ Tabled s v tr c
      ∧ (∀ sp, sp ≠ .tpkt → v.mem.cells sp = s.mem.cells sp) ∧ v.packet = packetOf tr ∧ v.tplen.toNat = 6 * tr.size
      ∧ v.olen = 0#32 := by
  have hsz := (h.ready.tree_size h.tree).2.1
  refine ⟨((u.stored .tpkt 0 (packetOf tr)).setTplen (BitVec.ofNat 32 (packetOf tr).length)).setOlen 0#32, ?_,
    ⟨(h.ready.setTplen hsz).setOlen_zero, ?_, h.built, h.codes, h.valid, h.neg, ?_, ?_, ?_, ?_, ?_, ?_, ?_⟩, ?_, ?_, ?_, ?_⟩
  · rw [runAll_cons_ok (runSerialize_ok h.ready h.tree h.neg), runAll_cons_ok (f := runClrout) rfl]
  · exact ((h.kept.trans (Kept.stored _ _ _ _)).trans (Kept.setTplen _ _)).trans (Kept.setOlen _ _)
  · simp [h.freq]
  · simp [h.tree]
  · simp [h.code]
  · simp [h.totbits]
  · simp [h.pad]
  · simp [h.icur]
  · simp [h.extlen]
  · intro sp hne
    simp only [State.setOlen_mem, State.setTplen_mem, State.stored_cells_ne u 0 _ hne, hm]
  · have hl := h.ready.packetLength hsz
    rw [packetOf_length] at hl
    simp only [State.packet, State.setOlen_tplen, State.setTplen_tplen, packetOf_length, hl]
    rw [State.bytesFrom_eq (s := u.stored .tpkt 0 (packetOf tr)) (by simp) (by simp), ← packetOf_length]
    exact State.stored_bytesFrom _ _ _ _
  · simpa using h.ready.packetLength hsz
  · simp

/-- Where COMPRESS stands before FRAME. -/
structure Packeted (s v : State) (tr : Tree) (c : CodeTable) : Prop extends Tabled s v tr c where
  cells  : ∀ sp, sp ≠ .tpkt → v.mem.cells sp = s.mem.cells sp
  packet : v.packet = packetOf tr
  tplen  : v.tplen.toNat = 6 * tr.size
  olen   : v.olen = 0#32

theorem Packeted.padding {s v : State} {tr : Tree} {c : CodeTable} (h : Packeted s v tr c) :
    v.pad.toNat = paddingOf (codeBits c s.stream).length := by rw [h.pad, paddingOf_ofNat]

theorem Packeted.header {s v : State} {tr : Tree} {c : CodeTable} (h : Packeted s v tr c) :
    containerHeader v.pad.toNat v.extension v.packet
      = containerHeader (paddingOf (codeBits c s.stream).length) s.extension (packetOf tr) := by
  have hx : v.extension = s.extension := by
    rw [State.extension, State.extension, h.extlen, State.bytesFrom_eq (h.cells .ext (by simp)) h.kept.epoch]
  rw [h.packet, h.padding, hx]

theorem Packeted.header_length {s v : State} {tr : Tree} {c : CodeTable} (h : Packeted s v tr c) :
    (containerHeader v.pad.toNat v.extension v.packet).length = 12 + s.extlen.toNat + 6 * tr.size := by
  rw [h.header, containerHeader_length, packetOf_length, State.extension, State.bytesFrom_length]

/-- The state after FRAME: what PACK sees. -/
theorem Packeted.framed {s v w : State} {tr : Tree} {c : CodeTable} (h : Packeted s v tr c) (hf : runFrame v = .ok w) :
    Ready w ∧ Kept s w ∧ w.input = s.stream ∧ w.code = c ∧ w.pad = v.pad ∧ w.olen.toNat = 12 + s.extlen.toNat + 6 * tr.size
      ∧ w.output = containerHeader (paddingOf (codeBits c s.stream).length) s.extension (packetOf tr)
      ∧ w = v.setOutPort (v.outPort.extend (containerHeader v.pad.toNat v.extension v.packet)) := by
  obtain ⟨hfit, hw⟩ := runFrame_eq_ok h.ready hf
  have hl := OutPort.extend_len hfit
  have hout := bytesFrom_setOutPort v _ hfit
  have hready := h.ready.setOutPort hfit
  have hk := h.kept.trans (Kept.setOutPort v (v.outPort.extend (containerHeader v.pad.toNat v.extension v.packet)))
  rw [← hw] at hout hready hk
  refine ⟨hready, hk, ?_, ?_, ?_, ?_, ?_, hw⟩
  · rw [State.input_of_icur_zero (by rw [hw]; simp [h.icur]), State.stream_eq hk.ilen ?_ hk.epoch]
    rw [hw]; simpa using h.cells .ibuf (by simp)
  · rw [hw]; simp [h.code]
  · rw [hw]; simp
  · rw [hw, State.setOutPort_olen, hl, h.header_length, State.outPort_len, h.olen]; simp
  · rw [State.output, hout, h.olen, h.header]; simp

theorem codedAll_stream {s : State} {c : CodeTable} (h : ∀ b, c.valid b = true ↔ b ∈ s.stream) : codedAll c s.stream :=
  fun v hv => (h v).mpr hv

theorem payload_up (n : Nat) : (n + paddingOf n) / 8 = (n + 7) / 8 := by unfold paddingOf; omega

/-- FRAME and PACK with room for the Container. -/
theorem compress_room {s v : State} {tr : Tree} {c : CodeTable} (h : Packeted s v tr c)
    (hroom : 12 + s.extlen.toNat + 6 * tr.size + ((codeBits c s.stream).length + 7) / 8 ≤ s.cfg.obufCap) :
    ∃ t bs, runAll [runFrame, runPack] v = .ok t ∧ Ready t ∧ Kept s t ∧ Compressed s t tr c bs := by
  have hr : v.room (12 + v.extlen.toNat + v.tplen.toNat) := by
    simp only [State.room, h.olen, h.kept.cfg, h.tplen, h.extlen, BitVec.toNat_ofNat]
    omega
  obtain ⟨w, hw⟩ : ∃ w, runFrame v = .ok w := ⟨_, runFrame_ok h.ready hr⟩
  obtain ⟨hready, hk, hin, hcode, hpad, holen, hout, hweq⟩ := h.framed hw
  have hp : w.pad.toNat = paddingOf (codeBits c s.stream).length := by rw [hpad, h.padding]
  have hfit : w.outPort.fits (((codeBits c s.stream).length + w.pad.toNat) / 8) := by
    refine hready.outPort_fits ?_
    rw [hp, payload_up]
    simp only [State.room, holen, hk.cfg]
    exact hroom
  obtain ⟨bs, hpk, hbits⟩ := packStream_ok (i := w.icur.toNat) (codedAll_stream h.valid) hp hfit
  rw [hp] at hbits
  have hbl := payload_length hbits
  have hfitB : w.outPort.fits bs.length := OutPort.fits_mono hfit (by rw [hp, payload_up, hbl])
  have hrunP := runPack_ok hready (o := w.outPort.extend bs) (by rw [hin, hcode]; exact hpk)
  have hout' := bytesFrom_setOutPort w bs hfitB
  have hl := OutPort.extend_len hfitB
  refine ⟨(w.setOutPort (w.outPort.extend bs)).consumeInput, bs, by rw [runAll_cons_ok hw, runAll_cons_ok hrunP]; rfl, (hready.setOutPort hfitB).consumeInput,
    (hk.trans (Kept.setOutPort _ _)).trans (Kept.consumeInput _), h.built, h.codes, h.valid, ?_, ?_, ?_, ?_, ?_, ?_, ?_, ⟨?_, ?_⟩, ?_, ?_,
    hbits, ?_, ?_⟩
  · simp [hweq, h.freq]
  · simp [hweq, h.tree]
  · simp [hcode]
  · simp [hweq, h.totbits]
  · simp [hpad, h.pad]
  · simp [hweq, h.tplen]
  · rw [State.packet, State.bytesFrom_eq (s := v) (by simp [hweq]) (by simp [hweq]), ← h.packet, State.packet]
    simp [hweq]
  · simp [hweq, h.extlen]
  · intro a
    exact State.readByte_congr (by simpa [hweq] using h.cells .ext (by simp)) (by simp [hk.epoch]) a
  · have := State.consumedIcur_zero (s := w.setOutPort (w.outPort.extend bs)) (by simp [hweq, h.icur])
    rw [State.consumedIcur] at this
    rw [State.consumeInput_icur, this, State.setOutPort_ilen, hk.ilen]
  · intro a
    exact State.readByte_congr (by simpa [hweq] using h.cells .ibuf (by simp)) (by simp [hk.epoch]) a
  · rw [State.output, State.bytesFrom_eq (s := w.setOutPort (w.outPort.extend bs)) (by simp) (by simp), State.consumeInput_olen, hout',
      ← State.output, hout]
  · rw [State.consumeInput_olen, State.setOutPort_olen, hl, hbl, State.outPort_len, holen]

/-- FRAME and PACK without room for it. -/
theorem compress_overflow {s v : State} {tr : Tree} {c : CodeTable} (h : Packeted s v tr c)
    (hroom : s.cfg.obufCap < 12 + s.extlen.toNat + 6 * tr.size + ((codeBits c s.stream).length + 7) / 8) :
    runAll [runFrame, runPack] v = .error (.raise .outputOverflow (BitVec.ofNat 32 s.cfg.obufCap)) := by
  cases hF : runFrame v with
  | error e =>
    rw [runAll_cons_error hF]
    rw [h.ready.frame] at hF
    cases hem : emitAll (containerHeader v.pad.toNat v.extension v.packet) v.outPort with
    | ok o => rw [hem] at hF; cases hF
    | error e' =>
      rw [hem] at hF
      cases hF
      rw [h.ready.overflow (emitAll_overflows hem), h.kept.cfg]
  | ok w =>
    obtain ⟨hready, hk, hin, hcode, hpad, holen, _, _⟩ := h.framed hF
    have hp : w.pad.toNat = paddingOf (codeBits c s.stream).length := by rw [hpad, h.padding]
    rw [runAll_cons_ok hF]
    rcases packStream_cases w.code w.pad w.icur.toNat w.input w.outPort with
      ⟨_, _, bs, o, _, gr, hbits⟩ | ⟨j, hj, hn, _, _⟩ | ⟨_, hne, _⟩ | ⟨e, he, ho⟩
    · exfalso
      rw [hin, hcode, hp] at hbits
      obtain ⟨hf, _⟩ := hready.grew gr
      have := hf.1
      rw [payload_length hbits, State.outPort_len, holen, State.outPort_cap, hk.cfg] at this
      omega
    · exfalso
      have hmem := codedAll_stream h.valid (w.input[j]) (by rw [← hin]; exact List.getElem_mem hj)
      rw [hcode] at hn
      simp [CodeTable.valid, hn] at hmem
    · exact absurd (by rw [hin, hcode]; exact hp) hne
    · rw [runAll_cons_error (runPack_error hready he), hready.overflow ho, hk.cfg]

/-- Everything COMPRESS can do on a legal state (R271): EmptySymbolSet on an empty stream; otherwise the Container, if there is room
for it, and OutputOverflow if there is not. -/
theorem runCompress_cases {s : State} (h : Ready s) :
    (s.stream = [] ∧ runCompress s = raise .emptySymbolSet)
      ∨ ∃ tr c, s.stream ≠ [] ∧ buildTree (countBytes s.stream) s.sent = .ok tr ∧ codesOf c tr
        ∧ ((12 + s.extlen.toNat + 6 * tr.size + ((codeBits c s.stream).length + 7) / 8 ≤ s.cfg.obufCap
              ∧ ∃ t bs, runCompress s = .ok t ∧ Ready t ∧ Kept s t ∧ Compressed s t tr c bs)
            ∨ (s.cfg.obufCap < 12 + s.extlen.toNat + 6 * tr.size + ((codeBits c s.stream).length + 7) / 8
              ∧ runCompress s = .error (.raise .outputOverflow (BitVec.ofNat 32 s.cfg.obufCap)))) := by
  rcases compress_tabled h with he | ⟨u, tr, c, hne, hrun, htab, hm⟩
  · exact .inl he
  · obtain ⟨v, hrun', htab', h1, h2, h3, h4⟩ := compress_packet htab hm
    have hp : Packeted s v tr c := ⟨htab', h1, h2, h3, h4⟩
    refine .inr ⟨tr, c, hne, htab.built, htab.codes, ?_⟩
    rw [hrun, hrun']
    by_cases hroom : 12 + s.extlen.toNat + 6 * tr.size + ((codeBits c s.stream).length + 7) / 8 ≤ s.cfg.obufCap
    · exact .inl ⟨hroom, compress_room hp hroom⟩
    · exact .inr ⟨by omega, compress_overflow hp (by omega)⟩

theorem runCompress_good {s : State} (h : Ready s) : Good [.emptySymbolSet, .outputOverflow] s (runCompress s) := by
  rcases runCompress_cases h with ⟨_, he⟩ | ⟨tr, c, _, _, _, ⟨_, t, bs, he, hr, hk, _⟩ | ⟨_, he⟩⟩
  · exact .inr ⟨.emptySymbolSet, _, by simp, he⟩
  · exact .inl ⟨t, he, hr, hk⟩
  · exact .inr ⟨.outputOverflow, _, by simp, he⟩

/-! ### UNFRAME and DECOMPRESS -/

theorem State.unframed_packet (s : State) (h : Header) (hl : h.packet.length < 2 ^ 32) : (s.unframed h).packet = h.packet := by
  have hn : (BitVec.ofNat 32 h.packet.length).toNat = h.packet.length := by rw [BitVec.toNat_ofNat]; omega
  rw [State.packet, State.unframed_tplen, hn, State.unframed]
  rw [State.bytesFrom_eq
    (s := (((s.setPad h.pad).stored .ext 0 h.ext).setExtlen (BitVec.ofNat 32 h.ext.length)).stored .tpkt 0 h.packet) (by simp) (by simp)]
  exact State.stored_bytesFrom _ _ _ _

theorem State.unframed_extension (s : State) (h : Header) (hl : h.ext.length < 2 ^ 32) : (s.unframed h).extension = h.ext := by
  have hn : (BitVec.ofNat 32 h.ext.length).toNat = h.ext.length := by rw [BitVec.toNat_ofNat]; omega
  rw [State.extension, State.unframed_extlen, hn, State.unframed]
  rw [State.bytesFrom_eq (s := (s.setPad h.pad).stored .ext 0 h.ext) ?_ (by simp)]
  · exact State.stored_bytesFrom _ _ _ _
  · simp [Memory.setCells]

theorem State.unframed_readByte (s : State) (h : Header) {sp : Space} (hx : sp ≠ .ext) (ht : sp ≠ .tpkt) (a : Nat) :
    (s.unframed h).readByte sp a = s.readByte sp a := by
  refine State.readByte_congr ?_ (by simp) a
  rw [State.unframed]
  simp only [State.setIcur_mem, State.setTplen_mem, State.stored_cells_ne _ 0 h.packet ht, State.setExtlen_mem,
    State.stored_cells_ne _ 0 h.ext hx, State.setPad_mem]

theorem State.unframed_readByte_ext (s : State) (h : Header) (a : Nat) (ha : h.ext.length ≤ a) :
    (s.unframed h).readByte .ext a = s.readByte .ext a := by
  have h1 : (s.unframed h).readByte .ext a = ((s.setPad h.pad).stored .ext 0 h.ext).readByte .ext a := by
    refine State.readByte_congr ?_ (by simp) a
    rw [State.unframed]
    simp [Memory.setCells]
  rw [h1, State.stored_readByte_outside _ _ _ (.inr (by omega))]
  rfl

theorem State.unframed_readByte_tpkt (s : State) (h : Header) (a : Nat) (ha : h.packet.length ≤ a) :
    (s.unframed h).readByte .tpkt a = s.readByte .tpkt a := by
  have h1 : (s.unframed h).readByte .tpkt a
      = ((((s.setPad h.pad).stored .ext 0 h.ext).setExtlen (BitVec.ofNat 32 h.ext.length)).stored .tpkt 0 h.packet).readByte .tpkt a := by
    refine State.readByte_congr ?_ (by simp) a
    rw [State.unframed]
    rfl
  rw [h1, State.stored_readByte_outside _ _ _ (.inr (by omega))]
  refine State.readByte_congr ?_ (by simp) a
  simp [Memory.setCells]

/-- The input left after a header. -/
theorem Ready.unframed_input {s : State} (h : Ready s) {hd : Header} (hr : Machine.readHeader s = .ok hd) {rest : List Byte}
    (hin : s.input = containerHeader hd.pad.toNat hd.ext hd.packet ++ rest) : (s.unframed hd).input = rest := by
  obtain ⟨_, _, hpos, _, _⟩ := h.unframed hr
  have hlen := congrArg List.length hin
  rw [List.length_append, containerHeader_length, State.input_length] at hlen
  have hb := h.bounds
  have hi := h.ilen
  have hic : (BitVec.ofNat 32 hd.pos).toNat = s.icur.toNat + (12 + hd.ext.length + hd.packet.length) := by
    rw [BitVec.toNat_ofNat, hpos]
    simp only [State.inputLeft] at hlen
    omega
  have hleft : (s.unframed hd).inputLeft = rest.length := by
    simp only [State.inputLeft, State.unframed_icur, State.unframed_ilen, hic] at *
    omega
  rw [State.input, hleft, State.unframed_icur, hic,
    State.bytesFrom_congr (s := s) (fun i _ => s.unframed_readByte hd (by simp) (by simp) _),
    s.input_slice (by omega), hin, List.drop_left' (by rw [containerHeader_length]), List.take_of_length_le (le_refl _)]

/-- DECOMPRESS on a Container whose payload is paths of its tree, one after the other (R272). -/
theorem runDecompress_ok {s : State} (h : Ready s) {p : BitVec 3} {ext body : List Byte} {tr : Tree} {es : List (Byte × BitString)}
    (hin : s.stream = containerHeader p.toNat ext (packetOf tr) ++ body) (hext : ext.length ≤ s.cfg.extCap)
    (hsz : tr.size ≤ s.cfg.nodeCap) (hleaf : tr.isLeaf = true → es = []) (hes : ∀ e ∈ es, e ∈ tr.paths [])
    (hbits : payload p.toNat body = es.flatMap Prod.snd) (hpad : body = [] → p = 0#3) (hroom : es.length ≤ s.cfg.obufCap) :
    ∃ t, runDecompress s = .ok t ∧ Ready t ∧ Kept s t ∧ t.output = es.map Prod.fst ∧ t.olen.toNat = es.length ∧ t.extension = ext
      ∧ t.extlen.toNat = ext.length ∧ t.packet = packetOf tr ∧ t.tplen.toNat = 6 * tr.size ∧ t.pad = p
      ∧ t.tree = some (tr.numbered 0) ∧ t.root = 0 ∧ t.ncount.toNat = tr.size ∧ t.icur = s.ilen := by
  have hb := h.bounds
  have hpl := packetOf_length tr
  -- REWIND, UNFRAME
  have h1 := h.setIcur_zero
  have hin1 : (s.setIcur 0#32).input = containerHeader p.toNat ext (packetOf tr) ++ body :=
    (State.input_of_icur_zero rfl).trans hin
  have hcap : (packetOf tr).length ≤ s.cfg.tpktCap := by rw [hpl]; simp only [Config.tpktCap]; omega
  have hrd := h1.readHeader hin1 hext hcap
  have hun := runUnframe_ok hrd hext hcap
  obtain ⟨_, _, hpos, _, h2⟩ := h1.unframed hrd
  have hin2 := h1.unframed_input hrd hin1
  have hpk2 := State.unframed_packet (s.setIcur 0#32)
    ⟨p, ext, packetOf tr, (s.setIcur 0#32).icur.toNat + (12 + ext.length + (packetOf tr).length)⟩ (by show (packetOf tr).length < _; rw [hpl]; omega)
  have hex2 := State.unframed_extension (s.setIcur 0#32)
    ⟨p, ext, packetOf tr, (s.setIcur 0#32).icur.toNat + (12 + ext.length + (packetOf tr).length)⟩ (by show ext.length < _; omega)
  have hk2 := (Kept.setIcur s 0#32).trans (State.unframed_kept _
    ⟨p, ext, packetOf tr, (s.setIcur 0#32).icur.toNat + (12 + ext.length + (packetOf tr).length)⟩)
  obtain ⟨u, hu⟩ : ∃ u, u = (s.setIcur 0#32).unframed ⟨p, ext, packetOf tr,
    (s.setIcur 0#32).icur.toNat + (12 + ext.length + (packetOf tr).length)⟩ := ⟨_, rfl⟩
  rw [← hu] at hun h2 hin2 hpk2 hex2 hk2
  replace hpk2 : u.packet = packetOf tr := hpk2
  replace hex2 : u.extension = ext := hex2
  replace hin2 : u.input = body := hin2
  have hrun2 : runDecompress s = runAll [runDeserialize, runClrout, runUnpack] u := by
    rw [runDecompress, runAll_cons_ok (f := runRewind) rfl, runAll_cons_ok hun]
  have hpadu : u.pad = p := by rw [hu, State.unframed_pad]
  have htpu : u.tplen.toNat = 6 * tr.size := by
    rw [hu, State.unframed_tplen, BitVec.toNat_ofNat, hpl]; omega
  have hexu : u.extlen.toNat = ext.length := by
    rw [hu, State.unframed_extlen, BitVec.toNat_ofNat]; show ext.length % _ = _; omega
  -- DESERIALIZE, CLROUT
  have hde := runDeserialize_ok h2 (tr := tr.numbered 0) (by rw [hpk2]; exact treeOfPacket_packetOf tr)
  have h3 := (h2.installTree (tr := tr.numbered 0) (by rw [Tree.numbered_size, hk2.cfg]; exact hsz)).setOlen_zero
  obtain ⟨v, hv⟩ : ∃ v, v = (u.installTree (tr.numbered 0)).setOlen 0#32 := ⟨_, rfl⟩
  have hrun3 : runDecompress s = runAll [runUnpack] v := by
    rw [hrun2, runAll_cons_ok hde, runAll_cons_ok (f := runClrout) rfl, hv]
  rw [← hv] at h3
  have hk3 : Kept s v := by rw [hv]; exact (hk2.trans (Kept.installTree _ _)).trans (Kept.setOlen _ _)
  have hinv : v.input = body := by
    rw [← hin2, State.input, State.input]
    have e1 : v.icur = u.icur := by rw [hv]; simp
    have e2 : v.inputLeft = u.inputLeft := by rw [hv]; rfl
    rw [e1, e2]
    exact State.bytesFrom_eq (by rw [hv]; rfl) (by rw [hv]; rfl) _ _
  have hol : v.olen = 0#32 := by rw [hv]; simp
  -- UNPACK
  have hst : unpackStream (tr.numbered 0) p v.icur.toNat body v.outPort = .ok (v.outPort.extend (es.map Prod.fst)) := by
    by_cases hl : tr.isLeaf = true
    · cases hleaf hl
      have hbody : body = [] := by
        have h0 : payload p.toNat body = [] := hbits
        have := congrArg List.length h0
        rw [payload, List.length_take, bitsOf_length] at this
        have hp := p.isLt
        apply List.eq_nil_of_length_eq_zero
        simp only [List.length_nil] at this
        omega
      rw [hbody, hpad hbody]
      show Except.ok v.outPort = .ok ⟨_, v.outPort.len + 0#32, _⟩
      rw [BitVec.add_zero]; rfl
    · have hleaf' : (tr.numbered 0).isLeaf = false := by
        cases tr <;> first | rfl | exact absurd rfl hl
      exact unpackStream_ok hleaf' hpad (by simpa using hes) hbits (h3.outPort_fits (by simp only [State.room, hol, hk3.cfg, BitVec.toNat_ofNat]; omega))
  have hfit : v.outPort.fits (es.map Prod.fst).length :=
    h3.outPort_fits (by simp only [State.room, hol, hk3.cfg, BitVec.toNat_ofNat, List.length_map]; omega)
  have hup := runUnpack_ok h3 (root := tr.numbered 0) (o := v.outPort.extend (es.map Prod.fst)) (by rw [hv]; simp)
    (by rw [hinv, show v.pad = p by rw [hv]; simpa using hpadu]; exact hst)
  have hl := OutPort.extend_len hfit
  have hout := bytesFrom_setOutPort v _ hfit
  refine ⟨(v.setOutPort (v.outPort.extend (es.map Prod.fst))).consumeInput, by rw [hrun3, runAll_cons_ok hup]; rfl,
    (h3.setOutPort hfit).consumeInput, (hk3.trans (Kept.setOutPort _ _)).trans (Kept.consumeInput _), ?_, ?_, ?_, ?_, ?_, ?_, ?_, ?_, ?_, ?_, ?_⟩
  · rw [State.output, State.bytesFrom_eq (s := v.setOutPort (v.outPort.extend (es.map Prod.fst))) (by simp) (by simp),
      State.consumeInput_olen, hout, hol]
    simp
  · rw [State.consumeInput_olen, State.setOutPort_olen, hl, State.outPort_len, hol]; simp
  · rw [← hex2, State.extension, State.extension, State.bytesFrom_eq (s := u) (by simp [hv]) (by simp [hv])]
    simp [hv]
  · simpa [hv] using hexu
  · rw [← hpk2, State.packet, State.packet, State.bytesFrom_eq (s := u) (by simp [hv]) (by simp [hv])]
    simp [hv]
  · simpa [hv] using htpu
  · simpa [hv] using hpadu
  · simp [hv]
  · simp [hv]
  · simp only [State.consumeInput_ncount, State.setOutPort_ncount, hv, State.setOlen_ncount, State.installTree_ncount, BitVec.toNat_ofNat,
      Tree.numbered_size]
    omega
  · have hle : v.icur.toNat ≤ v.ilen.toNat := by
      have hlen := congrArg List.length hin1
      rw [List.length_append, containerHeader_length, State.input_length] at hlen
      simp only [State.inputLeft, State.setIcur_ilen, State.setIcur_icur, BitVec.toNat_ofNat] at hlen
      have hi := h.ilen
      rw [hv, hu]
      simp only [State.setOlen_icur, State.installTree_icur, State.unframed_icur, BitVec.toNat_ofNat, State.setOlen_ilen,
        State.installTree_ilen, State.unframed_ilen, State.setIcur_ilen, State.setIcur_icur]
      omega
    rw [State.consumeInput_icur, State.setOutPort_icur, State.setOutPort_ilen, if_pos hle]
    exact hk3.ilen

theorem runUnpack_good_of_tree {s : State} (h : Ready s) {root : Tree} (ht : s.tree = some root) :
    Good [.badPadding, .absentChild, .truncatedStream, .outputOverflow] s (runUnpack s) := by
  rcases unpackStream_cases root s.pad s.icur.toNat s.input s.outPort with
    ⟨es, o, hp, g, _⟩ | ⟨_, _, hp⟩ | ⟨_, j, _, hp⟩ | ⟨out, t, o, _, _, hp⟩ | ⟨e, hp, ho⟩
  · obtain ⟨hf, rfl⟩ := h.grew g
    exact .inl ⟨_, runUnpack_ok h ht hp, (h.setOutPort hf).consumeInput, .rfl' s⟩
  · exact .inr ⟨_, _, by simp, runUnpack_error h ht hp⟩
  · exact .inr ⟨_, _, by simp, runUnpack_error h ht hp⟩
  · exact .inr ⟨_, _, by simp, runUnpack_error h ht hp⟩
  · rw [h.overflow ho] at hp
    exact .inr ⟨_, _, by simp, runUnpack_error h ht hp⟩

/-- DECOMPRESS ends well or by a fault of its commands; AbsentTree is none of them, since DESERIALIZE has put a tree in. -/
theorem runDecompress_good {s : State} (h : Ready s) : Good [.wrongSizeInteger, .badPadding, .badHeader, .nodeCapacity, .emptyPacket,
    .misalignedPacket, .badFlag, .packetUnderrun, .packetTrailing, .absentChild, .truncatedStream, .outputOverflow] s
    (runDecompress s) := by
  rw [runDecompress, runAll_cons_ok (f := runRewind) rfl]
  rcases runUnframe_good h.setIcur_zero with ⟨u, he, hu, hk⟩ | ⟨c, i, hc, he⟩
  swap
  · exact .inr ⟨c, i, List.mem_append_left _ hc, runAll_cons_error he⟩
  rw [runAll_cons_ok he]
  rcases runDeserialize_good hu with ⟨v, he', hv, hk'⟩ | ⟨c, i, hc, he'⟩
  swap
  · refine .inr ⟨c, i, ?_, runAll_cons_error he'⟩
    simp only [List.mem_cons, List.not_mem_nil, or_false] at hc ⊢
    tauto
  rw [runAll_cons_ok he', runAll_cons_ok (f := runClrout) rfl]
  obtain ⟨tr, _, rfl⟩ := runDeserialize_eq_ok he'
  have hkk := (((Kept.setIcur s _).trans hk).trans hk').trans (Kept.setOlen _ 0#32)
  rcases runUnpack_good_of_tree hv.setOlen_zero (root := tr) (by simp) with ⟨w, he'', hw, hk''⟩ | ⟨c, i, hc, he''⟩
  · exact .inl ⟨w, by rw [runAll_cons_ok he'']; rfl, hw, hkk.trans hk''⟩
  · refine .inr ⟨c, i, ?_, runAll_cons_error he''⟩
    simp only [List.mem_cons, List.not_mem_nil, or_false] at hc ⊢
    tauto

end Sys2Proof.Machine
end

