-- ==== Sys2Proof/Laws/Step.lean ====
section
/-! SUPPORT. Commands as a whole: how `exec` ends, what each command leaves unchanged, and what a bus write can do (spec 30_encoding
R102, R108, 20_memory R66, R67). -/

namespace Sys2Proof.Machine

/-! ### exec -/

/-- The pseudocode of a command. -/
def runOf : Instr → State → Except Stop State
  | .nop => runNop
  | .rewind => runRewind
  | .clrout => runClrout
  | .count => runCount
  | .build => runBuild
  | .gencodes => runGencodes
  | .padcalc => runPadcalc
  | .serialize => runSerialize
  | .deserialize => runDeserialize
  | .pack => runPack
  | .unpack => runUnpack
  | .frame => runFrame
  | .unframe => runUnframe
  | .compress => runCompress
  | .decompress => runDecompress

theorem exec_eq_finish (i : Instr) (s : State) : exec i s = finish s (runOf i s) := by cases i <;> rfl

theorem exec_ok {i : Instr} {s t : State} (h : runOf i s = .ok t) : exec i s = .next t.complete := by
  rw [exec_eq_finish, h]; rfl

theorem exec_raise {i : Instr} {s : State} {c : Cause} {info : Word} (h : runOf i s = .error (.raise c info)) :
    exec i s = .next (s.takeFault c info) := by
  rw [exec_eq_finish, h]; rfl

theorem exec_eq_next {i : Instr} {s t : State} (h : exec i s = .next t) :
    (∃ u, runOf i s = .ok u ∧ t = u.complete) ∨ ∃ c info, runOf i s = .error (.raise c info) ∧ t = s.takeFault c info := by
  rw [exec_eq_finish] at h
  match hr : runOf i s with
  | .ok u => rw [hr] at h; cases h; exact .inl ⟨u, rfl, rfl⟩
  | .error (.raise c info) => rw [hr] at h; cases h; exact .inr ⟨c, info, rfl, rfl⟩
  | .error (.outside sp) => rw [hr] at h; cases h

/-- A command that ended without a fault ran its pseudocode to the end. -/
theorem exec_success {i : Instr} {s t : State} (h : exec i s = .next t) (hf : t.fault = false) :
    ∃ u, runOf i s = .ok u ∧ t = u.complete := by
  rcases exec_eq_next h with h | ⟨c, info, _, rfl⟩
  · exact h
  · simp at hf

theorem faultedBy_takeFault (s : State) (c : Cause) (info : Word) : faultedBy s (s.takeFault c info) c info :=
  ⟨rfl, rfl, rfl, rfl, rfl, rfl, rfl, rfl, rfl, rfl, rfl⟩

theorem exec_faults {i : Instr} {s : State} {c : Cause} {info : Nat} (h : runOf i s = raise c info) : faults i s c info :=
  ⟨_, exec_raise h, faultedBy_takeFault _ _ _⟩

theorem runOf_good {s : State} (h : Ready s) (i : Instr) : Good (faultsOf i) s (runOf i s) := by
  cases i
  · exact runNop_good h
  · exact runRewind_good h
  · exact runClrout_good h
  · exact runCount_good h
  · exact runBuild_good h
  · exact runGencodes_good h
  · exact runPadcalc_good h
  · exact runSerialize_good h
  · exact runDeserialize_good h
  · exact runPack_good h
  · exact runUnpack_good h
  · exact runFrame_good h
  · exact runUnframe_good h
  · exact runCompress_good h
  · exact runDecompress_good h

/-! ### What each command leaves unchanged -/

/-- Nothing but the listed parts has changed. -/
def OnlyWrites (ps : List Part) (s t : State) : Prop := Kept s t ∧ ∀ p, p ∉ ps → p.same s t

theorem OnlyWrites.mono {ps qs : List Part} {s t : State} (h : OnlyWrites ps s t) (hs : ∀ p ∈ ps, p ∈ qs) : OnlyWrites qs s t :=
  ⟨h.1, fun p hp => h.2 p fun hp' => hp (hs p hp')⟩

theorem Part.same_trans {p : Part} {s t u : State} (h : p.same s t) (h' : p.same t u) : p.same s u := by
  cases p <;> simp_all [Part.same]

theorem OnlyWrites.trans {ps : List Part} {s t u : State} (h : OnlyWrites ps s t) (h' : OnlyWrites ps t u) : OnlyWrites ps s u :=
  ⟨h.1.trans h'.1, fun p hp => Part.same_trans (h.2 p hp) (h'.2 p hp)⟩

theorem onlyWrites_refl (s : State) : OnlyWrites [] s s := ⟨.rfl' s, fun p _ => by cases p <;> simp [Part.same]⟩

theorem onlyWrites_setIcur (s : State) (v : Word) : OnlyWrites [.icur] s (s.setIcur v) :=
  ⟨.setIcur s v, fun p hp => by
    cases p <;> first | exact fun _ => rfl | exact ⟨rfl, rfl, rfl⟩ | rfl | exact absurd (by simp) hp⟩

theorem onlyWrites_setOlen (s : State) (v : Word) : OnlyWrites [.olen] s (s.setOlen v) :=
  ⟨.setOlen s v, fun p hp => by
    cases p <;> first | exact fun _ => rfl | exact ⟨rfl, rfl, rfl⟩ | rfl | exact absurd (by simp) hp⟩

theorem onlyWrites_setFreq (s : State) (v : FreqTable) : OnlyWrites [.freq] s (s.setFreq v) :=
  ⟨.setFreq s v, fun p hp => by
    cases p <;> first | exact fun _ => rfl | exact ⟨rfl, rfl, rfl⟩ | rfl | exact absurd (by simp) hp⟩

theorem onlyWrites_setCode (s : State) (v : CodeTable) : OnlyWrites [.code] s (s.setCode v) :=
  ⟨.setCode s v, fun p hp => by
    cases p <;> first | exact fun _ => rfl | exact ⟨rfl, rfl, rfl⟩ | rfl | exact absurd (by simp) hp⟩

theorem onlyWrites_setPad (s : State) (v : BitVec 3) : OnlyWrites [.pad] s (s.setPad v) :=
  ⟨.setPad s v, fun p hp => by
    cases p <;> first | exact fun _ => rfl | exact ⟨rfl, rfl, rfl⟩ | rfl | exact absurd (by simp) hp⟩

theorem onlyWrites_setTotbits (s : State) (v : BitVec 40) : OnlyWrites [.totbits] s (s.setTotbits v) :=
  ⟨.setTotbits s v, fun p hp => by
    cases p <;> first | exact fun _ => rfl | exact ⟨rfl, rfl, rfl⟩ | rfl | exact absurd (by simp) hp⟩

theorem onlyWrites_setTplen (s : State) (v : Word) : OnlyWrites [.tplen] s (s.setTplen v) :=
  ⟨.setTplen s v, fun p hp => by
    cases p <;> first | exact fun _ => rfl | exact ⟨rfl, rfl, rfl⟩ | rfl | exact absurd (by simp) hp⟩

theorem onlyWrites_installTree (s : State) (v : Tree) : OnlyWrites [.tree] s (s.installTree v) :=
  ⟨.installTree s v, fun p hp => by
    cases p <;> first | exact fun _ => rfl | rfl | exact absurd (by simp) hp⟩

theorem onlyWrites_setOutPort (s : State) (o : OutPort) : OnlyWrites [.bytes .obuf, .olen] s (s.setOutPort o) := by
  refine ⟨.setOutPort s o, fun p hp => ?_⟩
  cases p with
  | bytes sp =>
    have hne : sp ≠ .obuf := fun he => hp (by simp [he])
    exact fun a => readByte_setOutPort_space s o hne a
  | _ => first | exact ⟨rfl, rfl, rfl⟩ | rfl | exact absurd (by simp) hp

theorem onlyWrites_stored (s : State) (sp : Space) (off : Nat) (bs : List Byte) : OnlyWrites [.bytes sp] s (s.stored sp off bs) := by
  refine ⟨.stored s sp off bs, fun p hp => ?_⟩
  cases p with
  | bytes sp' =>
    have hne : sp' ≠ sp := fun he => hp (by simp [he])
    exact fun a => readByte_storeCells_space s off a bs hne
  | _ => first | exact ⟨rfl, rfl, rfl⟩ | rfl

theorem onlyWrites_unframed (s : State) (h : Header) :
    OnlyWrites [.pad, .bytes .ext, .extlen, .bytes .tpkt, .tplen, .icur] s (s.unframed h) := by
  refine ⟨s.unframed_kept h, fun p hp => ?_⟩
  cases p with
  | bytes sp =>
    exact fun a => s.unframed_readByte h (fun he => hp (by simp [he])) (fun he => hp (by simp [he])) a
  | _ => first | exact absurd (by decide) hp | simp [Part.same]

/-- Everything a command that runs to its end leaves unchanged (R102). -/
theorem runOf_onlyWrites_basic {i : Instr} (hi : i ≠ .compress) (hi' : i ≠ .decompress) {s t : State} (h : runOf i s = .ok t) :
    OnlyWrites (writes i) s t := by
  cases i
  · cases h; exact onlyWrites_refl s
  · cases h; exact onlyWrites_setIcur s _
  · cases h; exact onlyWrites_setOlen s _
  · rw [runCount_eq_ok h]
    exact ((onlyWrites_setFreq s _).mono (by simp [writes])).trans ((onlyWrites_setIcur _ _).mono (by simp [writes]))
  · obtain ⟨tr, _, rfl⟩ := runBuild_eq_ok h; exact onlyWrites_installTree s tr
  · obtain ⟨tr, c, _, _, rfl⟩ := runGencodes_eq_ok h; exact onlyWrites_setCode _ c
  · obtain ⟨_, rfl⟩ := runPadcalc_eq_ok h
    exact ((onlyWrites_setTotbits s _).mono (by simp [writes])).trans ((onlyWrites_setPad _ _).mono (by simp [writes]))
  · obtain ⟨tr, _, _, rfl⟩ := runSerialize_eq_ok h
    exact ((onlyWrites_stored s .tpkt 0 _).mono (by simp [writes])).trans ((onlyWrites_setTplen _ _).mono (by simp [writes]))
  · obtain ⟨tr, _, rfl⟩ := runDeserialize_eq_ok h; exact onlyWrites_installTree s tr
  · obtain ⟨o, _, rfl⟩ := runPack_eq_ok h
    exact ((onlyWrites_setOutPort s o).mono (by simp [writes])).trans ((onlyWrites_setIcur _ _).mono (by simp [writes]))
  · obtain ⟨root, o, _, _, rfl⟩ := runUnpack_eq_ok h
    exact ((onlyWrites_setOutPort s o).mono (by simp [writes])).trans ((onlyWrites_setIcur _ _).mono (by simp [writes]))
  · obtain ⟨o, rfl⟩ := runFrame_setOutPort h; exact onlyWrites_setOutPort s o
  · obtain ⟨hd, _, rfl⟩ := runUnframe_eq_ok h; exact onlyWrites_unframed s hd
  · exact absurd rfl hi
  · exact absurd rfl hi'

theorem runAll_onlyWrites {ps : List Part} {fs : List (State → Except Stop State)}
    (h : ∀ f ∈ fs, ∀ s t, f s = .ok t → OnlyWrites ps s t) {s t : State} (ht : runAll fs s = .ok t) : OnlyWrites ps s t := by
  induction fs generalizing s with
  | nil => cases ht; exact (onlyWrites_refl _).mono (by simp)
  | cons f fs ih =>
    cases hf : f s with
    | error e => rw [runAll_cons_error hf] at ht; cases ht
    | ok u =>
      rw [runAll_cons_ok hf] at ht
      exact (h f (by simp) s u hf).trans (ih (fun g hg => h g (by simp [hg])) ht)

theorem runOf_onlyWrites {i : Instr} {s t : State} (h : runOf i s = .ok t) : OnlyWrites (writes i) s t := by
  by_cases hc : i = .compress
  · subst hc
    refine runAll_onlyWrites ?_ h
    intro f hf u v he
    simp only [List.mem_cons, List.not_mem_nil, or_false] at hf
    have key : ∀ j : Instr, j ≠ .compress → j ≠ .decompress → (∀ p ∈ writes j, p ∈ writes .compress) → runOf j u = .ok v →
        OnlyWrites (writes .compress) u v := fun j h1 h2 h3 h4 => (runOf_onlyWrites_basic h1 h2 h4).mono h3
    rcases hf with rfl | rfl | rfl | rfl | rfl | rfl | rfl | rfl | rfl | rfl
    · exact key .rewind (by simp) (by simp) (by decide) he
    · exact key .count (by simp) (by simp) (by decide) he
    · exact key .rewind (by simp) (by simp) (by decide) he
    · exact key .build (by simp) (by simp) (by decide) he
    · exact key .gencodes (by simp) (by simp) (by decide) he
    · exact key .padcalc (by simp) (by simp) (by decide) he
    · exact key .serialize (by simp) (by simp) (by decide) he
    · exact key .clrout (by simp) (by simp) (by decide) he
    · exact key .frame (by simp) (by simp) (by decide) he
    · exact key .pack (by simp) (by simp) (by decide) he
  by_cases hd : i = .decompress
  · subst hd
    refine runAll_onlyWrites ?_ h
    intro f hf u v he
    simp only [List.mem_cons, List.not_mem_nil, or_false] at hf
    have key : ∀ j : Instr, j ≠ .compress → j ≠ .decompress → (∀ p ∈ writes j, p ∈ writes .decompress) → runOf j u = .ok v →
        OnlyWrites (writes .decompress) u v := fun j h1 h2 h3 h4 => (runOf_onlyWrites_basic h1 h2 h4).mono h3
    rcases hf with rfl | rfl | rfl | rfl | rfl
    · exact key .rewind (by simp) (by simp) (by decide) he
    · exact key .unframe (by simp) (by simp) (by decide) he
    · exact key .deserialize (by simp) (by simp) (by decide) he
    · exact key .clrout (by simp) (by simp) (by decide) he
    · exact key .unpack (by simp) (by simp) (by decide) he
  · exact runOf_onlyWrites_basic hc hd h

theorem Part.same_complete (p : Part) (t : State) : p.same t t.complete := by
  cases p <;> first | exact fun _ => rfl | exact ⟨rfl, rfl, rfl⟩ | rfl

/-! ### Bus writes -/

/-- Everything an accepted bus write can do (R67): the soft reset, CTRL, STATUS, a latched command, an operand register, or one byte of
EXT, TPKT or IBUF below the capacity; all but the first two only in Idle. -/
inductive Written (s : State) (data : Word) : State → Prop where
  | softReset : Written s data s.resetBlock
  | ctrl : Written s data { s with ien := data.getLsbD 0 }
  | status (hi : s.blockState = .idle) (h : data.getLsbD 1 = true) : Written s data { s with done := false }
  | statusKept (hi : s.blockState = .idle) (h : data.getLsbD 1 = false) : Written s data s
  | latched (hi : s.blockState = .idle) : Written s data (s.latch data)
  | ilen (hi : s.blockState = .idle) (h : data.toNat ≤ s.cfg.ibufCap) : Written s data { s with ilen := data }
  | tplen (hi : s.blockState = .idle) (h : data.toNat ≤ s.cfg.tpktCap) : Written s data (s.setTplen data)
  | extlen (hi : s.blockState = .idle) (h : data.toNat ≤ s.cfg.extCap) : Written s data (s.setExtlen data)
  | pad (hi : s.blockState = .idle) : Written s data (s.setPad (data.setWidth 3))
  | sent (hi : s.blockState = .idle) : Written s data { s with sent := data.setWidth 8 }
  | byte (hi : s.blockState = .idle) (sp : Space) (i : Nat) (hsp : sp ≠ .obuf) (h : i < s.capacity sp) :
      Written s data (s.writeByte sp i (data.setWidth 8))

theorem stateAllowsWrite_idle {b : BlockState} {l : Location} (h : stateAllowsWrite b l = true) : b = .idle ∨ l = .reg .ctrl := by
  cases b <;> cases l <;> (try rename Reg => r) <;> (try cases r) <;> simp_all [stateAllowsWrite]

theorem busWrite_eq_some {s t : State} {off size : Nat} {data : Word} (h : s.busWrite off size data = some t) : Written s data t := by
  unfold State.busWrite at h
  simp only at h
  split_ifs at h with hc
  simp only [Bool.and_eq_true] at hc
  obtain ⟨⟨_, hcap⟩, hst⟩ := hc
  have hidle := stateAllowsWrite_idle hst
  cases hl : locate off with
  | reg r =>
    rw [hl] at h hidle
    simp only [Location.reg.injEq] at hidle
    cases r <;> simp only [State.writeLocation, State.writeReg, reduceCtorEq, or_false, Option.some.injEq] at h hidle
    · split_ifs at h
      · subst h; exact .softReset
      · subst h; exact .ctrl
    · split_ifs at h with hd
      · subst h; exact .status hidle hd
      · subst h; exact .statusKept hidle (by simpa using hd)
    · subst h; exact .latched hidle
    · split_ifs at h with hd
      cases h; exact .ilen hidle hd
    · subst h; exact .pad hidle
    · split_ifs at h with hd
      cases h; exact .tplen hidle hd
    · split_ifs at h with hd
      cases h; exact .extlen hidle hd
    · subst h; exact .sent hidle
  | ext i =>
    rw [hl] at h hidle hcap
    cases h
    exact .byte (by simpa using hidle) .ext i (by simp) (by simpa [withinCapacity, State.capacity] using hcap)
  | tpkt i =>
    rw [hl] at h hidle hcap
    cases h
    exact .byte (by simpa using hidle) .tpkt i (by simp) (by simpa [withinCapacity, State.capacity] using hcap)
  | ibuf i =>
    rw [hl] at h hidle hcap
    cases h
    exact .byte (by simpa using hidle) .ibuf i (by simp) (by simpa [withinCapacity, State.capacity] using hcap)
  | freq b => rw [hl] at h; cases h
  | code b w => rw [hl] at h; cases h
  | obuf i => rw [hl] at h; cases h
  | reserved => rw [hl] at h; cases h

/-- Everything a bus transaction can do to the state: nothing, or an accepted write. -/
theorem transact_cases (s : State) (off : Nat) (a : Access) :
    (s.transact off a).2 = s ∨ ∃ size data, a = .write size data ∧ s.busWrite off size data = some (s.transact off a).2 := by
  cases a with
  | read size => left; simp only [State.transact]; split <;> rfl
  | write size data =>
    simp only [State.transact]
    cases hb : s.busWrite off size data with
    | none => exact .inl rfl
    | some t => exact .inr ⟨size, data, rfl, hb⟩

theorem busTurn_cases (s : State) (addr : Nat) (a : Access) : State.busTurn s addr a = s
    ∨ ∃ r, State.busTurn s addr a = { s with resp := some r }
    ∨ ∃ data t, Written s data t ∧ State.busTurn s addr a = { t with resp := some r } := by
  unfold State.busTurn
  cases offsetOf s.cfg addr with
  | none => exact .inl rfl
  | some off =>
    refine .inr ⟨(s.transact off a).1, ?_⟩
    rcases transact_cases s off a with h | ⟨size, data, _, h⟩
    · left; simp only [h]
    · exact .inr ⟨data, _, busWrite_eq_some h, rfl⟩

theorem blockState_idle_iff (s : State) : s.blockState = .idle ↔ s.busy = false ∧ s.fault = false := by
  unfold State.blockState
  cases s.busy <;> cases s.fault <;> simp

theorem blockState_busy_iff (s : State) : s.blockState = .busy ↔ s.busy = true := by
  unfold State.blockState
  cases s.busy <;> cases s.fault <;> simp

theorem blockState_faulted_iff (s : State) : s.blockState = .faulted ↔ s.busy = false ∧ s.fault = true := by
  unfold State.blockState
  cases s.busy <;> cases s.fault <;> simp

end Sys2Proof.Machine
end

