-- ==== Sys2Proof/Laws/Bus.lean ====
section
/-! SUPPORT. Laws of the host bus (spec 20_memory R61 to R68): where an offset falls, which offsets are which registers, and what a
transaction does when it is answered. -/

namespace Sys2Proof.Machine

open Sys2Proof

/-- The range of each kind of location (R61), all in one. -/
theorem locate_cases (off : Nat) :
    (off < 0x40 ∧ locate off = .reg (regAt (off / 4)))
      ∨ (0x100 ≤ off ∧ off < 0x200 ∧ locate off = .ext (off - 0x100))
      ∨ (0x400 ≤ off ∧ off < 0x800 ∧ locate off = .freq (BitVec.ofNat 8 ((off - 0x400) / 4)))
      ∨ (0x1000 ≤ off ∧ off < 0x4000 ∧ locate off = .tpkt (off - 0x1000))
      ∨ (0x4000 ≤ off ∧ off < 0x8000
        ∧ locate off = .code (BitVec.ofNat 8 ((off - 0x4000) / 64)) ((off - 0x4000) % 64 / 4))
      ∨ (0x1000000 ≤ off ∧ off < 0x2000000 ∧ locate off = .ibuf (off - 0x1000000))
      ∨ (0x2000000 ≤ off ∧ off < 0x4000000 ∧ locate off = .obuf (off - 0x2000000))
      ∨ ((0x40 ≤ off ∧ off < 0x100 ∨ 0x200 ≤ off ∧ off < 0x400 ∨ 0x800 ≤ off ∧ off < 0x1000
        ∨ 0x8000 ≤ off ∧ off < 0x1000000 ∨ 0x4000000 ≤ off) ∧ locate off = .reserved) := by
  unfold locate
  by_cases h1 : off < 0x40
  · rw [if_pos h1]; exact .inl ⟨h1, rfl⟩
  rw [if_neg h1]
  by_cases h2 : off < 0x100
  · rw [if_pos h2]; simp only [and_true, reduceCtorEq, and_false, false_or]; omega
  rw [if_neg h2]
  by_cases h3 : off < 0x200
  · rw [if_pos h3]; simp only [and_true, reduceCtorEq, and_false, or_false, false_or]; omega
  rw [if_neg h3]
  by_cases h4 : off < 0x400
  · rw [if_pos h4]; simp only [and_true, reduceCtorEq, and_false, false_or]; omega
  rw [if_neg h4]
  by_cases h5 : off < 0x800
  · rw [if_pos h5]; simp only [and_true, reduceCtorEq, and_false, or_false, false_or]; omega
  rw [if_neg h5]
  by_cases h6 : off < 0x1000
  · rw [if_pos h6]; simp only [and_true, reduceCtorEq, and_false, false_or]; omega
  rw [if_neg h6]
  by_cases h7 : off < 0x4000
  · rw [if_pos h7]; simp only [and_true, reduceCtorEq, and_false, or_false, false_or]; omega
  rw [if_neg h7]
  by_cases h8 : off < 0x8000
  · rw [if_pos h8]; simp only [and_true, reduceCtorEq, and_false, or_false, false_or]; omega
  rw [if_neg h8]
  by_cases h9 : off < 0x1000000
  · rw [if_pos h9]; simp only [and_true, reduceCtorEq, and_false, false_or]; omega
  rw [if_neg h9]
  by_cases h10 : off < 0x2000000
  · rw [if_pos h10]; simp only [and_true, reduceCtorEq, and_false, or_false, false_or]; omega
  rw [if_neg h10]
  by_cases h11 : off < 0x4000000
  · rw [if_pos h11]; simp only [and_true, reduceCtorEq, and_false, or_false, false_or]; omega
  rw [if_neg h11]
  simp only [and_true, reduceCtorEq, and_false, false_or]; omega

/-- The registers by their word index (10_state R20). -/
theorem regAt_cases {k : Nat} (h : k < 16) : regAt k = [Reg.id, .ctrl, .status, .cmd, .fcode, .finfo, .ilen, .icur, .olen, .pad,
    .totbitsLo, .totbitsHi, .tplen, .extlen, .sent, .ncount][k] := by
  interval_cases k <;> rfl

/-- The table of offsets and the address map agree. -/
theorem locate_offset (r : Reg) : locate r.offset = .reg r ∧ r.offset % 4 = 0 ∧ r.offset < 0x40 := by
  cases r <;> decide

/-- A word offset below 0x40 is the offset of its register. -/
theorem offset_regAt {off : Nat} (h : off < 0x40) (h4 : off % 4 = 0) : (regAt (off / 4)).offset = off := by
  obtain ⟨k, rfl⟩ : ∃ k, off = 4 * k := ⟨off / 4, by omega⟩
  have hk : k < 16 := by omega
  rw [Nat.mul_div_cancel_left k (by decide)]
  interval_cases k <;> rfl

/-- A register read of the right width is decided by the block state alone. -/
theorem busRead_reg (s : State) (r : Reg) : s.busRead r.offset 4
    = if stateAllowsRead s.blockState (.reg r) then some (s.readReg r) else none := by
  obtain ⟨hl, h4, _⟩ := locate_offset r
  simp only [State.busRead, hl, sizeAllowed, withinCapacity, h4, State.readLocation]
  rfl

/-- A register write of the right width is decided by the block state and the register. -/
theorem busWrite_reg (s : State) (r : Reg) (data : Word) : s.busWrite r.offset 4 data
    = if stateAllowsWrite s.blockState (.reg r) then s.writeReg data r else none := by
  obtain ⟨hl, h4, _⟩ := locate_offset r
  simp only [State.busWrite, hl, sizeAllowed, withinCapacity, h4, State.writeLocation]
  rfl

/-- Reads of an offset in the register file (R65). -/
theorem busRead_low {s : State} {off size : Nat} (h : off < 0x40) : s.busRead off size
    = if size = 4 ∧ off % 4 = 0 ∧ stateAllowsRead s.blockState (.reg (regAt (off / 4))) = true then
        some (s.readReg (regAt (off / 4))) else none := by
  have hl : locate off = .reg (regAt (off / 4)) := by unfold locate; rw [if_pos h]
  simp only [State.busRead, hl, sizeAllowed, withinCapacity, State.readLocation, Bool.and_true, Bool.and_eq_true, beq_iff_eq,
    and_assoc]

/-- Writes of an offset in the register file (R65). -/
theorem busWrite_low {s : State} {off size : Nat} {data : Word} (h : off < 0x40) : s.busWrite off size data
    = if size = 4 ∧ off % 4 = 0 ∧ stateAllowsWrite s.blockState (.reg (regAt (off / 4))) = true then
        s.writeReg data (regAt (off / 4)) else none := by
  have hl : locate off = .reg (regAt (off / 4)) := by unfold locate; rw [if_pos h]
  simp only [State.busWrite, hl, sizeAllowed, withinCapacity, State.writeLocation, Bool.and_true, Bool.and_eq_true, beq_iff_eq,
    and_assoc]

/-- Outside the register file a read is answered in Idle only (R68). -/
theorem busRead_high {s : State} {off size : Nat} (h : 0x40 ≤ off) : s.busRead off size
    = if s.blockState = .idle ∧ sizeAllowed (locate off) off size = true ∧ withinCapacity s.cfg (locate off) = true then
        s.readLocation (locate off) else none := by
  have hst : stateAllowsRead s.blockState (locate off) = true ↔ s.blockState = .idle := by
    rcases locate_cases off with ⟨h', _⟩ | ⟨_, _, hl⟩ | ⟨_, _, hl⟩ | ⟨_, _, hl⟩ | ⟨_, _, hl⟩ | ⟨_, _, hl⟩ | ⟨_, _, hl⟩ | ⟨_, hl⟩
    · omega
    all_goals (rw [hl]; cases s.blockState <;> simp [stateAllowsRead])
  simp only [State.busRead, Bool.and_eq_true, hst]
  congr 1
  exact propext ⟨fun ⟨⟨a, b⟩, c⟩ => ⟨c, a, b⟩, fun ⟨a, b, c⟩ => ⟨⟨b, c⟩, a⟩⟩

/-- Outside the register file a write is answered in Idle only (R68). -/
theorem busWrite_high {s : State} {off size : Nat} {data : Word} (h : 0x40 ≤ off) : s.busWrite off size data
    = if s.blockState = .idle ∧ sizeAllowed (locate off) off size = true ∧ withinCapacity s.cfg (locate off) = true then
        s.writeLocation data (locate off) else none := by
  have hst : stateAllowsWrite s.blockState (locate off) = true ↔ s.blockState = .idle := by
    rcases locate_cases off with ⟨h', _⟩ | ⟨_, _, hl⟩ | ⟨_, _, hl⟩ | ⟨_, _, hl⟩ | ⟨_, _, hl⟩ | ⟨_, _, hl⟩ | ⟨_, _, hl⟩ | ⟨_, hl⟩
    · omega
    all_goals (rw [hl]; cases s.blockState <;> simp [stateAllowsWrite])
  simp only [State.busWrite, Bool.and_eq_true, hst]
  congr 1
  exact propext ⟨fun ⟨⟨a, b⟩, c⟩ => ⟨c, a, b⟩, fun ⟨a, b, c⟩ => ⟨⟨b, c⟩, a⟩⟩

/-- In Idle every read of the register file is allowed. -/
@[simp] theorem stateAllowsRead_idle (l : Location) : stateAllowsRead .idle l = true := rfl

@[simp] theorem stateAllowsWrite_idle' (l : Location) : stateAllowsWrite .idle l = true := rfl

/-- The state after a bus turn, with its turns set aside. -/
theorem busTurn_turns (s : State) (addr : Nat) (a : Access) : (State.busTurn s addr a).turns = s.turns := by
  rcases busTurn_cases s addr a with h1 | ⟨r, h1 | ⟨data, t, hw, h1⟩⟩ <;> rw [h1]
  cases hw <;> rfl

/-- Outside Idle the one write that is answered is the one to CTRL (R68). -/
theorem busWrite_ctrl {s t : State} {off size : Nat} {data : Word} (hi : s.blockState ≠ .idle)
    (h : s.busWrite off size data = some t) : off = 0x04 ∧ size = 4
      ∧ t = if data.getLsbD 31 then s.resetBlock else { s with ien := data.getLsbD 0 } := by
  by_cases hoff : off < 0x40
  · rw [busWrite_low hoff] at h
    split_ifs at h with hc
    have hl := (stateAllowsWrite_idle hc.2.2).resolve_left hi
    simp only [Location.reg.injEq] at hl
    have := offset_regAt hoff hc.2.1
    rw [hl] at this h
    refine ⟨this.symm, hc.1, ?_⟩
    simp only [State.writeReg, Option.some.injEq] at h
    exact h.symm
  · rw [busWrite_high (by omega), if_neg (fun hc => hi hc.1)] at h
    cases h

/-- In Idle an answered write keeps the block Idle, but for the one to CMD (10_state R25). -/
theorem busWrite_idle {s t : State} {off size : Nat} {data : Word} (hi : s.blockState = .idle)
    (h : s.busWrite off size data = some t) :
    t.blockState = .idle ∨ t.blockState = .busy ∧ (off = 0x0C ∧ size = 4) ∧ t.cmd = data := by
  by_cases hoff : off < 0x40
  · rw [busWrite_low hoff] at h
    split_ifs at h with hc
    have := offset_regAt hoff hc.2.1
    generalize regAt (off / 4) = r at h this
    have hs := hc.1
    clear hc
    cases r <;> simp only [State.writeReg, Reg.offset, Option.some.injEq, reduceCtorEq] at h this <;> (try split_ifs at h) <;>
      (try cases h) <;> first | exact .inl rfl | exact .inl hi | exact .inr ⟨rfl, ⟨this.symm, hs⟩, rfl⟩
  · rw [busWrite_high (by omega)] at h
    split_ifs at h
    rcases locate_cases off with ⟨h', _⟩ | ⟨_, _, hl⟩ | ⟨_, _, hl⟩ | ⟨_, _, hl⟩ | ⟨_, _, hl⟩ | ⟨_, _, hl⟩ | ⟨_, _, hl⟩ | ⟨_, hl⟩
    · omega
    all_goals (rw [hl] at h; simp only [State.writeLocation, Option.some.injEq, reduceCtorEq] at h)
    all_goals (subst h; exact .inl hi)

/-- One step, then the rest of a run. -/
theorem run_step {n : Nat} {s t : State} (h : step s = .next t) :
    Host.Core.run Sys2Proof.core (n + 1) s = Host.Core.run Sys2Proof.core n t := by
  have h' : Sys2Proof.core.step s = .next t := h
  simp only [Host.Core.run, h']

/-- An address of the block, on the bus of its machine. -/
@[simp] theorem offsetOf_base (c : Config) {off : Nat} (h : off < 2 ^ 26) : offsetOf c (c.base + off) = some off := by
  unfold offsetOf
  rw [if_pos ⟨by omega, by omega⟩]
  congr 1
  omega

/-- CORE's turn does nothing while BUSY = 0 (R81). -/
theorem coreTurn_idle {s : State} (h : s.busy = false) : coreTurn s = .next s := by
  unfold coreTurn; rw [if_neg (by simp [h])]

/-! ### The words of the CODE window (R63) -/

theorem bitsToNat_append_one (s : BitString) (b : Bool) : bitsToNat (s ++ [b]) = 2 * bitsToNat s + b.toNat := by
  simp [bitsToNat, List.foldl_append]

theorem bitsToNat_testBit (s : BitString) (i : Nat) (h : i < s.length) : (bitsToNat s).testBit (s.length - 1 - i) = s[i] := by
  induction s using List.reverseRecOn with
  | nil => simp at h
  | append_singleton s b ih =>
    rw [bitsToNat_append_one]
    simp only [List.length_append, List.length_singleton] at h ⊢
    by_cases hi : i < s.length
    · have e : s.length + 1 - 1 - i = (s.length - 1 - i) + 1 := by omega
      rw [e, Nat.testBit_succ]
      have : (2 * bitsToNat s + b.toNat) / 2 = bitsToNat s := by cases b <;> simp <;> omega
      rw [this, ih hi, List.getElem_append_left hi]
    · have e : i = s.length := by omega
      subst e
      simp only [Nat.add_sub_cancel, Nat.sub_self, Nat.testBit_zero, List.getElem_append_right (Nat.le_refl _), List.getElem_cons_zero]
      cases b <;> simp [Nat.add_mod]

theorem codeWord_bits (bits : BitString) {w i : Nat} (hw : 1 ≤ w) (hw' : w ≤ 8) (hi : i < 32) :
    (codeWord (some bits) w).getLsbD (31 - i) = bits.getD (32 * (w - 1) + i) false := by
  have h0 : ¬ w = 0 := by omega
  simp only [codeWord, h0, hw', if_false, if_true]
  have hl : ((List.range 32).map fun i => bits.getD (32 * (w - 1) + i) false).length = 32 := by simp
  have := bitsToNat_testBit ((List.range 32).map fun i => bits.getD (32 * (w - 1) + i) false) i (by rw [hl]; exact hi)
  have e : ∀ n, n = 32 → n - 1 - i = 31 - i := by intro n hn; omega
  rw [BitVec.getLsbD_ofNat, decide_eq_true (by omega : 31 - i < 32), Bool.true_and, ← e _ hl, this]
  simp

theorem codeWord_zero {bits : BitString} (h : bits.length ≤ maxLen) : (codeWord (some bits) 0).getLsbD 31 = true
    ∧ ((codeWord (some bits) 0).extractLsb' 0 8).toNat = bits.length ∧ (codeWord (some bits) 0).extractLsb' 8 23 = 0#23 := by
  simp only [codeWord, if_true]
  generalize hn : bits.length = n at h
  have : ∀ n, n < 256 → (BitVec.ofNat 32 (2 ^ 31 + n % 256)).getLsbD 31 = true ∧ ((BitVec.ofNat 32 (2 ^ 31 + n % 256)).extractLsb' 0 8).toNat = n
    ∧ (BitVec.ofNat 32 (2 ^ 31 + n % 256)).extractLsb' 8 23 = 0#23 := by decide +kernel
  exact this n (by unfold maxLen at h; omega)

end Sys2Proof.Machine
end

