-- ==== Sys2Proof/Laws/Legal.lean ====
section
/-! SUPPORT. The invariant of Safety.lean under the parts of a step: the ends of a command, CORE's turn, a bus turn, reset. -/

namespace Sys2Proof.Machine

open Sys2Proof

/-- A successful end gives a specified state again. -/
theorem Ready.complete {s t : State} (h : s.ready) (hr : Ready t) (hk : Kept s t) : t.complete.ready := by
  have hf : t.complete.fault = false := hk.2.2.2.trans h.2
  refine ⟨Ready.legal (s := t.complete)
    ⟨hr.wf, hr.mem, hr.ilen, hr.icur, hr.olen, hr.tplen, hr.extlen, hr.tree, hr.counts, hr.codes⟩ ⟨?_, ?_, ?_⟩, hf⟩
  · intro hb; cases hb
  · intro _; exact ⟨rfl, hf⟩
  · intro _
    have hc := h.1.2.1.2.2 h.2
    obtain ⟨_, _, _, h1, h2, _⟩ := hk.1
    exact ⟨h1.trans hc.1, h2.trans hc.2⟩

/-- How a command ends in a specified state. -/
theorem exec_ends {s : State} (h : s.ready) (i : Instr) : ∃ t, exec i s = .next t
    ∧ ((t.done = true ∧ t.ready ∧ sameControl s t ∧ t.busy = false) ∨ ∃ c info, c ∈ faultsOf i ∧ t = s.takeFault c info) := by
  rcases runOf_good h.toReady i with ⟨t, ht, hr, hk⟩ | ⟨c, info, hc, he⟩
  · exact ⟨_, exec_ok ht, .inl ⟨rfl, Ready.complete h hr hk, hk.1, rfl⟩⟩
  · exact ⟨_, exec_raise he, .inr ⟨c, info, hc, rfl⟩⟩

/-- A fault leaves a legal state. -/
theorem takeFault_legal {s : State} (h : s.Legal) (c : Cause) (info : Word) : (s.takeFault c info).Legal := by
  refine ⟨⟨h.1.1, Memory.wf_blank⟩, ⟨?_, ?_, ?_⟩, ?_⟩
  · intro hb; cases hb
  · intro hb; cases hb
  · intro hb; cases hb
  · intro hb; cases hb

/-- What CORE's step does in a specified state: DONE and a specified state, or a fault. -/
theorem coreStep_ends {s : State} (h : s.ready) : ∃ t, coreStep s = .next t
    ∧ ((t.done = true ∧ t.ready ∧ sameControl s t ∧ t.busy = false) ∨ ∃ c info, t = s.takeFault c info) := by
  unfold coreStep
  cases hd : decode s.cmd with
  | error e => exact ⟨_, rfl, .inr ⟨_, _, rfl⟩⟩
  | ok i =>
    obtain ⟨t, ht, h1 | ⟨c, info, _, h2⟩⟩ := exec_ends h i
    · exact ⟨t, ht, .inl h1⟩
    · exact ⟨t, ht, .inr ⟨c, info, h2⟩⟩

/-- Reset gives a specified state. -/
theorem resetBlock_ready {s : State} (h : s.cfg.wf = true) : s.resetBlock.ready := by
  refine ⟨⟨⟨h, State.reset_mem_wf⟩, ⟨(by intro h; cases h), (by intro h; cases h), fun _ => ⟨rfl, rfl⟩⟩,
    fun _ => ⟨?_, rfl, ?_, ?_⟩⟩, rfl⟩
  · refine ⟨?_, ?_, ?_, ?_, ?_⟩ <;> simp [State.reset, State.resetBlock]
  · have : (allSymbols.map fun b => (State.reset.freq.at b).toNat).sum = 0 := by
      apply List.sum_eq_zero
      intro n hn
      obtain ⟨b, _, rfl⟩ := List.mem_map.mp hn
      simp [State.reset, FreqTable.at]
    exact this.le.trans (Nat.zero_le _)
  · refine ⟨?_, ?_⟩
    · intro b p h; simp [State.reset, State.resetBlock, CodeTable.at] at h
    · intro a b p q h; simp [State.reset, State.resetBlock, CodeTable.at] at h

/-- An accepted bus write keeps the state legal. -/
theorem Written.legal {s t : State} {data : Word} (h : s.Legal) (w : Written s data t) : t.Legal ∧ t.cfg = s.cfg := by
  obtain ⟨⟨hc, hm⟩, hcl, hs⟩ := h
  have idle : s.blockState = .idle → s.busy = false ∧ s.fault = false := (blockState_idle_iff s).mp
  cases w with
  | softReset => exact ⟨(resetBlock_ready hc).1, rfl⟩
  | ctrl => exact ⟨⟨⟨hc, hm⟩, hcl, hs⟩, rfl⟩
  | status hi hd => exact ⟨⟨⟨hc, hm⟩, ⟨hcl.1, (by intro h; cases h), hcl.2.2⟩, hs⟩, rfl⟩
  | statusKept hi hd => exact ⟨⟨⟨hc, hm⟩, hcl, hs⟩, rfl⟩
  | latched hi => exact ⟨⟨⟨hc, hm⟩, ⟨fun _ => (idle hi).2, (by intro h; cases h), hcl.2.2⟩, hs⟩, rfl⟩
  | ilen hi hd => exact ⟨⟨⟨hc, hm⟩, hcl, fun hf => ⟨⟨hd, (hs hf).1.2⟩, (hs hf).2⟩⟩, rfl⟩
  | tplen hi hd =>
    exact ⟨⟨⟨hc, hm⟩, hcl, fun hf => ⟨⟨(hs hf).1.1, (hs hf).1.2.1, (hs hf).1.2.2.1, hd, (hs hf).1.2.2.2.2⟩, (hs hf).2⟩⟩, rfl⟩
  | extlen hi hd =>
    exact ⟨⟨⟨hc, hm⟩, hcl, fun hf => ⟨⟨(hs hf).1.1, (hs hf).1.2.1, (hs hf).1.2.2.1, (hs hf).1.2.2.2.1, hd⟩, (hs hf).2⟩⟩, rfl⟩
  | pad hi => exact ⟨⟨⟨hc, hm⟩, hcl, hs⟩, rfl⟩
  | sent hi => exact ⟨⟨⟨hc, hm⟩, hcl, hs⟩, rfl⟩
  | byte hi sp i hsp hlt => exact ⟨⟨⟨hc, State.writeByte_wf s sp i _ hm⟩, hcl, hs⟩, rfl⟩

theorem setResp_legal {s : State} (h : s.Legal) (r : Option Response) : State.Legal { s with resp := r } := h

theorem setTurns_legal {s : State} (h : s.Legal) (l : List Turn) : State.Legal { s with turns := l } := h

/-- A bus turn keeps the state legal. -/
theorem busTurn_legal {s : State} (h : s.Legal) (addr : Nat) (a : Access) :
    (State.busTurn s addr a).Legal ∧ (State.busTurn s addr a).cfg = s.cfg := by
  rcases busTurn_cases s addr a with h1 | ⟨r, h1 | ⟨data, t, hw, h1⟩⟩ <;> rw [h1]
  · exact ⟨h, rfl⟩
  · exact ⟨h, rfl⟩
  · have := Written.legal h hw
    exact ⟨setResp_legal this.1 _, this.2⟩

/-- CORE's turn goes on, keeps the state legal and leaves BUSY = 0. -/
theorem coreTurn_legal {s : State} (h : s.Legal) : ∃ t, coreTurn s = .next t ∧ t.Legal ∧ t.cfg = s.cfg ∧ t.busy = false := by
  cases hb : s.busy with
  | false => exact ⟨s, coreTurn_idle hb, h, rfl, hb⟩
  | true =>
    obtain ⟨t, ht, ⟨_, hr, hk, hb'⟩ | ⟨c, info, rfl⟩⟩ := coreStep_ends (s := s) ⟨h, h.2.1.1 hb⟩
    · exact ⟨t, by simp only [coreTurn, hb, if_pos, ht], hr.1, hk.1, hb'⟩
    · exact ⟨_, by simp only [coreTurn, hb, if_pos, ht], takeFault_legal h c info, rfl, rfl⟩

end Sys2Proof.Machine
end

