-- ==== Sys2Proof/Laws/Bounded.lean ====
section
/-! SUPPORT. No command lists a byte beyond the capacity of its buffer (spec 20_memory R70 to R72). -/

namespace Sys2Proof.Machine

open Sys2Proof

theorem mem_storeCell {l : List Host.Cell} {x : Nat} {v : Byte} {e : Host.Cell} (h : e ∈ storeCell l x v) : e ∈ l ∨ e.1 = x := by
  induction l with
  | nil => simp [storeCell] at h; exact .inr (by rw [h])
  | cons c rest ih =>
    obtain ⟨a, w⟩ := c
    unfold storeCell at h
    split_ifs at h with h1 h2
    · rcases List.mem_cons.mp h with rfl | h
      · exact .inr rfl
      · exact .inl h
    · rcases List.mem_cons.mp h with rfl | h
      · exact .inr h2.symm
      · exact .inl (List.mem_cons_of_mem _ h)
    · rcases List.mem_cons.mp h with rfl | h
      · exact .inl List.mem_cons_self
      · rcases ih h with h | h
        · exact .inl (List.mem_cons_of_mem _ h)
        · exact .inr h

theorem mem_storeCells {bs : List Byte} {l : List Host.Cell} {x : Nat} {e : Host.Cell} (h : e ∈ storeCells l x bs) :
    e ∈ l ∨ x ≤ e.1 ∧ e.1 < x + bs.length := by
  induction bs generalizing l x with
  | nil => exact .inl h
  | cons v vs ih =>
    rcases ih h with h | h
    · rcases mem_storeCell h with h | h
      · exact .inl h
      · exact .inr ⟨by omega, by simp only [List.length_cons]; omega⟩
    · exact .inr ⟨by omega, by simp only [List.length_cons]; omega⟩

/-- Only the cells and the parameters matter. -/
theorem State.bounded.congr {s t : State} (h : s.bounded) (hm : t.mem = s.mem) (hc : t.cfg = s.cfg) : t.bounded := by
  intro sp e he
  rw [hm] at he
  have := h sp e he
  cases sp <;> simpa [State.capacity, hc] using this

theorem State.bounded.stored {s : State} (h : s.bounded) {sp : Space} {off : Nat} {bs : List Byte}
    (hb : bs = [] ∨ off + bs.length ≤ s.capacity sp) : (s.stored sp off bs).bounded := by
  intro sp' e he
  have hcap : (s.stored sp off bs).capacity sp' = s.capacity sp' := by cases sp' <;> rfl
  rw [hcap]
  by_cases hs : sp' = sp
  · subst hs
    simp only [State.stored, Memory.cells_setCells_same] at he
    rcases mem_storeCells he with h1 | h1
    · exact h sp' e h1
    · rcases hb with rfl | hb
      · simp at h1; omega
      · omega
  · rw [State.stored_cells_ne s off bs hs] at he
    exact h sp' e he

theorem State.bounded.setOutPort {s : State} (h : s.bounded) {bs : List Byte} (hf : s.outPort.fits bs.length) :
    (s.setOutPort (s.outPort.extend bs)).bounded := by
  have := State.bounded.stored (s := s) (sp := .obuf) (off := s.olen.toNat) (bs := bs) h (.inr hf.1)
  exact this.congr rfl rfl

/-- The basic commands. -/
theorem runOf_bounded_basic {i : Instr} (hi : i ≠ .compress) (hi' : i ≠ .decompress) {s t : State} (hr : Ready s) (hb : s.bounded)
    (h : runOf i s = .ok t) : t.bounded := by
  cases i with
  | nop => cases h; exact hb
  | rewind => cases h; exact hb.congr rfl rfl
  | clrout => cases h; exact hb.congr rfl rfl
  | count => rw [runCount_eq_ok h]; exact hb.congr rfl rfl
  | build => obtain ⟨tr, _, rfl⟩ := runBuild_eq_ok h; exact hb.congr rfl rfl
  | gencodes => obtain ⟨tr, c, _, _, rfl⟩ := runGencodes_eq_ok h; exact hb.congr rfl rfl
  | padcalc => obtain ⟨_, rfl⟩ := runPadcalc_eq_ok h; exact hb.congr rfl rfl
  | serialize =>
    obtain ⟨tr, ht, _, rfl⟩ := runSerialize_eq_ok h
    have hs := (hr.tree_size ht).2.1
    refine (State.bounded.stored (sp := .tpkt) (off := 0) (bs := packetOf tr) hb (.inr ?_)).congr rfl rfl
    rw [packetOf_length]
    show 0 + 6 * tr.size ≤ 6 * s.cfg.nodeCap
    omega
  | deserialize => obtain ⟨tr, _, rfl⟩ := runDeserialize_eq_ok h; exact hb.congr rfl rfl
  | pack =>
    obtain ⟨o, ho, rfl⟩ := runPack_eq_ok h
    rcases packStream_cases s.code s.pad s.icur.toNat s.input s.outPort with ⟨_, _, bs, o', h1, g, _⟩ | ⟨_, _, _, _, h1⟩ | ⟨_, _, h1⟩ | ⟨e, h1, _⟩
    · cases ho.symm.trans h1
      obtain ⟨hf, rfl⟩ := hr.grew g
      exact (hb.setOutPort hf).congr rfl rfl
    · cases ho.symm.trans h1
    · cases ho.symm.trans h1
    · cases ho.symm.trans h1
  | unpack =>
    obtain ⟨root, o, _, ho, rfl⟩ := runUnpack_eq_ok h
    rcases unpackStream_cases root s.pad s.icur.toNat s.input s.outPort with
      ⟨es, o', h1, g, _⟩ | ⟨_, _, h1⟩ | ⟨_, _, _, h1⟩ | ⟨_, _, _, _, _, h1⟩ | ⟨e, h1, _⟩
    · cases ho.symm.trans h1
      obtain ⟨hf, rfl⟩ := hr.grew g
      exact (hb.setOutPort hf).congr rfl rfl
    all_goals cases ho.symm.trans h1
  | frame =>
    obtain ⟨hf, rfl⟩ := runFrame_eq_ok hr h
    exact hb.setOutPort hf
  | unframe =>
    obtain ⟨hd, hh, rfl⟩ := runUnframe_eq_ok h
    obtain ⟨he, hp, _⟩ := hr.unframed hh
    have h1 : (s.setPad hd.pad).bounded := hb.congr rfl rfl
    have h2 := State.bounded.stored (sp := .ext) (off := 0) (bs := hd.ext) h1 (.inr (by simpa [State.capacity] using he))
    have h3 : (((s.setPad hd.pad).stored .ext 0 hd.ext).setExtlen (BitVec.ofNat 32 hd.ext.length)).bounded := h2.congr rfl rfl
    have h4 := State.bounded.stored (sp := .tpkt) (off := 0) (bs := hd.packet) h3 (.inr (by simpa [State.capacity] using hp))
    exact h4.congr rfl rfl
  | compress => exact absurd rfl hi
  | decompress => exact absurd rfl hi'

theorem runAll_bounded {is : List Instr} (hi : ∀ i ∈ is, i ≠ .compress ∧ i ≠ .decompress) {s t : State} (hr : Ready s) (hb : s.bounded)
    (h : runAll (is.map runOf) s = .ok t) : t.bounded := by
  induction is generalizing s with
  | nil => cases h; exact hb
  | cons i rest ih =>
    simp only [List.map_cons, runAll] at h
    split at h
    · cases h
    · rename_i u hu
      have hi' := hi i List.mem_cons_self
      have hru : Ready u := by
        rcases runOf_good hr i with ⟨v, hv, hrv, _⟩ | ⟨c, info, _, he⟩
        · cases hu.symm.trans hv; exact hrv
        · cases hu.symm.trans he
      exact ih (fun j hj => hi j (List.mem_cons_of_mem _ hj)) hru (runOf_bounded_basic hi'.1 hi'.2 hr hb hu) h

/-- A successful run of any command keeps every listed byte within the capacity. -/
theorem runOf_bounded {i : Instr} {s t : State} (hr : Ready s) (hb : s.bounded) (h : runOf i s = .ok t) : t.bounded := by
  by_cases hc : i = .compress
  · subst hc
    exact runAll_bounded (is := [.rewind, .count, .rewind, .build, .gencodes, .padcalc, .serialize, .clrout, .frame, .pack])
      (by decide) hr hb h
  · by_cases hd : i = .decompress
    · subst hd
      exact runAll_bounded (is := [.rewind, .unframe, .deserialize, .clrout, .unpack]) (by decide) hr hb h
    · exact runOf_bounded_basic hc hd hr hb h

/-- An accepted bus write keeps every listed byte within the capacity. -/
theorem Written.bounded {s t : State} {data : Word} (hb : s.bounded) (w : Written s data t) : t.bounded := by
  cases w with
  | softReset =>
    intro sp e he
    cases sp <;> cases he
  | byte hi sp i hsp hlt =>
    intro sp' e he
    have hcap : (s.writeByte sp i (data.setWidth 8)).capacity sp' = s.capacity sp' := by cases sp' <;> rfl
    rw [hcap]
    by_cases hs : sp' = sp
    · subst hs
      simp only [State.writeByte, Memory.cells_setCells_same] at he
      rcases mem_storeCell he with h1 | h1
      · exact hb sp' e h1
      · omega
    · simp only [State.writeByte, Memory.cells_setCells_ne _ _ hs] at he
      exact hb sp' e he
  | _ => exact hb.congr rfl rfl

end Sys2Proof.Machine
end

