-- ==== Sys2Proof/Laws/Merges.lean ====
section
/-! SUPPORT. BUILD as a chain of merges (spec 42_build R162 to R169), and the leaves of a tree as the nodes one can descend to
(43_gencodes R181). -/

namespace Sys2Proof.Machine

open Sys2Proof

/-- A present symbol (10_state R40). -/
theorem mem_symbols_iff (f : FreqTable) (b : Byte) : b ∈ f.symbols ↔ f.at b ≠ 0#32 := by
  simp [FreqTable.present]

/-- Two different present symbols make a list of at least two. -/
theorem two_symbols {f : FreqTable} {a b : Byte} (hab : a ≠ b) (ha : f.at a ≠ 0#32) (hb : f.at b ≠ 0#32) : 2 ≤ f.symbols.length := by
  have : [a, b].Subperm f.symbols := by
    apply List.subperm_of_subset
    · simp [hab]
    · intro c hc
      simp only [List.mem_cons, List.not_mem_nil, or_false] at hc
      rcases hc with rfl | rfl
      · exact (mem_symbols_iff _ _).mpr ha
      · exact (mem_symbols_iff _ _).mpr hb
  exact this.length_le

/-- `mergeOnce` is one merge of 42_build R166. -/
theorem mergeOnce_step (sent : Byte) (k : Nat) {l : List Tree} (h : 2 ≤ l.length) : mergeStep sent k l (mergeOnce sent k l) := by
  match l, h with
  | x :: y :: rest, _ =>
    obtain ⟨be, af, h1, h2, h3, h4⟩ := takeLeast_spec x (y :: rest)
    generalize ht : takeLeast x (y :: rest) = p at h1 h2 h3 h4
    obtain ⟨a, r⟩ := p
    simp only at h1 h2 h3 h4
    have hlen := congrArg List.length h1
    have hr : r.length = rest.length + 1 := by
      rw [h2]; simp only [List.length_cons, List.length_append] at hlen ⊢; omega
    match r, hr with
    | z :: zs, _ =>
      obtain ⟨be', af', g1, g2, g3, g4⟩ := takeLeast_spec z zs
      refine ⟨a, (takeLeast z zs).1, z :: zs, (takeLeast z zs).2, ⟨be, af, h1, h2, h3, h4⟩, ⟨be', af', g1, g2, g3, g4⟩, ?_⟩
      simp only [mergeOnce, ht]
      rfl

/-- The working lists of BUILD, one after the other. -/
def workList (sent : Byte) (k : Nat) (l : List Tree) : Nat → List Tree
  | 0 => l
  | n + 1 => mergeOnce sent (k + n) (workList sent k l n)

theorem workList_succ (sent : Byte) (k : Nat) (l : List Tree) (n : Nat) :
    workList sent k l (n + 1) = workList sent (k + 1) (mergeOnce sent k l) n := by
  induction n with
  | zero => rfl
  | succ n ih =>
    show mergeOnce sent (k + (n + 1)) (workList sent k l (n + 1)) = mergeOnce sent (k + 1 + n) (workList sent (k + 1) (mergeOnce sent k l) n)
    rw [ih, show k + (n + 1) = k + 1 + n by omega]

/-- `n` merges are `n` working lists on. -/
theorem mergeMany_eq_workList (sent : Byte) (n k : Nat) (l : List Tree) : mergeMany sent n k l = workList sent k l n := by
  induction n generalizing k l with
  | zero => rfl
  | succ n ih => rw [mergeMany, ih, workList_succ]

theorem mergeOnce_length (sent : Byte) (k : Nat) {l : List Tree} (h : 2 ≤ l.length) : (mergeOnce sent k l).length + 1 = l.length := by
  obtain ⟨a, b, rest, hp, he⟩ := mergeOnce_spec sent k h
  rw [he, hp.length_eq]; simp

theorem workList_length (sent : Byte) (k : Nat) (l : List Tree) (n : Nat) (h : n + 1 ≤ l.length) : (workList sent k l n).length + n = l.length := by
  induction n with
  | zero => rfl
  | succ n ih =>
    have := ih (by omega)
    have := mergeOnce_length sent (k + n) (l := workList sent k l n) (by omega)
    show (mergeOnce sent (k + n) (workList sent k l n)).length + (n + 1) = _
    omega

/-- The entries of `paths` are the leaves one can descend to. -/
theorem mem_paths_iff (t : Tree) (path : BitString) (b : Byte) (q : BitString) : (b, q) ∈ t.paths path ↔ ∃ p u, q = path ++ p ∧ t.descend p = some u ∧ u.isLeaf = true ∧ u.value = b := by
  have leaf : ∀ k v f p u, (Tree.leaf k v f).descend p = some u → p = [] ∧ u = .leaf k v f := by
    intro k v f p u h
    cases p with
    | nil => cases h; exact ⟨rfl, rfl⟩
    | cons c p => simp [Tree.descend, Tree.child] at h
  induction t generalizing path with
  | leaf k v f =>
    simp only [Tree.paths, List.mem_singleton, Prod.mk.injEq]
    constructor
    · rintro ⟨rfl, rfl⟩; exact ⟨[], _, by simp, rfl, rfl, rfl⟩
    · rintro ⟨p, u, rfl, hd, _, hv⟩
      obtain ⟨rfl, rfl⟩ := leaf k v f p u hd
      exact ⟨hv.symm, by simp⟩
  | rightOnly k v f r ih =>
    rw [Tree.paths]
    refine (ih _).trans ?_
    constructor
    · rintro ⟨p, u, rfl, hd, hl, hv⟩; exact ⟨true :: p, u, by simp, hd, hl, hv⟩
    · rintro ⟨p, u, rfl, hd, hl, hv⟩
      match p, hd with
      | [], hd => cases hd; cases hl
      | true :: p, hd => exact ⟨p, u, by simp, hd, hl, hv⟩
      | false :: p, hd => simp [Tree.descend, Tree.child] at hd
  | leftOnly k v f l ih =>
    rw [Tree.paths]
    refine (ih _).trans ?_
    constructor
    · rintro ⟨p, u, rfl, hd, hl, hv⟩; exact ⟨false :: p, u, by simp, hd, hl, hv⟩
    · rintro ⟨p, u, rfl, hd, hl, hv⟩
      match p, hd with
      | [], hd => cases hd; cases hl
      | false :: p, hd => exact ⟨p, u, by simp, hd, hl, hv⟩
      | true :: p, hd => simp [Tree.descend, Tree.child] at hd
  | both k v f l r ihl ihr =>
    rw [Tree.paths, List.mem_append]
    refine (or_congr (ihl _) (ihr _)).trans ?_
    constructor
    · rintro (⟨p, u, rfl, hd, hl, hv⟩ | ⟨p, u, rfl, hd, hl, hv⟩)
      · exact ⟨false :: p, u, by simp, hd, hl, hv⟩
      · exact ⟨true :: p, u, by simp, hd, hl, hv⟩
    · rintro ⟨p, u, rfl, hd, hl, hv⟩
      match p, hd with
      | [], hd => cases hd; cases hl
      | false :: p, hd => exact .inl ⟨p, u, by simp, hd, hl, hv⟩
      | true :: p, hd => exact .inr ⟨p, u, by simp, hd, hl, hv⟩

/-- The same from the root. -/
theorem mem_paths_nil (t : Tree) (b : Byte) (p : BitString) : (b, p) ∈ t.paths [] ↔ ∃ u, t.descend p = some u ∧ u.isLeaf = true ∧ u.value = b := by
  rw [mem_paths_iff]
  constructor
  · rintro ⟨q, u, rfl, h⟩; exact ⟨u, h⟩
  · rintro ⟨u, h⟩; exact ⟨p, u, rfl, h⟩

end Sys2Proof.Machine
end

