-- ==== Sys2Proof/Laws/Link.lean ====
section
/-! SUPPORT. The faults of DESERIALIZE, cause and FINFO, on lists of records (spec 44_treecodec R203, R206, R207). -/

namespace Sys2Proof.Machine

open Sys2Proof

/-- The first record whose flag is none stops the parse (R203). -/
theorem parseRecords_badFlag (k : Nat) {before after : List TreeRecord} {r : TreeRecord} (hb : ∀ q ∈ before, isFlag q.flag = true)
    (hr : isFlag r.flag = false) : parseRecords k ((before ++ r :: after).flatMap packetRecord) = raise .badFlag (k + before.length) := by
  induction before generalizing k with
  | nil =>
    rw [List.nil_append, List.flatMap_cons, parseRecords_cons, hr]; rfl
  | cons q rest ih =>
    rw [List.cons_append, List.flatMap_cons, parseRecords_cons, hb q List.mem_cons_self, if_pos rfl, ih (k + 1) (fun x hx => hb x (List.mem_cons_of_mem _ hx))]
    simp only [raise, List.length_cons]
    congr 2
    congr 1
    omega

theorem top_rightOnly (k c : Nat) (v : Byte) (f : Word) (r : Tree) :
    ((Tree.rightOnly k v f r).top.l = some c ∨ (Tree.rightOnly k v f r).top.r = some c) ↔ r.index = c := by
  simp [Tree.top, Tree.child]

theorem top_leftOnly (k c : Nat) (v : Byte) (f : Word) (l : Tree) :
    ((Tree.leftOnly k v f l).top.l = some c ∨ (Tree.leftOnly k v f l).top.r = some c) ↔ l.index = c := by
  simp [Tree.top, Tree.child]

theorem top_both (k c : Nat) (v : Byte) (f : Word) (l r : Tree) :
    ((Tree.both k v f l r).top.l = some c ∨ (Tree.both k v f l r).top.r = some c) ↔ l.index = c ∨ r.index = c := by
  simp [Tree.top, Tree.child]

/-- In a tree numbered in pre-order from `k` every child's index lies between. -/
theorem arena_child_range (t : Tree) (k : Nat) {j c : Nat} {n : ArenaNode} (hm : (j, n) ∈ (t.numbered k).arena)
    (hc : n.l = some c ∨ n.r = some c) : k < c ∧ c < k + t.size := by
  induction t generalizing k with
  | leaf i v f =>
    simp only [Tree.numbered, Tree.arena, List.mem_singleton, Prod.mk.injEq] at hm
    obtain ⟨rfl, rfl⟩ := hm
    simp [Tree.top, Tree.child] at hc
  | rightOnly i v f r ih =>
    simp only [Tree.numbered, Tree.arena, List.mem_cons, Prod.mk.injEq] at hm
    simp only [Tree.size]
    have := r.size_pos
    rcases hm with ⟨rfl, rfl⟩ | hm
    · simp [Tree.top, Tree.child] at hc; omega
    · have := ih (k + 1) hm; omega
  | leftOnly i v f l ih =>
    simp only [Tree.numbered, Tree.arena, List.mem_cons, Prod.mk.injEq] at hm
    simp only [Tree.size]
    have := l.size_pos
    rcases hm with ⟨rfl, rfl⟩ | hm
    · simp [Tree.top, Tree.child] at hc; omega
    · have := ih (k + 1) hm; omega
  | both i v f l r ihl ihr =>
    simp only [Tree.numbered, Tree.arena, List.mem_cons, List.mem_append, Prod.mk.injEq] at hm
    simp only [Tree.size]
    have := l.size_pos
    have := r.size_pos
    rcases hm with ⟨rfl, rfl⟩ | hm | hm
    · simp [Tree.top, Tree.child] at hc; omega
    · have := ihl (k + 1) hm; omega
    · have := ihr (k + 1 + l.size) hm; omega

/-- No record left (R206). -/
theorem linkNode_nil (fuel parent k : Nat) : linkNode fuel parent k [] = raise .packetUnderrun parent := by
  cases fuel <;> rfl

/-- On a proper beginning of a tree's records the link phase stops at the parent of the first missing node (R206). -/
theorem linkNode_underrun (t : Tree) {fuel parent k j : Nat} {rs missing : List TreeRecord} {n : ArenaNode} (hf : rs.length ≤ fuel)
    (hr : t.records = rs ++ missing) (hm : missing ≠ []) (hj : (j, n) ∈ (t.numbered k).arena)
    (hc : n.l = some (k + rs.length) ∨ n.r = some (k + rs.length)) : linkNode fuel parent k rs = raise .packetUnderrun j := by
  induction t generalizing fuel parent k rs missing with
  | leaf i v f =>
    have := arena_child_range _ _ hj hc
    simp only [Tree.size] at this
    have h2 := congrArg List.length hr
    have := List.length_pos_iff.mpr hm
    simp [Tree.records] at h2
    omega
  | rightOnly i v f r ih =>
    have hpos := (arena_child_range _ _ hj hc).1
    match rs, fuel, hf with
    | [], _, _ => simp at hpos
    | q :: rs', fuel + 1, hf =>
      simp only [Tree.records, List.cons_append, List.cons.injEq] at hr
      obtain ⟨rfl, hr⟩ := hr
      simp only [List.length_cons] at hc hf
      have go : linkNode fuel k (k + 1) rs' = raise .packetUnderrun j := by
        simp only [Tree.numbered, Tree.arena, List.mem_cons, Prod.mk.injEq] at hj
        rcases hj with ⟨rfl, rfl⟩ | hj
        · rw [top_rightOnly, Tree.numbered_index] at hc
          rw [List.length_eq_zero_iff.mp (by omega : rs'.length = 0), linkNode_nil]
        · exact ih (by omega) hr hm hj (by rw [show k + 1 + rs'.length = k + (rs'.length + 1) by omega]; exact hc)
      simp only [linkNode, go, raise, flagA, flagB]
      simp
  | leftOnly i v f l ih =>
    have hpos := (arena_child_range _ _ hj hc).1
    match rs, fuel, hf with
    | [], _, _ => simp at hpos
    | q :: rs', fuel + 1, hf =>
      simp only [Tree.records, List.cons_append, List.cons.injEq] at hr
      obtain ⟨rfl, hr⟩ := hr
      simp only [List.length_cons] at hc hf
      have go : linkNode fuel k (k + 1) rs' = raise .packetUnderrun j := by
        simp only [Tree.numbered, Tree.arena, List.mem_cons, Prod.mk.injEq] at hj
        rcases hj with ⟨rfl, rfl⟩ | hj
        · rw [top_leftOnly, Tree.numbered_index] at hc
          rw [List.length_eq_zero_iff.mp (by omega : rs'.length = 0), linkNode_nil]
        · exact ih (by omega) hr hm hj (by rw [show k + 1 + rs'.length = k + (rs'.length + 1) by omega]; exact hc)
      simp only [linkNode, go, raise, flagA, flagB, flagC]
      simp
  | both i v f l r ihl ihr =>
    have hpos := (arena_child_range _ _ hj hc).1
    match rs, fuel, hf with
    | [], _, _ => simp at hpos
    | q :: rs', fuel + 1, hf =>
      simp only [Tree.records, List.cons_append, List.cons.injEq] at hr
      obtain ⟨rfl, hr⟩ := hr
      simp only [List.length_cons] at hc hf
      have e : k + (rs'.length + 1) = k + 1 + rs'.length := by omega
      rw [e] at hc
      have hls := l.records_length
      simp only [Tree.numbered, Tree.arena, List.mem_cons, List.mem_append, Prod.mk.injEq] at hj
      by_cases hlt : rs'.length < l.size
      · -- the left subtree is cut short
        obtain ⟨m', hl⟩ : ∃ m', l.records = rs' ++ m' := by
          refine ⟨l.records.drop rs'.length, ?_⟩
          have h1 := congrArg (List.take rs'.length) hr
          rw [List.take_append_of_le_length (by omega), List.take_left] at h1
          conv_lhs => rw [← List.take_append_drop rs'.length l.records, h1]
        have hm' : m' ≠ [] := by
          rintro rfl; rw [List.append_nil] at hl; rw [hl] at hls; omega
        have go : linkNode fuel k (k + 1) rs' = raise .packetUnderrun j := by
          rcases hj with ⟨rfl, rfl⟩ | hj | hj
          · rw [top_both, Tree.numbered_index, Tree.numbered_index] at hc
            rcases hc with hc | hc
            · rw [List.length_eq_zero_iff.mp (by omega : rs'.length = 0), linkNode_nil]
            · omega
          · exact ihl (by omega) hl hm' hj hc
          · have := arena_child_range _ _ hj hc; omega
        simp only [linkNode, go, raise, flagA, flagB, flagC, flagD]
        simp
      · obtain ⟨rs'', hrs⟩ : ∃ rs'', rs' = l.records ++ rs'' := by
          refine ⟨rs'.drop l.size, ?_⟩
          have h1 := congrArg (List.take l.size) hr
          rw [List.take_left' hls, List.take_append_of_le_length (by omega)] at h1
          conv_lhs => rw [← List.take_append_drop l.size rs', ← h1]
        subst hrs
        rw [List.append_assoc] at hr
        have hr := List.append_cancel_left hr
        simp only [List.length_append, hls] at hc hf
        have go1 := linkNode_records l fuel k (k + 1) rs'' (by omega)
        have go : linkNode fuel k (k + 1 + l.size) rs'' = raise .packetUnderrun j := by
          rcases hj with ⟨rfl, rfl⟩ | hj | hj
          · rw [top_both, Tree.numbered_index, Tree.numbered_index] at hc
            have := l.size_pos
            rcases hc with hc | hc
            · omega
            · rw [List.length_eq_zero_iff.mp (by omega : rs''.length = 0), linkNode_nil]
          · have := arena_child_range _ _ hj hc; omega
          · exact ihr (by omega) hr hm hj (by rw [show k + 1 + l.size + rs''.length = k + 1 + (l.size + rs''.length) by omega]; exact hc)
        simp only [linkNode, go1, go, raise, flagA, flagB, flagC, flagD]
        simp

/-- On records with flags only the link phase is left. -/
theorem treeOfPacket_records {rs : List TreeRecord} (hne : rs ≠ []) (h : ∀ r ∈ rs, isFlag r.flag = true) :
    treeOfPacket (rs.flatMap packetRecord) = linkRecords rs := by
  have := List.length_pos_iff.mpr hne
  unfold treeOfPacket
  rw [if_neg (by simp; omega), if_neg (by simp), parseRecords_ok 0 h]

/-- Records after a whole tree (R207). -/
theorem treeOfPacket_trailing (t : Tree) {extra : List TreeRecord} (hne : extra ≠ []) (h : ∀ r ∈ extra, isFlag r.flag = true) :
    treeOfPacket ((t.records ++ extra).flatMap packetRecord) = raise .packetTrailing t.size := by
  rw [treeOfPacket_records (by simp [hne]) (by
    intro r hr
    rcases List.mem_append.mp hr with hr | hr
    · exact t.records_isFlag r hr
    · exact h r hr)]
  unfold linkRecords
  rw [linkNode_records t _ 0 0 extra (by simp)]
  match extra, hne with
  | e :: es, _ => simp

/-- A packet that ends too early (R206). -/
theorem treeOfPacket_underrun {t : Tree} {rs missing : List TreeRecord} {j : Nat} {n : ArenaNode} (hne : rs ≠ []) (hm : missing ≠ [])
    (hr : t.records = rs ++ missing) (hj : (j, n) ∈ (t.numbered 0).arena) (hc : n.l = some rs.length ∨ n.r = some rs.length) :
    treeOfPacket (rs.flatMap packetRecord) = raise .packetUnderrun j := by
  rw [treeOfPacket_records hne (fun r h => t.records_isFlag r (by rw [hr]; simp [h]))]
  unfold linkRecords
  rw [linkNode_underrun t (Nat.le_refl _) hr hm hj (by simpa using hc)]
  rfl

/-- TPLEN bytes. -/
theorem packet_length (s : State) : s.packet.length = s.tplen.toNat := State.bytesFrom_length _ _ _ _

/-- The packet SERIALIZE leaves. -/
theorem packet_setTplen (s : State) {tr : Tree} (h : Ready s) (hsz : tr.size ≤ s.cfg.nodeCap) :
    State.packet ((s.stored .tpkt 0 (packetOf tr)).setTplen (BitVec.ofNat 32 (packetOf tr).length)) = packetOf tr := by
  have hl := h.packetLength hsz
  show State.bytesFrom _ .tpkt 0 (BitVec.ofNat 32 (packetOf tr).length).toNat = _
  rw [hl, ← packetOf_length]
  exact State.stored_bytesFrom s .tpkt 0 (packetOf tr)

end Sys2Proof.Machine
end

