-- ==== Sys2Proof/Laws/PerInstr.lean ====
section
/-! SUPPORT. What holds of every command word, one lemma per command (spec 30_encoding R100, R102): the field `zero` is 0 and the
word lies in the opcode map as WellFormed writes it down. -/

namespace Sys2Proof.Laws.ZeroField

/-- The word of the command has nothing in bits 31:8 and an assigned opcode. -/
def Statement (i : Instr) : Prop := zeroField (encode i) = 0#24 ∧ commandWordLegal (encode i) = true ∧ i.wellFormed = true

theorem nop : Statement .nop := by unfold Statement; decide

theorem rewind : Statement .rewind := by unfold Statement; decide

theorem clrout : Statement .clrout := by unfold Statement; decide

theorem count : Statement .count := by unfold Statement; decide

theorem build : Statement .build := by unfold Statement; decide

theorem gencodes : Statement .gencodes := by unfold Statement; decide

theorem padcalc : Statement .padcalc := by unfold Statement; decide

theorem serialize : Statement .serialize := by unfold Statement; decide

theorem deserialize : Statement .deserialize := by unfold Statement; decide

theorem pack : Statement .pack := by unfold Statement; decide

theorem unpack : Statement .unpack := by unfold Statement; decide

theorem frame : Statement .frame := by unfold Statement; decide

theorem unframe : Statement .unframe := by unfold Statement; decide

theorem compress : Statement .compress := by unfold Statement; decide

theorem decompress : Statement .decompress := by unfold Statement; decide

end Sys2Proof.Laws.ZeroField
end

