-- ==== Sys2Proof/Laws/Streams.lean ====
section
/-! SUPPORT. The faults of PACK and UNPACK, cause and FINFO, as functions of the bits (spec 46_pack R232 to R234, 47_unpack R241 to R246,
20_memory R72). -/

namespace Sys2Proof.Machine

open Sys2Proof

/-! ### PACK -/

/-- Packing two parts one after the other. -/
theorem packBytes_append (c : CodeTable) (i : Nat) (as bs : List Byte) (buf : BitString) (o : OutPort) : packBytes c i (as ++ bs) buf o
    = match packBytes c i as buf o with
      | .error e => .error e
      | .ok (buf', o') => packBytes c (i + as.length) bs buf' o' := by
  induction as generalizing i buf o with
  | nil => rfl
  | cons v vs ih =>
    simp only [List.cons_append, packBytes]
    cases c.at v with
    | none => rfl
    | some bits =>
      simp only []
      cases drain (buf ++ bits) o with
      | error e => rfl
      | ok p =>
        simp only [ih]
        rw [show i + 1 + vs.length = i + (v :: vs).length by simp; omega]

/-- The first byte without a code (46_pack R232), with room for the bytes due before it. -/
theorem packStream_noCode {c : CodeTable} {pad : BitVec 3} {i : Nat} {before after : List Byte} {v : Byte} {o : OutPort}
    (hb : codedAll c before) (hv : c.at v = none) (h : o.fits ((codeBits c before).length / 8)) :
    packStream c pad i (before ++ v :: after) o = raise .noCode (i + before.length) := by
  obtain ⟨bs, rest, h1, _⟩ := packBytes_ok (i := i) (buf := []) hb (by simpa using h) (by simp)
  unfold packStream
  rw [packBytes_append, h1]
  simp only [packBytes, hv]
  rfl

/-- A PAD that does not fit the bits left over (R234). -/
theorem packStream_padMismatch {c : CodeTable} {pad : BitVec 3} {i : Nat} {bytes : List Byte} {o : OutPort}
    (hb : codedAll c bytes) (hp : pad.toNat ≠ paddingOf (codeBits c bytes).length) (h : o.fits ((codeBits c bytes).length / 8)) :
    packStream c pad i bytes o = raise .padMismatch ((codeBits c bytes).length % 8) := by
  obtain ⟨bs, rest, h1, h2, h3⟩ := packBytes_ok (i := i) (buf := []) hb (by simpa using h) (by simp)
  have hl := congrArg List.length h2
  simp only [List.length_append, bitsOf_length, List.length_nil, Nat.zero_add] at hl
  have hr : rest.length = (codeBits c bytes).length % 8 := by omega
  unfold packStream
  rw [h1]
  simp only [packFinal]
  rw [if_pos (by unfold paddingOf at hp; rw [hr]; omega), hr]

/-- No room for the whole bytes of a coded beginning (20_memory R72). -/
theorem packStream_overflow {c : CodeTable} {pad : BitVec 3} {i : Nat} {before after : List Byte} {o : OutPort} (hc : o.cap ≤ 2 ^ 25)
    (hl : o.len.toNat ≤ o.cap) (hb : codedAll c before) (h : ¬ o.len.toNat + (codeBits c before).length / 8 ≤ o.cap) :
    ∃ e, packStream c pad i (before ++ after) o = .error e ∧ o.Overflows e := by
  rcases packBytes_cases c i before [] o with ⟨_, bs, rest, o', _, g, h2, h3⟩ | ⟨j, hj, hn, _⟩ | ⟨e, h1, ho⟩
  · exfalso
    have hf := (g.eq_extend hc hl).1.1
    have hl := congrArg List.length h2
    have := h3 (by simp)
    simp only [List.length_append, bitsOf_length, List.length_nil, Nat.zero_add] at hl
    omega
  · exfalso
    have := hb _ (List.getElem_mem hj)
    simp [CodeTable.valid, hn] at this
  · refine ⟨e, ?_, ho⟩
    unfold packStream
    rw [packBytes_append, h1]

/-- No room for the final byte. -/
theorem packStream_overflow_all {c : CodeTable} {pad : BitVec 3} {i : Nat} {bytes : List Byte} {o : OutPort} (hc : o.cap ≤ 2 ^ 25)
    (hl : o.len.toNat ≤ o.cap) (hb : codedAll c bytes) (hp : pad.toNat = paddingOf (codeBits c bytes).length)
    (h : ¬ o.len.toNat + ((codeBits c bytes).length + 7) / 8 ≤ o.cap) : ∃ e, packStream c pad i bytes o = .error e ∧ o.Overflows e := by
  rcases packStream_cases c pad i bytes o with ⟨_, _, bs, o', _, g, h2⟩ | ⟨j, hj, hn, _⟩ | ⟨_, hp', _⟩ | h1
  · exfalso
    have hf := (g.eq_extend hc hl).1.1
    have hl := congrArg List.length h2
    simp only [List.length_append, bitsOf_length, List.length_replicate] at hl
    have := payload_up (codeBits c bytes).length
    omega
  · exfalso
    have := hb _ (List.getElem_mem hj)
    simp [CodeTable.valid, hn] at this
  · exact absurd hp hp'
  · exact h1

/-! ### UNPACK -/

/-- The bits of two parts one after the other. -/
theorem unpackBits_append (root : Tree) (off : Nat) (as bs : BitString) (cur : Cursor) (o : OutPort) :
    unpackBits root off (as ++ bs) cur o = match unpackBits root off as cur o with
      | .error e => .error e
      | .ok (cur', o') => unpackBits root off bs cur' o' := by
  induction as generalizing cur o with
  | nil => rfl
  | cons c cs ih =>
    simp only [List.cons_append, unpackBits]
    cases (cur.getD root).child c with
    | none => rfl
    | some t =>
      simp only []
      split_ifs
      · cases emit t.value o with
        | error e => rfl
        | ok o' => exact ih none o'
      · exact ih (some t) o

/-- At most 8 bits a byte, and 8 for all but the last (47_unpack R241). -/
theorem payloadBits_length (pad : Nat) (b : Byte) (final : Bool) : (payloadBits pad b final).length ≤ 8 ∧ (final = false → (payloadBits pad b final).length = 8) := by
  unfold payloadBits
  split_ifs with h <;> simp [h]

/-- Two ways to write one list: the cut of the first lies at or before the place of `c`, or `c` is in the first part. -/
theorem append_cut {B L pre post : BitString} {c : Bool} (h : B ++ L = pre ++ c :: post) :
    (∃ B', B = pre ++ c :: B') ∨ ∃ pre', pre = B ++ pre' ∧ L = pre' ++ c :: post := by
  rcases List.append_eq_append_iff.mp h with ⟨a, h1, h2⟩ | ⟨a, h1, h2⟩
  · exact .inr ⟨a, h1, h2⟩
  · cases a with
    | nil => exact .inr ⟨[], by simpa using h1.symm, by simpa using h2.symm⟩
    | cons x a =>
      simp only [List.cons_append, List.cons.injEq] at h2
      obtain ⟨rfl, _⟩ := h2
      exact .inl ⟨a, h1⟩

/-- The walk over two parts. -/
theorem walkBits_split {root : Tree} {as bs : BitString} {cur cur' : Cursor} {out : List Byte} (h : walkBits root (as ++ bs) cur = some (out, cur')) :
    ∃ out1 cur1 out2, walkBits root as cur = some (out1, cur1) ∧ walkBits root bs cur1 = some (out2, cur') ∧ out = out1 ++ out2 := by
  rw [walkBits_append] at h
  obtain ⟨⟨out1, cur1⟩, hw1, h⟩ := Option.bind_eq_some_iff.mp h
  obtain ⟨⟨out2, cur2⟩, hw2, he⟩ := Option.map_eq_some_iff.mp h
  simp only [Prod.mk.injEq] at he
  obtain ⟨rfl, rfl⟩ := he
  exact ⟨out1, cur1, out2, hw1, hw2, rfl⟩

/-- A bit without a child is reported at its byte (R244). -/
theorem unpackBytes_absent {root : Tree} {pad off : Nat} {bytes : List Byte} {cur cur' : Cursor} {o : OutPort} {out : List Byte} {pre post : BitString} {c : Bool}
    (hb : loopBits pad bytes = pre ++ c :: post) (hw : walkBits root pre cur = some (out, cur')) (hc : (cur'.getD root).child c = none)
    (h : o.fits out.length) : unpackBytes root pad off bytes cur o = raise .absentChild (off + pre.length / 8) := by
  induction bytes generalizing off cur o out pre with
  | nil => simp [loopBits] at hb
  | cons b bs ih =>
    simp only [loopBits] at hb
    obtain ⟨hl8, hl⟩ := payloadBits_length pad b bs.isEmpty
    generalize hB : payloadBits pad b bs.isEmpty = B at hb hl8 hl
    rcases append_cut hb with ⟨B', rfl⟩ | ⟨pre', rfl, hb'⟩
    · have hbit : unpackBits root off (pre ++ c :: B') cur o = raise .absentChild off := by
        rw [unpackBits_append, unpackBits_ok hw h]
        simp only [unpackBits, hc]
      simp only [unpackBytes, hB, hbit]
      simp only [List.length_append, List.length_cons] at hl8
      rw [Nat.div_eq_of_lt (by omega)]
      rfl
    · have hne : bs ≠ [] := by rintro rfl; simp [loopBits] at hb'
      have h8 : B.length = 8 := hl (by simpa using hne)
      obtain ⟨out1, cur1, out2, hw1, hw2, rfl⟩ := walkBits_split hw
      simp only [List.length_append] at h
      have := ih (off := off + 1) (o := o.extend out1) hb' hw2 (OutPort.fits_extend h)
      simp only [unpackBytes, hB, unpackBits_ok hw1 (OutPort.fits_mono h (Nat.le_add_right _ _)), this]
      rw [List.length_append, h8, show (8 + pre'.length) / 8 = pre'.length / 8 + 1 by omega]
      congr 1
      omega

/-- More symbols than there is room for (20_memory R72). -/
theorem unpackBytes_overflow {root : Tree} {pad off : Nat} {bytes : List Byte} {cur cur' : Cursor} {o : OutPort} {out : List Byte} {pre post : BitString}
    (hb : loopBits pad bytes = pre ++ post) (hw : walkBits root pre cur = some (out, cur')) (hcap : o.cap ≤ 2 ^ 25) (hlen : o.len.toNat ≤ o.cap)
    (h : ¬ o.len.toNat + out.length ≤ o.cap) : ∃ e, unpackBytes root pad off bytes cur o = .error e ∧ o.Overflows e := by
  have bit : ∀ (o : OutPort) (off : Nat) (bits rest : BitString) (cur cur' : Cursor) (out : List Byte), o.cap ≤ 2 ^ 25 → o.len.toNat ≤ o.cap → walkBits root bits cur = some (out, cur') →
      ¬ o.len.toNat + out.length ≤ o.cap → ∃ e, unpackBits root off (bits ++ rest) cur o = .error e ∧ o.Overflows e := by
    intro o off bits rest cur cur' out hcap hlen hw h
    rcases unpackBits_cases root off bits cur o with ⟨out', cur2, o', h1, h2, g⟩ | ⟨h1, _⟩ | ⟨e, h1, ho⟩
    · cases hw.symm.trans h1
      exact absurd (g.eq_extend hcap hlen).1.1 h
    · rw [hw] at h1; cases h1
    · exact ⟨e, by rw [unpackBits_append, h1], ho⟩
  induction bytes generalizing off cur o out pre with
  | nil =>
    simp only [loopBits] at hb
    obtain ⟨rfl, rfl⟩ := List.append_eq_nil_iff.mp hb.symm
    cases hw
    simp at h; omega
  | cons b bs ih =>
    simp only [loopBits] at hb
    generalize hB : payloadBits pad b bs.isEmpty = B at hb
    rcases List.append_eq_append_iff.mp hb with ⟨pre', rfl, hb'⟩ | ⟨post', rfl, _⟩
    · obtain ⟨out1, cur1, out2, hw1, hw2, rfl⟩ := walkBits_split hw
      by_cases h1 : o.len.toNat + out1.length ≤ o.cap
      · have hf : o.fits out1.length := ⟨h1, hcap⟩
        have hl := OutPort.extend_len hf
        simp only [List.length_append] at h
        obtain ⟨e, he, ho⟩ := ih (off := off + 1) (o := o.extend out1) hb' hw2 hcap (by rw [hl]; exact h1) (by rw [hl]; show ¬ _ ≤ o.cap; omega)
        refine ⟨e, ?_, OutPort.Overflows.grew (OutPort.grew_of_fits hf) ho⟩
        simp only [unpackBytes, hB, unpackBits_ok hw1 hf, he]
      · obtain ⟨e, he, ho⟩ := bit o off B [] cur cur1 out1 hcap hlen hw1 h1
        rw [List.append_nil] at he
        exact ⟨e, by simp only [unpackBytes, hB, he], ho⟩
    · obtain ⟨e, he, ho⟩ := bit o off pre post' cur cur' out hcap hlen hw h
      exact ⟨e, by simp only [unpackBytes, hB, he], ho⟩

/-- Along a path to an internal node nothing is emitted. -/
theorem walkBits_descend {root : Tree} {p : BitString} {t w : Tree} {cur : Cursor} (hcur : cur.getD root = t) (hd : t.descend p = some w)
    (hp : p ≠ []) (hw : w.isLeaf = false) : walkBits root p cur = some ([], some w) := by
  induction p generalizing t cur with
  | nil => exact absurd rfl hp
  | cons c p ih =>
    simp only [Tree.descend] at hd
    obtain ⟨u, hc, hd⟩ := Option.bind_eq_some_iff.mp hd
    simp only [walkBits, hcur, hc]
    have hul : u.isLeaf = false := by
      cases p with
      | nil => cases hd; exact hw
      | cons c' p =>
        simp only [Tree.descend] at hd
        obtain ⟨u', hc', _⟩ := Option.bind_eq_some_iff.mp hd
        cases u <;> first | rfl | (simp [Tree.child] at hc')
    rw [if_neg (by simp [hul])]
    cases p with
    | nil => cases hd; rfl
    | cons c' p => exact ih rfl hd (by simp)

/-- The walk over the paths of symbols (of none, when the root is a leaf). -/
theorem walkBits_symbols {root : Tree} {es : List (Byte × BitString)} (hes : ∀ e ∈ es, e ∈ root.paths []) (hroot : root.isLeaf = true → es = []) :
    walkBits root (es.flatMap Prod.snd) none = some (es.map Prod.fst, none) := by
  cases hl : root.isLeaf with
  | true => rw [hroot hl]; rfl
  | false => exact walkBits_paths hl hes

theorem loopBits_payload (pad : BitVec 3) (bytes : List Byte) : loopBits pad.toNat bytes = payload pad.toNat bytes :=
  loopBits_eq _ pad.isLt _

theorem payload_nil (pad : Nat) : payload pad [] = [] := by simp [payload]

/-- A payload of whole symbols (R242), also for a root that is a leaf. -/
theorem unpackStream_symbols {root : Tree} {pad : BitVec 3} {off : Nat} {bytes : List Byte} {o : OutPort} {es : List (Byte × BitString)}
    (hes : ∀ e ∈ es, e ∈ root.paths []) (hroot : root.isLeaf = true → es = []) (hpad : bytes = [] → pad = 0#3)
    (hbits : payload pad.toNat bytes = es.flatMap Prod.snd) (h : o.fits es.length) :
    unpackStream root pad off bytes o = .ok (o.extend (es.map Prod.fst)) := by
  unfold unpackStream
  rw [if_neg (fun x => x.2 (hpad x.1)), unpackBytes_ok (out := es.map Prod.fst) (cur' := none) (by rw [loopBits_payload, hbits]; exact walkBits_symbols hes hroot) (by simpa using h)]

/-- A missing child (R244). -/
theorem unpackStream_absent {root : Tree} {pad : BitVec 3} {off : Nat} {bytes : List Byte} {o : OutPort} {es : List (Byte × BitString)} {p after : BitString} {w : Tree} {c : Bool}
    (hes : ∀ e ∈ es, e ∈ root.paths []) (hroot : root.isLeaf = true → es = []) (hd : root.descend p = some w) (hc : w.child c = none)
    (hw : w.isLeaf = true → p = []) (hbits : payload pad.toNat bytes = es.flatMap Prod.snd ++ p ++ c :: after) (h : o.fits es.length) :
    unpackStream root pad off bytes o = raise .absentChild (off + (es.flatMap Prod.snd ++ p).length / 8) := by
  have hne : bytes ≠ [] := by rintro rfl; rw [payload_nil] at hbits; simp at hbits
  obtain ⟨cur', hwalk, hcur⟩ : ∃ cur', walkBits root (es.flatMap Prod.snd ++ p) none = some (es.map Prod.fst, cur') ∧ cur'.getD root = w := by
    by_cases hp : p = []
    · subst hp
      cases hd
      exact ⟨none, by rw [List.append_nil]; exact walkBits_symbols hes hroot, rfl⟩
    · have hwl : w.isLeaf = false := by cases hx : w.isLeaf with
        | true => exact absurd (hw hx) hp
        | false => rfl
      refine ⟨some w, ?_, rfl⟩
      rw [walkBits_append, walkBits_symbols hes hroot]
      simp only [Option.bind_some, walkBits_descend (cur := none) rfl hd hp hwl, Option.map_some, List.append_nil]
  unfold unpackStream
  rw [if_neg (fun x => hne x.1), unpackBytes_absent (by rw [loopBits_payload]; exact hbits) hwalk (by rw [hcur]; exact hc) (by simpa using h)]
  rfl

/-- Bits that end inside the tree (R245). -/
theorem unpackStream_truncated {root : Tree} {pad : BitVec 3} {off : Nat} {bytes : List Byte} {o : OutPort} {es : List (Byte × BitString)} {p : BitString} {w : Tree}
    (hes : ∀ e ∈ es, e ∈ root.paths []) (hroot : root.isLeaf = true → es = []) (hd : root.descend p = some w) (hp : p ≠ [])
    (hw : w.isLeaf = false) (hbits : payload pad.toNat bytes = es.flatMap Prod.snd ++ p) (h : o.fits es.length) :
    unpackStream root pad off bytes o = raise .truncatedStream (o.len.toNat + es.length) := by
  have hne : bytes ≠ [] := by rintro rfl; rw [payload_nil] at hbits; simp [hp] at hbits
  have hwalk : walkBits root (es.flatMap Prod.snd ++ p) none = some (es.map Prod.fst, some w) := by
    rw [walkBits_append, walkBits_symbols hes hroot]
    simp only [Option.bind_some, walkBits_descend (cur := none) rfl hd hp hw, Option.map_some, List.append_nil]
  have hf : o.fits (es.map Prod.fst).length := by simpa using h
  unfold unpackStream
  rw [if_neg (fun x => hne x.1), unpackBytes_ok (by rw [loopBits_payload, hbits]; exact hwalk) hf]
  simp only [OutPort.extend_len hf, List.length_map]

/-- More symbols than there is room for (20_memory R72). -/
theorem unpackStream_overflow {root : Tree} {pad : BitVec 3} {off : Nat} {bytes : List Byte} {o : OutPort} {es : List (Byte × BitString)} {after : BitString}
    (hes : ∀ e ∈ es, e ∈ root.paths []) (hroot : root.isLeaf = false) (hbits : payload pad.toNat bytes = es.flatMap Prod.snd ++ after)
    (hcap : o.cap ≤ 2 ^ 25) (hlen : o.len.toNat ≤ o.cap) (h : ¬ o.len.toNat + es.length ≤ o.cap) :
    ∃ e, unpackStream root pad off bytes o = .error e ∧ o.Overflows e := by
  have hne : bytes ≠ [] := by
    rintro rfl
    rw [payload_nil] at hbits
    have : es = [] := by
      cases es with
      | nil => rfl
      | cons e es =>
        have := Tree.paths_ne_nil hroot e (hes e List.mem_cons_self)
        have h2 := congrArg List.length hbits
        simp at h2
        omega
    subst this
    simp at h; omega
  obtain ⟨e, h1, h2⟩ := unpackBytes_overflow (root := root) (pad := pad.toNat) (off := off) (bytes := bytes) (cur := none) (o := o) (by rw [loopBits_payload]; exact hbits)
    (walkBits_paths hroot hes) hcap hlen (by simpa using h)
  refine ⟨e, ?_, h2⟩
  unfold unpackStream
  rw [if_neg (fun x => hne x.1), h1]

end Sys2Proof.Machine
end

