-- ==== Sys2Proof/Laws/Views.lean ====
section
/-! SUPPORT. What is read off a state through streams and buffers is the same after the end of a command, and what an extension of
the output stream and an UNFRAME make of it. -/

namespace Sys2Proof.Machine

@[simp] theorem State.complete_readByte (s : State) (sp : Space) (a : Nat) : s.complete.readByte sp a = s.readByte sp a := rfl
@[simp] theorem State.complete_capacity (s : State) (sp : Space) : s.complete.capacity sp = s.capacity sp := rfl
@[simp] theorem State.complete_input (s : State) : s.complete.input = s.input := rfl
@[simp] theorem State.complete_stream (s : State) : s.complete.stream = s.stream := rfl
@[simp] theorem State.complete_output (s : State) : s.complete.output = s.output := rfl
@[simp] theorem State.complete_packet (s : State) : s.complete.packet = s.packet := rfl
@[simp] theorem State.complete_extension (s : State) : s.complete.extension = s.extension := rfl
@[simp] theorem State.complete_outPort (s : State) : s.complete.outPort = s.outPort := rfl

/-- The output after an extension of the output stream. -/
theorem output_extend {s : State} {bs : List Byte} (hf : s.outPort.fits bs.length) :
    (s.setOutPort (s.outPort.extend bs)).output = s.output ++ bs
      ∧ (s.setOutPort (s.outPort.extend bs)).olen.toNat = s.olen.toNat + bs.length :=
  ⟨bytesFrom_setOutPort s bs hf, OutPort.extend_len hf⟩

theorem State.output_nil {s : State} (h : s.olen = 0#32) : s.output = [] := by
  apply List.eq_nil_of_length_eq_zero
  rw [State.output, State.bytesFrom_length, h]; rfl

theorem State.input_nil {s : State} (h : s.ilen.toNat ≤ s.icur.toNat) : s.input = [] := by
  apply List.eq_nil_of_length_eq_zero
  rw [State.input_length, State.inputLeft]; omega

/-- The lengths that UNFRAME leaves. -/
theorem Ready.unframed_lengths {s : State} (h : Ready s) {hd : Header} (hr : Machine.readHeader s = .ok hd) :
    (s.unframed hd).extlen.toNat = hd.ext.length ∧ (s.unframed hd).tplen.toNat = hd.packet.length
      ∧ (s.unframed hd).icur.toNat = s.icur.toNat + (12 + hd.ext.length + hd.packet.length)
      ∧ (s.unframed hd).extension = hd.ext ∧ (s.unframed hd).packet = hd.packet := by
  obtain ⟨he, hp, hpos, ⟨rest, hin⟩, _⟩ := h.unframed hr
  have hb := h.bounds
  have hp' : hd.packet.length < 2 ^ 32 := by unfold Config.tpktCap at hp; omega
  have he' : hd.ext.length < 2 ^ 32 := by omega
  have hlen := congrArg List.length hin
  rw [State.input_length, List.length_append, containerHeader_length, State.inputLeft] at hlen
  have hi := h.ilen
  have hi' := h.icur
  rw [State.unframed_extlen, State.unframed_tplen, State.unframed_icur, hpos, BitVec.toNat_ofNat, BitVec.toNat_ofNat,
    BitVec.toNat_ofNat, Nat.mod_eq_of_lt he', Nat.mod_eq_of_lt hp', Nat.mod_eq_of_lt (by omega)]
  exact ⟨rfl, rfl, rfl, State.unframed_extension s hd he', State.unframed_packet s hd hp'⟩

end Sys2Proof.Machine
end

