-- ==== Sys2Proof/Tests/Slice0.lean ====
section
/-! SUPPORT. Tests whose expected results are the spec's own (95_test_vectors, and the encodings and tables of the rules named), and,
for every statement with hypotheses, a named state that meets them. -/

namespace Sys2Proof.Tests

open Machine

set_option Elab.async false

/-! ### Well-formedness: each range of 00_scope R7 is checked -/

theorem test_config_defaults : Config.wf {} = true := by decide
theorem test_config_ibuf_zero : Config.wf { ibufCap := 0 } = false := by decide
theorem test_config_ibuf_large : Config.wf { ibufCap := 2 ^ 24 + 1 } = false := by decide
theorem test_config_obuf_zero : Config.wf { obufCap := 0 } = false := by decide
theorem test_config_obuf_large : Config.wf { obufCap := 2 ^ 25 + 1 } = false := by decide
theorem test_config_ext_large : Config.wf { extCap := 257 } = false := by decide
theorem test_config_node_small : Config.wf { nodeCap := 510 } = false := by decide
theorem test_config_node_large : Config.wf { nodeCap := 2049 } = false := by decide
theorem test_config_base_unaligned : Config.wf { base := 2 ^ 25 } = false := by decide
theorem test_word_zero_field : commandWordLegal 0x00000120#32 = false := by decide
theorem test_word_unused_opcode : commandWordLegal 0x00000003#32 = false := by decide
theorem test_instr_wellFormed : Instr.wellFormed .compress = true := by decide

/-! ### Decoding: words written from the opcode map (30_encoding R104) -/

theorem test_decode_control : decode 0x00000000#32 = .ok .nop ∧ decode 0x00000001#32 = .ok .rewind
    ∧ decode 0x00000002#32 = .ok .clrout := by decide
theorem test_decode_tables : decode 0x00000010#32 = .ok .count ∧ decode 0x00000011#32 = .ok .build
    ∧ decode 0x00000012#32 = .ok .gencodes ∧ decode 0x00000013#32 = .ok .padcalc := by decide
theorem test_decode_codec : decode 0x00000014#32 = .ok .serialize ∧ decode 0x00000015#32 = .ok .deserialize := by decide
theorem test_decode_streams : decode 0x00000016#32 = .ok .pack ∧ decode 0x00000017#32 = .ok .unpack
    ∧ decode 0x00000018#32 = .ok .frame ∧ decode 0x00000019#32 = .ok .unframe := by decide
theorem test_decode_composite : decode 0x00000020#32 = .ok .compress ∧ decode 0x00000021#32 = .ok .decompress := by decide
theorem test_decode_unused : decode 0x00000003#32 = .error (.unusedOpcode 0x03#8)
    ∧ decode 0x0000001A#32 = .error (.unusedOpcode 0x1A#8) ∧ decode 0x00000022#32 = .error (.unusedOpcode 0x22#8) := by decide
theorem test_decode_zero_field : decode 0x00000120#32 = .error (.zeroFieldSet 0x00000120#32)
    ∧ decode 0x80000010#32 = .error (.zeroFieldSet 0x80000010#32) := by decide
theorem test_decodeTableWord : decodeTableWord 32 0x19 = some .unframe ∧ decodeTableWord 8 0x21 = some .decompress
    ∧ decodeTableWord 32 0x119 = none := by decide

/-! ### Small states -/

/-- A state with an input stream. -/
def withInput (s : State) (bs : List Byte) : State :=
  { s with mem := { s.mem with ibuf := storeCells [] 0 bs }, ilen := BitVec.ofNat 32 bs.length, icur := 0#32 }

/-- A state with a tree packet. -/
def withPacket (s : State) (bs : List Byte) : State :=
  { s with mem := { s.mem with tpkt := storeCells [] 0 bs }, tplen := BitVec.ofNat 32 bs.length }

/-- A state with extension bytes. -/
def withExtension (s : State) (bs : List Byte) : State :=
  { s with mem := { s.mem with ext := storeCells [] 0 bs }, extlen := BitVec.ofNat 32 bs.length }

/-- The state after a command, when the step goes on. -/
def after (i : Instr) (s : State) : State :=
  match exec i s with
  | .next t => t
  | .fault _ => s
  | .refused _ => s

/-- The input "abracadabra" of 95_test_vectors. -/
def abra : List Byte := [0x61, 0x62, 0x72, 0x61, 0x63, 0x61, 0x64, 0x61, 0x62, 0x72, 0x61]

def abraState : State := withInput State.reset abra

/-- A frequency table of few symbols. -/
def counts (l : List (Byte × Word)) : FreqTable := l.foldl (fun t p => t.put p.1 p.2) FreqTable.empty

/-- A code table of few symbols. -/
def codes (l : List (Byte × BitString)) : CodeTable := l.foldl (fun t p => t.put p.1 (some p.2)) CodeTable.empty

/-- The tree of V-B10. -/
def abraTree : Tree := .both 8 0 11 (.leaf 0 0x61 5)
  (.both 7 0 6 (.both 5 0 2 (.leaf 2 0x63 1) (.leaf 3 0x64 1)) (.both 6 0 4 (.leaf 1 0x62 2) (.leaf 4 0x72 2)))

/-- The codes of V-G2. -/
def abraCodes : CodeTable := codes [(0x61, [false]), (0x63, [true, false, false]), (0x64, [true, false, true]),
  (0x62, [true, true, false]), (0x72, [true, true, true])]

/-- "abracadabra" unread, with its counts, tree and codes (V-N1, V-B10, V-G2). -/
def coded : State :=
  { abraState with
    freq := counts [(0x61, 5), (0x62, 2), (0x63, 1), (0x64, 1), (0x72, 2)], tree := some abraTree, root := 8, ncount := 9#32, code := abraCodes }

/-- "AAAAA" unread, with its counts, tree and code (V-N6, V-B2, V-G3). -/
def single : State :=
  { withInput State.reset [0x41, 0x41, 0x41, 0x41, 0x41] with
    freq := counts [(0x41, 5)], tree := some (.leftOnly 1 0 0 (.leaf 0 0x41 5)), root := 1, ncount := 2#32, code := codes [(0x41, [false])] }

/-- What a fault leaves that is specified: FAULT, TREE, the code, FINFO. -/
def faultOf (s : State) : Bool × Bool × Byte × Word := (s.fault, s.treeFlag, s.fcode, s.finfo)

/-! ### One step of each command -/

theorem test_nop : (after .nop State.reset).statusWord = 0x2#32 := by decide +kernel

theorem test_rewind : (after .rewind { abraState with icur := 11#32 }).icur = 0#32 := by decide +kernel

theorem test_clrout : (after .clrout { State.reset with olen := 3#32 }).olen = 0#32
    ∧ (after .clrout { State.reset with olen := 3#32 }).busRead 0x2000000 1 = none := by decide +kernel

/-- V-N1. -/
theorem test_count : (after .count abraState).freq.at 0x61 = 5#32 ∧ (after .count abraState).freq.at 0x72 = 2#32
    ∧ (after .count abraState).freq.at 0x65 = 0#32 ∧ (after .count abraState).icur = 11#32
    ∧ (after .count abraState).busRead 0x584 4 = some 5#32 := by decide +kernel

/-- V-N3, V-N4. -/
theorem test_count_rest : (after .count { abraState with icur := 9#32 }).freq.at 0x61 = 1#32
    ∧ (after .count { after .count abraState with icur := 11#32 }).freq.at 0x61 = 0#32 := by decide +kernel

/-- V-B10. -/
theorem test_build : (after .build { coded with tree := none }).tree = some abraTree := by decide +kernel

/-- V-B0. -/
theorem test_build_empty : faultOf (after .build State.reset) = (true, false, 0x12#8, 0#32) := by decide +kernel

/-- V-G2. -/
theorem test_gencodes : (after .gencodes { coded with code := CodeTable.empty }).code.at 0x64 = some [true, false, true]
    ∧ (after .gencodes { coded with code := codes [(0x65, [true])] }).code.at 0x65 = none ∧ coded.busRead 0x5904 4 = some 0xA0000000#32 := by decide +kernel

/-- V-G4, V-G5. -/
theorem test_gencodes_faults : faultOf (after .gencodes State.reset) = (true, false, 0x15#8, 2#32)
    ∧ faultOf (after .gencodes (after .deserialize (withPacket State.reset [0x41, 0, 0, 0, 2, 0x41])))
      = (true, false, 0x25#8, 0x41#32) := by decide +kernel

/-- V-D2. -/
theorem test_padcalc : (after .padcalc coded).totbits = 23#40 := by decide +kernel

/-- V-D7. -/
theorem test_padcalc_mismatch : faultOf (after .padcalc { coded with code := CodeTable.empty }) = (true, false, 0x28#8, 0x61#32) := by
  decide +kernel

/-- V-T2, the single symbol. -/
theorem test_serialize : (after .serialize single).packet = [0, 0, 0, 0, 0, 0x43, 0x41, 0, 0, 0, 5, 0x41] := by decide +kernel

/-- V-T16, V-T14. -/
theorem test_serialize_faults : faultOf (after .serialize State.reset) = (true, false, 0x15#8, 1#32)
    ∧ faultOf (after .serialize (after .deserialize
      (withPacket State.reset [0, 0xFF, 0xFF, 0xFF, 0xFF, 0x43, 0x41, 0, 0, 0, 1, 0x41]))) = (true, false, 0x10#8, 0#32) := by
  decide +kernel

/-- V-T15. -/
theorem test_deserialize : (after .deserialize (withPacket State.reset
    [0, 0, 0, 0, 9, 0x43, 0, 0, 0, 0, 9, 0x42, 0x41, 0, 0, 0, 9, 0x41])).tree
      = some (.leftOnly 0 0 9 (.rightOnly 1 0 9 (.leaf 2 0x41 9))) := by decide +kernel

/-- V-T7, V-T9, V-T11, V-T12. -/
theorem test_deserialize_faults : faultOf (after .deserialize (withPacket State.reset [0, 0, 0, 0, 0, 0, 0])) = (true, false, 0x14#8, 7#32)
    ∧ faultOf (after .deserialize (withPacket State.reset [0, 0, 0, 0, 2, 0x44, 0x41, 0, 0, 0, 1, 0x61])) = (true, false, 0x21#8, 1#32)
    ∧ faultOf (after .deserialize (withPacket State.reset [0, 0, 0, 0, 2, 0x44, 0x41, 0, 0, 0, 1, 0x41])) = (true, false, 0x22#8, 0#32)
    ∧ faultOf (after .deserialize (withPacket State.reset [0x41, 0, 0, 0, 2, 0x41, 0x42, 0, 0, 0, 3, 0x41]))
      = (true, false, 0x23#8, 1#32) := by decide +kernel

/-- V-P1. -/
theorem test_pack : (after .pack { coded with pad := 1#3 }).output = [0x6E, 0x8A, 0xDC]
    ∧ (after .pack { coded with pad := 1#3 }).icur = 11#32 := by decide +kernel

/-- 46_pack R232, R234: a byte without a code, and a PAD that does not fit 23 bits. -/
theorem test_pack_faults : faultOf (after .pack (withInput { coded with pad := 1#3 } [0x61, 0x62, 0x7A])) = (true, false, 0x29#8, 2#32)
    ∧ faultOf (after .pack (coded)) = (true, false, 0x2A#8, 7#32) := by decide +kernel

/-- V-U8. -/
theorem test_unpack : (after .unpack (withInput { coded with pad := 1#3 } [0x6E, 0x8A, 0xDC])).output = abra := by decide +kernel

/-- 47_unpack R243, R244, R246. -/
theorem test_unpack_faults : faultOf (after .unpack (withInput State.reset [0])) = (true, false, 0x15#8, 3#32)
    ∧ faultOf (after .unpack (withInput single [0x80])) = (true, false, 0x2B#8, 0#32)
    ∧ faultOf (after .unpack { withInput (coded) [] with pad := 3#3 }) = (true, false, 0x2D#8, 3#32) := by decide +kernel

/-- The header of V-F3. -/
def header3 : List Byte := [0, 0, 0, 3, 0, 0, 0, 0, 0, 0, 0, 0x0C, 0, 0, 0, 0, 0, 0x43, 0x41, 0, 0, 0, 5, 0x41]

/-- 48_container R261. -/
theorem test_frame : (after .frame (withPacket { State.reset with pad := 3#3 } [0, 0, 0, 0, 0, 0x43, 0x41, 0, 0, 0, 5, 0x41])).output
    = header3 := by decide +kernel

/-- 48_container R264. -/
theorem test_unframe : (after .unframe (withInput State.reset (header3 ++ [0]))).packet = [0, 0, 0, 0, 0, 0x43, 0x41, 0, 0, 0, 5, 0x41]
    ∧ (after .unframe (withInput State.reset (header3 ++ [0]))).icur = 24#32
    ∧ (after .unframe (withInput State.reset (header3 ++ [0]))).pad = 3#3 := by decide +kernel

/-- 48_container R264: a short field, an absurd padding, a negative length. -/
theorem test_unframe_faults : faultOf (after .unframe (withInput State.reset [0, 0])) = (true, false, 0x11#8, 0#32)
    ∧ faultOf (after .unframe (withInput State.reset [0, 0, 0, 8])) = (true, false, 0x2D#8, 8#32)
    ∧ faultOf (after .unframe (withInput State.reset [0, 0, 0, 0, 0xFF, 0xFF, 0xFF, 0xFF])) = (true, false, 0x2E#8, 1#32) := by decide +kernel

/-- V-K4. -/
theorem test_compress : (after .compress (withInput State.reset [0x00, 0xFF, 0xFF])).output
    = [0, 0, 0, 5, 0, 0, 0, 0, 0, 0, 0, 0x12, 0, 0, 0, 0, 3, 0x44, 0, 0, 0, 0, 1, 0x41, 0xFF, 0, 0, 0, 2, 0x41, 0x60] := by decide +kernel

/-- V-K8. -/
theorem test_compress_empty : faultOf (after .compress State.reset) = (true, false, 0x12#8, 0#32) := by decide +kernel

/-- V-K10 for V-K2. -/
theorem test_decompress : (after .decompress (withInput State.reset (header3 ++ [0]))).output = [0x41, 0x41, 0x41, 0x41, 0x41]
    ∧ (after .decompress (withInput State.reset (header3 ++ [0]))).statusWord = 0xA#32 := by decide +kernel

/-- V-K9. -/
theorem test_decompress_empty : faultOf (after .decompress State.reset) = (true, false, 0x11#8, 0#32) := by decide +kernel

/-! ### Steps and the bus -/

/-- V-C5, by the steps of the machine: the write is accepted, CORE's step faults. -/
theorem test_illegal_word : ∃ t u, step { State.reset with turns := [.bus 0x0C (.write 4 0x120#32)] } = .next t ∧ t.busy = true
    ∧ step t = .next u ∧ faultOf u = (true, false, 0x20#8, 0x120#32) := ⟨_, _, rfl, by decide, rfl, by decide +kernel⟩

/-- The host's two questions on a table word: decoded, and run by the very next step. -/
theorem test_withFetchWord : ∃ t, step (State.reset.withFetchWord 32 0x01) = .next t ∧ t.statusWord = 0x2#32 ∧ t.cmd = 0x01#32 :=
  ⟨_, rfl, by decide, by decide⟩

/-- P4: reads of a faulted block. -/
theorem test_faulted_reads : (after .deserialize (withPacket State.reset [0x41])).busRead 0x10 4 = some 0x14#32
    ∧ (after .deserialize (withPacket State.reset [0x41])).busRead 0x30 4 = none
    ∧ (after .deserialize (withPacket State.reset [0x41])).busWrite 0x0C 4 0#32 = none := by decide +kernel

/-- V-C7. -/
theorem test_status_write : (({ single with done := true }).busWrite 0x08 4 0x2#32).map State.statusWord = some 0x8#32 := by
  decide +kernel

/-- The order of a LOAD (30_encoding R131): the bytes, then the length register. -/
theorem test_load : loadTurns {} .ext [0x74, 0x78] = [.bus 0x100 (.write 1 0x74#32), .bus 0x101 (.write 1 0x78#32),
    .bus 0x34 (.write 4 2#32)] := by decide

/-- 20_memory R65, R66: wrong width, misalignment, a hole, a read-only register. -/
theorem test_errors : State.reset.busRead 0x10 1 = none ∧ State.reset.busRead 0x12 4 = none ∧ State.reset.busRead 0x40 4 = none
    ∧ State.reset.busWrite 0x1C 4 0#32 = none ∧ State.reset.busWrite 0x18 4 65537#32 = none
    ∧ (State.reset.busWrite 0x18 4 65536#32).isSome = true := by decide +kernel

/-! ### Witnesses: states that meet the hypotheses of the statements -/

/-- The parts of `ready` that are decided by looking. -/
abbrev basics (s : State) : Prop :=
  s.cfg.wf = true ∧ s.mem.wf = true ∧ s.busy = false ∧ s.fault = false ∧ s.fcode = 0#8 ∧ s.finfo = 0#32
    ∧ s.ilen.toNat ≤ s.cfg.ibufCap ∧ s.icur.toNat ≤ s.cfg.ibufCap ∧ s.olen.toNat ≤ s.cfg.obufCap
    ∧ s.tplen.toNat ≤ s.cfg.tpktCap ∧ s.extlen.toNat ≤ s.cfg.extCap

theorem ready_of {s : State} (h : basics s) (ht : s.treeLegal) (hc : s.countsLegal) (hp : codesPrefixFree s.code) : s.ready := by
  obtain ⟨h1, h2, h3, h4, h5, h6, h7, h8, h9, h10, h11⟩ := h
  exact ⟨⟨⟨h1, h2⟩, ⟨fun _ => h4, fun _ => ⟨h3, h4⟩, fun _ => ⟨h5, h6⟩⟩, fun _ => ⟨⟨h7, h8, h9, h10, h11⟩, ht, hc, hp⟩⟩, h4⟩

theorem empty_tables {s : State} (h : s.cfg.wf = true) (hf : s.freq = FreqTable.empty) (hc : s.code = CodeTable.empty) :
    s.countsLegal ∧ codesPrefixFree s.code := by
  obtain ⟨_, _, h3, h4⟩ := (resetBlock_ready h).1.2.2 rfl
  unfold State.countsLegal
  rw [hf, hc]
  exact ⟨h3, h4⟩

theorem ready_plain {s : State} (h : basics s) (ht : s.tree = none ∧ s.ncount = 0#32) (hf : s.freq = FreqTable.empty)
    (hc : s.code = CodeTable.empty) : s.ready := by
  obtain ⟨h1, h2⟩ := empty_tables h.1 hf hc
  refine ready_of h ?_ h1 h2
  unfold State.treeLegal
  rw [ht.1]
  exact ht.2

theorem abraCodes_prefixFree : codesPrefixFree abraCodes :=
  walk_prefixFree (t := abraTree) (show walk abraTree [] CodeTable.empty = .ok abraCodes from rfl)

theorem coded_counts : (allSymbols.map fun b => (coded.freq.at b).toNat).sum = 11 := by decide +kernel

/-- A state that differs from `coded` in streams and registers only. -/
theorem ready_coded {s : State} (h : basics s) (ht : s.tree = coded.tree ∧ s.ncount = coded.ncount ∧ s.root = coded.root)
    (hf : s.freq = coded.freq) (hi : 11 ≤ s.cfg.ibufCap) (hc : s.code = coded.code) : s.ready := by
  refine ready_of h ?_ ?_ (hc ▸ abraCodes_prefixFree)
  · unfold State.treeLegal
    rw [ht.1, ht.2.1, ht.2.2]
    refine ⟨rfl, ?_, rfl⟩
    have := (Config.wf_bounds h.1).2.2.2.1.1
    show 9 ≤ _
    omega
  · unfold State.countsLegal
    rw [hf, coded_counts]
    exact hi

theorem witness_ready : State.reset.resetBlock.ready ∧ coded.ready ∧ (withInput State.reset [0x61, 0x61]).ready :=
  ⟨resetBlock_ready (by decide), ready_coded (by decide +kernel) ⟨rfl, rfl, rfl⟩ rfl (by decide) rfl,
    ready_plain (by decide +kernel) ⟨rfl, rfl⟩ rfl rfl⟩

/-- A state in the fault state, by the fault of a command. -/
def faultedState : State := coded.takeFault .noCode 2#32

/-- A state with a latched command. -/
def busyState : State := coded.latch 0x16#32

theorem witness_states : coded.blockState = .idle ∧ busyState.blockState = .busy ∧ faultedState.blockState = .faulted := by decide +kernel

theorem witness_legal : coded.Legal ∧ busyState.Legal ∧ faultedState.Legal :=
  ⟨witness_ready.2.1.1, (Written.legal witness_ready.2.1.1 (.latched (by decide +kernel))).1, takeFault_legal witness_ready.2.1.1 _ _⟩

theorem witness_WordsDecoded : (0x00000120#32).extractLsb' 8 24 ≠ 0#24 ∧ (∀ i, (0x00000003#32).extractLsb' 0 8 ≠ (encode i).extractLsb' 0 8)
    ∧ ((0x00000021#32).extractLsb' 8 24 = 0#24 ∧ (0x00000021#32).extractLsb' 0 8 = (encode .decompress).extractLsb' 0 8) :=
  ⟨by decide, fun i => by cases i <;> decide, by decide⟩

theorem witness_IllegalWordFaults : State.reset.blockState = .idle ∧ (∀ i, 0x00000022#32 ≠ encode i) ∧ ∀ i, 0x00000100#32 ≠ encode i :=
  ⟨by decide, fun i => by cases i <;> decide, fun i => by cases i <;> decide⟩

theorem witness_StepRunsLatchedCommand : (busyState.busy = true ∧ decode busyState.cmd = .ok .pack ∧ busyState.turns = [])
    ∧ (let s := { busyState with turns := [.core, .hardReset] }; s.busy = true ∧ decode s.cmd = .ok .pack ∧ s.turns = .core :: [.hardReset])
    ∧ (let s := { coded with turns := [.core] }; s.busy = false ∧ s.turns = .core :: []) ∧ coded.busy = false ∧ coded.turns = [] :=
  ⟨by decide, by decide, by decide, rfl, rfl⟩

theorem witness_StepTakesTurnsInOrder : { coded with turns := [.bus 0x0C (.read 4), .core] }.turns = .bus 0x0C (.read 4) :: [.core]
    ∧ { coded with turns := [.hardReset] }.turns = .hardReset :: [] := ⟨rfl, rfl⟩

theorem witness_RunStatement : State.Legal { coded with turns := runTurns {} .nop ++ [.core] }
    ∧ State.blockState { coded with turns := runTurns {} .nop ++ [.core] } = .idle := ⟨witness_legal.1, by decide +kernel⟩

theorem witness_CommandEnds : State.reset.resetBlock.ready ∧ (exec .nop State.reset.resetBlock = .next State.reset.resetBlock.complete)
    ∧ exec .gencodes State.reset.resetBlock = .next (State.reset.resetBlock.takeFault .absentTree 2#32) :=
  ⟨witness_ready.1, rfl, rfl⟩

theorem witness_FaultLeftOnlyByReset : faultedState.blockState = .faulted
    ∧ (let s := { faultedState with turns := [.hardReset] }; s.blockState = .faulted ∧ s.turns = .hardReset :: [] ∧ goesOn (step s))
    ∧ (let s := { faultedState with turns := [.bus 0x04 (.write 4 0x80000000#32)] }
      s.blockState = .faulted ∧ offsetOf s.cfg 0x04 = some 0x04 ∧ (0x80000000#32).getLsbD 31 = true ∧ goesOn (step s))
    ∧ goesOn (step faultedState) :=
  ⟨by decide +kernel, ⟨by decide +kernel, rfl, _, rfl⟩, ⟨by decide +kernel, by decide, by decide, _, rfl⟩, _, rfl⟩

theorem witness_HardReset : { busyState with turns := [.hardReset, .core] }.turns = .hardReset :: [.core] := rfl

theorem witness_ResetLegal : Config.wf { ibufCap := 2 ^ 24, obufCap := 2 ^ 25, extCap := 0, nodeCap := 2048, base := 2 ^ 26 } = true
    ∧ Config.wf { ibufCap := 1, obufCap := 1, extCap := 256, nodeCap := 511 } = true := by decide

theorem witness_StepKeepsLegal : State.Legal { coded with turns := [.bus 0x18 (.write 4 65536#32), .core] } := witness_legal.1

theorem witness_BlockTransitions :
    (let s := { coded with turns := [.bus 0x0C (.write 4 0x16#32)] }; s.Legal ∧ s.blockState = .idle ∧ goesOn (step s))
    ∧ (busyState.Legal ∧ busyState.blockState = .busy ∧ ∃ t, step busyState = .next t)
    ∧ faultedState.Legal ∧ faultedState.blockState = .faulted ∧ goesOn (step faultedState) :=
  ⟨⟨witness_legal.1, by decide +kernel, _, rfl⟩, ⟨witness_legal.2.1, by decide +kernel, (coreTurn_legal witness_legal.2.1).imp fun _ h => h.1⟩,
    witness_legal.2.2, by decide +kernel, _, rfl⟩

theorem witness_LatchedCommandEnds : busyState.Legal ∧ busyState.busy = true := ⟨witness_legal.2.1, rfl⟩

theorem witness_BuffersBounded : coded.Legal ∧ coded.bounded ∧ ∃ t, step { coded with turns := [.bus 0x1000005 (.write 1 7#32)] } = .next t := by
  refine ⟨witness_legal.1, ?_, _, rfl⟩
  intro sp
  cases sp <;> decide +kernel

theorem witness_FaultStateLeaksNothing : sameFaultView faultedState { faultedState with olen := 3#32, freq := coded.freq } := by
  refine ⟨by decide +kernel, by decide +kernel, rfl, rfl, rfl, rfl, rfl, rfl, rfl, rfl, rfl, rfl⟩

theorem witness_RefusedAccessChangesNothing : (coded.transact 0x40 (.write 4 1#32)).1 = .error := by decide +kernel

/-- A state with every window in use. -/
def windows : State := { coded with extlen := 256#32, tplen := 3066#32, olen := 131072#32 }

/-- Each form of an answered read at the end of its range, and the block state that limits it. -/
theorem witness_ReadsAnswered : (windows.busRead 0x3C 4).isSome = true ∧ (windows.busRead 0x7FC 4).isSome = true
    ∧ (windows.busRead 0x7FFC 4).isSome = true ∧ (windows.busRead 0x1FF 1).isSome = true ∧ (windows.busRead 0x1BF9 1).isSome = true
    ∧ (windows.busRead 0x201FFFF 1).isSome = true ∧ (busyState.busRead 0x0C 4).isSome = true
    ∧ (faultedState.busRead 0x14 4).isSome = true ∧ windows.busRead 0x40 4 = none ∧ windows.busRead 0x1BFA 1 = none
    ∧ windows.busRead 0x2020000 1 = none ∧ busyState.busRead 0x10 4 = none ∧ faultedState.busRead 0x18 4 = none := by
  decide +kernel

/-- Each form of an answered write at the end of its range, and the first value beyond it. -/
theorem witness_WritesAnswered : (busyState.busWrite 0x04 4 1#32).isSome = true ∧ (faultedState.busWrite 0x04 4 0x80000000#32).isSome = true
    ∧ (coded.busWrite 0x08 4 2#32).isSome = true ∧ (coded.busWrite 0x0C 4 0xFFFFFFFF#32).isSome = true
    ∧ (coded.busWrite 0x18 4 65536#32).isSome = true ∧ coded.busWrite 0x18 4 65537#32 = none
    ∧ (coded.busWrite 0x24 4 0xFFFFFFFF#32).isSome = true ∧ (coded.busWrite 0x30 4 3066#32).isSome = true
    ∧ coded.busWrite 0x30 4 3067#32 = none ∧ (coded.busWrite 0x34 4 256#32).isSome = true ∧ coded.busWrite 0x34 4 257#32 = none
    ∧ (coded.busWrite 0x38 4 0x1FF#32).isSome = true ∧ (coded.busWrite 0x1FF 1 9#32).isSome = true
    ∧ (coded.busWrite 0x1BF9 1 9#32).isSome = true ∧ coded.busWrite 0x1BFA 1 9#32 = none
    ∧ (coded.busWrite 0x100FFFF 1 9#32).isSome = true ∧ coded.busWrite 0x1010000 1 9#32 = none
    ∧ coded.busWrite 0x2000000 1 9#32 = none ∧ busyState.busWrite 0x08 4 2#32 = none := by decide +kernel

/-- One access for each item of 20_memory R66. -/
theorem witness_ErrorConditions : coded.busRead 0x02 4 = none ∧ coded.busRead 0x100 4 = none ∧ coded.busRead 0xFF 1 = none
    ∧ coded.busRead 0x800 4 = none ∧ coded.busWrite 0x2020000 1 0#32 = none ∧ busyState.busRead 0x3C 4 = none
    ∧ coded.busWrite 0x3C 4 0#32 = none ∧ coded.busRead 0x1000000 1 = none ∧ coded.busRead 0x2000000 1 = none
    ∧ coded.busWrite 0x34 4 257#32 = none := by decide +kernel

theorem witness_AccessByBlockState : coded.blockState = .idle ∧ sizeAllowed (locate 0x3C) 0x3C 4 = true
    ∧ withinCapacity coded.cfg (locate 0x3C) = true ∧ sizeAllowed (locate 0x1FF) 0x1FF 1 = true ∧ withinCapacity coded.cfg (locate 0x1FF) = true
    ∧ busyState.blockState = .busy ∧ faultedState.blockState = .faulted := by decide +kernel

theorem witness_RegisterReads : coded.blockState = .idle ∧ State.blockState { coded with done := true, ien := true } = .idle := by decide +kernel

theorem witness_FreqWindow : coded.blockState = .idle ∧ (255#8).toNat = 255 := by decide +kernel

theorem witness_CmdRegister : coded.blockState = .idle ∧ busyState.blockState ≠ .idle ∧ faultedState.blockState ≠ .idle := by decide +kernel

theorem witness_CtrlRegister : (0x7FFFFFFF#32).getLsbD 31 = false ∧ (0x80000001#32).getLsbD 31 = true := by decide

theorem witness_CodeWindow : coded.blockState = .idle ∧ coded.code.at 0x65 = none
    ∧ (∃ bits, (codes [(0xFF, List.replicate 255 true)]).at 0xFF = some bits ∧ bits.length = maxLen) :=
  ⟨by decide +kernel, by decide +kernel, List.replicate 255 true, by decide +kernel, List.length_replicate⟩

theorem witness_ByteWindows : coded.cfg.wf = true ∧ coded.blockState = .idle ∧ 65535 < coded.capacity .ibuf ∧ 3065 < coded.capacity .tpkt
    ∧ 255 < coded.capacity .ext ∧ 255 < windows.extlen.toNat ∧ 3065 < windows.tplen.toNat := by decide +kernel

theorem witness_InterruptLine : coded.blockState = .idle ∧ (coded.complete).done = true ∧ faultedState.fault = true := by decide +kernel

theorem witness_ControlCommands : 0 < State.reset.cfg.obufCap := by decide

theorem witness_CountResult : abraState.ready ∧ abraState.input.length = 11 :=
  ⟨ready_plain (by decide +kernel) ⟨rfl, rfl⟩ rfl rfl, by decide +kernel⟩

theorem witness_BuildEmptyOrSingle : (∀ b, State.reset.freq.at b = 0#32) ∧ single.freq.at 0x41 ≠ 0#32
    ∧ ∀ a, a ≠ 0x41 → single.freq.at a = 0#32 := by
  refine ⟨fun b => by simp [State.reset, FreqTable.at], by decide +kernel, fun a ha => ?_⟩
  show ((FreqTable.empty.put 0x41 5).at a) = 0#32
  rw [FreqTable.at_put, if_neg (Ne.symm ha)]
  simp [FreqTable.empty, FreqTable.at]

theorem witness_BuildResult : coded.ready ∧ (0x61 : Byte) ≠ 0x72 ∧ coded.freq.at 0x61 ≠ 0#32 ∧ coded.freq.at 0x72 ≠ 0#32 :=
  ⟨witness_ready.2.1, by decide, by decide +kernel, by decide +kernel⟩

theorem witness_BuildMergesLeast : coded.ready ∧ (0x61 : Byte) ≠ 0x62 ∧ coded.freq.at 0x61 ≠ 0#32 ∧ coded.freq.at 0x62 ≠ 0#32 :=
  ⟨witness_ready.2.1, by decide, by decide +kernel, by decide +kernel⟩

theorem abraTree_depth : ∀ p u, abraTree.descend p = some u → u.isLeaf = true → p.length ≤ 3 := by
  intro p u hd hu
  have h : (u.value, p) ∈ abraTree.paths [] := (mem_paths_nil _ _ _).mpr ⟨u, hd, hu, rfl⟩
  have : ∀ e ∈ abraTree.paths [], e.2.length ≤ 3 := by decide
  exact this _ h

theorem witness_GencodesResult : coded.tree = some abraTree ∧ abraTree.isLeaf = false ∧ abraTree.leafValues.Nodup
    ∧ ∀ p u, abraTree.descend p = some u → u.isLeaf = true → p.length ≤ maxLen :=
  ⟨rfl, rfl, by decide, fun p u h hu => (abraTree_depth p u h hu).trans (by decide)⟩

/-- A left chain over one leaf at depth `n` (43_gencodes V-G8). -/
def chain : Nat → Tree
  | 0 => .leaf 0 0x41 1
  | n + 1 => .leftOnly 0 0 0 (chain n)

theorem chain_paths (n : Nat) (p : BitString) : (chain n).paths p = [(0x41, p ++ List.replicate n false)] := by
  induction n generalizing p with
  | zero => simp [chain, Tree.paths]
  | succ n ih => rw [chain, Tree.paths, ih, List.append_assoc]; rfl

/-- A state with a tree and nothing else, as DESERIALIZE can leave it. -/
def withTree (tr : Tree) : State :=
  { State.reset with tree := some tr, root := tr.index, ncount := BitVec.ofNat 32 tr.size }

theorem witness_GencodesFaults : State.reset.tree = none ∧ (withTree (.leaf 0 0x41 2)).tree = some (.leaf 0 0x41 2)
    ∧ ((withTree (chain 256)).tree = some (chain 256) ∧ (chain 256).isLeaf = false ∧ (chain 256).paths [] = [] ++ (0x41, List.replicate 256 false) :: []
      ∧ maxLen < (List.replicate 256 false).length)
    ∧ (let tr : Tree := .both 0 0 2 (.leaf 1 0x41 1) (.leaf 2 0x41 1)
      (withTree tr).tree = some tr ∧ tr.isLeaf = false ∧ tr.paths [] = [(0x41, [false])] ++ (0x41, [true]) :: [] ∧ (0x41 : Byte) ∈ [((0x41 : Byte), [false])].map Prod.fst) :=
  ⟨rfl, rfl, ⟨rfl, rfl, chain_paths 256 [], by rw [List.length_replicate]; decide⟩, rfl, rfl, rfl, by decide⟩

theorem empty_freq_at (b : Byte) : FreqTable.empty.at b = 0#32 := by simp [FreqTable.empty, FreqTable.at]

theorem empty_code_valid (b : Byte) : CodeTable.empty.valid b = false := by simp [CodeTable.empty, CodeTable.valid, CodeTable.at]

theorem coded_freq_at (b : Byte) : coded.freq.at b = if 0x72 = b then 2 else if 0x64 = b then 1 else if 0x63 = b then 1
    else if 0x62 = b then 2 else if 0x61 = b then 5 else 0 := by
  show (((((FreqTable.empty.put 0x61 5).put 0x62 2).put 0x63 1).put 0x64 1).put 0x72 2).at b = _
  simp only [FreqTable.at_put, empty_freq_at]
  rfl

theorem coded_valid (b : Byte) : coded.code.valid b = (if 0x72 = b then true else if 0x62 = b then true else if 0x64 = b then true
    else if 0x63 = b then true else if 0x61 = b then true else false) := by
  show (((((CodeTable.empty.put 0x61 (some [false])).put 0x63 (some [true, false, false])).put 0x64 (some [true, false, true])).put 0x62
    (some [true, true, false])).put 0x72 (some [true, true, true])).valid b = _
  have h := empty_code_valid b
  unfold CodeTable.valid at h ⊢
  simp only [CodeTable.at_put]
  split_ifs <;> first | rfl | exact h

theorem witness_PadcalcResult : coded.ready ∧ ∀ b, coded.freq.at b ≠ 0#32 ↔ coded.code.valid b = true := by
  refine ⟨witness_ready.2.1, fun b => ?_⟩
  rw [coded_freq_at, coded_valid]
  split_ifs <;> decide

theorem witness_PadcalcMismatch : let s := { coded with code := CodeTable.empty }
    ¬ (s.freq.at 0x61 ≠ 0#32 ↔ s.code.valid 0x61 = true)
      ∧ ∀ a : Byte, a.toNat < (0x61 : Byte).toNat → (s.freq.at a ≠ 0#32 ↔ s.code.valid a = true) := by
  refine ⟨by decide +kernel, fun a ha => ?_⟩
  show coded.freq.at a ≠ 0#32 ↔ CodeTable.empty.valid a = true
  rw [coded_freq_at, empty_code_valid]
  have : ∀ b : Byte, (0x61 : Byte).toNat ≤ b.toNat → ¬ b = a := by rintro b hb rfl; omega
  simp only [if_neg (this 0x72 (by decide)), if_neg (this 0x64 (by decide)), if_neg (this 0x63 (by decide)),
    if_neg (this 0x62 (by decide)), if_neg (this 0x61 (by decide))]
  decide

theorem witness_SerializeResult : coded.ready ∧ coded.tree = some abraTree ∧ noNegative abraTree :=
  ⟨witness_ready.2.1, rfl, by unfold noNegative; decide⟩

theorem witness_SerializeFaults : State.reset.tree = none ∧ (let tr : Tree := .leftOnly 0 0 5 (.leaf 1 0x41 0x80000000#32)
    (withTree tr).tree = some tr ∧ tr.records = [⟨0, 5, flagC⟩] ++ ⟨0x41, 0x80000000#32, flagA⟩ :: [] ∧ 2 ^ 31 ≤ (0x80000000#32).toNat
      ∧ ∀ q ∈ [(⟨0, 5, flagC⟩ : TreeRecord)], q.freq.toNat < 2 ^ 31) := ⟨rfl, rfl, rfl, by decide, by decide⟩

/-- "abracadabra" with the packet of its tree (44_treecodec V-T2). -/
def packeted : State := withPacket coded (packetOf abraTree)

theorem ready_packeted : packeted.ready := ready_coded (by decide +kernel) ⟨rfl, rfl, rfl⟩ rfl (by decide) rfl

theorem witness_DeserializeResult : packeted.ready ∧ packeted.packet = packetOf abraTree
    ∧ ∃ t, exec .deserialize packeted = .next t ∧ t.fault = false := by
  have h : packeted.packet = packetOf abraTree := by decide +kernel
  exact ⟨ready_packeted, h, _, exec_ok (runDeserialize_ok ready_packeted.toReady (h ▸ treeOfPacket_packetOf abraTree)), rfl⟩

/-- A packet state for the faults. -/
theorem ready_packet (bs : List Byte) (h : basics (withPacket State.reset bs)) : (withPacket State.reset bs).ready :=
  ready_plain h ⟨rfl, rfl⟩ rfl rfl

theorem witness_DeserializeFaults :
    ((withPacket State.reset []).ready ∧ (withPacket State.reset []).tplen = 0#32)
    ∧ ((withPacket State.reset [0]).ready ∧ (withPacket State.reset [0]).tplen.toNat % 6 ≠ 0)
    ∧ (let r : TreeRecord := ⟨0x41, 2, 0x45⟩; (withPacket State.reset (packetRecord r)).ready ∧ isFlag r.flag = false
      ∧ (withPacket State.reset (packetRecord r)).packet = ([] ++ r :: []).flatMap packetRecord)
    ∧ (let tr : Tree := .both 0 0 2 (.leaf 1 0x41 1) (.leaf 2 0x42 1); let rs := tr.records.take 2; let missing := tr.records.drop 2
      (withPacket State.reset (rs.flatMap packetRecord)).ready ∧ rs ≠ [] ∧ missing ≠ [] ∧ tr.records = rs ++ missing
        ∧ (withPacket State.reset (rs.flatMap packetRecord)).packet = rs.flatMap packetRecord
        ∧ (0, (tr.numbered 0).top) ∈ (tr.numbered 0).arena ∧ (tr.numbered 0).top.r = some rs.length)
    ∧ (let tr : Tree := .leaf 0 0x41 2; let extra : List TreeRecord := [⟨0x42, 3, flagA⟩]
      (withPacket State.reset ((tr.records ++ extra).flatMap packetRecord)).ready ∧ extra ≠ [] ∧ (∀ q ∈ extra, isFlag q.flag = true)
        ∧ (withPacket State.reset ((tr.records ++ extra).flatMap packetRecord)).packet = (tr.records ++ extra).flatMap packetRecord) := by
  refine ⟨⟨ready_packet _ (by decide +kernel), by decide⟩, ⟨ready_packet _ (by decide +kernel), by decide⟩,
    ⟨ready_packet _ (by decide +kernel), by decide, by decide +kernel⟩,
    ⟨ready_packet _ (by decide +kernel), by decide, by decide, by decide, by decide +kernel, by decide, by decide⟩,
    ready_packet _ (by decide +kernel), by decide, by decide, by decide +kernel⟩

theorem witness_TreeCodecInverse : coded.ready ∧ coded.tree = some abraTree ∧ noNegative abraTree ∧ packeted.ready
    ∧ ∃ t, exec .deserialize packeted = .next t ∧ t.fault = false ∧ t.tree = some (abraTree.numbered 0) ∧ noNegative (abraTree.numbered 0) := by
  have h : packeted.packet = packetOf abraTree := by decide +kernel
  exact ⟨witness_ready.2.1, rfl, witness_SerializeResult.2.2, ready_packeted, _,
    exec_ok (runDeserialize_ok ready_packeted.toReady (h ▸ treeOfPacket_packetOf abraTree)), rfl, rfl, by unfold noNegative; decide⟩

/-- "abracadabra" ready to be packed. -/
def padded : State := { coded with pad := 1#3 }

theorem ready_padded : padded.ready := ready_coded (by decide +kernel) ⟨rfl, rfl, rfl⟩ rfl (by decide) rfl

theorem abra_coded : codedAll padded.code padded.input ∧ (codeBits padded.code padded.input).length = 23 := by
  have : padded.input = abra := by decide +kernel
  rw [this]
  unfold codedAll
  decide +kernel

theorem witness_PackResult : padded.ready ∧ codedAll padded.code padded.input
    ∧ padded.pad.toNat = (8 - (codeBits padded.code padded.input).length % 8) % 8
    ∧ padded.room (((codeBits padded.code padded.input).length + 7) / 8) := by
  refine ⟨ready_padded, abra_coded.1, ?_, ?_⟩
  · rw [abra_coded.2]; decide
  · rw [abra_coded.2]; unfold State.room; decide

theorem ready_input (s : State) (h : s.tree = coded.tree ∧ s.ncount = coded.ncount ∧ s.root = coded.root ∧ s.freq = coded.freq ∧ s.code = coded.code)
    (bs : List Byte) (hb : basics (withInput s bs)) (hi : 11 ≤ s.cfg.ibufCap) : (withInput s bs).ready :=
  ready_coded hb ⟨h.1, h.2.1, h.2.2.1⟩ h.2.2.2.1 hi h.2.2.2.2

theorem witness_PackFaults :
    (let s := withInput padded [0x61, 0x7A];
      s.ready ∧ s.input = [0x61] ++ 0x7A :: [] ∧ codedAll s.code [0x61] ∧ s.code.at 0x7A = none ∧ s.room ((codeBits s.code [0x61]).length / 8))
    ∧ (coded.ready ∧ codedAll coded.code coded.input ∧ coded.pad.toNat ≠ (8 - (codeBits coded.code coded.input).length % 8) % 8
      ∧ coded.room ((codeBits coded.code coded.input).length / 8))
    ∧ (let s := { coded with icur := 11#32 }; s.ready ∧ s.ilen.toNat ≤ s.icur.toNat ∧ s.pad = 0#3)
    ∧ (let s := { padded with icur := 11#32 }; s.ready ∧ s.ilen.toNat ≤ s.icur.toNat ∧ s.pad ≠ 0#3) := by
  refine ⟨⟨ready_input padded ⟨rfl, rfl, rfl, rfl, rfl⟩ _ (by decide +kernel) (by decide), by decide +kernel, ?_, by decide +kernel, ?_⟩,
    ⟨witness_ready.2.1, abra_coded.1, ?_, ?_⟩,
    ⟨ready_coded (by decide +kernel) ⟨rfl, rfl, rfl⟩ rfl (by decide) rfl, by decide, rfl⟩,
    ready_coded (by decide +kernel) ⟨rfl, rfl, rfl⟩ rfl (by decide) rfl, by decide, by decide⟩
  · unfold codedAll; decide +kernel
  · unfold State.room; decide +kernel
  · show coded.pad.toNat ≠ (8 - (codeBits padded.code padded.input).length % 8) % 8
    rw [abra_coded.2]; decide
  · show coded.room ((codeBits padded.code padded.input).length / 8)
    rw [abra_coded.2]; unfold State.room; decide

/-- The payload of "ac" with the padding of its 4 bits. -/
def payloadState : State := withInput { coded with pad := 4#3 } [0x40]

theorem ready_payload : payloadState.ready :=
  ready_input { coded with pad := 4#3 } ⟨rfl, rfl, rfl, rfl, rfl⟩ _ (by decide +kernel) (by decide)

theorem payload_symbols : payload payloadState.pad.toNat payloadState.input
    = [((0x61 : Byte), [false]), (0x63, [true, false, false])].flatMap Prod.snd
      ∧ ∀ e ∈ [((0x61 : Byte), [false]), (0x63, [true, false, false])], e ∈ abraTree.paths [] := by decide +kernel

theorem witness_UnpackResult : payloadState.ready ∧ payloadState.tree = some abraTree ∧ abraTree.isLeaf = false
    ∧ (∀ e ∈ [((0x61 : Byte), [false]), (0x63, [true, false, false])], e ∈ abraTree.paths [])
    ∧ payload payloadState.pad.toNat payloadState.input = [((0x61 : Byte), [false]), (0x63, [true, false, false])].flatMap Prod.snd
    ∧ payloadState.input ≠ [] ∧ payloadState.room 2 ∧ ∃ t, exec .unpack payloadState = .next t ∧ t.fault = false := by
  have h := payload_symbols
  have hr : payloadState.room 2 := by unfold State.room; decide
  have hn : payloadState.input ≠ [] := by decide +kernel
  refine ⟨ready_payload, rfl, rfl, h.2, h.1, hn, hr, _, exec_ok (runUnpack_ok ready_payload.toReady rfl
    (unpackStream_symbols h.2 (by intro h; cases h) (fun e => absurd e hn) h.1 (ready_payload.toReady.outPort_fits hr))), rfl⟩

theorem witness_UnpackFaults : State.reset.resetBlock.ready ∧ State.reset.resetBlock.tree = none
    ∧ (let s := withInput padded []; s.ready ∧ s.tree = some abraTree ∧ s.input = [] ∧ s.pad ≠ 0#3)
    ∧ (let root : Tree := .leftOnly 1 0 0 (.leaf 0 0x41 5); let s := withInput (withTree root) [0x40];
      s.ready ∧ s.tree = some root ∧ s.room 1 ∧ root.descend [] = some root ∧ root.child true = none
      ∧ payload s.pad.toNat s.input = [((0x41 : Byte), [false])].flatMap Prod.snd ++ [] ++ true :: List.replicate 6 false
      ∧ ∀ e ∈ [((0x41 : Byte), [false])], e ∈ root.paths [])
    ∧ (let s := withInput { coded with pad := 6#3 } [0x40]
      s.ready ∧ s.tree = some abraTree ∧ abraTree.descend [true] = some (.both 7 0 6 (.both 5 0 2 (.leaf 2 0x63 1) (.leaf 3 0x64 1))
          (.both 6 0 4 (.leaf 1 0x62 2) (.leaf 4 0x72 2)))
        ∧ payload s.pad.toNat s.input = [((0x61 : Byte), [false])].flatMap Prod.snd ++ [true] ∧ s.room 1) := by
  refine ⟨witness_ready.1, rfl, ⟨ready_input padded ⟨rfl, rfl, rfl, rfl, rfl⟩ _ (by decide +kernel) (by decide), rfl, by decide +kernel, by decide⟩,
    ⟨ready_of (by decide +kernel) ⟨rfl, by decide, rfl⟩ (empty_tables (by decide) rfl rfl).1 (empty_tables (by decide) rfl rfl).2, rfl,
      by unfold State.room; decide, by decide +kernel⟩,
    ready_input { coded with pad := 6#3 } ⟨rfl, rfl, rfl, rfl, rfl⟩ _ (by decide +kernel) (by decide), rfl, rfl, by decide +kernel, ?_⟩
  unfold State.room; decide

/-- A machine whose output buffer is full. -/
def full : State := { padded with cfg := { obufCap := 1 }, olen := 1#32 }

theorem ready_full : full.ready := ready_coded (by decide +kernel) ⟨rfl, rfl, rfl⟩ rfl (by decide) rfl

theorem witness_OutputOverflow : (full.outPort.len.toNat ≤ full.outPort.cap ∧ full.outPort.cap ≤ 2 ^ 25 ∧ full.outPort.len.toNat = full.outPort.cap)
    ∧ padded.outPort.len.toNat ≠ padded.outPort.cap ∧ full.ready ∧ ¬ full.room 1 ∧ ¬ full.room 3
    ∧ codedAll full.code full.input ∧ (codeBits full.code full.input).length = 23 ∧ full.pad.toNat = 1
    ∧ (let s := withInput full [0x40]; s.ready ∧ s.tree = some abraTree ∧ (∀ e ∈ [((0x61 : Byte), [false])], e ∈ abraTree.paths [])
      ∧ payload s.pad.toNat s.input = [((0x61 : Byte), [false])].flatMap Prod.snd ++ [true, false, false, false, false, false] ∧ ¬ s.room 1) := by
  refine ⟨by decide, by decide, ready_full, by unfold State.room; decide, by unfold State.room; decide, abra_coded.1, abra_coded.2, rfl,
    ready_input full ⟨rfl, rfl, rfl, rfl, rfl⟩ _ (by decide +kernel) (by decide), rfl, by decide, by decide +kernel, ?_⟩
  unfold State.room; decide

theorem witness_FrameResult : packeted.ready ∧ packeted.room (12 + packeted.extlen.toNat + packeted.tplen.toNat)
    ∧ full.ready ∧ ¬ full.room (12 + full.extlen.toNat + full.tplen.toNat) :=
  ⟨ready_packeted, by unfold State.room; decide +kernel, ready_full, by unfold State.room; decide⟩

theorem ready_stream (bs : List Byte) (h : basics (withInput State.reset bs)) : (withInput State.reset bs).ready :=
  ready_plain h ⟨rfl, rfl⟩ rfl rfl

/-- The single-symbol Container of V-F3, and its packet. -/
def container3 : State := withInput State.reset (header3 ++ [0])

def packet3 : List Byte := [0, 0, 0, 0, 0, 0x43, 0x41, 0, 0, 0, 5, 0x41]

theorem witness_UnframeResult : container3.ready ∧ packet3.length ≤ container3.cfg.tpktCap
    ∧ container3.input = bigEndian 3 ++ bigEndian 0 ++ [] ++ bigEndian packet3.length ++ packet3 ++ [0] :=
  ⟨ready_stream _ (by decide +kernel), by decide, by decide +kernel⟩

/-- Each check of the header, at the first value it turns away. -/
theorem witness_UnframeFaults :
    ((withInput State.reset [0, 0, 0]).ready ∧ (withInput State.reset [0, 0, 0]).input.length < 4)
    ∧ ((withInput State.reset [0, 0, 0, 8]).ready ∧ (withInput State.reset [0, 0, 0, 8]).input = bigEndian 8 ++ [])
    ∧ ((withInput State.reset [0, 0, 0, 7, 0, 0, 0]).ready
      ∧ (withInput State.reset [0, 0, 0, 7, 0, 0, 0]).input = bigEndian 7 ++ [0, 0, 0])
    ∧ ((withInput State.reset [0, 0, 0, 7, 0, 0, 1, 1]).ready ∧ State.reset.cfg.extCap < 257
      ∧ (withInput State.reset [0, 0, 0, 7, 0, 0, 1, 1]).input = bigEndian 7 ++ (bigEndian 257 ++ []))
    ∧ ((withInput State.reset [0, 0, 0, 0, 0, 0, 0, 1, 9, 0, 0, 0]).ready
      ∧ (withInput State.reset [0, 0, 0, 0, 0, 0, 0, 1, 9, 0, 0, 0]).input = bigEndian 0 ++ (bigEndian 1 ++ ([9] ++ [0, 0, 0])))
    ∧ ((withInput State.reset [0, 0, 0, 0, 0, 0, 0, 0, 0x80, 0, 0, 0]).ready
      ∧ (withInput State.reset [0, 0, 0, 0, 0, 0, 0, 0, 0x80, 0, 0, 0]).input = bigEndian 0 ++ (bigEndian 0 ++ ([] ++ (bigEndian (2 ^ 31) ++ []))))
    ∧ ((withInput State.reset [0, 0, 0, 0, 0, 0, 0, 0, 0, 0, 0x0B, 0xFB]).ready ∧ State.reset.cfg.tpktCap < 3067
      ∧ (withInput State.reset [0, 0, 0, 0, 0, 0, 0, 0, 0, 0, 0x0B, 0xFB]).input = bigEndian 0 ++ (bigEndian 0 ++ ([] ++ (bigEndian 3067 ++ []))))
    ∧ ((withInput State.reset [0, 0, 0, 0, 0, 0, 0, 0, 0, 0, 0, 1]).ready
      ∧ (withInput State.reset [0, 0, 0, 0, 0, 0, 0, 0, 0, 0, 0, 1]).input = bigEndian 0 ++ (bigEndian 0 ++ ([] ++ (bigEndian 1 ++ [])))) := by
  refine ⟨⟨ready_stream _ (by decide +kernel), by decide +kernel⟩, ⟨ready_stream _ (by decide +kernel), by decide +kernel⟩,
    ⟨ready_stream _ (by decide +kernel), by decide +kernel⟩, ⟨ready_stream _ (by decide +kernel), by decide, by decide +kernel⟩,
    ⟨ready_stream _ (by decide +kernel), by decide +kernel⟩, ⟨ready_stream _ (by decide +kernel), by decide +kernel⟩,
    ⟨ready_stream _ (by decide +kernel), by decide, by decide +kernel⟩, ready_stream _ (by decide +kernel), by decide +kernel⟩

theorem witness_UnframeThenFrame : container3.ready ∧ container3.olen = 0#32
    ∧ ∃ t, exec .unframe container3 = .next t ∧ t.fault = false ∧ container3.input.length - t.input.length ≤ container3.cfg.obufCap := by
  obtain ⟨hr, hp, hin⟩ := witness_UnframeResult
  have h := hr.toReady.readHeader (p := 3#3) (ext := []) (packet := packet3) (rest := [0]) (by rw [hin]; rfl) (by decide) hp
  refine ⟨hr, rfl, _, exec_ok (i := .unframe) (runUnframe_ok h (by decide) hp), rfl, ?_⟩
  have : container3.input.length ≤ container3.cfg.obufCap := by decide +kernel
  omega

theorem witness_CompressResult : State.reset.resetBlock.ready ∧ State.reset.resetBlock.ilen = 0#32
    ∧ (withInput State.reset [0x61, 0x61]).ready ∧ (withInput State.reset [0x61, 0x61]).ilen ≠ 0#32
    ∧ 3078 + (withInput State.reset [0x61, 0x61]).extlen.toNat + 32 * (withInput State.reset [0x61, 0x61]).ilen.toNat
      ≤ (withInput State.reset [0x61, 0x61]).cfg.obufCap :=
  ⟨witness_ready.1, rfl, witness_ready.2.2, by decide, by decide⟩

theorem witness_CompositesAreSequences : coded.fault = false := rfl

theorem witness_DecompressResult : (let tr : Tree := .leftOnly 0 0 0 (.leaf 1 0x41 5); let es := List.replicate 5 ((0x41 : Byte), [false])
    container3.ready ∧ container3.stream = containerHeader 3 [] (packetOf tr) ++ [0] ∧ tr.size ≤ container3.cfg.nodeCap
      ∧ (∀ e ∈ es, e ∈ tr.paths []) ∧ tr.isLeaf = false ∧ payload 3 [0] = es.flatMap Prod.snd ∧ es.length ≤ container3.cfg.obufCap) :=
  ⟨witness_UnframeResult.1, by decide +kernel, by decide, by decide, rfl, by decide, by decide⟩

/-- A successful COMPRESS of a small input. -/
theorem compress_succeeds : ∃ t, exec .compress (withInput State.reset [0x61, 0x61]) = .next t ∧ t.fault = false := by
  have : ∀ o, o = exec .compress (withInput State.reset [0x61, 0x61]) → (match o with | .next t => t.fault | _ => true) = false →
      ∃ t, o = .next t ∧ t.fault = false := by
    intro o _ h
    cases o with
    | next t => exact ⟨t, rfl, h⟩
    | fault _ => cases h
    | refused _ => cases h
  exact this _ rfl (by decide +kernel)

theorem witness_RoundTrip : ∃ s t u : State, s.ready ∧ exec .compress s = .next t ∧ t.fault = false ∧ u.ready ∧ u.stream = t.output
    ∧ s.extlen.toNat ≤ u.cfg.extCap ∧ s.ilen.toNat ≤ u.cfg.obufCap := by
  obtain ⟨t, ht, hf⟩ := compress_succeeds
  have hout : t.output = (after .compress (withInput State.reset [0x61, 0x61])).output := by rw [after, ht]
  refine ⟨withInput State.reset [0x61, 0x61], t, withInput State.reset
    [0, 0, 0, 6, 0, 0, 0, 0, 0, 0, 0, 0x0C, 0, 0, 0, 0, 0, 0x43, 0x61, 0, 0, 0, 2, 0x41, 0x00], witness_ready.2.2, ht, hf,
    ready_stream _ (by decide +kernel), ?_, by decide, by decide⟩
  rw [hout]
  decide +kernel

theorem witness_FrameAll : ∃ t, exec .rewind coded = .next t ∧ t.fault = false ∧ Part.olen ∉ writes .rewind :=
  ⟨_, rfl, rfl, by decide⟩

theorem witness_StoredBytes : packeted.ready ∧ ∃ t, exec .serialize packeted = .next t ∧ t.fault = false ∧ ¬ storesTo .serialize packeted t .tpkt 60
    ∧ ¬ storesTo .serialize packeted t .obuf 0 := by
  refine ⟨ready_packeted, _, exec_ok (i := .serialize) (runSerialize_ok ready_packeted.toReady rfl witness_SerializeResult.2.2), rfl, ?_,
    fun h => h⟩
  show ¬ 60 < (BitVec.ofNat 32 (packetOf abraTree).length).toNat
  decide

end Sys2Proof.Tests
end

section
/-! The reset state and the registers CMD and CTRL (spec 10_state R22, R23, R55; 70_reset R352). -/

namespace Sys2Proof.Machine

/-! ### What the block state says of CTRL and CMD (R68) -/

@[simp] theorem stateAllowsRead_ctrl (b : BlockState) : stateAllowsRead b (.reg .ctrl) = true := by cases b <;> rfl

@[simp] theorem stateAllowsRead_cmd (b : BlockState) : stateAllowsRead b (.reg .cmd) = true := by cases b <;> rfl

@[simp] theorem stateAllowsWrite_ctrl (b : BlockState) : stateAllowsWrite b (.reg .ctrl) = true := by cases b <;> rfl

@[simp] theorem stateAllowsWrite_cmd (b : BlockState) : stateAllowsWrite b (.reg .cmd) = true ↔ b = .idle := by
  cases b <;> simp [stateAllowsWrite]

/-! ### Transactions on CTRL and CMD -/

/-- A write the bus refuses is answered ERROR and changes nothing (R66). -/
theorem transact_write_of_busWrite_eq_none {s : State} {off size : Nat} {data : Word} (h : s.busWrite off size data = none) :
    s.transact off (.write size data) = (.error, s) := by
  simp only [State.transact, h]

theorem busRead_ctrl_eq (s : State) : s.busRead 0x04 4 = some s.ctrlWord :=
  (busRead_reg s .ctrl).trans (if_pos (stateAllowsRead_ctrl _))

theorem busRead_cmd_eq (s : State) : s.busRead 0x0C 4 = some s.cmd :=
  (busRead_reg s .cmd).trans (if_pos (stateAllowsRead_cmd _))

theorem busWrite_ctrl_eq (s : State) (w : Word) : s.busWrite 0x04 4 w
    = some (if w.getLsbD 31 then s.resetBlock else { s with ien := w.getLsbD 0 }) :=
  (busWrite_reg s .ctrl w).trans (if_pos (stateAllowsWrite_ctrl _))

theorem busWrite_cmd_eq (s : State) (w : Word) : s.busWrite 0x0C 4 w = if s.blockState = .idle then some (s.latch w) else none :=
  (busWrite_reg s .cmd w).trans (if_congr (stateAllowsWrite_cmd _) rfl rfl)

/-- IEN is bit 0 of the CTRL word; SRST and the reserved bits read 0 (R22). -/
theorem State.ctrlWord_getLsbD (s : State) (k : Nat) : s.ctrlWord.getLsbD k = (decide (k = 0) && s.ien) := by
  unfold State.ctrlWord
  rw [BitVec.getLsbD_ofNat]
  cases k with
  | zero => cases s.ien <;> rfl
  | succ j => cases s.ien <;> simp [Nat.testBit_succ]

/-! ### The tables and buffers after reset -/

theorem State.reset_freq_at (b : Byte) : State.reset.freq.at b = 0#32 := FreqTable.at_empty b

theorem State.reset_code_at (b : Byte) : State.reset.code.at b = none := CodeTable.at_empty b

theorem State.reset_cells (sp : Space) : State.reset.mem.cells sp = [] := Memory.blank_cells sp

/-! ### The obligations -/

/-- Settles O13: the registers and the line are fields of a literal record, the tables and buffers by their laws above. -/
theorem resetValues : Obligations.ResetValues := by
  refine ⟨rfl, rfl, rfl, rfl, rfl, rfl, rfl, rfl, rfl, rfl, rfl, rfl, rfl, rfl, rfl, rfl, rfl, rfl, rfl, ?freq, ?code, ?mem⟩
  case freq => exact State.reset_freq_at
  case code => exact State.reset_code_at
  case mem => exact State.reset_cells

/-- Settles O28, from the one equation of a CMD read and the one of a CMD write. -/
theorem cmdRegister : Obligations.CmdRegister := by
  refine ⟨rfl, fun s w => ⟨busRead_cmd_eq s, fun hidle => ?accepted, fun hidle => ?refused⟩⟩
  case accepted => rw [busWrite_cmd_eq, if_pos hidle, State.latch]
  case refused => exact transact_write_of_busWrite_eq_none (by rw [busWrite_cmd_eq, if_neg hidle])

/-- Settles O29: bit 31 of the word written chooses between the two branches of the one equation of a CTRL write. -/
theorem ctrlRegister : Obligations.CtrlRegister := by
  refine fun s w => ⟨⟨s.ctrlWord, busRead_ctrl_eq s, ?ien, fun k hk => ?zero⟩, fun h31 => ?kept, fun h31 => ?softReset⟩
  case ien => rw [State.ctrlWord_getLsbD, decide_eq_true rfl, Bool.true_and]
  case zero => rw [State.ctrlWord_getLsbD, decide_eq_false (Nat.ne_of_gt hk), Bool.false_and]
  case kept => rw [busWrite_ctrl_eq, if_neg (Bool.eq_false_iff.mp h31)]
  case softReset => rw [busWrite_ctrl_eq, if_pos h31, State.resetBlock]

end Sys2Proof.Machine
end

section
/-! The access rules of the bus (spec 20_memory R65, R66, R68) and the FREQ and CODE windows (R62, R63). -/

namespace Sys2Proof.Machine

/-! ### The ranges of the address map (R61) -/

/-- Offsets of the word windows: the register file, FREQ and CODE. -/
@[simp] def InWords (off : Nat) : Prop := off < 0x40 ∨ (0x400 ≤ off ∧ off < 0x800) ∨ (0x4000 ≤ off ∧ off < 0x8000)

@[simp] def InExt (off : Nat) : Prop := 0x100 ≤ off ∧ off < 0x200

@[simp] def InTpkt (off : Nat) : Prop := 0x1000 ≤ off ∧ off < 0x4000

@[simp] def InIbuf (off : Nat) : Prop := 0x1000000 ≤ off ∧ off < 0x2000000

@[simp] def InObuf (off : Nat) : Prop := 0x2000000 ≤ off ∧ off < 0x4000000

/-- Offsets of the byte windows. -/
@[simp] def InBytes (off : Nat) : Prop := InExt off ∨ InTpkt off ∨ InIbuf off ∨ InObuf off

/-- Offsets in no window. -/
@[simp] def InNoWindow (off : Nat) : Prop := ¬ (InWords off ∨ InBytes off)

/-- Item 1 of R66, with the widths of R65. -/
@[simp] def BadWidth (off size : Nat) : Prop := ¬ (InWords off ∧ size = 4 ∧ off % 4 = 0) ∧ ¬ (InBytes off ∧ size = 1)

/-- Item 2 of R66: a reserved offset, or one beyond the capacity of its window. -/
@[simp] def NoLocation (c : Config) (off : Nat) : Prop :=
  InNoWindow off ∨ (InExt off ∧ c.extCap ≤ off - 0x100) ∨ (InTpkt off ∧ c.tpktCap ≤ off - 0x1000)
    ∨ (InIbuf off ∧ c.ibufCap ≤ off - 0x1000000) ∨ (InObuf off ∧ c.obufCap ≤ off - 0x2000000)

/-- Item 3 of R66 for reads, from the table of R68. -/
@[simp] def ReadBarred (b : BlockState) (off : Nat) : Prop := b = .busy ∧ 0x10 ≤ off ∨ b = .faulted ∧ 0x18 ≤ off

/-- Item 3 of R66 for writes, from the table of R68. -/
@[simp] def WriteBarred (b : BlockState) (off : Nat) : Prop := b ≠ .idle ∧ off ≠ 0x04

/-- Item 4 of R66 for writes: the read-only registers, FREQ, CODE and OBUF. -/
@[simp] def ReadOnlyOffset (off : Nat) : Prop :=
  off ∈ [0x00, 0x10, 0x14, 0x1C, 0x20, 0x28, 0x2C, 0x3C] ∨ (0x400 ≤ off ∧ off < 0x800) ∨ (0x4000 ≤ off ∧ off < 0x8000) ∨ InObuf off

/-- Item 5 of R66: a buffer byte outside the valid part. -/
@[simp] def BeyondValid (s : State) (off : Nat) : Prop :=
  (InExt off ∧ s.extlen.toNat ≤ off - 0x100) ∨ (InTpkt off ∧ s.tplen.toNat ≤ off - 0x1000)
    ∨ (InObuf off ∧ s.olen.toNat ≤ off - 0x2000000)

/-- Item 6 of R66: a length above its capacity. -/
@[simp] def IllegalLength (c : Config) (off : Nat) (data : Word) : Prop :=
  (off = 0x18 ∧ c.ibufCap < data.toNat) ∨ (off = 0x30 ∧ c.tpktCap < data.toNat) ∨ (off = 0x34 ∧ c.extCap < data.toNat)

/-! ### The registers, by their offsets -/

theorem stateAllowsRead_reg_iff (b : BlockState) (r : Reg) :
    stateAllowsRead b (.reg r) = true ↔ ¬ ReadBarred b r.offset := by
  cases b <;> cases r <;> simp [stateAllowsRead, Reg.offset]

theorem stateAllowsWrite_reg_iff (b : BlockState) (r : Reg) :
    stateAllowsWrite b (.reg r) = true ↔ ¬ WriteBarred b r.offset := by
  cases b <;> cases r <;> simp [stateAllowsWrite, Reg.offset]

theorem writeReg_eq_none_iff (s : State) (data : Word) (r : Reg) :
    s.writeReg data r = none ↔ ReadOnlyOffset r.offset ∨ IllegalLength s.cfg r.offset data := by
  cases r <;> simp [State.writeReg, Reg.offset]

/-! ### The location at an offset -/

/-- What the host finds at an offset: a register at its own offset, a place in a window, or nothing. -/
inductive Located (off : Nat) : Location → Prop where
  | reg (r : Reg) (h : off = r.offset) : Located off (.reg r)
  | ext (h : InExt off) : Located off (.ext (off - 0x100))
  | freq (h : 0x400 ≤ off ∧ off < 0x800) (b : Byte) : Located off (.freq b)
  | tpkt (h : InTpkt off) : Located off (.tpkt (off - 0x1000))
  | code (h : 0x4000 ≤ off ∧ off < 0x8000) (b : Byte) (w : Nat) : Located off (.code b w)
  | ibuf (h : InIbuf off) : Located off (.ibuf (off - 0x1000000))
  | obuf (h : InObuf off) : Located off (.obuf (off - 0x2000000))
  | reserved (h : InNoWindow off) : Located off .reserved

/-- The address map as a table. `locate` rounds an offset in the register file down to its word, so there the offset must be
aligned. -/
theorem located_locate {off : Nat} (h4 : off < 0x40 → off % 4 = 0) : Located off (locate off) := by
  rcases locate_cases off with ⟨h, hl⟩ | ⟨h, h', hl⟩ | ⟨h, h', hl⟩ | ⟨h, h', hl⟩ | ⟨h, h', hl⟩ | ⟨h, h', hl⟩ | ⟨h, h', hl⟩ | ⟨h, hl⟩
    <;> rw [hl]
  · exact .reg _ (offset_regAt h (h4 h)).symm
  · exact .ext ⟨h, h'⟩
  · exact .freq ⟨h, h'⟩ _
  · exact .tpkt ⟨h, h'⟩
  · exact .code ⟨h, h'⟩ _ _
  · exact .ibuf ⟨h, h'⟩
  · exact .obuf ⟨h, h'⟩
  · exact .reserved (by simp; omega)

theorem sizeAllowed_locate_iff (off size : Nat) : sizeAllowed (locate off) off size = true ↔ ¬ BadWidth off size := by
  rcases locate_cases off with ⟨_, hl⟩ | ⟨_, _, hl⟩ | ⟨_, _, hl⟩ | ⟨_, _, hl⟩ | ⟨_, _, hl⟩ | ⟨_, _, hl⟩ | ⟨_, _, hl⟩ | ⟨_, hl⟩
    <;> simp [hl, sizeAllowed] <;> omega

section
variable {off : Nat} {l : Location}

theorem Located.withinCapacity_iff (h : Located off l) (c : Config) : withinCapacity c l = true ↔ ¬ NoLocation c off := by
  cases h with
  | reg r h =>
    have hlt := (locate_offset r).2.2
    simp [withinCapacity]
    omega
  | _ h => simp [withinCapacity] at h ⊢; omega

theorem Located.stateAllowsRead_iff (h : Located off l) (b : BlockState) : stateAllowsRead b l = true ↔ ¬ ReadBarred b off := by
  cases h with
  | reg r h => rw [h, stateAllowsRead_reg_iff]
  | _ h => cases b <;> simp [stateAllowsRead] at h ⊢ <;> omega

theorem Located.stateAllowsWrite_iff (h : Located off l) (b : BlockState) : stateAllowsWrite b l = true ↔ ¬ WriteBarred b off := by
  cases h with
  | reg r h => rw [h, stateAllowsWrite_reg_iff]
  | _ h => cases b <;> simp [stateAllowsWrite] at h ⊢ <;> omega

theorem Located.readLocation_eq_none_iff (h : Located off l) (s : State) :
    s.readLocation l = none ↔ InNoWindow off ∨ InIbuf off ∨ BeyondValid s off := by
  cases h with
  | reg r h =>
    have hlt := (locate_offset r).2.2
    simp [State.readLocation]
    omega
  | _ h => simp [State.readLocation] at h ⊢; omega

theorem Located.writeLocation_eq_none_iff (h : Located off l) (s : State) (data : Word) :
    s.writeLocation data l = none ↔ InNoWindow off ∨ ReadOnlyOffset off ∨ IllegalLength s.cfg off data := by
  cases h with
  | reg r h =>
    have hlt := (locate_offset r).2.2
    have hin : ¬ InNoWindow off := by simp; omega
    rw [or_iff_right hin, h, ← writeReg_eq_none_iff, State.writeLocation]
  | _ h => simp [State.writeLocation] at h ⊢; omega

end

/-! ### The conditions of an ERROR response (R66) -/

theorem aligned_of_not_badWidth {off size : Nat} (h : ¬ BadWidth off size) (hoff : off < 0x40) : off % 4 = 0 := by
  simp at h; omega

theorem busRead_eq_none_iff (s : State) (off size : Nat) : s.busRead off size = none
    ↔ BadWidth off size ∨ NoLocation s.cfg off ∨ ReadBarred s.blockState off ∨ InIbuf off ∨ BeyondValid s off := by
  simp only [State.busRead, ite_eq_right_iff, Bool.and_eq_true, sizeAllowed_locate_iff]
  by_cases hw : BadWidth off size
  · tauto
  · have hl := located_locate (aligned_of_not_badWidth hw)
    have hout : InNoWindow off → NoLocation s.cfg off := Or.inl
    rw [hl.withinCapacity_iff, hl.stateAllowsRead_iff, hl.readLocation_eq_none_iff]
    tauto

theorem busWrite_eq_none_iff (s : State) (off size : Nat) (data : Word) : s.busWrite off size data = none
    ↔ BadWidth off size ∨ NoLocation s.cfg off ∨ WriteBarred s.blockState off ∨ ReadOnlyOffset off ∨ IllegalLength s.cfg off data := by
  simp only [State.busWrite, ite_eq_right_iff, Bool.and_eq_true, sizeAllowed_locate_iff]
  by_cases hw : BadWidth off size
  · tauto
  · have hl := located_locate (aligned_of_not_badWidth hw)
    have hout : InNoWindow off → NoLocation s.cfg off := Or.inl
    rw [hl.withinCapacity_iff, hl.stateAllowsWrite_iff, hl.writeLocation_eq_none_iff]
    tauto

theorem transact_read_of_busRead_eq_none {s : State} {off size : Nat} (h : s.busRead off size = none) :
    s.transact off (.read size) = (.error, s) := by
  simp only [State.transact, h]

/-! ### The access table (R68) -/

theorem busRead_of_idle {s : State} (hi : s.blockState = .idle) {off size : Nat} (hs : sizeAllowed (locate off) off size = true)
    (hc : withinCapacity s.cfg (locate off) = true) : s.busRead off size = s.readLocation (locate off) := by
  simp only [State.busRead, hs, hc, hi, stateAllowsRead_idle, Bool.and_self, if_true]

theorem busWrite_of_idle {s : State} (hi : s.blockState = .idle) {off size : Nat} {data : Word}
    (hs : sizeAllowed (locate off) off size = true) (hc : withinCapacity s.cfg (locate off) = true) :
    s.busWrite off size data = s.writeLocation data (locate off) := by
  simp only [State.busWrite, hs, hc, hi, stateAllowsWrite_idle', Bool.and_self, if_true]

/-- Outside Idle only the register file is read, and of it what the block state does not bar. -/
theorem busRead_isSome_iff_of_not_idle {s : State} (hi : s.blockState ≠ .idle) (off size : Nat) :
    (∃ v, s.busRead off size = some v) ↔ size = 4 ∧ off % 4 = 0 ∧ off < 0x40 ∧ ¬ ReadBarred s.blockState off := by
  by_cases hoff : off < 0x40
  · have hr (h4 : off % 4 = 0) : stateAllowsRead s.blockState (.reg (regAt (off / 4))) = true ↔ ¬ ReadBarred s.blockState off := by
      rw [stateAllowsRead_reg_iff, offset_regAt hoff h4]
    simp only [busRead_low hoff, Option.ite_none_right_eq_some, Option.some.injEq, exists_and_left, exists_eq', and_true, hoff, true_and]
    exact and_congr_right fun _ => and_congr_right hr
  · rw [busRead_high (by omega), if_neg fun h => hi h.1]
    simp [hoff]

/-- Outside Idle only CTRL is written. -/
theorem busWrite_isSome_iff_of_not_idle {s : State} (hi : s.blockState ≠ .idle) (off size : Nat) (data : Word) :
    (∃ t, s.busWrite off size data = some t) ↔ size = 4 ∧ off = 0x04 := by
  constructor
  · rintro ⟨t, h⟩
    obtain ⟨hoff, hsize, _⟩ := busWrite_ctrl hi h
    exact ⟨hsize, hoff⟩
  · rintro ⟨rfl, rfl⟩
    exact ⟨_, busWrite_ctrl_eq s data⟩

/-! ### The FREQ window (R62) and the CODE window (R63) -/

theorem locate_freqOffset (b : Byte) : locate (0x400 + 4 * b.toNat) = .freq b := by
  have hb : b.toNat < 256 := b.isLt
  have e : BitVec.ofNat 8 ((0x400 + 4 * b.toNat - 0x400) / 4) = b := by bv_omega
  rw [locate]
  iterate 4 rw [if_neg (by omega)]
  rw [if_pos (by omega), e]

theorem locate_codeOffset (b : Byte) {w : Nat} (hw : w < 16) : locate (0x4000 + 64 * b.toNat + 4 * w) = .code b w := by
  have hb : b.toNat < 256 := b.isLt
  have e : BitVec.ofNat 8 ((0x4000 + 64 * b.toNat + 4 * w - 0x4000) / 64) = b := by bv_omega
  have e' : (0x4000 + 64 * b.toNat + 4 * w - 0x4000) % 64 / 4 = w := by omega
  rw [locate]
  iterate 7 rw [if_neg (by omega)]
  rw [if_pos (by omega), e, e']

theorem busRead_freq_of_idle {s : State} (hi : s.blockState = .idle) (b : Byte) :
    s.busRead (0x400 + 4 * b.toNat) 4 = some (s.freq.at b) := by
  have h4 : (0x400 + 4 * b.toNat) % 4 = 0 := by omega
  simp [State.busRead, locate_freqOffset, sizeAllowed, withinCapacity, State.readLocation, hi, h4]

theorem busRead_code_of_idle {s : State} (hi : s.blockState = .idle) (b : Byte) {w : Nat} (hw : w < 16) :
    s.busRead (0x4000 + 64 * b.toNat + 4 * w) 4 = some (codeWord (s.code.at b) w) := by
  have h4 : (0x4000 + 64 * b.toNat + 4 * w) % 4 = 0 := by omega
  simp [State.busRead, locate_codeOffset, hw, sizeAllowed, withinCapacity, State.readLocation, hi, h4]

/-- A write that no location takes is refused whatever its width. -/
theorem busWrite_eq_none_of_writeLocation {s : State} {off : Nat} {data : Word} (h : s.writeLocation data (locate off) = none)
    (size : Nat) : s.busWrite off size data = none := by
  simp only [State.busWrite, h, ite_self]

/-- The words after the code's eight read 0. -/
theorem codeWord_unused (e : CodeEntry) {w : Nat} (hw : 9 ≤ w) : codeWord e w = 0#32 := by
  cases e with
  | none => rfl
  | some bits => rw [codeWord, if_neg (by omega), if_neg (by omega)]

/-! ### The obligations -/

/-- Settles O23: R66 item by item, the six conditions each read off the location at the offset. -/
theorem errorConditions : Obligations.ErrorConditions :=
  fun s off size data => ⟨busRead_eq_none_iff s off size, busWrite_eq_none_iff s off size data, transact_read_of_busRead_eq_none,
    transact_write_of_busWrite_eq_none⟩

/-- Settles O24: outside Idle an answered access is in the register file, and the table of R68 lists its registers. -/
theorem accessByBlockState : Obligations.AccessByBlockState := by
  refine fun s => ⟨fun hb => ?busy, fun hf => ?faulted, fun hi => ⟨fun _ _ => busRead_of_idle hi, fun _ _ _ => busWrite_of_idle hi⟩⟩
  case busy =>
    have hi : s.blockState ≠ .idle := by simp [hb]
    refine ⟨fun off size => (busRead_isSome_iff_of_not_idle hi off size).trans ?_, busWrite_isSome_iff_of_not_idle hi⟩
    simp [hb]
    omega
  case faulted =>
    have hi : s.blockState ≠ .idle := by simp [hf]
    refine ⟨fun off size => (busRead_isSome_iff_of_not_idle hi off size).trans ?_, busWrite_isSome_iff_of_not_idle hi⟩
    simp [hf]
    omega

/-- Settles O26: the offset names the entry, and an entry of FREQ takes no write. -/
theorem freqWindow : Obligations.FreqWindow :=
  fun s b data hi => ⟨busRead_freq_of_idle hi b, busWrite_eq_none_of_writeLocation (by rw [locate_freqOffset, State.writeLocation]) 4⟩

/-- Settles O27: the offset names the slot's word, whose bits are those of `codeWord` in its three ranges. -/
theorem codeWindow : Obligations.CodeWindow := by
  refine fun s b w data hi hw => ⟨busWrite_eq_none_of_writeLocation ?write 4, _, busRead_code_of_idle hi b hw, fun hn => ?invalid,
    fun bits hb hlen => ⟨fun h0 => ?header, fun h1 h8 i h => ?bits, codeWord_unused _⟩⟩
  case write => rw [locate_codeOffset b hw, State.writeLocation]
  case invalid => rw [hn, codeWord]
  case header => rw [hb, h0]; exact codeWord_zero hlen
  case bits => rw [hb]; exact codeWord_bits bits h1 h8 h

end Sys2Proof.Machine
end

section
/-! Command words by their fields `zero` and `op`, and CORE's step on a word that is none (spec 30_encoding R100, R101, R105). -/

namespace Sys2Proof

/-! ### The two fields of a word (R100) -/

theorem extractLsb'_eq_zeroField (w : Word) : w.extractLsb' 8 24 = zeroField w := BitVec.eq_of_toNat_eq (by simp [zeroField])

theorem extractLsb'_eq_opField (w : Word) : w.extractLsb' 0 8 = opField w := BitVec.eq_of_toNat_eq (by simp [opField])

/-- The two fields make up the word. -/
theorem word_ext {w v : Word} (hz : zeroField w = zeroField v) (ho : opField w = opField v) : w = v := by
  unfold zeroField at hz
  unfold opField at ho
  bv_omega

@[simp] theorem zeroField_encode (i : Instr) : zeroField (encode i) = 0#24 := by cases i <;> rfl

/-! ### The decoder by the two fields (R101, R104) -/

/-- The opcode map holds each command's own opcode and nothing else. -/
theorem commandOfOpcode_eq_some_iff {op : Byte} {i : Instr} : commandOfOpcode op = some i ↔ op = opField (encode i) := by
  constructor
  · intro h
    unfold commandOfOpcode at h
    split at h <;> cases h
    all_goals exact BitVec.eq_of_toNat_eq ‹_›
  · rintro rfl
    cases i <;> rfl

theorem decode_eq_ok_iff_fields {w : Word} {i : Instr} : decode w = .ok i ↔ zeroField w = 0#24 ∧ opField w = opField (encode i) := by
  rw [← commandOfOpcode_eq_some_iff, decode]
  by_cases hz : zeroField w = 0#24
  · cases hc : commandOfOpcode (opField w) <;> simp [hz]
  · simp [hz]

theorem decode_eq_ok_iff_encode {w : Word} {i : Instr} : decode w = .ok i ↔ w = encode i := by
  rw [decode_eq_ok_iff_fields]
  constructor
  · rintro ⟨hz, ho⟩
    exact word_ext (hz.trans (zeroField_encode i).symm) ho
  · rintro rfl
    exact ⟨zeroField_encode i, rfl⟩

/-- The decoder has two outcomes: a word that decodes to no command is an error. -/
theorem exists_decode_error {w : Word} (h : ∀ i, decode w ≠ .ok i) : ∃ e, decode w = .error e := by
  cases hd : decode w with
  | error e => exact ⟨e, rfl⟩
  | ok i => exact absurd hd (h i)

end Sys2Proof

namespace Sys2Proof.Machine

/-! ### CORE's turn on a latched illegal word (R105) -/

theorem coreTurn_of_decode_error {s : State} {e : DecodeError} (hb : s.busy = true) (hd : decode s.cmd = .error e) :
    coreTurn s = .next (s.takeFault .illegalCommand s.cmd) := by
  simp only [coreTurn, coreStep, hb, hd, if_true, illegalCommand]

/-! ### The obligations -/

/-- Settles O3: a word decodes to a command exactly when its field `zero` is 0 and its field `op` is the command's. -/
theorem wordsDecoded : Obligations.WordsDecoded := by
  intro w
  simp only [extractLsb'_eq_zeroField, extractLsb'_eq_opField]
  refine ⟨fun h => exists_decode_error fun i hi => ?illegal, fun i hz ho => decode_eq_ok_iff_fields.mpr ⟨hz, ho⟩⟩
  case illegal =>
    obtain ⟨hz, ho⟩ := decode_eq_ok_iff_fields.mp hi
    rcases h with hzero | hop
    · exact hzero hz
    · exact hop i ho

/-- Settles O4: the Idle block latches the word, which decodes to no command, and CORE's turn takes the fault. -/
theorem illegalWordFaults : Obligations.IllegalWordFaults := by
  intro s w hidle hw
  obtain ⟨e, he⟩ : ∃ e, decode w = .error e := exists_decode_error fun i hi => hw i (decode_eq_ok_iff_encode.mp hi)
  have hlatched : s.busWrite 0x0C 4 w = some (s.latch w) := by rw [busWrite_cmd_eq, if_pos hidle]
  have hturn : coreTurn (s.latch w) = .next ((s.latch w).takeFault .illegalCommand w) :=
    coreTurn_of_decode_error (s.latch_busy w) he
  exact ⟨s.latch w, _, hlatched, (blockState_busy_iff _).mpr (s.latch_busy w), hturn, faultedBy_takeFault _ _ _⟩

end Sys2Proof.Machine
end

section
/-! NOP, REWIND and CLROUT, and the output stream after CLROUT (spec 40_control R140 to R142). -/

namespace Sys2Proof.Machine

/-! ### The output stream below its capacity and beyond OLEN -/

/-- Item 5 of R66 for OBUF: in every block state, an offset that is not below OLEN is not readable. -/
theorem busRead_obuf_beyond_olen {s : State} {i : Nat} (hi : i < 2 ^ 25) (hlen : s.olen.toNat ≤ i) :
    s.busRead (0x2000000 + i) 1 = none := by
  have hbeyond : BeyondValid s (0x2000000 + i) := .inr (.inr ⟨⟨by omega, by omega⟩, by omega⟩)
  exact (busRead_eq_none_iff s _ 1).mpr (.inr (.inr (.inr (.inr hbeyond))))

/-- Below the capacity `emit` writes the byte at the length it finds, whatever the capacity. -/
theorem emit_ok_of_lt {o : OutPort} (v : Byte) (h : o.len.toNat < o.cap) : emit v o = .ok (o.extend [v]) := by
  rcases emit_cases v o with ⟨_, hok⟩ | ⟨hfull, _⟩
  · exact hok
  · omega

theorem OutPort.lookupCell_extend_singleton (o : OutPort) (v : Byte) :
    lookupCell (o.extend [v]).cells o.len.toNat = some v :=
  lookupCell_storeCell_same o.cells o.len.toNat v

/-! ### The obligations -/

/-- Settles O32: the three pseudocodes end `.ok`, so CORE completes on their states; OLEN = 0 then bars every read of OBUF and puts
the next emitted byte first. -/
theorem controlCommands : Obligations.ControlCommands := by
  refine fun s => ⟨exec_ok (i := .nop) (t := s) rfl, exec_ok (i := .rewind) (t := s.setIcur 0#32) rfl,
    (s.setOlen 0#32).complete, exec_ok (i := .clrout) rfl, rfl, fun _ => rfl,
    fun i hi => busRead_obuf_beyond_olen hi (Nat.zero_le i), fun hcap v => ?emit⟩
  case emit =>
    have hok := emit_ok_of_lt (o := (s.setOlen 0#32).complete.outPort) v hcap
    exact ⟨_, hok, rfl, OutPort.lookupCell_extend_singleton _ v⟩

end Sys2Proof.Machine
end

section
/-! COUNT: the counts of the unread input (spec 41_count R150 to R152). -/

namespace Sys2Proof.Machine

/-- A byte is present in COUNT's table exactly when it occurs in the stream, in terms of the entry itself. -/
theorem countBytes_at_ne_zero_iff {bytes : List Byte} (h : bytes.length < 2 ^ 32) (b : Byte) :
    (countBytes bytes).at b ≠ 0#32 ↔ b ∈ bytes := by
  rw [← countBytes_present h b, FreqTable.present, bne_iff_ne]

theorem State.mem_bytesFrom_iff (s : State) (sp : Space) (off n : Nat) (b : Byte) :
    b ∈ s.bytesFrom sp off n ↔ ∃ i, i < n ∧ s.readByte sp (off + i) = b := by
  simp [State.bytesFrom]

/-- The bytes of the unread input are those at the offsets `ICUR .. ILEN` of IBUF (R29). -/
theorem State.mem_input_iff (s : State) (b : Byte) :
    b ∈ s.input ↔ ∃ a, s.icur.toNat ≤ a ∧ a < s.ilen.toNat ∧ s.readByte .ibuf a = b := by
  rw [State.input, State.mem_bytesFrom_iff, State.inputLeft]
  constructor
  · rintro ⟨i, hi, hb⟩
    exact ⟨s.icur.toNat + i, by omega, by omega, hb⟩
  · rintro ⟨a, hlo, hhi, hb⟩
    exact ⟨a - s.icur.toNat, by omega, by rwa [Nat.add_sub_cancel' hlo]⟩

/-- Settles O33: COUNT's pseudocode ends `.ok` with the table of the unread input, which is short enough that no entry wraps. -/
theorem countResult : Obligations.CountResult := by
  intro s hs
  have hready : Ready s := hs.toReady
  have hlen : s.input.length < 2 ^ 32 := hready.input_length
  have hexec : exec .count s = .next ((s.setFreq (countBytes s.input)).consumeInput).complete :=
    exec_ok (i := .count) (runCount_ok hready)
  refine ⟨_, hexec, rfl, hs.2, rfl, fun b => countBytes_toNat hlen b, ?sum, fun b => ?present⟩
  case sum => exact (countBytes_sum hlen).trans s.input_length
  case present => exact (countBytes_at_ne_zero_iff hlen b).trans (s.mem_input_iff b)

end Sys2Proof.Machine
end

section
/-! BUILD on no symbol, on one, and as a chain of merges (spec 42_build R160 to R169). -/

namespace Sys2Proof.Machine

/-! ### The present symbols (R162) -/

/-- The present symbols come in ascending order (10_state R41). -/
theorem FreqTable.symbols_sorted (f : FreqTable) : f.symbols.Pairwise fun c d => c.toNat < d.toNat := allSymbols_sorted.filter _

theorem FreqTable.symbols_eq_nil {f : FreqTable} (h : ∀ b, f.at b = 0#32) : f.symbols = [] :=
  List.eq_nil_iff_forall_not_mem.mpr fun b hb => (mem_symbols_iff f b).mp hb (h b)

/-- A sole present symbol is the whole list of them, which has no duplicates. -/
theorem FreqTable.symbols_eq_singleton {f : FreqTable} {b : Byte} (hb : f.at b ≠ 0#32) (h : ∀ a, a ≠ b → f.at a = 0#32) :
    f.symbols = [b] := by
  refine List.perm_singleton.mp ((List.perm_ext_iff_of_nodup f.symbols_nodup (List.nodup_singleton b)).mpr fun a => ?_)
  rw [mem_symbols_iff, List.mem_singleton]
  refine ⟨fun ha => ?only, fun hab => hab ▸ hb⟩
  case only =>
    by_contra hab
    exact ha (h a hab)

/-! ### BUILD as a command -/

theorem runBuild_raise {s : State} {c : Cause} (h : buildTree s.freq s.sent = raise c) : runBuild s = raise c := by
  rw [runBuild, h]
  rfl

/-- BUILD that makes a tree completes with it installed. -/
theorem exec_build_ok {s : State} {tr : Tree} (h : buildTree s.freq s.sent = .ok tr) :
    exec .build s = .next (s.installTree tr).complete := exec_ok (i := .build) (runBuild_ok h)

/-! ### The working lists (R166) -/

/-- As long as a list has two nodes left to merge, the next working list is one merge on. -/
theorem workList_step (sent : Byte) (k : Nat) {l : List Tree} {n : Nat} (h : n + 1 < l.length) :
    mergeStep sent (k + n) (workList sent k l n) (workList sent k l (n + 1)) := by
  have hlen := workList_length sent k l n (Nat.le_of_lt h)
  exact mergeOnce_step sent (k + n) (by omega)

/-- The last working list is the tree BUILD gives, alone. -/
theorem buildTree_eq_workList {f : FreqTable} (sent : Byte) (h : 2 ≤ f.symbols.length) : ∃ tr, buildTree f sent = .ok tr
    ∧ workList sent f.symbols.length (leaves f) (f.symbols.length - 1) = [tr] := by
  have hlen : (workList sent f.symbols.length (leaves f) (f.symbols.length - 1)).length = 1 := by
    have hsum := workList_length sent f.symbols.length (leaves f) (f.symbols.length - 1) (by rw [leaves_length]; omega)
    rw [leaves_length] at hsum
    omega
  obtain ⟨tr, htr⟩ := List.length_eq_one_iff.mp hlen
  exact ⟨tr, by rw [buildTree_eq_mergeMany sent h, mergeMany_eq_workList, htr], htr⟩

/-! ### The obligations -/

/-- Settles O34: the list of present symbols is empty or a singleton, and BUILD has a case for each. -/
theorem buildEmptyOrSingle : Obligations.BuildEmptyOrSingle := by
  refine ⟨fun s hnone => ?empty, fun s b hb hothers => ?single⟩
  case empty => exact exec_faults (runBuild_raise (buildTree_empty s.sent (FreqTable.symbols_eq_nil hnone)))
  case single =>
    have htree := buildTree_single s.sent (FreqTable.symbols_eq_singleton hb hothers)
    exact ⟨_, _, exec_build_ok htree, rfl, rfl, rfl, rfl, rfl, rfl, rfl⟩

/-- Settles O36: the working lists are `workList`, each one merge on from the one before; the last holds the tree alone. -/
theorem buildMergesLeast : Obligations.BuildMergesLeast := by
  intro s a b _ hab ha hb
  obtain ⟨tr, htree, hlast⟩ := buildTree_eq_workList s.sent (two_symbols hab ha hb)
  exact ⟨_, tr, s.freq.symbols, workList s.sent s.freq.symbols.length (leaves s.freq), exec_build_ok htree, rfl,
    s.freq.symbols_sorted, mem_symbols_iff s.freq, rfl, fun n hn => workList_step _ _ (by rwa [leaves_length]), hlast⟩

end Sys2Proof.Machine
end

section
/-! GENCODES at the first leaf that faults (spec 43_gencodes R182 to R185). -/

namespace Sys2Proof.Machine

/-! ### Recording one leaf that faults -/

/-- The depth is looked at before the value (R181), so a leaf too deep faults whatever the table holds. -/
theorem recordLeaf_of_deep {v : Byte} {p : BitString} (c : CodeTable) (hdeep : maxLen < p.length) :
    recordLeaf v p c = raise .codeTooLong v.toNat := by
  have hbelow : p.length ≠ 0 := by omega
  rw [recordLeaf, if_neg hbelow, if_pos hdeep]

theorem recordLeaf_of_valid {v : Byte} {p : BitString} {c : CodeTable} (hbelow : 1 ≤ p.length) (hlen : p.length ≤ maxLen)
    (hvalid : c.valid v = true) : recordLeaf v p c = raise .duplicateSymbol v.toNat := by
  rw [recordLeaf, if_neg (Nat.ne_of_gt hbelow), if_neg (Nat.not_lt.mpr hlen), if_pos hvalid]

/-! ### The leaves recorded before it -/

theorem putAll_empty_valid_iff {es : List (Byte × BitString)} (hnd : (es.map Prod.fst).Nodup) (b : Byte) :
    (putAll es CodeTable.empty).valid b = true ↔ b ∈ es.map Prod.fst := by
  simp [CodeTable.valid, Option.isSome_iff_exists, putAll_empty_iff hnd]

/-- Recording ends at the first leaf that faults, on the table of the leaves before it. -/
theorem recordAll_append_cons_error {before after : List (Byte × BitString)} {e : Byte × BitString} {c : CodeTable} {x : Stop}
    (hbefore : Recordable before c) (he : recordLeaf e.1 e.2 (putAll before c) = .error x) :
    recordAll (before ++ e :: after) c = .error x := by
  simp only [recordAll_append, recordAll_ok hbefore, recordAll, he]

/-- Leaves below the root, none too deep and of different values, can all be recorded in the empty table. -/
theorem recordable_of_paths_eq_append {tr : Tree} {before after : List (Byte × BitString)} (hroot : tr.isLeaf = false)
    (hpaths : tr.paths [] = before ++ after) (hlen : ∀ e ∈ before, e.2.length ≤ maxLen) (hnd : (before.map Prod.fst).Nodup) :
    Recordable before CodeTable.empty := by
  refine ⟨fun e he => ⟨?below, hlen e he, CodeTable.at_empty e.1⟩, hnd⟩
  case below => exact Tree.paths_ne_nil hroot e (hpaths ▸ List.mem_append_left after he)

/-! ### GENCODES as a command -/

/-- GENCODES faults as recording its first faulting leaf does. -/
theorem gencodes_faults_of_recordLeaf {s : State} {tr : Tree} {before after : List (Byte × BitString)} {v : Byte} {p : BitString}
    {c : Cause} {info : Nat} (ht : s.tree = some tr) (hpaths : tr.paths [] = before ++ (v, p) :: after)
    (hbefore : Recordable before CodeTable.empty) (hleaf : recordLeaf v p (putAll before CodeTable.empty) = raise c info) :
    faults .gencodes s c info := by
  have hwalk : walk tr [] CodeTable.empty = raise c info := by
    rw [walk_eq_recordAll, hpaths]
    exact recordAll_append_cons_error hbefore hleaf
  exact exec_faults (i := .gencodes) (runGencodes_error ht hwalk)

theorem runGencodes_of_tree_none {s : State} (h : s.tree = none) : runGencodes s = raise .absentTree 2 := by
  rw [runGencodes, h]

/-- Settles O38: without a tree or on a root that is a leaf nothing is recorded; otherwise all leaves before the faulting one are
recorded, and the table then holds exactly their values. -/
theorem gencodesFaults : Obligations.GencodesFaults := by
  refine fun s => ⟨fun hnone => ?absent, fun k v f hleaf => ?root,
    fun tr before v p after ht hroot hpaths hlen hnd => ⟨fun hdeep => ?deep, fun hp hv => ?duplicate⟩⟩
  case absent => exact exec_faults (i := .gencodes) (runGencodes_of_tree_none hnone)
  case root =>
    have hwalk : walk (.leaf k v f) [] CodeTable.empty = raise .rootLeaf v.toNat := rfl
    exact exec_faults (i := .gencodes) (runGencodes_error hleaf hwalk)
  case deep =>
    exact gencodes_faults_of_recordLeaf ht hpaths (recordable_of_paths_eq_append hroot hpaths hlen hnd) (recordLeaf_of_deep _ hdeep)
  case duplicate =>
    have hbelow : 1 ≤ p.length := Tree.paths_ne_nil hroot (v, p) (by simp [hpaths])
    exact gencodes_faults_of_recordLeaf ht hpaths (recordable_of_paths_eq_append hroot hpaths hlen hnd)
      (recordLeaf_of_valid hbelow hp ((putAll_empty_valid_iff hnd v).mpr hv))

end Sys2Proof.Machine
end

section
/-! The faults of SERIALIZE and DESERIALIZE (spec 44_treecodec R192, R193, R201 to R207). -/

namespace Sys2Proof.Machine

/-! ### SERIALIZE as a command -/

theorem runSerialize_of_tree_none {s : State} (h : s.tree = none) : runSerialize s = raise .absentTree 1 := by
  rw [runSerialize, h]

/-- `runSerialize_negative` with the records before the first negative one as a list of their own. -/
theorem runSerialize_of_records_eq_append {s : State} {tr : Tree} {before after : List TreeRecord} {r : TreeRecord}
    (ht : s.tree = some tr) (hrec : tr.records = before ++ r :: after) (hneg : 2 ^ 31 ≤ r.freq.toNat)
    (hbefore : ∀ q ∈ before, q.freq.toNat < 2 ^ 31) : runSerialize s = raise .negativeInteger before.length := by
  have hj : before.length < tr.records.length := by simp [hrec]
  refine runSerialize_negative ht hj (by simpa [hrec] using hneg) fun i hi => ?_
  have hget : tr.records[i] = before[i] := by simp [hrec, hi]
  rw [hget]
  exact hbefore _ (List.getElem_mem hi)

/-! ### The checks of DESERIALIZE on the packet -/

theorem treeOfPacket_of_length_zero {packet : List Byte} (h : packet.length = 0) : treeOfPacket packet = raise .emptyPacket := by
  rw [treeOfPacket, if_pos h]

theorem treeOfPacket_of_misaligned {packet : List Byte} (h : packet.length % 6 ≠ 0) :
    treeOfPacket packet = raise .misalignedPacket packet.length := by
  have hne : packet.length ≠ 0 := fun h0 => h (by rw [h0])
  rw [treeOfPacket, if_neg hne, if_pos h]

/-- The length checks let whole records through, and the parse stops at the first bad flag (R203). -/
theorem treeOfPacket_of_badFlag {before after : List TreeRecord} {r : TreeRecord} (hb : ∀ q ∈ before, isFlag q.flag = true)
    (hr : isFlag r.flag = false) :
    treeOfPacket ((before ++ r :: after).flatMap packetRecord) = raise .badFlag before.length := by
  have hne : ((before ++ r :: after).flatMap packetRecord).length ≠ 0 := by simp
  have haligned : ¬ ((before ++ r :: after).flatMap packetRecord).length % 6 ≠ 0 := by simp
  rw [treeOfPacket, if_neg hne, if_neg haligned, parseRecords_badFlag 0 hb hr, Nat.zero_add]
  rfl

/-- DESERIALIZE faults as its checks on the packet do. -/
theorem deserialize_faults_of_treeOfPacket {s : State} (h : s.ready) {c : Cause} {info : Nat}
    (hp : treeOfPacket s.packet = raise c info) : faults .deserialize s c info :=
  exec_faults (i := .deserialize) (runDeserialize_error h.toReady hp)

/-! ### The obligations -/

/-- Settles O42: without a tree nothing is written; otherwise the records are written up to the first negative frequency. -/
theorem serializeFaults : Obligations.SerializeFaults := by
  refine fun s => ⟨fun hnone => ?absent, fun tr before r after ht hrec hneg hbefore => ?negative⟩
  case absent => exact exec_faults (i := .serialize) (runSerialize_of_tree_none hnone)
  case negative => exact exec_faults (i := .serialize) (runSerialize_of_records_eq_append ht hrec hneg hbefore)

/-- Settles O44: the checks on the packet in the order of R200, each fault from the lemma on its check or phase. -/
theorem deserializeFaults : Obligations.DeserializeFaults := by
  refine fun s hready => ⟨fun hempty => ?empty, fun hmisaligned => ?misaligned,
    fun before r after hpacket hbefore hr => ?badFlag,
    fun tr rs missing k n hrs hmissing hrec hpacket hk hchild => ?underrun,
    fun tr extra hextra hflags hpacket => ?trailing⟩ <;> apply deserialize_faults_of_treeOfPacket hready
  case empty => exact treeOfPacket_of_length_zero (by rw [packet_length, hempty]; rfl)
  case misaligned =>
    rw [← packet_length] at hmisaligned ⊢
    exact treeOfPacket_of_misaligned hmisaligned
  case badFlag => rw [hpacket]; exact treeOfPacket_of_badFlag hbefore hr
  case underrun => rw [hpacket]; exact treeOfPacket_underrun hrs hmissing hrec hk hchild
  case trailing => rw [hpacket]; exact treeOfPacket_trailing tr hextra hflags

end Sys2Proof.Machine
end

section
/-! PADCALC on tables with the same keys: the exact total and its padding (spec 45_padcalc R220, R221, R223). -/

namespace Sys2Proof.Machine

/-- No mismatch is found exactly when the present symbols are those with codes, in terms of the entries themselves (R222). -/
theorem tableMismatch_none_iff_same_keys (f : FreqTable) (c : CodeTable) :
    tableMismatch f c = none ↔ ∀ b, f.at b ≠ 0#32 ↔ c.valid b = true := by
  rw [tableMismatch_none_iff]
  refine forall_congr' fun b => ?_
  rw [Bool.eq_iff_iff, FreqTable.present, bne_iff_ne]

theorem paddingOf_eq_zero_iff (t : Nat) : paddingOf t = 0 ↔ t % 8 = 0 := by unfold paddingOf; omega

/-- PADCALC without a mismatch completes with the exact total and its padding: on a legal state both fit their registers (R221). -/
theorem exec_padcalc_ok {s : State} (h : Ready s) (hm : tableMismatch s.freq s.code = none) :
    ∃ t, exec .padcalc s = .next t ∧ t.done = true ∧ t.totbits.toNat = totalBits s.freq s.code
      ∧ t.pad.toNat = paddingOf (totalBits s.freq s.code) := by
  have htot : totalBits s.freq s.code < 2 ^ 40 := h.totalBits.trans (by decide)
  have hpad : paddingOf (totalBits s.freq s.code) < 2 ^ 3 := paddingOf_lt _
  exact ⟨_, exec_ok (i := .padcalc) (runPadcalc_ok hm), rfl, Nat.mod_eq_of_lt htot, Nat.mod_eq_of_lt hpad⟩

/-- Settles O39: equal key sets leave no mismatch, so PADCALC completes with the exact total and its padding; the rest is R221 and
R223 on the two numbers. -/
theorem padcalcResult : Obligations.PadcalcResult := by
  intro s hs hkeys
  have hready : Ready s := hs.toReady
  obtain ⟨t, hexec, hdone, htot, hpad⟩ :=
    exec_padcalc_ok hready ((tableMismatch_none_iff_same_keys s.freq s.code).mpr hkeys)
  have hpad' : t.pad.toNat = paddingOf t.totbits.toNat := by rw [hpad, htot]
  refine ⟨t, hexec, hdone, htot.trans (totalBits_eq s.freq s.code), htot.trans_lt hready.totalBits, hpad', ?multiple, ?aligned⟩
  case multiple => rw [hpad', paddingOf_mod]
  case aligned => rw [← paddingOf_eq_zero_iff, ← hpad', ← BitVec.toNat_inj]; rfl

end Sys2Proof.Machine
end

section
/-! PACK as a command: the payload it appends, and where it faults (spec 46_pack R231 to R236). -/

namespace Sys2Proof.Machine

/-! ### An exhausted input stream -/

theorem State.consumedIcur_of_ilen_le {s : State} (h : s.ilen.toNat ≤ s.icur.toNat) : s.consumedIcur = s.icur := by
  rw [State.consumedIcur]
  split
  · exact BitVec.eq_of_toNat_eq (by omega)
  · rfl

theorem Ready.room_zero {s : State} (h : Ready s) : s.room 0 := h.olen

/-- An exhausted stream holds no byte without a code and no code bits. -/
theorem State.codes_of_ilen_le {s : State} (h : s.ilen.toNat ≤ s.icur.toNat) :
    codedAll s.code s.input ∧ codeBits s.code s.input = [] := by
  rw [State.input_nil h]
  exact ⟨fun _ hv => absurd hv List.not_mem_nil, List.flatMap_nil⟩

/-! ### PACK as a command -/

/-- PACK that gets its bytes out completes with the output longer by them and the input consumed. -/
theorem exec_pack_ok {s : State} (h : Ready s) {bs : List Byte} (hfit : s.outPort.fits bs.length)
    (hp : packStream s.code s.pad s.icur.toNat s.input s.outPort = .ok (s.outPort.extend bs)) :
    ∃ t, exec .pack s = .next t ∧ t.done = true ∧ t.icur = s.consumedIcur ∧ t.output = s.output ++ bs
      ∧ t.olen.toNat = s.olen.toNat + bs.length := by
  obtain ⟨hout, holen⟩ := output_extend hfit
  exact ⟨_, exec_ok (i := .pack) (runPack_ok h hp), rfl, rfl, hout, holen⟩

/-- PACK faults as its pseudocode on the unread input does. -/
theorem pack_faults_of_packStream {s : State} (h : Ready s) {c : Cause} {info : Nat}
    (hp : packStream s.code s.pad s.icur.toNat s.input s.outPort = raise c info) : faults .pack s c info :=
  exec_faults (i := .pack) (runPack_error h hp)

theorem pack_faults_noCode {s : State} (h : Ready s) {before after : List Byte} {v : Byte} (hinput : s.input = before ++ v :: after)
    (hbefore : codedAll s.code before) (hv : s.code.at v = none) (hroom : s.room ((codeBits s.code before).length / 8)) :
    faults .pack s .noCode (s.icur.toNat + before.length) := by
  refine pack_faults_of_packStream h ?_
  rw [hinput]
  exact packStream_noCode hbefore hv (h.outPort_fits hroom)

theorem pack_faults_padMismatch {s : State} (h : Ready s) (hall : codedAll s.code s.input)
    (hpad : s.pad.toNat ≠ paddingOf (codeBits s.code s.input).length) (hroom : s.room ((codeBits s.code s.input).length / 8)) :
    faults .pack s .padMismatch ((codeBits s.code s.input).length % 8) :=
  pack_faults_of_packStream h (packStream_padMismatch hall hpad (h.outPort_fits hroom))

/-! ### The obligations -/

/-- Settles O46: PAD rounds the code bits up to whole bytes, and those are the bytes that have room. -/
theorem packResult : Obligations.PackResult := by
  intro s hs hall (hpad : s.pad.toNat = paddingOf (codeBits s.code s.input).length) hroom
  have hready : Ready s := hs.toReady
  have hwhole : ((codeBits s.code s.input).length + s.pad.toNat) / 8 = ((codeBits s.code s.input).length + 7) / 8 := by
    rw [hpad, payload_up]
  obtain ⟨bs, hp, hbits⟩ := packStream_ok (i := s.icur.toNat) hall hpad (hwhole ▸ hready.outPort_fits hroom)
  have hlen : bs.length = ((codeBits s.code s.input).length + 7) / 8 := payload_length (by rw [← hpad, hbits])
  obtain ⟨t, hexec, hdone, hicur, hout, holen⟩ := exec_pack_ok hready (hlen ▸ hready.outPort_fits hroom) hp
  exact ⟨t, bs, hexec, hdone, hicur, hout, hbits, hlen, holen⟩

/-- Settles O47: the two faults by their lemmas; an exhausted stream has no code bits, so there PACK is O46 without a byte, or the
PadMismatch with 0 bits left. -/
theorem packFaults : Obligations.PackFaults := by
  refine fun s hs => ⟨fun before v after hinput hbefore hv hroom => pack_faults_noCode hs.toReady hinput hbefore hv hroom,
    pack_faults_padMismatch hs.toReady, fun hend hpad => ?empty, fun hend hpad => ?emptyPad⟩
  case empty =>
    obtain ⟨hall, hcodes⟩ := State.codes_of_ilen_le hend
    obtain ⟨t, bs, hexec, hdone, hicur, -, -, hlen, holen⟩ :=
      packResult s hs hall (by rw [hcodes, hpad]; rfl) (by rw [hcodes]; exact hs.toReady.room_zero)
    have hnone : bs.length = 0 := by rw [hlen, hcodes]; rfl
    exact ⟨t, hexec, hdone, BitVec.eq_of_toNat_eq (by rw [holen, hnone, Nat.add_zero]),
      hicur.trans (State.consumedIcur_of_ilen_le hend)⟩
  case emptyPad =>
    obtain ⟨hall, hcodes⟩ := State.codes_of_ilen_le hend
    have hne : s.pad.toNat ≠ 0 := fun h0 => hpad (BitVec.eq_of_toNat_eq h0)
    have hfault := pack_faults_padMismatch hs.toReady hall (by rw [hcodes]; exact hne) (by rw [hcodes]; exact hs.toReady.room_zero)
    rwa [hcodes] at hfault

end Sys2Proof.Machine
end

section
/-! UNPACK as a command: where it faults, and with what (spec 47_unpack R243 to R246). -/

namespace Sys2Proof.Machine

/-- An empty payload with padding (R246). -/
theorem unpackStream_badPadding (root : Tree) {pad : BitVec 3} (off : Nat) (o : OutPort) (hpad : pad ≠ 0#3) :
    unpackStream root pad off [] o = raise .badPadding pad.toNat :=
  if_pos ⟨rfl, hpad⟩

/-- No tree (R243): the payload is not looked at. -/
theorem runUnpack_absentTree {s : State} (ht : s.tree = none) : runUnpack s = raise .absentTree 3 := by
  simp only [runUnpack, ht]

/-- UNPACK faults as its pseudocode on the unread input does. -/
theorem unpack_faults_of_unpackStream {s : State} (h : Ready s) {root : Tree} (ht : s.tree = some root) {c : Cause} {info : Nat}
    (hp : unpackStream root s.pad s.icur.toNat s.input s.outPort = raise c info) : faults .unpack s c info :=
  exec_faults (i := .unpack) (runUnpack_error h ht hp)

/-- Settles O49: without a tree nothing is read; otherwise the walk over the payload ends in the fault of the lemma on its case. -/
theorem unpackFaults : Obligations.UnpackFaults := by
  refine fun s hs => ⟨fun ht => exec_faults (i := .unpack) (runUnpack_absentTree ht), fun root ht => ?tree⟩
  have hstream := @unpack_faults_of_unpackStream s hs.toReady root ht
  refine ⟨fun hempty hpad => hstream ?badPadding, fun es p w hes hroot hdescend hroom =>
    ⟨fun c after b hchild hleaf hbits hb => hstream ?absentChild, fun hp hinner hbits => hstream ?truncated⟩⟩
  case badPadding =>
    rw [hempty]
    exact unpackStream_badPadding root _ _ hpad
  case absentChild =>
    rw [hb]
    exact unpackStream_absent hes hroot hdescend hchild hleaf hbits (hs.toReady.outPort_fits hroom)
  case truncated =>
    exact unpackStream_truncated hes hroot hdescend hp hinner hbits (hs.toReady.outPort_fits hroom)

end Sys2Proof.Machine
end

section
/-! One step, turn by turn, and the invariant of every step (spec 20_memory R80, R81; 70_reset R350, R370; 10_state R25). -/

namespace Sys2Proof.Machine

/-! ### The step for each next turn -/

theorem step_of_turns_nil {s : State} (h : s.turns = []) : step s = coreTurn s := by
  simp only [step, h]

theorem step_of_core {s : State} {rest : List Turn} (h : s.turns = .core :: rest) :
    step s = coreTurn { s with turns := rest } := by
  simp only [step, h]

theorem step_of_bus {s : State} {addr : Nat} {a : Access} {rest : List Turn} (h : s.turns = .bus addr a :: rest) :
    step s = .next (State.busTurn { s with turns := rest } addr a) := by
  simp only [step, h]

theorem step_of_hardReset {s : State} {rest : List Turn} (h : s.turns = .hardReset :: rest) :
    step s = .next (State.resetBlock { s with turns := rest }) := by
  simp only [step, h]

/-- Everything a step can be: CORE's turn, with no turn left or its own turn next, a bus turn, or the reset input. -/
theorem step_cases {s t : State} (h : step s = .next t) :
    (∃ l, (s.turns = [] ∨ s.turns = .core :: l) ∧ coreTurn { s with turns := l } = .next t)
      ∨ (∃ addr a rest, s.turns = .bus addr a :: rest ∧ t = State.busTurn { s with turns := rest } addr a)
      ∨ ∃ rest, s.turns = .hardReset :: rest ∧ t = State.resetBlock { s with turns := rest } := by
  cases hturns : s.turns with
  | nil => exact .inl ⟨s.turns, .inl rfl, (step_of_turns_nil hturns).symm.trans h⟩
  | cons turn rest =>
    cases turn with
    | core => exact .inl ⟨rest, .inr rfl, (step_of_core hturns).symm.trans h⟩
    | bus addr a => exact .inr (.inl ⟨addr, a, rest, rfl, Host.Outcome.next.inj (h.symm.trans (step_of_bus hturns))⟩)
    | hardReset => exact .inr (.inr ⟨rest, rfl, Host.Outcome.next.inj (h.symm.trans (step_of_hardReset hturns))⟩)

/-- CORE's turn runs the command that CMD decodes to while BUSY = 1 (R81, 30_encoding R108). -/
theorem coreTurn_of_decode {s : State} {i : Instr} (hb : s.busy = true) (hd : decode s.cmd = .ok i) : coreTurn s = exec i s := by
  simp only [coreTurn, coreStep, hb, hd, if_true]

theorem decode_encode (i : Instr) : decode (encode i) = .ok i := decode_eq_ok_iff_encode.mpr rfl

/-! ### The invariant -/

/-- Settles O15: CORE's turn, a bus turn and a reset each keep the state legal; taking a turn off the list changes nothing in it. -/
theorem stepKeepsLegal : Obligations.StepKeepsLegal := by
  intro s h
  cases hturns : s.turns with
  | nil =>
    obtain ⟨t, ht, hlegal, hcfg, -⟩ := coreTurn_legal h
    exact ⟨t, (step_of_turns_nil hturns).trans ht, hlegal, hcfg⟩
  | cons turn rest =>
    have hrest := setTurns_legal h rest
    cases turn with
    | core =>
      obtain ⟨t, ht, hlegal, hcfg, -⟩ := coreTurn_legal hrest
      exact ⟨t, (step_of_core hturns).trans ht, hlegal, hcfg⟩
    | bus addr a => exact ⟨_, step_of_bus hturns, busTurn_legal hrest addr a⟩
    | hardReset => exact ⟨_, step_of_hardReset hturns, (resetBlock_ready hrest.1.1).1, rfl⟩

theorem step_legal {s t : State} (h : s.Legal) (ht : step s = .next t) : t.Legal := by
  obtain ⟨u, hu, hlegal, -⟩ := stepKeepsLegal s h
  cases ht.symm.trans hu
  exact hlegal

end Sys2Proof.Machine
end

section
/-! SERIALIZE and DESERIALIZE as commands: the packet of a tree and the tree of a packet (spec 44_treecodec R190 to R209). -/

namespace Sys2Proof.Machine

/-- A command that ends without a fault in a specified state leaves a specified state. -/
theorem exec_ready {i : Instr} {s t : State} (h : s.ready) (ht : exec i s = .next t) (hf : t.fault = false) : t.ready := by
  obtain ⟨u, hu, ⟨-, hready, -⟩ | ⟨c, info, -, rfl⟩⟩ := exec_ends h i
  · cases ht.symm.trans hu
    exact hready
  · cases ht.symm.trans hu
    cases hf

/-- SERIALIZE of a tree without negative frequencies completes with the packet of the tree in TPKT. -/
theorem exec_serialize_ok {s : State} (h : s.ready) {tr : Tree} (ht : s.tree = some tr) (hn : noNegative tr) :
    ∃ t, exec .serialize s = .next t ∧ t.ready ∧ t.done = true ∧ t.tree = some tr ∧ t.packet = packetOf tr
      ∧ t.tplen.toNat = 6 * tr.size ∧ ∀ a, t.tplen.toNat ≤ a → t.readByte .tpkt a = s.readByte .tpkt a := by
  have hr : Ready s := h.toReady
  have hsize : tr.size ≤ s.cfg.nodeCap := (hr.tree_size ht).2.1
  have hlen := hr.packetLength hsize
  have hexec := exec_ok (i := .serialize) (runSerialize_ok hr ht hn)
  refine ⟨_, hexec, exec_ready h hexec h.2, rfl, ht, packet_setTplen s hr hsize, hlen, fun a ha => ?beyond⟩
  case beyond =>
    refine State.stored_readByte_outside s .tpkt _ (.inr ?_)
    rw [packetOf_length, Nat.zero_add, ← hlen]
    exact ha

/-- DESERIALIZE of the packet of a tree completes with that tree, numbered in pre-order. -/
theorem exec_deserialize_ok {s : State} (h : s.ready) {tr : Tree} (hp : s.packet = packetOf tr) :
    exec .deserialize s = .next (s.installTree (tr.numbered 0)).complete :=
  exec_ok (i := .deserialize) (runDeserialize_ok h.toReady (by rw [hp, treeOfPacket_packetOf]))

/-- DESERIALIZE succeeds on nothing but the packet of the tree it leaves. -/
theorem exec_deserialize_success {s t : State} (h : exec .deserialize s = .next t) (hf : t.fault = false) :
    ∃ tr, t = (s.installTree tr).complete ∧ s.packet = packetOf tr ∧ tr = tr.numbered 0 := by
  obtain ⟨u, hu, rfl⟩ := exec_success h hf
  obtain ⟨tr, htr, rfl⟩ := runDeserialize_eq_ok hu
  obtain ⟨hp, hnum, -⟩ := treeOfPacket_eq_ok htr
  exact ⟨tr, rfl, hp, hnum⟩

/-- Settles O45: the packet SERIALIZE writes is the tree's, from which DESERIALIZE makes the tree again; and the tree DESERIALIZE
leaves has the packet it was read from. -/
theorem treeCodecInverse : Obligations.TreeCodecInverse := by
  refine fun s hs => ⟨fun tr ht hn => ?readBack, fun t tr hexec hf ht hn => ?writeBack⟩
  case readBack =>
    obtain ⟨t, hser, hready, -, -, hpacket, -⟩ := exec_serialize_ok hs ht hn
    exact ⟨t, _, tr.numbered 0, hser, exec_deserialize_ok hready hpacket, hready.2, rfl, tr.numbered_records 0, hpacket⟩
  case writeBack =>
    have hready : t.ready := exec_ready hs hexec hf
    obtain ⟨tr', rfl, hpacket, -⟩ := exec_deserialize_success hexec hf
    obtain rfl : tr' = tr := Option.some.inj ht
    obtain ⟨u, hser, hu, -, -, hpacket', hlen, -⟩ := exec_serialize_ok hready ht hn
    have hlen' : s.tplen.toNat = 6 * tr'.size := by rw [← packet_length, hpacket, packetOf_length]
    exact ⟨u, hser, hu.2, BitVec.eq_of_toNat_eq (hlen.trans hlen'.symm), hpacket'.trans hpacket.symm⟩

/-- Settles O41, from the SERIALIZE lemma and NCOUNT of a legal tree. -/
theorem serializeResult : Obligations.SerializeResult := by
  intro s tr hs ht hn
  obtain ⟨t, hexec, -, hdone, htree, hpacket, hlen, hbeyond⟩ := exec_serialize_ok hs ht hn
  obtain ⟨hncount, hsize, -⟩ := hs.toReady.tree_size ht
  refine ⟨t, hexec, hdone, htree, hpacket, by rw [hlen, hncount], ?_, hbeyond⟩
  rw [hlen]
  exact Nat.mul_le_mul_left 6 hsize

/-- Settles O43, from the two lemmas on DESERIALIZE; the numbered tree has index 0 at its root and as many nodes as the tree. -/
theorem deserializeResult : Obligations.DeserializeResult := by
  refine fun s hs => ⟨fun tr hp => ?ok, fun t hexec hf => ?only⟩
  case ok =>
    have hlen : s.tplen.toNat = 6 * tr.size := by rw [← packet_length, hp, packetOf_length]
    have hsize : tr.size < 2 ^ 32 := by have := s.tplen.isLt; omega
    have hncount : (BitVec.ofNat 32 (tr.numbered 0).size).toNat = tr.size := by
      rw [Tree.numbered_size, BitVec.toNat_ofNat, Nat.mod_eq_of_lt hsize]
    refine ⟨_, exec_deserialize_ok hs hp, rfl, rfl, Tree.numbered_index tr 0, hncount, ?_⟩
    exact (congrArg (6 * ·) hncount).trans hlen.symm
  case only =>
    obtain ⟨tr, rfl, hp, hnum⟩ := exec_deserialize_success hexec hf
    exact ⟨tr, rfl, hp, hnum.symm⟩

end Sys2Proof.Machine
end

section
/-! Steps outside Idle, and the statements about the block states (spec 10_state R25; 20_memory R68; 60_exceptions R333, R334;
70_reset R350 to R352). -/

namespace Sys2Proof.Machine

/-! ### Steps in the order of the turns, and the next command's step -/

/-- Settles O6: these two kinds of step are equations of `step`. -/
theorem stepTakesTurnsInOrder : Obligations.StepTakesTurnsInOrder := fun _ _ => ⟨fun _ _ => step_of_bus, step_of_hardReset⟩

/-- Settles O12: the reset block of a state is the reset state but for the parameters and the model's own fields. -/
theorem hardReset : Obligations.HardReset := fun _ _ => step_of_hardReset

/-- Settles O5: CORE's turn runs the command that CMD decodes to, and `withFetchWord` latches the command's own word. -/
theorem stepRunsLatchedCommand : Obligations.StepRunsLatchedCommand := by
  refine fun s i rest => ⟨fun hb hd hturns => ?none, fun hb hd hturns => ?core, fun hb hturns => ?idle, fun hb hturns => ?stays,
    ?fetch⟩
  case none => rw [step_of_turns_nil hturns, coreTurn_of_decode hb hd]
  case core => exact (step_of_core hturns).trans (coreTurn_of_decode hb hd)
  case idle => exact (step_of_core hturns).trans (coreTurn_idle hb)
  case stays => rw [step_of_turns_nil hturns, coreTurn_idle hb]
  case fetch =>
    have hword : wordOfBits 32 (encode i).toNat = encode i := by cases i <;> rfl
    rw [State.withFetchWord, hword]
    exact (step_of_core rfl).trans (coreTurn_of_decode rfl (decode_encode i))

/-! ### Bus turns outside Idle -/

/-- Outside Idle a write is answered exactly when it is one of CTRL (R68). -/
theorem busWrite_of_not_idle {s : State} (hi : s.blockState ≠ .idle) (off size : Nat) (data : Word) : s.busWrite off size data
    = if size = 4 ∧ off = 0x04 then some (if data.getLsbD 31 then s.resetBlock else { s with ien := data.getLsbD 0 }) else none := by
  by_cases h : size = 4 ∧ off = 0x04
  · rw [if_pos h]
    obtain ⟨rfl, rfl⟩ := h
    exact busWrite_ctrl_eq s data
  · rw [if_neg h]
    refine Option.eq_none_iff_forall_ne_some.mpr fun t ht => h ?_
    exact (busWrite_isSome_iff_of_not_idle hi off size data).mp ⟨t, ht⟩

/-- The next turn is a reset: the input, or the write of CTRL with bit 31 set (R334). -/
def State.resetNext (s : State) : Prop :=
  ∃ rest, s.turns = .hardReset :: rest
    ∨ ∃ addr data, s.turns = .bus addr (.write 4 data) :: rest ∧ offsetOf s.cfg addr = some 0x04 ∧ data.getLsbD 31 = true

/-- The state is the reset state but for the parameters and the model's own fields. -/
def State.isResetOf (t s : State) : Prop :=
  t = { State.reset with cfg := s.cfg, turns := t.turns, resp := t.resp, epoch := s.epoch + 1 }

/-- A bus turn outside Idle: a soft reset, or at most a change of IEN and of the last response. -/
theorem busTurn_of_not_idle {s : State} (hi : s.blockState ≠ .idle) (addr : Nat) (a : Access) :
    ((∃ data, a = .write 4 data ∧ offsetOf s.cfg addr = some 0x04 ∧ data.getLsbD 31 = true)
        ∧ (State.busTurn s addr a).isResetOf s)
      ∨ (¬ (∃ data, a = .write 4 data ∧ offsetOf s.cfg addr = some 0x04 ∧ data.getLsbD 31 = true)
        ∧ ∃ r b, State.busTurn s addr a = { s with resp := r, ien := b }) := by
  unfold State.busTurn
  cases hoff : offsetOf s.cfg addr with
  | none => exact .inr ⟨by simp, s.resp, s.ien, rfl⟩
  | some off =>
    cases a with
    | read size =>
      refine .inr ⟨by simp, some (s.transact off (.read size)).1, s.ien, ?_⟩
      rcases transact_cases s off (.read size) with h | ⟨_, _, hw, _⟩
      · simp only [h]
      · cases hw
    | write size data =>
      by_cases hc : size = 4 ∧ off = 0x04
      · simp only [State.transact, busWrite_of_not_idle hi, if_pos hc]
        obtain ⟨rfl, rfl⟩ := hc
        by_cases h31 : data.getLsbD 31 = true
        · rw [if_pos h31]
          exact .inl ⟨⟨data, rfl, rfl, h31⟩, rfl⟩
        · rw [if_neg h31]
          exact .inr ⟨fun ⟨d, hd, _, h⟩ => h31 (by cases hd; exact h), some .okay, data.getLsbD 0, rfl⟩
      · simp only [State.transact, busWrite_of_not_idle hi, if_neg hc]
        exact .inr ⟨fun ⟨d, hd, ho, _⟩ => hc (by cases hd; exact ⟨rfl, Option.some.inj ho⟩), some .error, s.ien, rfl⟩

/-- Everything a step outside Idle can do: CORE's turn, a reset, or at most a change of IEN and of the model's own fields. -/
theorem step_of_not_idle {s t : State} (hi : s.blockState ≠ .idle) (h : step s = .next t) :
    (¬ s.resetNext ∧ (s.turns = [] ∨ ∃ rest, s.turns = .core :: rest) ∧ ∃ l, coreTurn { s with turns := l } = .next t)
      ∨ (s.resetNext ∧ t.isResetOf s)
      ∨ (¬ s.resetNext ∧ ∃ l r b, t = { s with turns := l, resp := r, ien := b }) := by
  rcases step_cases h with ⟨l, hturns, hcore⟩ | ⟨addr, a, rest, hturns, rfl⟩ | ⟨rest, hturns, rfl⟩
  · refine .inl ⟨fun ⟨rest, hreset⟩ => ?_, hturns.imp_right fun h => ⟨l, h⟩, l, hcore⟩
    rcases hturns with hturns | hturns <;> simp [hturns] at hreset
  · rcases busTurn_of_not_idle (s := { s with turns := rest }) hi addr a with
      ⟨⟨data, rfl, hoff, h31⟩, hreset⟩ | ⟨hno, r, b, heq⟩
    · exact .inr (.inl ⟨⟨rest, .inr ⟨addr, data, hturns, hoff, h31⟩⟩, hreset⟩)
    · refine .inr (.inr ⟨fun ⟨rest', hr⟩ => ?_, rest, r, b, heq⟩)
      rcases hr with hr | ⟨addr', data, hr, hoff, h31⟩ <;> cases hturns.symm.trans hr
      exact hno ⟨data, rfl, hoff, h31⟩
  · exact .inr (.inl ⟨⟨rest, .inl hturns⟩, rfl⟩)

theorem State.isResetOf.eqs {s t : State} (h : t.isResetOf s) :
    t.blockState = .idle ∧ t.busy = false ∧ t.fault = false ∧ t.fcode = 0#8 ∧ t.finfo = 0#32 := by
  rw [h]
  exact ⟨rfl, rfl, rfl, rfl, rfl⟩

/-- A step from the fault state is a reset or keeps all but IEN and the model's own fields (R334). -/
theorem step_of_faulted {s t : State} (hs : s.blockState = .faulted) (h : step s = .next t) :
    (s.resetNext ∧ t.isResetOf s) ∨ (¬ s.resetNext ∧ ∃ l r b, t = { s with turns := l, resp := r, ien := b }) := by
  rcases step_of_not_idle (by simp [hs]) h with ⟨hno, -, l, hcore⟩ | hreset | hkept
  · have hbusy : s.busy = false := ((blockState_faulted_iff s).mp hs).1
    rw [coreTurn_idle (s := { s with turns := l }) hbusy] at hcore
    cases hcore
    exact .inr ⟨hno, l, s.resp, s.ien, rfl⟩
  · exact .inl hreset
  · exact .inr hkept

/-- Settles O11: a step from the fault state is a reset or changes at most IEN and the model's own fields. -/
theorem faultLeftOnlyByReset : Obligations.FaultLeftOnlyByReset := by
  refine fun s hs => ⟨fun w => (cmdRegister.2 s w).2.2 (by simp [hs]), fun t ht => ?step⟩
  case step =>
    rcases step_of_faulted hs ht with ⟨hreset, hres⟩ | ⟨hno, l, r, b, rfl⟩
    · obtain ⟨hidle, -, hfault, hfcode, hfinfo⟩ := hres.eqs
      exact ⟨fun _ => ⟨hidle, hfault, hfcode, hfinfo⟩, fun hno => absurd hreset hno⟩
    · exact ⟨fun hreset => absurd hreset hno, fun _ => ⟨hs, ((blockState_faulted_iff s).mp hs).2, rfl, rfl, rfl⟩⟩

/-! ### The transitions of the block states (10_state R25) -/

/-- A bus turn in Idle stays there, or it is the accepted CMD write. -/
theorem busTurn_of_idle {s : State} (hi : s.blockState = .idle) (addr : Nat) (a : Access) :
    (State.busTurn s addr a).blockState = .idle
      ∨ (State.busTurn s addr a).blockState = .busy
        ∧ ∃ data, a = .write 4 data ∧ offsetOf s.cfg addr = some 0x0C ∧ (State.busTurn s addr a).cmd = data := by
  unfold State.busTurn
  cases hoff : offsetOf s.cfg addr with
  | none => exact .inl hi
  | some off =>
    rcases transact_cases s off a with h | ⟨size, data, rfl, hw⟩
    · simp only [h]
      exact .inl hi
    · rcases busWrite_idle hi hw with h | ⟨h, ⟨rfl, rfl⟩, hcmd⟩
      · exact .inl h
      · exact .inr ⟨h, data, rfl, rfl, hcmd⟩

theorem step_of_idle {s t : State} (hi : s.blockState = .idle) (h : step s = .next t) :
    t.blockState = .idle
      ∨ t.blockState = .busy
        ∧ ∃ addr data rest, s.turns = .bus addr (.write 4 data) :: rest ∧ offsetOf s.cfg addr = some 0x0C ∧ t.cmd = data := by
  have hbusy : s.busy = false := ((blockState_idle_iff s).mp hi).1
  rcases step_cases h with ⟨l, -, hcore⟩ | ⟨addr, a, rest, hturns, rfl⟩ | ⟨rest, -, rfl⟩
  · rw [coreTurn_idle (s := { s with turns := l }) hbusy] at hcore
    cases hcore
    exact .inl hi
  · rcases busTurn_of_idle (s := { s with turns := rest }) hi addr a with hidle | ⟨hb, data, rfl, hoff, hcmd⟩
    · exact .inl hidle
    · exact .inr ⟨hb, addr, data, rest, hturns, hoff, hcmd⟩
  · exact .inl rfl

/-- CORE's turn in a legal Busy state ends in Idle with DONE, or in the fault state. -/
theorem coreTurn_of_busy {s t : State} (h : s.Legal) (hb : s.busy = true) (ht : coreTurn s = .next t) :
    t.blockState = .idle ∧ t.done = true ∨ t.blockState = .faulted := by
  have hcore : coreTurn s = coreStep s := by simp only [coreTurn, hb, if_true]
  obtain ⟨u, hu, ⟨hdone, hready, -, hbusy⟩ | ⟨c, info, rfl⟩⟩ := coreStep_ends (s := s) ⟨h, h.2.1.1 hb⟩ <;>
    cases ht.symm.trans (hcore.trans hu)
  · exact .inl ⟨(blockState_idle_iff t).mpr ⟨hbusy, hready.2⟩, hdone⟩
  · exact .inr rfl

/-- Settles O16: the invariant gives what holds of every state after a step; the transitions are those of a step from each of the
three block states. -/
theorem blockTransitions : Obligations.BlockTransitions := by
  refine ⟨fun s => ⟨blockState_busy_iff s, blockState_faulted_iff s, blockState_idle_iff s⟩, rfl, fun s t h ht => ?step⟩
  obtain ⟨hbf, hdone, -⟩ := (step_legal h ht).2.1
  refine ⟨fun ⟨hb, hf⟩ => ?both, fun hd => (blockState_idle_iff t).mpr (hdone hd), fun hi => step_of_idle hi ht,
    fun hb => ?busy, fun hf => ?faulted⟩
  case both => rw [hbf hb] at hf; cases hf
  case busy =>
    rcases step_of_not_idle (by simp [hb]) ht with ⟨-, hturns, l, hcore⟩ | ⟨-, hres⟩ | ⟨-, l, r, b, rfl⟩
    · exact .inr (.inl ⟨hturns, coreTurn_of_busy (setTurns_legal h l) ((blockState_busy_iff s).mp hb) hcore⟩)
    · exact .inr (.inr hres)
    · exact .inl ⟨hb, rfl⟩
  case faulted =>
    rcases step_of_faulted hf ht with ⟨-, hres⟩ | ⟨-, l, r, b, rfl⟩
    · exact .inr hres
    · exact .inl hf

/-! ### A latched command ends (70_reset R351, R370) -/

/-- A step that leaves BUSY set has taken one turn off the list. -/
theorem step_turns_of_busy {s t : State} (h : s.Legal) (ht : step s = .next t) (hb : t.busy = true) :
    ∃ turn, s.turns = turn :: t.turns := by
  rcases step_cases ht with ⟨l, -, hcore⟩ | ⟨addr, a, rest, hturns, rfl⟩ | ⟨rest, -, rfl⟩
  · obtain ⟨u, hu, -, -, hbusy⟩ := coreTurn_legal (setTurns_legal h l)
    cases hcore.symm.trans hu
    rw [hb] at hbusy
    cases hbusy
  · exact ⟨.bus addr a, by rw [hturns, busTurn_turns]⟩
  · cases hb

/-- Settles O17, by induction on the number of turns: a step clears BUSY or leaves a legal Busy state with one turn less. -/
theorem latchedCommandEnds : Obligations.LatchedCommandEnds := by
  intro s h hb
  induction hn : s.turns.length using Nat.strong_induction_on generalizing s with
  | _ n ih =>
    obtain ⟨t, ht, hlegal, -⟩ := stepKeepsLegal s h
    cases hbt : t.busy with
    | false => exact ⟨1, t, by omega, run_step ht, hbt⟩
    | true =>
      obtain ⟨turn, hturn⟩ := step_turns_of_busy h ht hbt
      have hlen : t.turns.length + 1 = n := by rw [← hn, hturn, List.length_cons]
      obtain ⟨m, u, hm, hrun, hu⟩ := ih t.turns.length (by omega) t hlegal hbt rfl
      exact ⟨m + 1, u, by omega, (run_step ht).trans hrun, hu⟩

/-! ### Bounded buffers (20_memory R70 to R72) -/

theorem State.bounded_of_blank {s : State} (h : s.mem = Memory.blank) : s.bounded := by
  intro sp e he
  rw [h, Memory.blank_cells] at he
  cases he

theorem coreTurn_bounded {s t : State} (h : s.Legal) (hb : s.bounded) (ht : coreTurn s = .next t) : t.bounded := by
  cases hbusy : s.busy with
  | false =>
    rw [coreTurn_idle hbusy] at ht
    cases ht
    exact hb
  | true =>
    have hready : s.ready := ⟨h, h.2.1.1 hbusy⟩
    cases hd : decode s.cmd with
    | error e =>
      rw [coreTurn_of_decode_error hbusy hd] at ht
      cases ht
      exact State.bounded_of_blank rfl
    | ok i =>
      rw [coreTurn_of_decode hbusy hd] at ht
      rcases exec_eq_next ht with ⟨u, hu, rfl⟩ | ⟨c, info, -, rfl⟩
      · exact (runOf_bounded hready.toReady hb hu).congr rfl rfl
      · exact State.bounded_of_blank rfl

theorem busTurn_bounded {s : State} (hb : s.bounded) (addr : Nat) (a : Access) : (State.busTurn s addr a).bounded := by
  rcases busTurn_cases s addr a with h | ⟨r, h | ⟨data, t, hw, h⟩⟩ <;> rw [h]
  · exact hb
  · exact hb.congr rfl rfl
  · exact (Written.bounded hb hw).congr rfl rfl

/-- Settles O18: no turn lists a byte beyond a capacity, and reset lists none at all. -/
theorem buffersBounded : Obligations.BuffersBounded := by
  refine ⟨State.bounded_of_blank rfl, fun s t h hb ht => ?_⟩
  have hb' (l : List Turn) : State.bounded { s with turns := l } := hb.congr rfl rfl
  rcases step_cases ht with ⟨l, -, hcore⟩ | ⟨addr, a, rest, -, rfl⟩ | ⟨rest, -, rfl⟩
  · exact coreTurn_bounded (setTurns_legal h l) (hb' l) hcore
  · exact busTurn_bounded (hb' rest) addr a
  · exact State.bounded_of_blank rfl

end Sys2Proof.Machine
end

section
/-! What the fault state shows, how a command ends, and RUN (spec 60_exceptions R301, R304, R332 to R336; 30_encoding R108, R131). -/

namespace Sys2Proof.Machine

/-! ### The fault state (60_exceptions R333) -/

/-- The registers that may be read in the fault state are among those a fault leaves specified. -/
theorem readReg_eq_of_sameFaultView {s s' : State} (h : sameFaultView s s') {r : Reg} (hr : stateAllowsRead .faulted (.reg r) = true) :
    s'.readReg r = s.readReg r := by
  obtain ⟨hs, hs', -, hien, hdone, hcmd, hfcode, hfinfo, htree, -, -, -⟩ := h
  obtain ⟨hb, hf⟩ := (blockState_faulted_iff s).mp hs
  obtain ⟨hb', hf'⟩ := (blockState_faulted_iff s').mp hs'
  cases r <;> simp only [stateAllowsRead, reduceCtorEq] at hr
  case id => rfl
  case ctrl => simp only [State.readReg, State.ctrlWord, hien]
  case status => simp only [State.readReg, State.statusWord, hb, hb', hdone, hf, hf', htree]
  case cmd => exact hcmd
  case fcode => simp only [State.readReg, hfcode]
  case finfo => exact hfinfo

theorem busRead_eq_of_sameFaultView {s s' : State} (h : sameFaultView s s') (off size : Nat) :
    s'.busRead off size = s.busRead off size := by
  have hs : s.blockState = .faulted := h.1
  have hs' : s'.blockState = .faulted := h.2.1
  by_cases hoff : off < 0x40
  · rw [busRead_low hoff, busRead_low hoff, hs, hs']
    refine ite_congr rfl (fun hc => ?_) fun _ => rfl
    rw [readReg_eq_of_sameFaultView h hc.2.2]
  · rw [busRead_high (by omega), busRead_high (by omega), if_neg (by simp [hs']), if_neg (by simp [hs])]

/-- Reset makes one state of two that agree on the parameters and the model's own fields. -/
theorem resetBlock_eq_of_sameFaultView {s s' : State} (h : sameFaultView s s') : s'.resetBlock = s.resetBlock := by
  obtain ⟨-, -, hcfg, -, -, -, -, -, -, hturns, hresp, hepoch⟩ := h
  simp only [State.resetBlock, hcfg, hturns, hresp, hepoch]

theorem sameFaultView_turns {s s' : State} (h : sameFaultView s s') : s'.turns = s.turns := by
  obtain ⟨-, -, -, -, -, -, -, -, -, hturns, -, -⟩ := h
  exact hturns

theorem sameFaultView_setTurns {s s' : State} (h : sameFaultView s s') (l : List Turn) :
    sameFaultView { s with turns := l } { s' with turns := l } := by
  obtain ⟨hs, hs', hcfg, hien, hdone, hcmd, hfcode, hfinfo, htree, -, hresp, hepoch⟩ := h
  exact ⟨hs, hs', hcfg, hien, hdone, hcmd, hfcode, hfinfo, htree, rfl, hresp, hepoch⟩

theorem sameFaultView_setResp {s s' : State} (h : sameFaultView s s') (r : Option Response) :
    sameFaultView { s with resp := r } { s' with resp := r } := by
  obtain ⟨hs, hs', hcfg, hien, hdone, hcmd, hfcode, hfinfo, htree, hturns, -, hepoch⟩ := h
  exact ⟨hs, hs', hcfg, hien, hdone, hcmd, hfcode, hfinfo, htree, hturns, rfl, hepoch⟩

theorem sameFaultView_setIen {s s' : State} (h : sameFaultView s s') (b : Bool) :
    sameFaultView { s with ien := b } { s' with ien := b } := by
  obtain ⟨hs, hs', hcfg, -, hdone, hcmd, hfcode, hfinfo, htree, hturns, hresp, hepoch⟩ := h
  exact ⟨hs, hs', hcfg, rfl, hdone, hcmd, hfcode, hfinfo, htree, hturns, hresp, hepoch⟩

/-- A transaction in the fault state: the same response, and states that still agree or are one. -/
theorem transact_of_sameFaultView {s s' : State} (h : sameFaultView s s') (off : Nat) (a : Access) :
    (s'.transact off a).1 = (s.transact off a).1
      ∧ (sameFaultView (s.transact off a).2 (s'.transact off a).2 ∨ (s.transact off a).2 = (s'.transact off a).2) := by
  have hi : s.blockState ≠ .idle := by simp [h.1]
  have hi' : s'.blockState ≠ .idle := by simp [h.2.1]
  cases a with
  | read size =>
    simp only [State.transact, busRead_eq_of_sameFaultView h]
    cases s.busRead off size <;> exact ⟨rfl, .inl h⟩
  | write size data =>
    simp only [State.transact, busWrite_of_not_idle hi, busWrite_of_not_idle hi']
    by_cases hc : size = 4 ∧ off = 0x04
    · simp only [if_pos hc]
      by_cases h31 : data.getLsbD 31 = true
      · simp only [if_pos h31, true_and]
        exact .inr (resetBlock_eq_of_sameFaultView h).symm
      · simp only [if_neg h31, true_and]
        exact .inl (sameFaultView_setIen h _)
    · simp only [if_neg hc, true_and]
      exact .inl h

theorem busTurn_of_sameFaultView {s s' : State} (h : sameFaultView s s') (addr : Nat) (a : Access) :
    sameFaultView (State.busTurn s addr a) (State.busTurn s' addr a) ∨ State.busTurn s addr a = State.busTurn s' addr a := by
  have hcfg : s'.cfg = s.cfg := h.2.2.1
  unfold State.busTurn
  rw [hcfg]
  cases offsetOf s.cfg addr with
  | none => exact .inl h
  | some off =>
    obtain ⟨hresp, hview | heq⟩ := transact_of_sameFaultView h off a
    · simp only [hresp]
      exact .inl (sameFaultView_setResp hview _)
    · simp only [hresp, heq]
      exact .inr trivial

/-- States that agree so show the same response and the same interrupt line. -/
theorem sameFaultView_shown {s s' : State} (h : sameFaultView s s') : s.resp = s'.resp ∧ s.irq = s'.irq := by
  obtain ⟨hs, hs', -, hien, hdone, -, -, -, -, -, hresp, -⟩ := h
  have hf := ((blockState_faulted_iff s).mp hs).2
  have hf' := ((blockState_faulted_iff s').mp hs').2
  exact ⟨hresp.symm, by simp only [State.irq, hien, hdone, hf, hf']⟩

/-- Settles O19: both states take the same turn, which leaves them in agreement or resets both to one state. -/
theorem faultStateLeaksNothing : Obligations.FaultStateLeaksNothing := by
  intro s s' h
  have shown {t t' : State} (hv : sameFaultView t t' ∨ t = t') : t.resp = t'.resp ∧ t.irq = t'.irq := by
    rcases hv with hv | rfl
    · exact sameFaultView_shown hv
    · exact ⟨rfl, rfl⟩
  obtain ⟨t, t', ht, ht', hv⟩ : ∃ t t', step s = .next t ∧ step s' = .next t' ∧ (sameFaultView t t' ∨ t = t') := by
    have hb : s.busy = false := ((blockState_faulted_iff s).mp h.1).1
    have hb' : s'.busy = false := ((blockState_faulted_iff s').mp h.2.1).1
    have hturns' := sameFaultView_turns h
    cases hturns : s.turns with
    | nil =>
      rw [hturns] at hturns'
      exact ⟨s, s', (step_of_turns_nil hturns).trans (coreTurn_idle hb), (step_of_turns_nil hturns').trans (coreTurn_idle hb'), .inl h⟩
    | cons turn rest =>
      rw [hturns] at hturns'
      have hrest := sameFaultView_setTurns h rest
      cases turn with
      | core =>
        exact ⟨_, _, (step_of_core hturns).trans (coreTurn_idle hb), (step_of_core hturns').trans (coreTurn_idle hb'), .inl hrest⟩
      | hardReset =>
        exact ⟨_, _, step_of_hardReset hturns, step_of_hardReset hturns', .inr (resetBlock_eq_of_sameFaultView hrest).symm⟩
      | bus addr a => exact ⟨_, _, step_of_bus hturns, step_of_bus hturns', busTurn_of_sameFaultView hrest addr a⟩
  obtain ⟨hresp, hirq⟩ := shown hv
  exact ⟨t, t', ht, ht', hresp, hirq, hv⟩

/-! ### Fault entry and the fault codes (60_exceptions R301, R332) -/

/-- Settles O10: the end by a raise is `takeFault`, whose fields these are. -/
theorem faultEntry : Obligations.FaultEntry := fun s c info => ⟨s.takeFault c info, rfl, rfl, rfl, rfl, rfl, rfl, rfl, rfl, rfl⟩

/-- The fault causes in the order of the table of R301. -/
def Cause.all : List Cause :=
  [.negativeInteger, .wrongSizeInteger, .emptySymbolSet, .emptyPacket, .misalignedPacket, .absentTree, .badBitSymbol,
    .illegalCommand, .badFlag, .packetUnderrun, .packetTrailing, .nodeCapacity, .rootLeaf, .codeTooLong, .duplicateSymbol,
    .tableMismatch, .noCode, .padMismatch, .absentChild, .truncatedStream, .badPadding, .badHeader, .outputOverflow]

theorem Cause.mem_all (c : Cause) : c ∈ Cause.all := by cases c <;> decide

theorem Cause.code_injective {c d : Cause} (h : c.code = d.code) : c = d :=
  List.inj_on_of_nodup_map (f := Cause.code) (by decide) c.mem_all d.mem_all h

/-- Settles O9: the codes as the table lists them; the list of all of them has no duplicates. -/
theorem faultCodeTable : Obligations.FaultCodeTable := by
  refine ⟨⟨rfl, rfl, rfl, rfl, rfl, rfl, rfl, rfl, rfl, rfl, rfl, rfl, rfl, rfl, rfl, rfl, rfl, rfl, rfl, rfl, rfl, rfl, rfl⟩,
    fun _ _ => Cause.code_injective, fun c => ?nonzero⟩
  case nonzero => cases c <;> decide

/-! ### Refused transactions and the interrupt line (60_exceptions R304, R335, R336) -/

/-- Settles O20: a read leaves the state, and a write that is answered is not answered ERROR. -/
theorem refusedAccessChangesNothing : Obligations.RefusedAccessChangesNothing := by
  have hread (s : State) (off size : Nat) : (s.transact off (.read size)).2 = s := by
    rcases transact_cases s off (.read size) with h | ⟨_, _, hw, _⟩
    · exact h
    · cases hw
  refine fun s off a => ⟨fun herror => ?refused, hread s off⟩
  cases a with
  | read size => exact hread s off size
  | write size data =>
    cases hw : s.busWrite off size data with
    | none => rw [transact_write_of_busWrite_eq_none hw]
    | some t => simp only [State.transact, hw, reduceCtorEq] at herror

theorem State.irq_eq_true_iff (s : State) : s.irq = true ↔ s.ien = true ∧ (s.done = true ∨ s.fault = true) := by
  rw [State.irq, Bool.and_eq_true, Bool.or_eq_true]

/-- In Idle without DONE nothing drives the line. -/
theorem State.irq_eq_false_of_not_done {s : State} (hd : s.done = false) (hf : s.fault = false) : s.irq = false := by
  rw [State.irq, hd, hf, Bool.or_self, Bool.and_false]

/-- Settles O31: the line is a function of IEN, DONE and FAULT, and the four writes each set one of them. -/
theorem interruptLine : Obligations.InterruptLine := by
  refine fun s => ⟨s.irq_eq_true_iff, fun hi => ?acknowledge, fun hi w => ?command, fun hdf => ?enable, ?disable⟩
  case acknowledge =>
    have hf : s.fault = false := ((blockState_idle_iff s).mp hi).2
    have hw : s.busWrite 0x08 4 0x2#32 = some { s with done := false } := by
      refine (busWrite_reg s .status 0x2#32).trans ?_
      rw [hi, stateAllowsWrite_idle', if_pos rfl]
      rfl
    exact ⟨_, hw, rfl, State.irq_eq_false_of_not_done rfl hf⟩
  case command =>
    have hf : s.fault = false := ((blockState_idle_iff s).mp hi).2
    exact ⟨s.latch w, by rw [busWrite_cmd_eq, if_pos hi], State.irq_eq_false_of_not_done rfl hf⟩
  case enable => exact ⟨_, busWrite_ctrl_eq s 0x1#32, (State.irq_eq_true_iff _).mpr ⟨rfl, hdf⟩⟩
  case disable => exact ⟨_, busWrite_ctrl_eq s 0x0#32, rfl⟩

/-! ### How a command ends, and RUN (30_encoding R108, R131) -/

/-- BadBitSymbol is in the table of R301 but no command raises it (R247). -/
theorem ne_badBitSymbol_of_mem_faultsOf {i : Instr} {c : Cause} (h : c ∈ faultsOf i) : c ≠ .badBitSymbol := by
  rintro rfl
  revert h
  cases i <;> decide

/-- Settles O8: a command completes in a specified state or takes a fault of its own list. -/
theorem commandEnds : Obligations.CommandEnds := by
  intro s i hs
  obtain ⟨t, ht, ⟨hdone, hready, hsame, hbusy⟩ | ⟨c, info, hc, rfl⟩⟩ := exec_ends hs i
  · exact ⟨t, ht, .inl ⟨hbusy, hdone, hready, hsame⟩⟩
  · exact ⟨_, ht, .inr ⟨c, info, hc, ne_badBitSymbol_of_mem_faultsOf hc, faultedBy_takeFault s c info⟩⟩

/-- The end of a command leaves the parameters and the turns. -/
theorem exec_cfg_turns {s : State} (h : s.ready) (i : Instr) : ∃ t, exec i s = .next t ∧ t.cfg = s.cfg ∧ t.turns = s.turns := by
  obtain ⟨t, ht, ⟨-, -, hsame, -⟩ | ⟨c, info, -, rfl⟩⟩ := exec_ends h i
  · obtain ⟨hcfg, -, -, -, -, -, -, hturns, -, -⟩ := hsame
    exact ⟨t, ht, hcfg, hturns⟩
  · exact ⟨_, ht, rfl, rfl⟩

/-- The STATUS read is answered in every block state (R68). -/
theorem busRead_status_eq (s : State) : s.busRead 0x08 4 = some s.statusWord := by
  refine (busRead_reg s .status).trans (if_pos ?_)
  cases s.blockState <;> rfl

/-- A bus turn at an offset of the block is the transaction there, its response kept. -/
theorem busTurn_at_offset (s : State) {off : Nat} (h : off < 2 ^ 26) (a : Access) :
    State.busTurn s (s.cfg.base + off) a = { (s.transact off a).2 with resp := some (s.transact off a).1 } := by
  simp only [State.busTurn, offsetOf_base _ h]

theorem busTurn_status_read (s : State) :
    State.busTurn s (s.cfg.base + 0x08) (.read 4) = { s with resp := some (.okayData s.statusWord) } := by
  rw [busTurn_at_offset s (by decide)]
  simp only [State.transact, busRead_status_eq]

theorem busTurn_cmd_write {s : State} (hi : s.blockState = .idle) (w : Word) :
    State.busTurn s (s.cfg.base + 0x0C) (.write 4 w) = { s with resp := some .okay }.latch w := by
  rw [busTurn_at_offset s (by decide)]
  simp only [State.transact, busWrite_cmd_eq, if_pos hi]
  rfl

/-- A command latched in a legal Idle state is specified. -/
theorem latch_ready {s : State} (h : s.Legal) (hi : s.blockState = .idle) (w : Word) : (s.latch w).ready :=
  ⟨(Written.legal h (.latched hi)).1, ((blockState_idle_iff s).mp hi).2⟩

theorem step_cmd_write {s : State} {i : Instr} {rest : List Turn} (hi : s.blockState = .idle)
    (h : s.turns = (Stmt.cmd i).turn s.cfg :: rest) :
    step s = .next ({ s with turns := rest, resp := some .okay }.latch (encode i)) :=
  (step_of_bus h).trans (congrArg _ (busTurn_cmd_write (s := { s with turns := rest }) hi (encode i)))

theorem step_status_read {s : State} {rest : List Turn} (h : s.turns = (Stmt.rd .status).turn s.cfg :: rest) :
    step s = .next { s with turns := rest, resp := some (.okayData s.statusWord) } :=
  (step_of_bus h).trans (congrArg _ (busTurn_status_read { s with turns := rest }))

/-- Settles O7: the CMD write, CORE's turn on the command it latched, and the STATUS read, step by step. -/
theorem runStatement : Obligations.RunStatement := by
  intro s i rest h hi hturns
  have hwrite := step_cmd_write hi hturns
  have hcore := (step_of_core (s := State.latch { s with turns := waitTurns s.cfg ++ rest, resp := some .okay } (encode i)) rfl).trans
    (coreTurn_of_decode rfl (decode_encode i))
  have hready := latch_ready (s := { s with turns := (Stmt.rd .status).turn s.cfg :: rest, resp := some .okay }) h hi (encode i)
  obtain ⟨t, hexec, hcfg, hleft⟩ := exec_cfg_turns hready i
  have hread := step_status_read (s := t) (rest := rest) (by rw [hleft, hcfg]; rfl)
  exact ⟨t, hexec, (run_step hwrite).trans ((run_step (hcore.trans hexec)).trans ((run_step hread).trans rfl))⟩

end Sys2Proof.Machine
end

section
/-! Command words and their decoder, and which bus accesses are answered, with what (spec 30_encoding R100 to R104; 20_memory R61 to
R69; 10_state R20 to R36). -/

namespace Sys2Proof.Machine

/-- Settles O2: the encoder is the inverse of the decoder. -/
theorem decodeIffEncode : Obligations.DecodeIffEncode := fun _ _ => decode_eq_ok_iff_encode

/-- Settles O1: the words of the opcode map are the encoder's. -/
theorem decodedWords : Obligations.DecodedWords :=
  ⟨decode_encode .nop, decode_encode .rewind, decode_encode .clrout, decode_encode .count, decode_encode .build,
    decode_encode .gencodes, decode_encode .padcalc, decode_encode .serialize, decode_encode .deserialize, decode_encode .pack,
    decode_encode .unpack, decode_encode .frame, decode_encode .unframe, decode_encode .compress, decode_encode .decompress⟩

/-- Settles O14: reset gives a specified state whatever the parameters, and the invariant does not look at the counter `epoch`. -/
theorem resetLegal : Obligations.ResetLegal := by
  have hreset (c : Config) (hc : c.wf = true) : State.ready { State.reset with cfg := c } :=
    resetBlock_ready (s := { State.reset with cfg := c }) hc
  exact ⟨hreset {} (by decide), hreset⟩

/-! ### The address map backwards (20_memory R61) -/

/-- The location is what the address map has at the offset: its window is there, and it names the word or byte at that place. -/
@[simp] def Location.isAt (off : Nat) : Location → Prop
  | .reg r => off < 0x40 ∧ r = regAt (off / 4)
  | .ext i => InExt off ∧ i = off - 0x100
  | .freq b => (0x400 ≤ off ∧ off < 0x800) ∧ b = BitVec.ofNat 8 ((off - 0x400) / 4)
  | .tpkt i => InTpkt off ∧ i = off - 0x1000
  | .code b w => (0x4000 ≤ off ∧ off < 0x8000) ∧ b = BitVec.ofNat 8 ((off - 0x4000) / 64) ∧ w = (off - 0x4000) % 64 / 4
  | .ibuf i => InIbuf off ∧ i = off - 0x1000000
  | .obuf i => InObuf off ∧ i = off - 0x2000000
  | .reserved => InNoWindow off

theorem locate_eq_iff (off : Nat) (l : Location) : locate off = l ↔ l.isAt off := by
  constructor
  · rintro rfl
    rcases locate_cases off with ⟨h, hl⟩ | ⟨h, h', hl⟩ | ⟨h, h', hl⟩ | ⟨h, h', hl⟩ | ⟨h, h', hl⟩ | ⟨h, h', hl⟩ | ⟨h, h', hl⟩ | ⟨h, hl⟩
      <;> simp [hl] <;> omega
  · intro h
    rcases locate_cases off with ⟨_, hl⟩ | ⟨_, _, hl⟩ | ⟨_, _, hl⟩ | ⟨_, _, hl⟩ | ⟨_, _, hl⟩ | ⟨_, _, hl⟩ | ⟨_, _, hl⟩ | ⟨_, hl⟩
      <;> rw [hl] <;> cases l <;> simp at h ⊢
    any_goals omega
    all_goals simp only [h, and_self]

/-! ### Reads (20_memory R61 to R68) -/

theorem busRead_eq_some_iff (s : State) (off size : Nat) (v : Word) : s.busRead off size = some v
    ↔ sizeAllowed (locate off) off size = true ∧ withinCapacity s.cfg (locate off) = true
      ∧ stateAllowsRead s.blockState (locate off) = true ∧ s.readLocation (locate off) = some v := by
  simp only [State.busRead, Option.ite_none_right_eq_some, Bool.and_eq_true, and_assoc]

/-- What the block state bars (R68), in terms of BUSY and FAULT. -/
theorem not_readBarred_iff (s : State) (off : Nat) : ¬ ReadBarred s.blockState off
    ↔ (s.busy = false ∧ s.fault = false) ∨ off < 0x10 ∨ (s.busy = false ∧ off < 0x18) := by
  unfold State.blockState
  cases s.busy <;> cases s.fault <;> simp
  omega

/-- An access of the right width finds its location barred or not by the offset alone. -/
theorem busRead_eq_some_iff_not_barred (s : State) (off size : Nat) (v : Word) : s.busRead off size = some v
    ↔ ¬ ReadBarred s.blockState off ∧ sizeAllowed (locate off) off size = true ∧ withinCapacity s.cfg (locate off) = true
      ∧ s.readLocation (locate off) = some v := by
  rw [busRead_eq_some_iff]
  by_cases hw : BadWidth off size
  · have hsize : ¬ sizeAllowed (locate off) off size = true := fun h => (sizeAllowed_locate_iff off size).mp h hw
    simp only [hsize, Bool.false_eq_true, false_and, and_false]
  · rw [(located_locate (aligned_of_not_badWidth hw)).stateAllowsRead_iff]
    tauto

/-- What is read at a location, by the width of the access: a word, or a byte within the capacity and the valid part. -/
theorem readLocation_iff (s : State) (l : Location) (off size : Nat) (v : Word) :
    sizeAllowed l off size = true ∧ withinCapacity s.cfg l = true ∧ s.readLocation l = some v
      ↔ (size = 4 ∧ off % 4 = 0
          ∧ ((∃ r, l = .reg r ∧ v = s.readReg r) ∨ (∃ b, l = .freq b ∧ v = s.freq.at b)
            ∨ ∃ b w, l = .code b w ∧ v = codeWord (s.code.at b) w))
        ∨ (size = 1
          ∧ ((∃ i, l = .ext i ∧ i < s.cfg.extCap ∧ i < s.extlen.toNat ∧ v = (s.readByte .ext i).setWidth 32)
            ∨ (∃ i, l = .tpkt i ∧ i < s.cfg.tpktCap ∧ i < s.tplen.toNat ∧ v = (s.readByte .tpkt i).setWidth 32)
            ∨ ∃ i, l = .obuf i ∧ i < s.cfg.obufCap ∧ i < s.olen.toNat ∧ v = (s.readByte .obuf i).setWidth 32)) := by
  cases l <;> simp [sizeAllowed, withinCapacity, State.readLocation, and_assoc, eq_comm (b := v)]

/-- Settles O21: the block state bars by the offset alone, and the location at the offset is the map's. -/
theorem readsAnswered : Obligations.ReadsAnswered := by
  intro s off size v
  rw [busRead_eq_some_iff_not_barred, not_readBarred_iff, readLocation_iff]
  simp [locate_eq_iff, and_assoc]

/-! ### Writes (20_memory R61 to R68, 10_state R22 to R35) -/

theorem busWrite_eq_some_iff (s t : State) (off size : Nat) (data : Word) : s.busWrite off size data = some t
    ↔ sizeAllowed (locate off) off size = true ∧ withinCapacity s.cfg (locate off) = true
      ∧ stateAllowsWrite s.blockState (locate off) = true ∧ s.writeLocation data (locate off) = some t := by
  simp only [State.busWrite, Option.ite_none_right_eq_some, Bool.and_eq_true, and_assoc]

theorem not_writeBarred_iff (s : State) (off : Nat) : ¬ WriteBarred s.blockState off
    ↔ (s.busy = false ∧ s.fault = false) ∨ off = 0x04 := by
  unfold State.blockState
  cases s.busy <;> cases s.fault <;> simp

theorem busWrite_eq_some_iff_not_barred (s t : State) (off size : Nat) (data : Word) : s.busWrite off size data = some t
    ↔ ¬ WriteBarred s.blockState off ∧ sizeAllowed (locate off) off size = true ∧ withinCapacity s.cfg (locate off) = true
      ∧ s.writeLocation data (locate off) = some t := by
  rw [busWrite_eq_some_iff]
  by_cases hw : BadWidth off size
  · have hsize : ¬ sizeAllowed (locate off) off size = true := fun h => (sizeAllowed_locate_iff off size).mp h hw
    simp only [hsize, Bool.false_eq_true, false_and, and_false]
  · rw [(located_locate (aligned_of_not_badWidth hw)).stateAllowsWrite_iff]
    tauto

/-- What a write at a location does, by the width of the access: a register's own effect, or one byte within the capacity. -/
theorem writeLocation_iff (s t : State) (l : Location) (off size : Nat) (data : Word) :
    sizeAllowed l off size = true ∧ withinCapacity s.cfg l = true ∧ s.writeLocation data l = some t
      ↔ (size = 4 ∧ off % 4 = 0 ∧ ∃ r, l = .reg r ∧ s.writeReg data r = some t)
        ∨ (size = 1
          ∧ ((∃ i, l = .ext i ∧ i < s.cfg.extCap ∧ t = s.writeByte .ext i (data.setWidth 8))
            ∨ (∃ i, l = .tpkt i ∧ i < s.cfg.tpktCap ∧ t = s.writeByte .tpkt i (data.setWidth 8))
            ∨ ∃ i, l = .ibuf i ∧ i < s.cfg.ibufCap ∧ t = s.writeByte .ibuf i (data.setWidth 8))) := by
  cases l <;> simp [sizeAllowed, withinCapacity, State.writeLocation, and_assoc, eq_comm (b := t)]

/-- An aligned offset in the register file is that of its register (10_state R20). -/
theorem register_at_iff (off : Nat) (p : Reg → Prop) :
    (off % 4 = 0 ∧ ∃ r, locate off = .reg r ∧ p r) ↔ ∃ r : Reg, off = r.offset ∧ p r := by
  constructor
  · rintro ⟨h4, r, hr, hp⟩
    obtain ⟨hoff, rfl⟩ := (locate_eq_iff off (.reg r)).mp hr
    exact ⟨_, (offset_regAt hoff h4).symm, hp⟩
  · rintro ⟨r, rfl, hp⟩
    exact ⟨(locate_offset r).2.1, r, (locate_offset r).1, hp⟩

theorem exists_reg_iff (p : Reg → Prop) : (∃ r, p r) ↔ p .id ∨ p .ctrl ∨ p .status ∨ p .cmd ∨ p .fcode ∨ p .finfo ∨ p .ilen
    ∨ p .icur ∨ p .olen ∨ p .pad ∨ p .totbitsLo ∨ p .totbitsHi ∨ p .tplen ∨ p .extlen ∨ p .sent ∨ p .ncount := by
  constructor
  · rintro ⟨r, h⟩
    cases r <;> simp only [h, true_or, or_true]
  · rintro (h | h | h | h | h | h | h | h | h | h | h | h | h | h | h | h) <;> exact ⟨_, h⟩

/-- A write of STATUS clears DONE where its bit 1 is set (R24). -/
theorem writeReg_status_eq (s : State) (data : Word) :
    s.writeReg data .status = some { s with done := s.done && !data.getLsbD 1 } := by
  rw [State.writeReg]
  cases data.getLsbD 1
  · simp only [Bool.false_eq_true, if_false, Bool.not_false, Bool.and_true]
  · simp only [if_true, Bool.not_true, Bool.and_false]

/-- Settles O22: the block state bars by the offset alone; a word access writes the register with that offset, and of the registers
the read-only ones take no write. -/
theorem writesAnswered : Obligations.WritesAnswered := by
  intro s t off size data
  rw [busWrite_eq_some_iff_not_barred, not_writeBarred_iff, writeLocation_iff, register_at_iff, exists_reg_iff, writeReg_status_eq]
  simp [locate_eq_iff, Reg.offset, State.writeReg, State.latch, State.setPad, State.setTplen, State.setExtlen,
    and_assoc, eq_comm (b := t)]

/-! ### The byte windows (20_memory R61, R67, R69) -/

/-- The byte of a buffer, as the address map names it. -/
def Space.location : Space → Nat → Location
  | .ibuf => .ibuf
  | .obuf => .obuf
  | .tpkt => .tpkt
  | .ext => .ext

theorem sizeAllowed_location (sp : Space) (i off : Nat) : sizeAllowed (sp.location i) off 1 = true := by cases sp <;> rfl

theorem withinCapacity_location (s : State) (sp : Space) (i : Nat) :
    withinCapacity s.cfg (sp.location i) = true ↔ i < s.capacity sp := by
  cases sp <;> exact decide_eq_true_iff

/-- A buffer's window holds its bytes, from offset 0 up to any legal capacity. -/
theorem locate_window {s : State} (hc : s.cfg.wf = true) {sp : Space} {i : Nat} (hi : i < s.capacity sp) :
    locate (sp.window + i) = sp.location i := by
  obtain ⟨⟨-, hib⟩, ⟨-, hob⟩, hext, ⟨-, hnode⟩, -⟩ := Config.wf_bounds hc
  cases sp <;> simp only [State.capacity] at hi <;>
    simp only [Space.location, locate_eq_iff, Location.isAt, Space.window, Config.tpktCap, InExt, InTpkt, InIbuf, InObuf] at hi ⊢ <;>
    omega

section
variable {s : State} (hc : s.cfg.wf = true) (hi : s.blockState = .idle) {sp : Space} {i : Nat} (hcap : i < s.capacity sp)
include hc hi hcap

theorem busRead_window : s.busRead (sp.window + i) 1 = s.readLocation (sp.location i) := by
  have hl := locate_window hc hcap
  rw [busRead_of_idle hi, hl] <;> rw [hl]
  · exact sizeAllowed_location sp i _
  · exact (withinCapacity_location s sp i).mpr hcap

/-- The byte written is stored in the buffer, but for OBUF, which takes no write. -/
theorem busWrite_window (hsp : sp ≠ .obuf) (data : Word) :
    s.busWrite (sp.window + i) 1 data = some (s.writeByte sp i (data.setWidth 8)) := by
  have hl := locate_window hc hcap
  have hwrite : s.writeLocation data (sp.location i) = some (s.writeByte sp i (data.setWidth 8)) := by
    cases sp
    case obuf => exact absurd rfl hsp
    all_goals rfl
  rw [busWrite_of_idle hi, hl, hwrite] <;> rw [hl]
  · exact sizeAllowed_location sp i _
  · exact (withinCapacity_location s sp i).mpr hcap

end

/-- Settles O30: the write stores the byte in its buffer; the read laws of `writeByte` give the rest. -/
theorem byteWindows : Obligations.ByteWindows := by
  intro s sp i data hc hi hsp hcap
  have hsame := State.readByte_writeByte_same s sp i (data.setWidth 8)
  have hread := busRead_window (s := s.writeByte sp i (data.setWidth 8)) hc hi hcap
  refine ⟨_, busWrite_window hc hi hcap hsp data, hsame, fun sp' a hne => ?other, rfl, ?ext, ?tpkt, ?ibuf⟩
  case other =>
    by_cases hspace : sp' = sp
    · subst hspace
      exact State.readByte_writeByte_ne s sp' _ fun ha => hne (by rw [ha])
    · exact State.readByte_writeByte_space s i a _ hspace
  case ext =>
    rintro rfl hlt
    exact hread.trans ((if_pos hlt).trans (by rw [hsame]))
  case tpkt =>
    rintro rfl hlt
    exact hread.trans ((if_pos hlt).trans (by rw [hsame]))
  case ibuf =>
    rintro rfl
    exact hread

/-! ### The registers in Idle (10_state R20 to R36) -/

theorem busRead_reg_of_idle {s : State} (hi : s.blockState = .idle) (r : Reg) : s.busRead r.offset 4 = some (s.readReg r) := by
  rw [busRead_reg, hi, stateAllowsRead_idle, if_pos rfl]

/-- The bits of STATUS (R24). -/
theorem State.statusWord_getLsbD (s : State) (k : Nat) : s.statusWord.getLsbD k
    = if k = 0 then s.busy else if k = 1 then s.done else if k = 2 then s.fault else decide (k = 3) && s.treeFlag := by
  have hbits : ∀ b d f t : Bool, ∀ k < 4, (b.toNat + 2 * d.toNat + 4 * f.toNat + 8 * t.toNat).testBit k
      = if k = 0 then b else if k = 1 then d else if k = 2 then f else decide (k = 3) && t := by decide
  have hsmall : s.busy.toNat + 2 * s.done.toNat + 4 * s.fault.toNat + 8 * s.treeFlag.toNat < 2 ^ 4 := by
    have := s.busy.toNat_lt
    have := s.done.toNat_lt
    have := s.fault.toNat_lt
    have := s.treeFlag.toNat_lt
    omega
  rw [State.statusWord, BitVec.getLsbD_ofNat]
  by_cases hk : k < 4
  · rw [hbits _ _ _ _ k hk, decide_eq_true (by omega), Bool.true_and]
  · have hhigh := Nat.testBit_lt_two_pow (hsmall.trans_le (Nat.pow_le_pow_right (by decide) (Nat.le_of_not_lt hk)))
    rw [hhigh, if_neg (by omega), if_neg (by omega), if_neg (by omega), decide_eq_false (by omega : ¬ k = 3), Bool.false_and,
      Bool.and_false]

/-- Settles O25: in Idle every register is read, and STATUS is read bit by bit. -/
theorem registerReads : Obligations.RegisterReads := by
  intro s hi
  have hreg := busRead_reg_of_idle hi
  refine ⟨hreg .id, hreg .ctrl, hreg .status, hreg .cmd, hreg .fcode, hreg .finfo, hreg .ilen, hreg .icur, hreg .olen, hreg .pad,
    hreg .totbitsLo, hreg .totbitsHi, hreg .tplen, hreg .extlen, hreg .sent, hreg .ncount, ?status⟩
  case status =>
    refine ⟨s.statusWord_getLsbD 0, s.statusWord_getLsbD 1, s.statusWord_getLsbD 2, s.statusWord_getLsbD 3, fun k hk => ?_⟩
    rw [State.statusWord_getLsbD, if_neg (by omega), if_neg (by omega), if_neg (by omega), decide_eq_false (by omega), Bool.false_and]

end Sys2Proof.Machine
end

section
/-! COMPRESS and DECOMPRESS as commands, and the round trip (spec 48_container R270 to R274). -/

namespace Sys2Proof.Machine

/-! ### COMPRESS -/

theorem State.stream_length (s : State) : s.stream.length = s.ilen.toNat := State.bytesFrom_length _ _ _ _

theorem Ready.stream_small {s : State} (h : Ready s) : s.stream.length < 2 ^ 31 := by
  have hi := h.ilen
  have hcap := h.bounds.1.2
  rw [State.stream_length]
  omega

theorem State.stream_eq_nil_iff (s : State) : s.stream = [] ↔ s.ilen = 0#32 := by
  rw [← List.length_eq_zero_iff, State.stream_length, ← BitVec.toNat_inj]
  rfl

/-- The tree that COMPRESS builds of a legal input stream. -/
theorem Ready.stream_tree {s : State} (h : Ready s) {tr : Tree} (hb : buildTree (countBytes s.stream) s.sent = .ok tr) :
    tr.isLeaf = false ∧ (∀ e ∈ tr.paths [], e.2.length ≤ maxLen) ∧ tr.size ≤ 511 := by
  have hsum : (allSymbols.map fun b => ((countBytes s.stream).at b).toNat).sum < 2 ^ 31 := by
    rw [countBytes_sum (h.stream_small.trans (by decide))]
    exact h.stream_small
  obtain ⟨hleaf, -, hdepth, -, hsize⟩ := buildTree_eq_ok hsum hb
  exact ⟨hleaf, hdepth, hsize⟩

/-- COMPRESS that succeeds has written the Container of its input. -/
theorem exec_compress_success {s t : State} (h : s.ready) (hexec : exec .compress s = .next t) (hf : t.fault = false) :
    ∃ u tr c bs, t = u.complete ∧ Compressed s u tr c bs := by
  obtain ⟨u, hu, rfl⟩ := exec_success hexec hf
  rcases runCompress_cases h.toReady with ⟨-, he⟩ | ⟨tr, c, -, -, -, ⟨-, v, bs, hv, -, -, hcomp⟩ | ⟨-, he⟩⟩
  · cases hu.symm.trans he
  · cases hu.symm.trans hv
    exact ⟨u, tr, c, bs, rfl, hcomp⟩
  · cases hu.symm.trans he

/-- The codes of a stream of bytes are leaf paths of the tree the codes are of, and the leaves' values are the bytes. -/
theorem exists_paths_of_codedAll {c : CodeTable} {tr : Tree} (hc : codesOf c tr) {bytes : List Byte} (hall : codedAll c bytes) :
    ∃ es : List (Byte × BitString), (∀ e ∈ es, e ∈ tr.paths []) ∧ es.map Prod.fst = bytes
      ∧ es.flatMap Prod.snd = codeBits c bytes := by
  induction bytes with
  | nil => exact ⟨[], fun _ he => absurd he List.not_mem_nil, rfl, rfl⟩
  | cons v vs ih =>
    obtain ⟨es, hes, hfst, hsnd⟩ := ih fun b hb => hall b (List.mem_cons_of_mem v hb)
    obtain ⟨p, hp⟩ := Option.isSome_iff_exists.mp (hall v List.mem_cons_self)
    refine ⟨(v, p) :: es, fun e he => ?_, by rw [List.map_cons, hfst], by rw [List.flatMap_cons, hsnd, codeBits_cons hp]⟩
    rcases List.mem_cons.mp he with rfl | he
    · exact (hc v p).mp hp
    · exact hes e he

/-- Bits padded to whole bytes are the payload of those bytes. -/
theorem payload_of_bitsOf {n : Nat} {bits : BitString} {body : List Byte} (h : bitsOf body = bits ++ List.replicate n false) :
    payload n body = bits := by
  have hlen : 8 * body.length = bits.length + n := by rw [← bitsOf_length, h, List.length_append, List.length_replicate]
  rw [payload, h, hlen, Nat.add_sub_cancel, List.take_left]

/-! ### The round trip (R273) -/

/-- What COMPRESS wrote is a Container that DECOMPRESS takes, in any ready machine that is large enough. -/
theorem runDecompress_of_compressed {s t u : State} {tr : Tree} {c : CodeTable} {bs : List Byte} (hs : Ready s)
    (h : Compressed s t tr c bs) (hu : Ready u) (hstream : u.stream = t.output) (hext : s.extlen.toNat ≤ u.cfg.extCap)
    (hlen : s.ilen.toNat ≤ u.cfg.obufCap) :
    ∃ v, runDecompress u = .ok v ∧ Kept u v ∧ v.output = s.stream ∧ v.extension = s.extension := by
  obtain ⟨hinner, -, hsize⟩ := hs.stream_tree h.built
  obtain ⟨es, hes, hbytes, hcodes⟩ := exists_paths_of_codedAll h.codes (codedAll_stream h.valid)
  have hpad := paddingOf_ofNat (codeBits c s.stream).length
  have hnode : tr.size ≤ u.cfg.nodeCap := hsize.trans hu.bounds.2.2.2.1
  have hextlen : s.extension.length ≤ u.cfg.extCap := by rwa [State.extension, State.bytesFrom_length]
  have hroom : es.length ≤ u.cfg.obufCap := by rwa [← List.length_map (f := Prod.fst), hbytes, State.stream_length]
  have hempty : bs = [] → BitVec.ofNat 3 (paddingOf (codeBits c s.stream).length) = 0#3 := by
    intro hnil
    have hzero := congrArg List.length h.bits
    rw [hnil, List.length_append, List.length_replicate] at hzero
    have : paddingOf (codeBits c s.stream).length = 0 := Nat.eq_zero_of_add_eq_zero_left hzero.symm
    rw [this]
  obtain ⟨v, hv, -, hkept, hout, -, hexten, -⟩ := runDecompress_ok hu (by rw [hpad, hstream]; exact h.output) hextlen hnode
    (fun hleaf => by rw [hinner] at hleaf; cases hleaf) hes (by rw [hpad, payload_of_bitsOf h.bits, hcodes]) hempty hroom
  exact ⟨v, hv, hkept, hout.trans hbytes, hexten⟩

/-- Settles O58: COMPRESS leaves a Container whose payload bits are leaf paths of the tree in it, and DECOMPRESS of such a Container
gives back the leaves' values and the extension. -/
theorem roundTrip : Obligations.RoundTrip := by
  intro s t u hs hexec hf hu hstream hext hlen
  obtain ⟨t, tr, c, bs, rfl, hcomp⟩ := exec_compress_success hs hexec hf
  obtain ⟨v, hv, hkept, hout, hexten⟩ := runDecompress_of_compressed hs.toReady hcomp hu.toReady hstream hext hlen
  exact ⟨v.complete, exec_ok (i := .decompress) hv, rfl, hkept.2.2.2.trans hu.2, hout, hexten⟩

/-! ### What COMPRESS leaves (R271) -/

theorem codeBits_length_le {c : CodeTable} {bytes : List Byte} (hc : ∀ b, c.len b ≤ maxLen) :
    (codeBits c bytes).length ≤ bytes.length * 255 := by
  rw [codeBits_length]
  refine (List.sum_le_card_nsmul _ maxLen fun n hn => ?_).trans (by rw [List.length_map, smul_eq_mul])
  obtain ⟨b, -, rfl⟩ := List.mem_map.mp hn
  exact hc b

/-- Codes that are paths of a tree no deeper than MAXLEN are no longer than it. -/
theorem codesOf.len_le {c : CodeTable} {tr : Tree} (hc : codesOf c tr) (hdepth : ∀ e ∈ tr.paths [], e.2.length ≤ maxLen) (b : Byte) :
    c.len b ≤ maxLen := by
  unfold CodeTable.len
  cases hb : c.at b with
  | none => exact Nat.zero_le maxLen
  | some p => exact hdepth _ ((hc b p).mp hb)

/-- The Container of a non-empty input fits the bound: at most 511 nodes, and at most 255 bits a byte. -/
theorem compress_bound {s : State} (h : Ready s) {tr : Tree} {c : CodeTable} (hb : buildTree (countBytes s.stream) s.sent = .ok tr)
    (hc : codesOf c tr) (hne : s.ilen ≠ 0#32) (hcap : 3078 + s.extlen.toNat + 32 * s.ilen.toNat ≤ s.cfg.obufCap) :
    12 + s.extlen.toNat + 6 * tr.size + ((codeBits c s.stream).length + 7) / 8 ≤ s.cfg.obufCap := by
  obtain ⟨-, hdepth, hsize⟩ := h.stream_tree hb
  have hbits := codeBits_length_le (bytes := s.stream) (hc.len_le hdepth)
  have hpos : s.ilen.toNat ≠ 0 := fun h0 => hne (BitVec.eq_of_toNat_eq h0)
  rw [State.stream_length] at hbits
  omega

/-- The registers that hold the size of the payload do not wrap. -/
theorem Compressed.totbits_toNat {s t : State} {tr : Tree} {c : CodeTable} {bs : List Byte} (hs : Ready s) (h : Compressed s t tr c bs) :
    t.totbits.toNat = (codeBits c s.stream).length := by
  have hbits := codeBits_length_le (bytes := s.stream) (h.codes.len_le (hs.stream_tree h.built).2.1)
  have hsmall := hs.stream_small
  rw [h.totbits, BitVec.toNat_ofNat, Nat.mod_eq_of_lt (by omega)]

theorem Compressed.pad_toNat {s t : State} {tr : Tree} {c : CodeTable} {bs : List Byte} (h : Compressed s t tr c bs) :
    t.pad.toNat = paddingOf (codeBits c s.stream).length := by rw [h.pad, paddingOf_ofNat]

theorem Compressed.extension {s t : State} {tr : Tree} {c : CodeTable} {bs : List Byte} (h : Compressed s t tr c bs) :
    t.extension = s.extension := by
  rw [State.extension, State.extension, h.ext.1]
  exact State.bytesFrom_congr fun i _ => h.ext.2 (0 + i)

/-- The output of COMPRESS, field by field. -/
theorem Compressed.output_fields {s t : State} {tr : Tree} {c : CodeTable} {bs : List Byte} (h : Compressed s t tr c bs) :
    t.output = bigEndian t.pad.toNat ++ bigEndian s.extlen.toNat ++ s.extension ++ bigEndian t.tplen.toNat ++ t.packet ++ bs := by
  have hext : s.extension.length = s.extlen.toNat := State.bytesFrom_length _ _ _ _
  rw [h.output, h.pad_toNat, containerHeader, hext, packetOf_length, h.tplen, h.packet]

/-- Settles O55: the cases of COMPRESS on a legal state; the bound leaves room for the largest Container. -/
theorem compressResult : Obligations.CompressResult := by
  intro s hs
  have hr : Ready s := hs.toReady
  rcases runCompress_cases hr with ⟨hnil, he⟩ | ⟨tr, c, hne, hbuilt, hcodes, hrun⟩
  · have hzero := (State.stream_eq_nil_iff s).mp hnil
    exact ⟨fun _ => exec_faults (i := .compress) he, fun hne => absurd hzero hne, fun hne => absurd hzero hne⟩
  · have hne' : s.ilen ≠ 0#32 := fun h0 => hne ((State.stream_eq_nil_iff s).mpr h0)
    refine ⟨fun h0 => absurd h0 hne', fun _ => ?container, fun _ hcap => ?fits⟩
    case fits =>
      rcases hrun with ⟨-, t, bs, ht, -, hkept, -⟩ | ⟨hfull, -⟩
      · exact ⟨_, exec_ok (i := .compress) ht, rfl, hkept.2.2.2.trans hs.2⟩
      · exact absurd (compress_bound hr hbuilt hcodes hne' hcap) (by omega)
    case container =>
      rcases hrun with ⟨-, t, bs, ht, -, hkept, hcomp⟩ | ⟨-, he⟩
      · refine .inr ⟨t.complete, tr, bs, exec_ok (i := .compress) ht, rfl, hkept.2.2.2.trans hs.2, ?_⟩
        have htot := hcomp.totbits_toNat hr
        obtain rfl : t.code = c := hcomp.code
        refine ⟨hcomp.icur, fun b => ?count, hcomp.tree, hcomp.codes, hcomp.valid, htot, ?pad, hcomp.packet, hcomp.tplen, hcomp.ext.1,
          hcomp.extension, ?bits, hcomp.output_fields, ?length⟩
        case count =>
          rw [show t.complete.freq = countBytes s.stream from hcomp.freq]
          exact countBytes_toNat (hr.stream_small.trans (by decide)) b
        case pad => exact hcomp.pad_toNat.trans (by rw [← htot]; rfl)
        case bits => exact hcomp.bits.trans (by rw [← hcomp.pad_toNat]; rfl)
        case length => exact hcomp.olen.trans (by rw [← htot, ← hcomp.tplen]; rfl)
      · exact .inl (exec_faults (i := .compress) he)

end Sys2Proof.Machine
end

section
/-! COMPRESS and DECOMPRESS as sequences of their sub-commands (spec 48_container R270, R272, R274). -/

namespace Sys2Proof.Machine

/-! ### No pseudocode looks at BUSY or DONE -/

theorem memWrite_outside {s : State} {sp : Space} {off : Nat} {bs : List Byte} (h : ¬ (bs = [] ∨ off + bs.length ≤ s.capacity sp)) :
    memWrite s sp off bs = .error (.outside sp) := if_neg h

theorem memWrite_complete (s : State) (sp : Space) (off : Nat) (bs : List Byte) :
    memWrite s.complete sp off bs = State.complete <$> memWrite s sp off bs := by
  by_cases h : bs = [] ∨ off + bs.length ≤ s.capacity sp
  · rw [memWrite_ok h, memWrite_ok (s := s.complete) h]
    rfl
  · rw [memWrite_outside h, memWrite_outside (s := s.complete) h]
    rfl

/-- A basic command does the same after the end of the command before it, and leaves BUSY and DONE as that end set them. -/
theorem runOf_complete {i : Instr} (hi : i ≠ .compress) (hi' : i ≠ .decompress) (s : State) :
    runOf i s.complete = State.complete <$> runOf i s := by
  cases i with
  | nop => rfl
  | rewind => rfl
  | clrout => rfl
  | count => simp only [runOf, runCount, map_bind]; rfl
  | build => simp only [runOf, runBuild, map_bind]; rfl
  | gencodes =>
    simp only [runOf, runGencodes, State.complete_tree]
    cases s.tree with
    | none => rfl
    | some t => simp only [map_bind]; rfl
  | padcalc =>
    simp only [runOf, runPadcalc, State.complete_freq, State.complete_code]
    cases tableMismatch s.freq s.code <;> rfl
  | serialize =>
    simp only [runOf, runSerialize, State.complete_tree]
    cases s.tree with
    | none => rfl
    | some t => simp only [memWrite_complete, map_bind, bind_map_left]; rfl
  | deserialize => simp only [runOf, runDeserialize, map_bind]; rfl
  | pack => simp only [runOf, runPack, map_bind]; rfl
  | unpack =>
    simp only [runOf, runUnpack, State.complete_tree]
    cases s.tree with
    | none => rfl
    | some t => simp only [map_bind]; rfl
  | frame => simp only [runOf, runFrame, map_bind]; rfl
  | unframe =>
    have h1 (h : Header) : memWrite (s.complete.setPad h.pad) .ext 0 h.ext = State.complete <$> memWrite (s.setPad h.pad) .ext 0 h.ext :=
      memWrite_complete (s.setPad h.pad) .ext 0 h.ext
    have h2 (h : Header) (u : State) : memWrite (u.complete.setExtlen (BitVec.ofNat 32 h.ext.length)) .tpkt 0 h.packet
        = State.complete <$> memWrite (u.setExtlen (BitVec.ofNat 32 h.ext.length)) .tpkt 0 h.packet :=
      memWrite_complete (u.setExtlen _) .tpkt 0 h.packet
    simp only [runOf, runUnframe, h1, h2, map_bind, bind_map_left]
    rfl
  | compress => exact absurd rfl hi
  | decompress => exact absurd rfl hi'

/-! ### The end of a command, seen from a later state -/

/-- Fault entry looks only at what no command writes. -/
theorem takeFault_eq_of_sameControl {s t : State} (h : sameControl s t) (c : Cause) (info : Word) :
    t.takeFault c info = s.takeFault c info := by
  obtain ⟨hcfg, hien, hcmd, -, -, -, -, hturns, hresp, hepoch⟩ := h
  simp only [State.takeFault, hcfg, hien, hcmd, hturns, hresp, hepoch]

theorem finish_eq_of_sameControl {s t : State} (h : sameControl s t) (r : Except Stop State) : finish t r = finish s r := by
  rcases r with (⟨c, info⟩ | _) | _
  · exact congrArg _ (takeFault_eq_of_sameControl h c info)
  · rfl
  · rfl

/-- Basic commands run one after the other are their pseudocodes run as one step. -/
theorem execAll_eq_finish {is : List Instr} (hi : ∀ i ∈ is, i ≠ .compress ∧ i ≠ .decompress) {s : State} (hf : s.fault = false) :
    execAll is s.complete = finish s (runAll (is.map runOf) s) := by
  induction is generalizing s with
  | nil => rfl
  | cons i rest ih =>
    have hrest := fun j hj => hi j (List.mem_cons_of_mem i hj)
    obtain ⟨hc, hd⟩ := hi i List.mem_cons_self
    have hexec : exec i s.complete = finish s.complete (State.complete <$> runOf i s) := by
      rw [exec_eq_finish, runOf_complete hc hd]
    cases hr : runOf i s with
    | error e =>
      rw [hr] at hexec
      rw [List.map_cons, runAll_cons_error hr, execAll, hexec]
      cases e <;> rfl
    | ok u =>
      rw [hr] at hexec
      obtain ⟨hsame, -, -, hfault⟩ := (runOf_onlyWrites hr).1
      have hfu : u.fault = false := hfault.trans hf
      have hnext : exec i s.complete = .next u.complete := hexec
      rw [List.map_cons, runAll_cons_ok hr, ← finish_eq_of_sameControl hsame, ← ih hrest hfu, execAll, hnext]
      simp only [State.complete_fault, hfu, Bool.false_eq_true, if_false]

/-- After REWIND, which always completes, the rest of a sequence. -/
theorem execAll_rewind {is : List Instr} (hi : ∀ i ∈ is, i ≠ .compress ∧ i ≠ .decompress) {s : State} (hf : s.fault = false) :
    execAll (.rewind :: is) s = finish s (runAll (runRewind :: is.map runOf) s) := by
  have hexec : exec .rewind s = .next (s.setIcur 0#32).complete := exec_ok (i := .rewind) rfl
  have hsame : sameControl s (s.setIcur 0#32) := (Kept.setIcur s 0#32).1
  have hfault : (s.setIcur 0#32).fault = false := hf
  have hrun : runRewind s = .ok (s.setIcur 0#32) := rfl
  rw [execAll, hexec, runAll_cons_ok hrun, ← finish_eq_of_sameControl hsame, ← execAll_eq_finish hi hfault]
  simp only [State.complete_fault, hfault, Bool.false_eq_true, if_false]

/-- Settles O56: both composites begin with REWIND and go on with basic commands. -/
theorem compositesAreSequences : Obligations.CompositesAreSequences := by
  refine fun s hf => ⟨?compress, ?decompress⟩
  case compress =>
    exact (execAll_rewind (is := [.count, .rewind, .build, .gencodes, .padcalc, .serialize, .clrout, .frame, .pack]) (by decide) hf).symm
  case decompress => exact (execAll_rewind (is := [.unframe, .deserialize, .clrout, .unpack]) (by decide) hf).symm

end Sys2Proof.Machine
end

section
/-! What each command leaves unchanged, byte by byte (spec 30_encoding R102; 20_memory R71, R72), and what DECOMPRESS leaves. -/

namespace Sys2Proof.Machine

/-! ### Parts of the state that are not written -/

/-- Settles O59: a success is the end of a pseudocode, which writes nothing outside its row, and then sets BUSY and DONE. -/
theorem frameAll : Obligations.FrameAll := by
  intro i s t hexec hf
  obtain ⟨u, hu, rfl⟩ := exec_success hexec hf
  obtain ⟨⟨hsame, -⟩, hparts⟩ := runOf_onlyWrites hu
  exact ⟨hsame, rfl, rfl, fun p hp => Part.same_trans (hparts p hp) (Part.same_complete p u)⟩

/-- Settles O57, with the tables from the column "writes" of DECOMPRESS. -/
theorem decompressResult : Obligations.DecompressResult := by
  intro s p ext body tr es hs hstream hext hsize hes hleaf hbits hpad hroom
  obtain ⟨t, ht, -, hkept, hout, holen, hexten, hextlen, hpacket, htplen, hp, htree, hroot, hncount, hicur⟩ :=
    runDecompress_ok hs.toReady hstream hext hsize hleaf hes hbits hpad hroom
  have hsame {q : Part} (hq : q ∉ writes .decompress) : q.same s t := (runOf_onlyWrites (i := .decompress) ht).2 q hq
  have hfreq : t.freq = s.freq := hsame (q := .freq) (by decide)
  have hcode : t.code = s.code := hsame (q := .code) (by decide)
  have htotbits : t.totbits = s.totbits := hsame (q := .totbits) (by decide)
  exact ⟨t.complete, exec_ok (i := .decompress) ht, rfl, hkept.2.2.2.trans hs.2, hout, holen, hexten, hextlen, hpacket, htplen, hp,
    htree, hroot, hncount, hicur, hfreq, hcode, htotbits⟩

/-! ### Sequences of commands, taken apart -/

theorem runAll_append_eq_ok {fs gs : List (State → Except Stop State)} {s t : State} (h : runAll (fs ++ gs) s = .ok t) :
    ∃ u, runAll fs s = .ok u ∧ runAll gs u = .ok t := by
  induction fs generalizing s with
  | nil => exact ⟨s, rfl, h⟩
  | cons f fs ih =>
    cases hf : f s with
    | error e =>
      rw [List.cons_append, runAll_cons_error hf] at h
      cases h
    | ok v =>
      rw [List.cons_append, runAll_cons_ok hf] at h
      rw [runAll_cons_ok hf]
      exact ih h

theorem runAll_singleton_eq_ok {f : State → Except Stop State} {s t : State} (h : runAll [f] s = .ok t) : f s = .ok t := by
  cases hf : f s with
  | error e => rw [runAll_cons_error hf] at h; cases h
  | ok u => rw [runAll_cons_ok hf] at h; exact h

theorem runOf_ready {i : Instr} {s t : State} (hr : Ready s) (h : runOf i s = .ok t) : Ready t := by
  rcases runOf_good hr i with ⟨u, hu, hready, -⟩ | ⟨c, info, -, he⟩
  · cases h.symm.trans hu
    exact hready
  · cases h.symm.trans he

theorem runAll_ready {is : List Instr} {s t : State} (hr : Ready s) (h : runAll (is.map runOf) s = .ok t) : Ready t := by
  induction is generalizing s with
  | nil => cases h; exact hr
  | cons i rest ih =>
    obtain ⟨u, hu, hrest⟩ := runAll_append_eq_ok (fs := [runOf i]) h
    exact ih (runOf_ready hr (runAll_singleton_eq_ok hu)) hrest

/-- A part that none of the commands writes is the same after them. -/
theorem runAll_same {is : List Instr} {s t : State} (h : runAll (is.map runOf) s = .ok t) {p : Part} (hp : ∀ i ∈ is, p ∉ writes i) :
    p.same s t := by
  induction is generalizing s with
  | nil => cases h; exact (onlyWrites_refl _).2 p List.not_mem_nil
  | cons i rest ih =>
    obtain ⟨u, hu, hrest⟩ := runAll_append_eq_ok (fs := [runOf i]) h
    exact Part.same_trans ((runOf_onlyWrites (runAll_singleton_eq_ok hu)).2 p (hp i List.mem_cons_self))
      (ih hrest fun j hj => hp j (List.mem_cons_of_mem i hj))

/-! ### The bytes each basic command stores to -/

/-- PACK, UNPACK and FRAME extend the output stream. -/
theorem runOf_emitter {i : Instr} (hi : i = .pack ∨ i = .unpack ∨ i = .frame) {s t : State} (hr : Ready s) (h : runOf i s = .ok t) :
    ∃ bs, s.outPort.fits bs.length ∧ t.olen = (s.outPort.extend bs).len ∧ t.mem = (s.setOutPort (s.outPort.extend bs)).mem := by
  rcases hi with rfl | rfl | rfl
  · obtain ⟨o, ho, rfl⟩ := runPack_eq_ok h
    rcases packStream_cases s.code s.pad s.icur.toNat s.input s.outPort with
      ⟨_, _, bs, o', hok, hgrew, _⟩ | ⟨_, _, _, _, he⟩ | ⟨_, _, he⟩ | ⟨_, he, _⟩
    · cases ho.symm.trans hok
      obtain ⟨hfits, rfl⟩ := hr.grew hgrew
      exact ⟨bs, hfits, rfl, rfl⟩
    all_goals cases ho.symm.trans he
  · obtain ⟨root, o, -, ho, rfl⟩ := runUnpack_eq_ok h
    rcases unpackStream_cases root s.pad s.icur.toNat s.input s.outPort with
      ⟨es, o', hok, hgrew, _⟩ | ⟨_, _, he⟩ | ⟨_, _, _, he⟩ | ⟨_, _, _, _, _, he⟩ | ⟨_, he, _⟩
    · cases ho.symm.trans hok
      obtain ⟨hfits, rfl⟩ := hr.grew hgrew
      exact ⟨es.map Prod.fst, hfits, rfl, rfl⟩
    all_goals cases ho.symm.trans he
  · obtain ⟨hfits, rfl⟩ := runFrame_eq_ok hr h
    exact ⟨_, hfits, rfl, rfl⟩

/-- They store from the old OLEN to the new one. -/
theorem runOf_emitter_obuf {i : Instr} (hi : i = .pack ∨ i = .unpack ∨ i = .frame) {s t : State} (hr : Ready s)
    (h : runOf i s = .ok t) : s.olen.toNat ≤ t.olen.toNat
      ∧ ∀ a, ¬ (s.olen.toNat ≤ a ∧ a < t.olen.toNat) → t.readByte .obuf a = s.readByte .obuf a := by
  obtain ⟨bs, hfits, holen, hmem⟩ := runOf_emitter hi hr h
  have hlen : t.olen.toNat = s.olen.toNat + bs.length := by rw [holen, OutPort.extend_len hfits, State.outPort_len]
  refine ⟨by omega, fun a ha => ?_⟩
  rw [State.readByte_congr (s := s.setOutPort (s.outPort.extend bs)) (by rw [hmem]) (runOf_onlyWrites h).1.epoch]
  exact readByte_setOutPort_obuf_outside s bs a (by omega)

theorem runSerialize_tpkt {s t : State} (hr : Ready s) (h : runSerialize s = .ok t) {a : Nat} (ha : t.tplen.toNat ≤ a) :
    t.readByte .tpkt a = s.readByte .tpkt a := by
  obtain ⟨tr, htree, -, rfl⟩ := runSerialize_eq_ok h
  refine State.stored_readByte_outside s .tpkt _ (.inr ?_)
  rw [packetOf_length, Nat.zero_add, ← hr.packetLength (hr.tree_size htree).2.1]
  exact ha

theorem runUnframe_stored {s t : State} (hr : Ready s) (h : runUnframe s = .ok t) :
    (∀ a, t.extlen.toNat ≤ a → t.readByte .ext a = s.readByte .ext a)
      ∧ ∀ a, t.tplen.toNat ≤ a → t.readByte .tpkt a = s.readByte .tpkt a := by
  obtain ⟨hd, hread, rfl⟩ := runUnframe_eq_ok h
  obtain ⟨hextlen, htplen, -⟩ := hr.unframed_lengths hread
  exact ⟨fun a ha => State.unframed_readByte_ext s hd a (by rwa [← hextlen]),
    fun a ha => State.unframed_readByte_tpkt s hd a (by rwa [← htplen])⟩

/-! ### The composites -/

/-- An emitting command after CLROUT stores below the new OLEN only. -/
theorem emitter_after_clrout {i : Instr} (hi : i = .pack ∨ i = .unpack ∨ i = .frame) {s t : State} (hr : Ready s)
    (h : runAll [runClrout, runOf i] s = .ok t) {a : Nat} (ha : t.olen.toNat ≤ a) : t.readByte .obuf a = s.readByte .obuf a := by
  have hrun : runOf i (s.setOlen 0#32) = .ok t := runAll_singleton_eq_ok h
  obtain ⟨-, hsame⟩ := runOf_emitter_obuf hi hr.setOlen_zero hrun
  exact hsame a fun ⟨_, hlt⟩ => absurd hlt (by omega)

/-- COMPRESS stores to TPKT in SERIALIZE, and to OBUF in FRAME and PACK, after CLROUT. -/
theorem runCompress_stored {s t : State} (hr : Ready s) (h : runCompress s = .ok t) :
    (∀ a, t.tplen.toNat ≤ a → t.readByte .tpkt a = s.readByte .tpkt a)
      ∧ ∀ a, t.olen.toNat ≤ a → t.readByte .obuf a = s.readByte .obuf a := by
  obtain ⟨u, hu, h⟩ := runAll_append_eq_ok (fs := [Instr.rewind, .count, .rewind, .build, .gencodes, .padcalc].map runOf)
    (gs := [runSerialize, runClrout, runFrame, runPack]) h
  obtain ⟨v, hv, hrest⟩ := runAll_append_eq_ok (fs := [runOf .serialize]) h
  obtain ⟨w, hw, hpack⟩ := runAll_append_eq_ok (fs := [runClrout, runOf .frame]) hrest
  have hpack := runAll_singleton_eq_ok hpack
  have hru : Ready u := runAll_ready hr hu
  have hrv : Ready v := runOf_ready hru (runAll_singleton_eq_ok hv)
  have hrw : Ready w := runAll_ready (is := [.clrout, .frame]) hrv hw
  constructor
  · intro a ha
    have hlen : t.tplen = v.tplen := runAll_same (is := [.clrout, .frame, .pack]) hrest (p := .tplen) (by decide)
    calc t.readByte .tpkt a
        = v.readByte .tpkt a := runAll_same (is := [.clrout, .frame, .pack]) hrest (p := .bytes .tpkt) (by decide) a
      _ = u.readByte .tpkt a := runSerialize_tpkt hru (runAll_singleton_eq_ok hv) (by rwa [← hlen])
      _ = s.readByte .tpkt a := runAll_same hu (p := .bytes .tpkt) (by decide) a
  · intro a ha
    obtain ⟨hle, hsame⟩ := runOf_emitter_obuf (i := .pack) (.inl rfl) hrw hpack
    calc t.readByte .obuf a
        = w.readByte .obuf a := hsame a fun ⟨_, hlt⟩ => absurd hlt (by omega)
      _ = v.readByte .obuf a := emitter_after_clrout (i := .frame) (.inr (.inr rfl)) hrv hw (by omega)
      _ = u.readByte .obuf a := runAll_same (is := [.serialize]) hv (p := .bytes .obuf) (by decide) a
      _ = s.readByte .obuf a := runAll_same hu (p := .bytes .obuf) (by decide) a

/-- DECOMPRESS stores to EXT and TPKT in UNFRAME, and to OBUF in UNPACK, after CLROUT. -/
theorem runDecompress_stored {s t : State} (hr : Ready s) (h : runDecompress s = .ok t) :
    (∀ a, t.extlen.toNat ≤ a → t.readByte .ext a = s.readByte .ext a)
      ∧ (∀ a, t.tplen.toNat ≤ a → t.readByte .tpkt a = s.readByte .tpkt a)
      ∧ ∀ a, t.olen.toNat ≤ a → t.readByte .obuf a = s.readByte .obuf a := by
  obtain ⟨u, hu, hrest⟩ := runAll_append_eq_ok (fs := [runRewind, runUnframe]) h
  have hunframe : runUnframe (s.setIcur 0#32) = .ok u := runAll_singleton_eq_ok hu
  have hru : Ready u := runAll_ready (is := [.rewind, .unframe]) hr hu
  have hlast {p : Part} (hp : ∀ i ∈ [Instr.deserialize, .clrout, .unpack], p ∉ writes i) : p.same u t :=
    runAll_same (is := [.deserialize, .clrout, .unpack]) hrest hp
  obtain ⟨hext, htpkt⟩ := runUnframe_stored hr.setIcur_zero hunframe
  refine ⟨fun a ha => ?ext, fun a ha => ?tpkt, fun a ha => ?obuf⟩
  case ext =>
    have hlen : t.extlen = u.extlen := hlast (p := .extlen) (by decide)
    exact (hlast (p := .bytes .ext) (by decide) a).trans (hext a (by rwa [← hlen]))
  case tpkt =>
    have hlen : t.tplen = u.tplen := hlast (p := .tplen) (by decide)
    exact (hlast (p := .bytes .tpkt) (by decide) a).trans (htpkt a (by rwa [← hlen]))
  case obuf =>
    obtain ⟨v, hv, hunpack⟩ := runAll_append_eq_ok (fs := [runOf .deserialize]) hrest
    have hrv : Ready v := runAll_ready (is := [.deserialize]) hru hv
    calc t.readByte .obuf a
        = v.readByte .obuf a := emitter_after_clrout (i := .unpack) (.inr (.inl rfl)) hrv hunpack ha
      _ = u.readByte .obuf a := runAll_same (is := [.deserialize]) hv (p := .bytes .obuf) (by decide) a
      _ = s.readByte .obuf a := runAll_same (is := [.rewind, .unframe]) hu (p := .bytes .obuf) (by decide) a

/-- A buffer that is in the row of a command is stored to as `storesTo` says; any other is not stored to at all. -/
theorem runOf_readByte {i : Instr} {s t : State} (hr : Ready s) (h : runOf i s = .ok t) {sp : Space} {a : Nat}
    (hn : ¬ storesTo i s t sp a) : t.readByte sp a = s.readByte sp a := by
  by_cases hw : Part.bytes sp ∉ writes i
  · exact (runOf_onlyWrites h).2 (.bytes sp) hw a
  · rw [not_not] at hw
    cases i <;> simp only [writes, List.mem_cons, Part.bytes.injEq, reduceCtorEq, List.not_mem_nil, or_false, false_or] at hw
    case serialize => subst hw; exact runSerialize_tpkt hr h (Nat.le_of_not_lt hn)
    case pack => subst hw; exact (runOf_emitter_obuf (i := .pack) (.inl rfl) hr h).2 a hn
    case unpack => subst hw; exact (runOf_emitter_obuf (i := .unpack) (.inr (.inl rfl)) hr h).2 a hn
    case frame => subst hw; exact (runOf_emitter_obuf (i := .frame) (.inr (.inr rfl)) hr h).2 a hn
    case unframe =>
      obtain ⟨hext, htpkt⟩ := runUnframe_stored hr h
      rcases hw with rfl | rfl
      · exact hext a (Nat.le_of_not_lt hn)
      · exact htpkt a (Nat.le_of_not_lt hn)
    case compress =>
      obtain ⟨htpkt, hobuf⟩ := runCompress_stored hr h
      rcases hw with rfl | rfl
      · exact htpkt a (Nat.le_of_not_lt hn)
      · exact hobuf a (Nat.le_of_not_lt hn)
    case decompress =>
      obtain ⟨hext, htpkt, hobuf⟩ := runDecompress_stored hr h
      rcases hw with rfl | rfl | rfl
      · exact hext a (Nat.le_of_not_lt hn)
      · exact htpkt a (Nat.le_of_not_lt hn)
      · exact hobuf a (Nat.le_of_not_lt hn)

/-- Settles O60: the end of a command reads every byte as its pseudocode left it. -/
theorem storedBytes : Obligations.StoredBytes := by
  intro i s t hs hexec hf sp a hn
  obtain ⟨u, hu, rfl⟩ := exec_success hexec hf
  exact runOf_readByte hs.toReady hu hn

end Sys2Proof.Machine
end

section
/-! BUILD, GENCODES and PADCALC as commands on the whole tables (spec 42_build R162 to R170, 43_gencodes R186, 45_padcalc R222). -/

namespace Sys2Proof.Machine

/-! ### BUILD -/

theorem FreqTable.mem_counts_iff (t : FreqTable) (c : Byte) (f : Word) : (c, f) ∈ t.counts ↔ f = t.at c ∧ f ≠ 0#32 := by
  simp only [FreqTable.counts, List.mem_map, Prod.mk.injEq, mem_symbols_iff]
  constructor
  · rintro ⟨b, hb, rfl, rfl⟩
    exact ⟨rfl, hb⟩
  · rintro ⟨rfl, hf⟩
    exact ⟨c, hf, rfl, rfl⟩

/-- Settles O35: the tree is one that repeated merging builds of the leaves, and everything said of it is what merging keeps. -/
theorem buildResult : Obligations.BuildResult := by
  intro s a b hs hab ha hb
  have hsum : countSum s.freq.counts < 2 ^ 32 := by
    rw [FreqTable.countSum_counts]
    exact hs.toReady.countSum.trans (by decide)
  obtain ⟨tr, htree, hbuilt⟩ := buildTree_many s.sent (two_symbols hab ha hb) hsum
  have hncount : (BitVec.ofNat 32 tr.size).toNat = 2 * s.freq.symbols.length - 1 := by
    have hk := s.freq.symbols_length
    rw [BitVec.toNat_ofNat, hbuilt.size]
    omega
  refine ⟨_, tr, s.freq.symbols.length, exec_build_ok htree, rfl, rfl, rfl, hbuilt.merged, fun c f => ?leaves,
    hbuilt.leafValues.nodup_iff.mpr s.freq.symbols_nodup, hbuilt.freq, hbuilt.indices, hbuilt.index, hncount⟩
  case leaves => rw [hbuilt.leaves.mem_iff, FreqTable.mem_counts_iff]

/-! ### GENCODES -/

/-- Settles O37: the leaf paths are the nodes one can descend to that are leaves, and GENCODES records all of them. -/
theorem gencodesResult : Obligations.GencodesResult := by
  intro s tr ht hroot hnd hdepth
  have hlen : ∀ e ∈ tr.paths [], e.2.length ≤ maxLen := by
    intro ⟨b, p⟩ he
    obtain ⟨u, hu, hleaf, -⟩ := (mem_paths_nil tr b p).mp he
    exact hdepth p u hu hleaf
  obtain ⟨c, hwalk, hcodes⟩ := walk_ok hroot hlen hnd
  exact ⟨_, exec_ok (i := .gencodes) (runGencodes_ok ht hwalk), rfl, ht, fun b p => (hcodes b p).trans (mem_paths_nil tr b p),
    codesOf.valid_iff hcodes, walk_prefixFree hwalk⟩

/-! ### PADCALC -/

theorem runPadcalc_mismatch {s : State} {b : Byte} (h : tableMismatch s.freq s.code = some b) :
    runPadcalc s = raise .tableMismatch b.toNat := by
  simp only [runPadcalc, h]

/-- Presence in the one table and in the other, as Booleans and as propositions. -/
theorem present_eq_valid_iff (f : FreqTable) (c : CodeTable) (b : Byte) :
    f.present b = c.valid b ↔ (f.at b ≠ 0#32 ↔ c.valid b = true) := by
  rw [Bool.eq_iff_iff, FreqTable.present, bne_iff_ne]

/-- Settles O40: the symbol found is the least one in one table only. -/
theorem padcalcMismatch : Obligations.PadcalcMismatch := by
  intro s b hb hbelow
  have hfound : tableMismatch s.freq s.code = some b := (tableMismatch_some_iff _ _ b).mpr
    ⟨fun h => hb ((present_eq_valid_iff _ _ b).mp h), fun a ha => (present_eq_valid_iff _ _ a).mpr (hbelow a ha)⟩
  exact exec_faults (i := .padcalc) (runPadcalc_mismatch hfound)

end Sys2Proof.Machine
end

section
/-! The output stream of PACK and UNPACK: what UNPACK appends, and OutputOverflow (spec 47_unpack R240 to R242, 20_memory R72). -/

namespace Sys2Proof.Machine

/-! ### UNPACK -/

/-- UNPACK that gets its bytes out completes with the output longer by them and the input consumed. -/
theorem exec_unpack_ok {s : State} (h : Ready s) {root : Tree} (ht : s.tree = some root) {bs : List Byte}
    (hfit : s.outPort.fits bs.length)
    (hp : unpackStream root s.pad s.icur.toNat s.input s.outPort = .ok (s.outPort.extend bs)) :
    ∃ t, exec .unpack s = .next t ∧ t.done = true ∧ t.tree = some root ∧ t.icur = s.consumedIcur ∧ t.output = s.output ++ bs
      ∧ t.olen.toNat = s.olen.toNat + bs.length := by
  obtain ⟨hout, holen⟩ := output_extend hfit
  exact ⟨_, exec_ok (i := .unpack) (runUnpack_ok h ht hp), rfl, ht, rfl, hout, holen⟩

/-- UNPACK succeeds on leaf paths one after the other and on nothing else. -/
theorem exec_unpack_success {s t : State} (h : Ready s) {root : Tree} (ht : s.tree = some root) (hexec : exec .unpack s = .next t)
    (hf : t.fault = false) : ∃ es : List (Byte × BitString), (∀ e ∈ es, e ∈ root.paths [])
      ∧ payload s.pad.toNat s.input = es.flatMap Prod.snd ∧ t.output = s.output ++ es.map Prod.fst := by
  obtain ⟨u, hu, rfl⟩ := exec_success hexec hf
  obtain ⟨root', o, ht', ho, rfl⟩ := runUnpack_eq_ok hu
  cases ht.symm.trans ht'
  rcases unpackStream_cases root s.pad s.icur.toNat s.input s.outPort with
    ⟨es, o', hok, hgrew, hes, hbits, _⟩ | ⟨_, _, he⟩ | ⟨_, _, _, he⟩ | ⟨_, _, _, _, _, he⟩ | ⟨_, he, _⟩
  · cases ho.symm.trans hok
    obtain ⟨hfit, rfl⟩ := h.grew hgrew
    exact ⟨es, hes, hbits, (output_extend hfit).1⟩
  all_goals cases ho.symm.trans he

/-- Settles O48, from the two lemmas on UNPACK. -/
theorem unpackResult : Obligations.UnpackResult := by
  intro s root hs ht
  refine ⟨fun es hes hroot hbits hpad hroom => ?ok, fun t hexec hf => exec_unpack_success hs.toReady ht hexec hf⟩
  case ok =>
    have hfit : s.outPort.fits es.length := hs.toReady.outPort_fits hroom
    have hstream := unpackStream_symbols (off := s.icur.toNat) hes hroot hpad hbits hfit
    rw [← List.length_map (f := Prod.fst)] at hfit
    obtain ⟨t, hexec, hdone, htree, hicur, hout, holen⟩ := exec_unpack_ok hs.toReady ht hfit hstream
    exact ⟨t, hexec, hdone, htree, hicur, hout, by rw [holen, List.length_map]⟩

/-! ### OutputOverflow (R72) -/

theorem OutPort.lookupCell_extend_singleton_ne (o : OutPort) (v : Byte) {a : Nat} (h : a ≠ o.len.toNat) :
    lookupCell (o.extend [v]).cells a = lookupCell o.cells a :=
  lookupCell_storeCell_ne o.cells v h

/-- `emit` at a length within the capacity: OutputOverflow at the capacity itself, otherwise the one byte is written. -/
theorem emit_spec (v : Byte) {o : OutPort} (hlen : o.len.toNat ≤ o.cap) (hcap : o.cap ≤ 2 ^ 25) :
    (o.len.toNat = o.cap → emit v o = .error (.raise .outputOverflow o.len))
      ∧ (o.len.toNat ≠ o.cap → ∃ o', emit v o = .ok o' ∧ o'.cap = o.cap ∧ o'.len.toNat = o.len.toNat + 1
        ∧ lookupCell o'.cells o.len.toNat = some v ∧ ∀ a, a ≠ o.len.toNat → lookupCell o'.cells a = lookupCell o.cells a) := by
  refine ⟨fun hfull => emit_full v (Nat.le_of_eq hfull.symm), fun hroom => ?ok⟩
  case ok =>
    have hlt : o.len.toNat < o.cap := Nat.lt_of_le_of_ne hlen hroom
    exact ⟨o.extend [v], emit_ok_of_lt v hlt, rfl, OutPort.extend_len (bs := [v]) ⟨hlt, hcap⟩,
      OutPort.lookupCell_extend_singleton o v, fun a => OutPort.lookupCell_extend_singleton_ne o v⟩

/-- PACK ends with OutputOverflow(OBUF_CAP) when the output stream overflows. -/
theorem pack_faults_overflow {s : State} (h : Ready s)
    (ho : ∃ e, packStream s.code s.pad s.icur.toNat s.input s.outPort = .error e ∧ s.outPort.Overflows e) :
    faults .pack s .outputOverflow s.cfg.obufCap := by
  obtain ⟨e, he, hover⟩ := ho
  rw [h.overflow hover] at he
  exact pack_faults_of_packStream h he

theorem unpack_faults_overflow {s : State} (h : Ready s) {root : Tree} (ht : s.tree = some root)
    (ho : ∃ e, unpackStream root s.pad s.icur.toNat s.input s.outPort = .error e ∧ s.outPort.Overflows e) :
    faults .unpack s .outputOverflow s.cfg.obufCap := by
  obtain ⟨e, he, hover⟩ := ho
  rw [h.overflow hover] at he
  exact unpack_faults_of_unpackStream h ht he

/-- Settles O50: `emit` by its two cases; the two commands by the overflow of their streams. -/
theorem outputOverflow : Obligations.OutputOverflow := by
  refine ⟨fun v o hlen hcap => emit_spec v hlen hcap, fun s hs => ?commands⟩
  have h : Ready s := hs.toReady
  have hcap : s.outPort.cap ≤ 2 ^ 25 := h.bounds.2.1.2
  refine ⟨fun before after hinput hcoded hroom => ?packSome, fun hcoded hpad hroom => ?packAll,
    fun root es after ht hroot hes hbits hroom => ?unpack⟩
  case packSome => exact pack_faults_overflow h (by rw [hinput]; exact packStream_overflow hcap h.olen hcoded hroom)
  case packAll => exact pack_faults_overflow h (packStream_overflow_all hcap h.olen hcoded hpad hroom)
  case unpack => exact unpack_faults_overflow h ht (unpackStream_overflow hes hroot hbits hcap h.olen hroom)

end Sys2Proof.Machine
end

section
/-! FRAME and UNFRAME as commands: the header written, taken apart, and refused (spec 48_container R260 to R264). -/

namespace Sys2Proof.Machine

/-! ### FRAME -/

theorem State.header_length (s : State) :
    (containerHeader s.pad.toNat s.extension s.packet).length = 12 + s.extlen.toNat + s.tplen.toNat := by
  rw [containerHeader_length, State.extension, State.bytesFrom_length, packet_length]

/-- FRAME with room completes with the output longer by the header. -/
theorem exec_frame_ok {s : State} (h : Ready s) (hroom : s.room (12 + s.extlen.toNat + s.tplen.toNat)) :
    ∃ t, exec .frame s = .next t ∧ t.done = true ∧ t.olen.toNat = s.olen.toNat + (12 + s.extlen.toNat + s.tplen.toNat)
      ∧ t.output = s.output ++ containerHeader s.pad.toNat s.extension s.packet := by
  have hfit := h.outPort_fits hroom
  rw [← State.header_length] at hfit
  obtain ⟨hout, holen⟩ := output_extend hfit
  exact ⟨_, exec_ok (i := .frame) (runFrame_ok h hroom), rfl, by rw [← State.header_length]; exact holen, hout⟩

/-- FRAME without room: the bytes cannot all be emitted, and the stream overflows. -/
theorem frame_faults_overflow {s : State} (h : Ready s) (hroom : ¬ s.room (12 + s.extlen.toNat + s.tplen.toNat)) :
    faults .frame s .outputOverflow s.cfg.obufCap := by
  refine exec_faults (i := .frame) ?_
  cases hemit : emitAll (containerHeader s.pad.toNat s.extension s.packet) s.outPort with
  | ok o =>
    obtain ⟨hfit, -⟩ := h.grew (emitAll_eq_ok hemit)
    rw [State.header_length] at hfit
    exact absurd hfit.1 hroom
  | error e =>
    show runFrame s = _
    rw [h.frame, hemit, h.overflow (emitAll_overflows hemit)]
    rfl

/-- The header as the fields of R115 one after the other. -/
theorem State.header_eq (s : State) : containerHeader s.pad.toNat s.extension s.packet
    = bigEndian s.pad.toNat ++ bigEndian s.extlen.toNat ++ s.extension ++ bigEndian s.tplen.toNat ++ s.packet := by
  have hext : s.extension.length = s.extlen.toNat := State.bytesFrom_length _ _ _ _
  rw [containerHeader, hext, packet_length]

/-- Settles O51, from the two lemmas on FRAME. -/
theorem frameResult : Obligations.FrameResult := by
  refine fun s hs => ⟨frame_faults_overflow hs.toReady, fun hroom => ?ok⟩
  case ok =>
    obtain ⟨t, hexec, hdone, holen, hout⟩ := exec_frame_ok hs.toReady hroom
    refine ⟨t, hexec, hdone, holen, ?_⟩
    rw [hout, State.header_eq]
    simp only [List.append_assoc]

/-! ### UNFRAME -/

/-- UNFRAME that reads a header completes with its parts in the state and ICUR at its end. -/
theorem exec_unframe_ok {s : State} (h : Ready s) {hd : Header} (hread : readHeader s = .ok hd) {rest : List Byte}
    (hin : s.input = containerHeader hd.pad.toNat hd.ext hd.packet ++ rest) :
    ∃ t, exec .unframe s = .next t ∧ t.done = true ∧ t.tree = s.tree ∧ t.pad = hd.pad ∧ t.extension = hd.ext
      ∧ t.extlen.toNat = hd.ext.length ∧ t.packet = hd.packet ∧ t.tplen.toNat = hd.packet.length
      ∧ t.icur.toNat = s.icur.toNat + (12 + hd.ext.length + hd.packet.length) ∧ t.input = rest := by
  obtain ⟨hext, hpacket, -⟩ := h.unframed hread
  obtain ⟨hextlen, htplen, hicur, hextension, hpkt⟩ := h.unframed_lengths hread
  exact ⟨_, exec_ok (i := .unframe) (runUnframe_ok hread hext hpacket), rfl, s.unframed_tree hd, s.unframed_pad hd, hextension, hextlen,
    hpkt, htplen, hicur, h.unframed_input hread hin⟩

/-- Settles O52: the input begins with the header, and UNFRAME stores its parts and moves ICUR to its end. -/
theorem unframeResult : Obligations.UnframeResult := by
  intro s p ext packet rest hs hp hext hpacket hinput
  have hpad : (BitVec.ofNat 3 p).toNat = p := by rw [BitVec.toNat_ofNat, Nat.mod_eq_of_lt (by omega)]
  have hin : s.input = containerHeader (BitVec.ofNat 3 p).toNat ext packet ++ rest := by rw [hpad, hinput]; rfl
  obtain ⟨t, hexec, hdone, htree, hp, hparts⟩ := exec_unframe_ok hs.toReady (hs.toReady.readHeader hin hext hpacket) hin
  exact ⟨t, hexec, hdone, htree, by rw [hp, hpad], hparts⟩

/-- UNFRAME that succeeds has found a header at the beginning of the unread input, and left its parts in the state. -/
theorem exec_unframe_success {s t : State} (hs : s.ready) (hexec : exec .unframe s = .next t) (hf : t.fault = false) :
    t.ready ∧ t.olen = s.olen ∧ s.input = containerHeader t.pad.toNat t.extension t.packet ++ t.input := by
  have h : Ready s := hs.toReady
  refine ⟨exec_ready hs hexec hf, ?_⟩
  obtain ⟨u, hu, rfl⟩ := exec_success hexec hf
  obtain ⟨hd, hread, rfl⟩ := runUnframe_eq_ok hu
  obtain ⟨-, -, -, ⟨rest, hin⟩, -⟩ := h.unframed hread
  obtain ⟨-, -, -, hextension, hpkt⟩ := h.unframed_lengths hread
  simp only [State.complete_extension, State.complete_packet, State.complete_input, hextension, hpkt, h.unframed_input hread hin]
  exact ⟨s.unframed_olen hd, hin⟩

/-- Settles O54: what UNFRAME leaves is what FRAME writes, into an empty output stream. -/
theorem unframeThenFrame : Obligations.UnframeThenFrame := by
  intro s t hs hexec hf holen hcap
  obtain ⟨hready, holen', hin⟩ := exec_unframe_success hs hexec hf
  have hempty : t.olen = 0#32 := holen'.trans holen
  have hcfg : t.cfg = s.cfg := (frameAll .unframe s t hexec hf).1.1
  have hlen := congrArg List.length hin
  rw [List.length_append, State.header_length] at hlen
  have hroom : t.room (12 + t.extlen.toNat + t.tplen.toNat) := by
    rw [State.room, hempty, hcfg]
    exact (Nat.zero_add _).le.trans (by omega)
  obtain ⟨u, hframe, hdone, -, hout⟩ := exec_frame_ok hready.toReady hroom
  exact ⟨u, hframe, hdone, by rw [hout, State.output_nil hempty, List.nil_append, hin]⟩

/-! ### The checks of UNFRAME (R262, R263), on the unread input as a list -/

/-- The packet length and the packet, the last part of a header, at the bytes after the extension (R262). -/
def packetLengthAt (tpktCap : Nat) (bytes : List Byte) : Except Stop Nat :=
  match raising 2 (b2i (bytes.take 4)) with
  | .error e => .error e
  | .ok t =>
    match lengthOf t with
    | none => raise .badHeader 2
    | some n =>
      if tpktCap < n then raise .nodeCapacity n
      else if bytes.length - 4 < n then raise .badHeader 2
      else .ok n

section
variable {tpktCap n : Nat}

theorem packetLengthAt_short {bytes : List Byte} (h : bytes.length < 4) : packetLengthAt tpktCap bytes = raise .wrongSizeInteger 2 := by
  have hfield : raising 2 (b2i (bytes.take 4)) = raise .wrongSizeInteger 2 := field_short (k := 0) h
  simp only [packetLengthAt, hfield, raise]

theorem field_bigEndian (f n : Nat) (tail : List Byte) :
    raising f (b2i ((bigEndian n ++ tail).take 4)) = .ok (BitVec.ofNat 32 n) := by
  rw [List.take_left' (bigEndian_length n), b2i_bigEndian, raising_ok]

theorem packetLengthAt_of_none {bytes : List Byte} {t : Word} (hfield : raising 2 (b2i (bytes.take 4)) = .ok t)
    (hlength : lengthOf t = none) : packetLengthAt tpktCap bytes = raise .badHeader 2 := by
  simp only [packetLengthAt, hfield, hlength]

theorem packetLengthAt_of_some {bytes : List Byte} {t : Word} (hfield : raising 2 (b2i (bytes.take 4)) = .ok t)
    (hlength : lengthOf t = some n) : packetLengthAt tpktCap bytes
      = if tpktCap < n then raise .nodeCapacity n else if bytes.length - 4 < n then raise .badHeader 2 else .ok n := by
  simp only [packetLengthAt, hfield, hlength]

theorem packetLengthAt_negative (hn : 2 ^ 31 ≤ n) (hn' : n < 2 ^ 32) (tail : List Byte) :
    packetLengthAt tpktCap (bigEndian n ++ tail) = raise .badHeader 2 :=
  packetLengthAt_of_none (field_bigEndian 2 n tail) (lengthOf_large hn hn')

theorem packetLengthAt_large (hn : n < 2 ^ 31) (hcap : tpktCap < n) (tail : List Byte) :
    packetLengthAt tpktCap (bigEndian n ++ tail) = raise .nodeCapacity n :=
  (packetLengthAt_of_some (field_bigEndian 2 n tail) (lengthOf_small hn)).trans (if_pos hcap)

theorem packetLengthAt_overrun (hn : n < 2 ^ 31) (hcap : n ≤ tpktCap) {tail : List Byte} (htail : tail.length < n) :
    packetLengthAt tpktCap (bigEndian n ++ tail) = raise .badHeader 2 := by
  have hlen : (bigEndian n ++ tail).length - 4 < n := by
    rw [List.length_append, bigEndian_length]
    omega
  rw [packetLengthAt_of_some (field_bigEndian 2 n tail) (lengthOf_small hn), if_neg (Nat.not_lt.mpr hcap), if_pos hlen]

end

section
variable {extCap tpktCap : Nat}

theorem headerOf_short {input : List Byte} (h : input.length < 4) : headerOf extCap tpktCap input = raise .wrongSizeInteger 0 := by
  have hfield : raising 0 (b2i (input.take 4)) = raise .wrongSizeInteger 0 := field_short (k := 0) h
  simp only [headerOf, hfield, raise]

theorem headerOf_badPadding {p : Nat} (hp : 8 ≤ p) (hp' : p < 2 ^ 32) (rest : List Byte) :
    headerOf extCap tpktCap (bigEndian p ++ rest) = raise .badPadding p := by
  have hn : (BitVec.ofNat 32 p).toNat = p := by rw [BitVec.toNat_ofNat, Nat.mod_eq_of_lt hp']
  simp only [headerOf, field0, if_pos (padding_large hp hp'), hn]

variable {p : Nat} (hp : p ≤ 7)
include hp

theorem headerOf_short_extLength {rest : List Byte} (h : rest.length < 4) :
    headerOf extCap tpktCap (bigEndian p ++ rest) = raise .wrongSizeInteger 1 := by
  have hfield : raising 1 (b2i (((bigEndian p ++ rest).drop 4).take 4)) = raise .wrongSizeInteger 1 :=
    field_short (by rw [List.length_append, bigEndian_length]; omega)
  simp only [headerOf, field0, if_neg (padding_small (Nat.lt_succ_of_le hp)), hfield, raise]

/-- A negative extension length, one over EXT_CAP, and one past the end of the stream are all BadHeader(1). -/
theorem headerOf_badExtLength {e : Nat} (he : e < 2 ^ 32) {rest : List Byte} (h : 2 ^ 31 ≤ e ∨ extCap < e ∨ rest.length < e) :
    headerOf extCap tpktCap (bigEndian p ++ bigEndian e ++ rest) = raise .badHeader 1 := by
  have hfield0 : raising 0 (b2i ((bigEndian p ++ bigEndian e ++ rest).take 4)) = .ok (BitVec.ofNat 32 p) := by
    rw [List.append_assoc, field0]
  have hlen : (bigEndian p ++ bigEndian e ++ rest).length - 8 = rest.length := by
    simp only [List.length_append, bigEndian_length]
    omega
  simp only [headerOf, hfield0, if_neg (padding_small (Nat.lt_succ_of_le hp)), field1]
  rcases Nat.lt_or_ge e (2 ^ 31) with hsmall | hlarge
  · simp only [lengthOf_small hsmall, hlen]
    by_cases hcap : extCap < e
    · rw [if_pos hcap]
    · rw [if_neg hcap, if_pos (by omega)]
  · simp only [lengthOf_large hlarge he]

/-- With the first two fields in order and the extension there, a fault at the packet length is the fault of the header. -/
theorem headerOf_of_packetLengthAt_error {ext : List Byte} (hext : ext.length ≤ extCap) (hsmall : ext.length < 2 ^ 31)
    {rest : List Byte} {e : Stop} (h : packetLengthAt tpktCap rest = .error e) :
    headerOf extCap tpktCap (bigEndian p ++ bigEndian ext.length ++ ext ++ rest) = .error e := by
  have hfield0 : raising 0 (b2i ((bigEndian p ++ bigEndian ext.length ++ ext ++ rest).take 4)) = .ok (BitVec.ofNat 32 p) := by
    rw [List.append_assoc, List.append_assoc, field0]
  have hfield1 : raising 1 (b2i (((bigEndian p ++ bigEndian ext.length ++ ext ++ rest).drop 4).take 4))
      = .ok (BitVec.ofNat 32 ext.length) := by rw [List.append_assoc _ ext, field1]
  have hlen : (bigEndian p ++ bigEndian ext.length ++ ext ++ rest).length = 8 + ext.length + rest.length := by
    simp only [List.length_append, bigEndian_length]
  have hdrop : (bigEndian p ++ bigEndian ext.length ++ ext ++ rest).drop (8 + ext.length) = rest :=
    List.drop_left' (by simp only [List.length_append, bigEndian_length])
  have hleft : 8 + ext.length + rest.length - (12 + ext.length) = rest.length - 4 := by omega
  simp only [headerOf, hfield0, if_neg (padding_small (Nat.lt_succ_of_le hp)), hfield1, lengthOf_small hsmall, hlen, hdrop, hleft]
  rw [if_neg (Nat.not_lt.mpr hext), if_neg (by omega)]
  unfold packetLengthAt at h
  cases hfield : raising 2 (b2i (rest.take 4)) with
  | error e' =>
    simp only [hfield] at h ⊢
    exact congrArg _ (Except.error.inj h)
  | ok t =>
    simp only [hfield] at h ⊢
    cases hlength : lengthOf t with
    | none =>
      simp only [hlength] at h ⊢
      exact congrArg _ (Except.error.inj h)
    | some n =>
      simp only [hlength] at h ⊢
      split_ifs at h ⊢ <;> exact congrArg _ (Except.error.inj h)

end

/-- Settles O53: the checks in their order, each a fault of the header at the unread input. -/
theorem unframeFaults : Obligations.UnframeFaults := by
  intro s hs
  have h : Ready s := hs.toReady
  have hfault {c : Cause} {info : Nat} {input : List Byte} (hin : s.input = input)
      (he : headerOf s.cfg.extCap s.cfg.tpktCap input = raise c info) : faults .unframe s c info :=
    exec_faults (i := .unframe) (runUnframe_error h (hin ▸ he))
  refine ⟨fun hshort => hfault rfl (headerOf_short hshort), fun p rest hp32 hin => ⟨fun hp => hfault hin (headerOf_badPadding hp hp32 rest),
    fun hp => ⟨fun hshort => hfault hin (headerOf_short_extLength hp hshort), fun e rest' he32 hrest => ?_⟩⟩⟩
  subst hrest
  rw [← List.append_assoc] at hin
  refine ⟨fun hbad => hfault hin (headerOf_badExtLength hp he32 hbad), fun he ext rest'' hlen hrest' => ?_⟩
  subst hlen hrest'
  rw [← List.append_assoc] at hin
  have hsmall : ext.length < 2 ^ 31 := by have := h.bounds.2.2.1; omega
  have hpacket {c : Cause} {info : Nat} (hat : packetLengthAt s.cfg.tpktCap rest'' = raise c info) : faults .unframe s c info :=
    hfault hin (headerOf_of_packetLengthAt_error hp he hsmall hat)
  refine ⟨fun hshort => hpacket (packetLengthAt_short hshort), fun n tail hn32 hrest => ?_⟩
  subst hrest
  have hcap : s.cfg.tpktCap < 2 ^ 31 := by have := h.bounds.2.2.2.2; simp only [Config.tpktCap]; omega
  exact ⟨fun hn => hpacket (packetLengthAt_negative hn hn32 tail), fun hn hlarge => hpacket (packetLengthAt_large hn hlarge tail),
    fun hn hover => hpacket (packetLengthAt_overrun (hn.trans_lt hcap) hn hover)⟩

end Sys2Proof.Machine
end
